-- ==== Sys2Proof/Word.lean ====
section
/-! DEFINITION. The word types of BDM-PE: the bit vectors the spec treats as bits, and bus words as bytes. -/

namespace Sys2Proof

/-- One byte: a `CTRL8` or `STAT8` value (R94, R95), a stream byte, a flash command code (R107). -/
abbrev Byte := BitVec 8

/-- A 16-bit command word of the serial protocol (R90). -/
abbrev Word16 := BitVec 16

/-- The 32-bit accumulator of a serial exchange and the frame it returns (R21, R91, R134). -/
abbrev Word32 := BitVec 32

/-- The operation word `OP72` (R99). -/
abbrev Op72 := BitVec 72

/-- An `8n`-bit value of target memory as its `n` bytes, most significant byte first, which is also the order
of the addresses they lie at (R68). -/
abbrev BusWord := List Byte

end Sys2Proof
end

