-- ==== Sys2Proof/Syntax.lean ====
section
/-! DEFINITION. The operations: one constructor per row of spec/opcode_table.json, with the operands R100 gives the row.
Operands are unsigned numbers (R102) and are natural numbers here, as the spec computes with them (R78, R150), but for the
command word of SERIAL_CLOCK, which is 16 bits. The data buffer of R99 is not part of the word: it comes with the call
(Machine/State.lean, `Request`). -/

namespace Sys2Proof

/-- One operation of the command surface, or of a per-area capability table (R100). -/
inductive Instr where
  | init
  | deinit
  | resetChip
  | restartChip
  | stopChip
  | stepChip
  | getStatus
  | releaseChip
  | speed (base : Nat)
  | senseCable (flag : Nat)
  | debugLevel (level : Nat)
  | setLed (flag : Nat)
  | serialClock (cmd : Word16) (delayBits : Nat)
  | resynchronize
  | streamWrite (count : Nat)
  | streamRead (count : Nat)
  | openSession (variant : Nat)
  | closeSession
  | registerArea (hint : Nat) (base : Nat)
  | writeMemory (address : Nat) (length : Nat)
  | eraseArea (address : Nat) (whole : Nat)
  | eraseWait (address : Nat)
  | blankCheck (address : Nat)
  | ramWrite (address : Nat) (count : Nat)
  | amdProbe (address : Nat)
  | amdProgram (address : Nat) (count : Nat)
  | amdEraseSector (address : Nat)
  | amdEraseAll
  | amdEraseWait
  | amdBlankCheck (address : Nat)
  | cfmProbe (address : Nat)
  | cfmProgram (address : Nat) (count : Nat)
  | cfmEraseSector (address : Nat)
  | cfmEraseAll
  | cfmEraseWait
  | cfmBlankCheck (address : Nat)
  | intelProbe (address : Nat)
  | intelProgram (address : Nat) (count : Nat)
  | intelEraseSector (address : Nat)
  | intelEraseAll
  | intelEraseWait
  | intelBlankCheck (address : Nat)
  deriving DecidableEq, Repr

end Sys2Proof
end

