-- ==== Sys2Proof/WellFormed.lean ====
section
/-! DEFINITION. When a term of `Instr` is one an operation word can carry: each operand fits its 32-bit field (R99). A value
a rule refuses at run time (`delayBits > 16`, a bad variant or hint, an odd stream count) is well-formed: refusing it is the
operation's own meaning. -/

namespace Sys2Proof

/-- The operand fits a 32-bit field of `OP72` (R99). -/
def fits (operand : Nat) : Bool := decide (operand < 2 ^ 32)

/-- Every operand of the operation fits its field. The command word of SERIAL_CLOCK is 16 bits by its type (R102). -/
def Instr.wellFormed : Instr → Bool
  | .init => true
  | .deinit => true
  | .resetChip => true
  | .restartChip => true
  | .stopChip => true
  | .stepChip => true
  | .getStatus => true
  | .releaseChip => true
  | .speed base => fits base
  | .senseCable flag => fits flag
  | .debugLevel level => fits level
  | .setLed flag => fits flag
  | .serialClock _ delayBits => fits delayBits
  | .resynchronize => true
  | .streamWrite count => fits count
  | .streamRead count => fits count
  | .openSession variant => fits variant
  | .closeSession => true
  | .registerArea hint base => fits hint && fits base
  | .writeMemory address length => fits address && fits length
  | .eraseArea address whole => fits address && fits whole
  | .eraseWait address => fits address
  | .blankCheck address => fits address
  | .ramWrite address count => fits address && fits count
  | .amdProbe address => fits address
  | .amdProgram address count => fits address && fits count
  | .amdEraseSector address => fits address
  | .amdEraseAll => true
  | .amdEraseWait => true
  | .amdBlankCheck address => fits address
  | .cfmProbe address => fits address
  | .cfmProgram address count => fits address && fits count
  | .cfmEraseSector address => fits address
  | .cfmEraseAll => true
  | .cfmEraseWait => true
  | .cfmBlankCheck address => fits address
  | .intelProbe address => fits address
  | .intelProgram address count => fits address && fits count
  | .intelEraseSector address => fits address
  | .intelEraseAll => true
  | .intelEraseWait => true
  | .intelBlankCheck address => fits address

end Sys2Proof
end

