-- ==== Sys2Proof/Decode.lean ====
section
/-! DEFINITION. The operation word `OP72` (R99 to R102): its fields, the decoder, and the encoder after it. -/

namespace Sys2Proof

/-- Why a word decodes to no operation (R101). -/
inductive DecodeError where
  | illegalSelector (op : Byte)
  deriving DecidableEq, Repr

/-- The selector field, bits 71 to 64 (R99). -/
def Op72.selector (w : Op72) : Byte := w.extractLsb' 64 8

/-- The first operand field, bits 63 to 32, unsigned (R99, R102). -/
def Op72.arg0 (w : Op72) : Nat := (w.extractLsb' 32 32).toNat

/-- The second operand field, bits 31 to 0, unsigned (R99, R102). -/
def Op72.arg1 (w : Op72) : Nat := (w.extractLsb' 0 32).toNat

/-- The operation of a selector and its two operand fields: the table of R100. Unused operand bits are dropped here (R99), and
SERIAL_CLOCK takes `arg0[15:0]` (R102). -/
def assemble (op : Byte) (arg0 arg1 : Nat) : Except DecodeError Instr :=
  match op with
  | 0x00#8 => .ok .init
  | 0x01#8 => .ok .deinit
  | 0x02#8 => .ok .resetChip
  | 0x03#8 => .ok .restartChip
  | 0x04#8 => .ok .stopChip
  | 0x05#8 => .ok .stepChip
  | 0x06#8 => .ok .getStatus
  | 0x07#8 => .ok .releaseChip
  | 0x08#8 => .ok (.speed arg0)
  | 0x09#8 => .ok (.senseCable arg0)
  | 0x0A#8 => .ok (.debugLevel arg0)
  | 0x0B#8 => .ok (.setLed arg0)
  | 0x10#8 => .ok (.serialClock (BitVec.ofNat 16 arg0) arg1)
  | 0x11#8 => .ok .resynchronize
  | 0x12#8 => .ok (.streamWrite arg0)
  | 0x13#8 => .ok (.streamRead arg0)
  | 0x1E#8 => .ok (.openSession arg0)
  | 0x1F#8 => .ok .closeSession
  | 0x20#8 => .ok (.registerArea arg0 arg1)
  | 0x21#8 => .ok (.writeMemory arg0 arg1)
  | 0x22#8 => .ok (.eraseArea arg0 arg1)
  | 0x23#8 => .ok (.eraseWait arg0)
  | 0x24#8 => .ok (.blankCheck arg0)
  | 0x30#8 => .ok (.ramWrite arg0 arg1)
  | 0x40#8 => .ok (.amdProbe arg0)
  | 0x41#8 => .ok (.amdProgram arg0 arg1)
  | 0x42#8 => .ok (.amdEraseSector arg0)
  | 0x43#8 => .ok .amdEraseAll
  | 0x44#8 => .ok .amdEraseWait
  | 0x45#8 => .ok (.amdBlankCheck arg0)
  | 0x50#8 => .ok (.cfmProbe arg0)
  | 0x51#8 => .ok (.cfmProgram arg0 arg1)
  | 0x52#8 => .ok (.cfmEraseSector arg0)
  | 0x53#8 => .ok .cfmEraseAll
  | 0x54#8 => .ok .cfmEraseWait
  | 0x55#8 => .ok (.cfmBlankCheck arg0)
  | 0x60#8 => .ok (.intelProbe arg0)
  | 0x61#8 => .ok (.intelProgram arg0 arg1)
  | 0x62#8 => .ok (.intelEraseSector arg0)
  | 0x63#8 => .ok .intelEraseAll
  | 0x64#8 => .ok .intelEraseWait
  | 0x65#8 => .ok (.intelBlankCheck arg0)
  | op => .error (.illegalSelector op)

/-- The decoder: total on every 72-bit word, refusing a selector outside R100 by name (R101). -/
def decode (w : Op72) : Except DecodeError Instr :=
  assemble (Op72.selector w) (Op72.arg0 w) (Op72.arg1 w)

/-- The internal selectors, `0x30` to `0x65` (R100): reached only through the registry's dispatch. -/
def internalSelector (op : Byte) : Bool := decide (0x30 ≤ op.toNat) && decide (op.toNat ≤ 0x65)

/-- The word of an opcode-table row's bits, numbered as the table numbers them: bit 0 is bit 0 of the one `OP72` word. -/
def wordOfBits (nbits w : Nat) : Op72 := BitVec.ofNat 72 (w % 2 ^ nbits)

/-- What the decoder reads from the bits of an opcode-table row. -/
def decodeTableWord (nbits w : Nat) : Option Instr :=
  match decode (wordOfBits nbits w) with
  | .ok i => some i
  | .error _ => none

/-- The selector of an operation (R100). -/
def Instr.selector : Instr → Byte
  | .init => 0x00#8
  | .deinit => 0x01#8
  | .resetChip => 0x02#8
  | .restartChip => 0x03#8
  | .stopChip => 0x04#8
  | .stepChip => 0x05#8
  | .getStatus => 0x06#8
  | .releaseChip => 0x07#8
  | .speed _ => 0x08#8
  | .senseCable _ => 0x09#8
  | .debugLevel _ => 0x0A#8
  | .setLed _ => 0x0B#8
  | .serialClock _ _ => 0x10#8
  | .resynchronize => 0x11#8
  | .streamWrite _ => 0x12#8
  | .streamRead _ => 0x13#8
  | .openSession _ => 0x1E#8
  | .closeSession => 0x1F#8
  | .registerArea _ _ => 0x20#8
  | .writeMemory _ _ => 0x21#8
  | .eraseArea _ _ => 0x22#8
  | .eraseWait _ => 0x23#8
  | .blankCheck _ => 0x24#8
  | .ramWrite _ _ => 0x30#8
  | .amdProbe _ => 0x40#8
  | .amdProgram _ _ => 0x41#8
  | .amdEraseSector _ => 0x42#8
  | .amdEraseAll => 0x43#8
  | .amdEraseWait => 0x44#8
  | .amdBlankCheck _ => 0x45#8
  | .cfmProbe _ => 0x50#8
  | .cfmProgram _ _ => 0x51#8
  | .cfmEraseSector _ => 0x52#8
  | .cfmEraseAll => 0x53#8
  | .cfmEraseWait => 0x54#8
  | .cfmBlankCheck _ => 0x55#8
  | .intelProbe _ => 0x60#8
  | .intelProgram _ _ => 0x61#8
  | .intelEraseSector _ => 0x62#8
  | .intelEraseAll => 0x63#8
  | .intelEraseWait => 0x64#8
  | .intelBlankCheck _ => 0x65#8

/-- The two operand fields of an operation (R100); 0 where the table gives the operation no operand. -/
def Instr.operands : Instr → Nat × Nat
  | .init => (0, 0)
  | .deinit => (0, 0)
  | .resetChip => (0, 0)
  | .restartChip => (0, 0)
  | .stopChip => (0, 0)
  | .stepChip => (0, 0)
  | .getStatus => (0, 0)
  | .releaseChip => (0, 0)
  | .speed base => (base, 0)
  | .senseCable flag => (flag, 0)
  | .debugLevel level => (level, 0)
  | .setLed flag => (flag, 0)
  | .serialClock cmd delayBits => (cmd.toNat, delayBits)
  | .resynchronize => (0, 0)
  | .streamWrite count => (count, 0)
  | .streamRead count => (count, 0)
  | .openSession variant => (variant, 0)
  | .closeSession => (0, 0)
  | .registerArea hint base => (hint, base)
  | .writeMemory address length => (address, length)
  | .eraseArea address whole => (address, whole)
  | .eraseWait address => (address, 0)
  | .blankCheck address => (address, 0)
  | .ramWrite address count => (address, count)
  | .amdProbe address => (address, 0)
  | .amdProgram address count => (address, count)
  | .amdEraseSector address => (address, 0)
  | .amdEraseAll => (0, 0)
  | .amdEraseWait => (0, 0)
  | .amdBlankCheck address => (address, 0)
  | .cfmProbe address => (address, 0)
  | .cfmProgram address count => (address, count)
  | .cfmEraseSector address => (address, 0)
  | .cfmEraseAll => (0, 0)
  | .cfmEraseWait => (0, 0)
  | .cfmBlankCheck address => (address, 0)
  | .intelProbe address => (address, 0)
  | .intelProgram address count => (address, count)
  | .intelEraseSector address => (address, 0)
  | .intelEraseAll => (0, 0)
  | .intelEraseWait => (0, 0)
  | .intelBlankCheck address => (address, 0)

/-- A word from its three fields (R99). -/
def packWord (op : Byte) (arg0 arg1 : Nat) : Op72 := op ++ (BitVec.ofNat 32 arg0 ++ BitVec.ofNat 32 arg1)

/-- The encoder: the word of an operation, unused operand bits zero (R99, R100). -/
def encode (i : Instr) : Op72 := packWord i.selector i.operands.1 i.operands.2

end Sys2Proof
end

