-- ==== Sys2Proof/Config.lean ====
section
/-! DEFINITION. What an implementation fixes: the parameter types of R8, the chip descriptors and tables they hold, the
events and answers exchanged with the environment (R11, R40), and the free values, which have no body. The default
values of the parameters stand in Machine/Params.lean. -/

namespace Sys2Proof

/-- The variant tag of a session (R2, R23). -/
inductive Variant where
  | pd
  | icd
  | coldFire
  deriving DecidableEq, Repr

/-- The two line encodings (R94, R137). -/
inductive Encoding where
  | direct
  | dedicated
  deriving DecidableEq, Repr

/-- A line level (R10). -/
inductive Level where
  | low
  | high
  deriving DecidableEq, Repr

/-- The flash families, with the tags 1, 2, 3 of R106. -/
inductive Family where
  | amd
  | cfm
  | intel
  deriving DecidableEq, Repr

/-- The protocol-level fault kinds (R341): also what the memory primitive may return. `port` is never raised by the block
itself (R345). -/
inductive ProtoFault where
  | unknown
  | power
  | cable
  | response
  | reset
  | port
  | berr
  | nvc
  deriving DecidableEq, Repr, Inhabited

/-- The closed set of fault kinds (R103). The six kinds R346 marks "never" keep their place and no rule raises them. -/
inductive FaultKind where
  | proto (f : ProtoFault)
  | notOpen
  | illegalOperation
  | writeFail
  | readFail
  | illegalSize
  | openFail
  | loadFail
  | macroFileMissing
  | sectionMissing
  | versionMismatch
  deriving DecidableEq, Repr

/-- The flash statuses (R104, R344). -/
inductive FlashStatus where
  | ok
  | deviceFault
  | verifyMismatch
  | blankFail
  | pollTimeout
  | unimplemented
  | access (f : ProtoFault)
  deriving DecidableEq, Repr

/-- The seven named control-line patterns of one variant (R96). -/
structure PatternSet where
  idle : Byte
  arm : Byte
  run : Byte
  reset : Byte
  resetArm : Byte
  berr : Byte
  released : Byte
  deriving DecidableEq, Repr

/-- The parameters of R8 that depend on the variant: `ENCODING`, the patterns, `FORCE_BERR`, `RESYNC_AFTER` for the two
operations that consult it (R183), and `DSO_IDLE_LEVEL`. -/
structure VariantParams where
  encoding : Encoding
  patterns : PatternSet
  forceBerr : Bool
  resyncAfterStep : Bool
  resyncAfterRestart : Bool
  dsoIdle : Level
  deriving DecidableEq, Repr

/-- The four delays derived from the base delay (R23, R30). -/
structure Delays where
  shortDelay : Nat
  halfDelay : Nat
  longDelay : Nat
  minDelay : Nat
  deriving DecidableEq, Repr

/-- The numbers of an AMD/SST 29F-style part (R260). -/
structure AmdNumbers where
  unlock1Addr : Nat
  unlock1Val : Byte
  unlock2Addr : Nat
  unlock2Val : Byte
  cmdId : Byte
  cmdProgram : Byte
  cmdErase : Byte
  cmdEraseAll : Byte
  cmdEraseSector : Byte
  cmdReset : Byte
  toggleMask : Byte
  timeoutMask : Byte
  deriving DecidableEq, Repr

/-- The numbers of a Freescale CFM (R290). -/
structure CfmNumbers where
  ustatOff : Nat
  cmdOff : Nat
  cbeif : Byte
  ccif : Byte
  pviol : Byte
  accerr : Byte
  blank : Byte
  cmdBlankCheck : Byte
  cmdProgram : Byte
  cmdPageErase : Byte
  cmdMassErase : Byte
  deriving DecidableEq, Repr

/-- The numbers of an Intel C3/P30 part (R310). -/
structure IntelNumbers where
  cmdReadArray : Byte
  cmdReadId : Byte
  cmdClearStatus : Byte
  cmdProgram : Byte
  cmdEraseSetup : Byte
  cmdConfirm : Byte
  cmdLockSetup : Byte
  cmdLockConfirm : Byte
  cmdBufferProgram : Byte
  cmdQuery : Byte
  queryAddr : Nat
  bufSizeOff : Nat
  readyMask : Byte
  errorMask : Byte
  deriving DecidableEq, Repr

/-- A row of `AMD_TABLE` (R262). `overrides` holds the row's own numbers where it overrides the defaults. -/
structure AmdRow where
  manId : Nat
  devId : Nat
  chipWidth : Nat
  chipSize : Nat
  sectorSize : Nat
  name : String
  overrides : Option AmdNumbers
  deriving DecidableEq, Repr

/-- A row of `CFM_TABLE` (R292). -/
structure CfmRow where
  arrayBase : Nat
  size : Nat
  pageSize : Nat
  regBase : Nat
  backdoorBase : Nat
  name : String
  deriving DecidableEq, Repr

/-- A row of `INTEL_TABLE` (R312). `regions` lists `(n, s)`: `n` sectors of `s` bytes, per chip. -/
structure IntelRow where
  manId : Nat
  devId : Nat
  chipWidth : Nat
  chipSize : Nat
  regions : List (Nat × Nat)
  buffered : Bool
  name : String
  deriving DecidableEq, Repr

/-- The parameters of the block (R8, R45), as data. A function of R8 with a large domain is its default formula and a list
of the points where it differs (`delayRows`, `boundRows`, `settleExceptions`, `codeRows`): so every function on the values
an operation word can carry is a value of this type. -/
structure Params where
  pd : VariantParams
  icd : VariantParams
  coldFire : VariantParams
  nopCmd : Word16
  goCmd : Word16
  defaultBaseDelay : Nat
  resetExtraDelay : Nat
  delayRows : List (Nat × Delays)
  boundRows : List (Nat × Nat)
  settleDefault : Bool
  settleExceptions : List (Word16 × Nat)
  codeRows : List (FaultKind × Int)
  flashPollBound : Nat
  algOrder : List Family
  amdNumbers : AmdNumbers
  cfmNumbers : CfmNumbers
  intelNumbers : IntelNumbers
  amdTable : List AmdRow
  cfmTable : List CfmRow
  intelTable : List IntelRow
  deriving DecidableEq, Repr

/-- An event of the line trace (R11, R40): `W(p)`, `R(s)`, `D(k)`. -/
inductive LineEvent where
  | wrote (p : Byte)
  | read (s : Byte)
  | delay (k : Nat)
  deriving DecidableEq, Repr

/-- An event of the memory backend's trace (R11, R40): `MR(addr, n, v)` and `MW(addr, n, v)`, where `n` is the number of bytes
of `v`. -/
inductive MemEvent where
  | read (addr : Nat) (v : BusWord)
  | wrote (addr : Nat) (v : BusWord)
  deriving DecidableEq, Repr

/-- A call of the generic memory primitive (R64). -/
inductive MemCall where
  | read (addr : Nat) (n : Nat)
  | write (addr : Nat) (v : BusWord)
  deriving DecidableEq, Repr

/-- What the environment answers to one call of the memory primitive (R64, R66): a protocol fault, or completion, with the
bytes read (a write ignores them). -/
inductive MemReply where
  | done (v : BusWord)
  | fault (f : ProtoFault)
  deriving DecidableEq, Repr, Inhabited

/-- FREE VALUE (U24). What `ReadSTAT` returns when the state holds no scripted answer: any byte, which may depend on everything
the block has done so far. DESIGN CHOICE, safe: notes/assumptions/4.md. -/
opaque Config.statAnswer : (lines : List LineEvent) → (mem : List MemEvent) → Byte

/-- FREE VALUE (U24, U25). What the memory primitive answers when the state holds no scripted answer: any value or any protocol
fault, which may depend on everything the block has done so far and on the number of calls made. DESIGN CHOICE, safe:
notes/assumptions/4.md. -/
opaque Config.memAnswer : (calls : Nat) → (lines : List LineEvent) → (mem : List MemEvent) → (call : MemCall) → MemReply

/-- FREE VALUE. Byte `index` of the data buffer of operation number `operation` when the caller supplied fewer bytes than the
operation word counts: the spec states no value. -/
opaque Config.missingByte : (operation : Nat) → (index : Nat) → Byte

/-- FREE VALUE. The low bytes of a lane of `chipWidth` bytes that is told to hold `value`, when `value` does not fit the lane: R317 says
that it fits, and states no value where it does not. -/
opaque Config.laneOverflow : (chipWidth : Nat) → (value : Nat) → (index : Nat) → Byte

end Sys2Proof
end

