-- ==== Sys2Proof/Machine/Params.lean ====
section
/-! DEFINITION. The default values of the parameters (R8, R31, R32, R96, R262, R292, R312) and the functions that look a
parameter up. -/

namespace Sys2Proof.Machine

open Sys2Proof

/-- `ADDR_BITS` (R8, R60). -/
def addrBits : Nat := 32

/-- One past the highest target address (R60, R78). -/
def addrSpace : Nat := 2 ^ addrBits

/-- `FRAME_BITS`: one header bit and sixteen data bits (R8, R90). -/
def frameBits : Nat := 17

/-- `ACC_BITS` (R8, R91). -/
def accBits : Nat := 32

/-- `HEADER_OFFSET` (R8, R91). -/
def headerOffset : Nat := 15

/-- `SETTLE_POLLS` (R8, R132). -/
def settlePolls : Nat := 100

/-- `RESYNC_NOPS` (R8, R140). -/
def resyncNops : Nat := 3

/-- `RESYNC_PULSES` (R8, R140). -/
def resyncPulses : Nat := 17

/-- The patterns of the `DIRECT` encoding (R96). -/
def directPatterns : PatternSet :=
  { idle := 0x00, arm := 0x00, run := 0x02, reset := 0x0A, resetArm := 0x08, berr := 0x10, released := 0x02 }

/-- The patterns of the `DEDICATED` encoding (R96). -/
def dedicatedPatterns : PatternSet :=
  { idle := 0x20, arm := 0x24, run := 0x20, reset := 0x28, resetArm := 0x2C, berr := 0x34, released := 0x00 }

/-- The default per-variant parameters of an encoding (R8). -/
def defaultVariantParams (encoding : Encoding) (patterns : PatternSet) : VariantParams :=
  { encoding, patterns, forceBerr := true, resyncAfterStep := false, resyncAfterRestart := false, dsoIdle := .high }

/-- The default numbers of an AMD/SST 29F-style part (R260). -/
def defaultAmdNumbers : AmdNumbers :=
  { unlock1Addr := 0x555, unlock1Val := 0xAA, unlock2Addr := 0x2AA, unlock2Val := 0x55, cmdId := 0x90, cmdProgram := 0xA0,
    cmdErase := 0x80, cmdEraseAll := 0x10, cmdEraseSector := 0x30, cmdReset := 0xF0, toggleMask := 0x40,
    timeoutMask := 0x20 }

/-- The default numbers of a Freescale CFM (R290). -/
def defaultCfmNumbers : CfmNumbers :=
  { ustatOff := 0x20, cmdOff := 0x24, cbeif := 0x80, ccif := 0x40, pviol := 0x20, accerr := 0x10, blank := 0x04,
    cmdBlankCheck := 0x05, cmdProgram := 0x20, cmdPageErase := 0x40, cmdMassErase := 0x41 }

/-- The default numbers of an Intel C3/P30 part (R310). -/
def defaultIntelNumbers : IntelNumbers :=
  { cmdReadArray := 0xFF, cmdReadId := 0x90, cmdClearStatus := 0x50, cmdProgram := 0x40, cmdEraseSetup := 0x20,
    cmdConfirm := 0xD0, cmdLockSetup := 0x60, cmdLockConfirm := 0x01, cmdBufferProgram := 0xE8, cmdQuery := 0x98,
    queryAddr := 0x55, bufSizeOff := 0x2A, readyMask := 0x80, errorMask := 0x3A }

/-- The default `AMD_TABLE`: the one row the source gives (R262). -/
def defaultAmdTable : List AmdRow :=
  [{ manId := 0x01, devId := 0xA4, chipWidth := 1, chipSize := 0x80000, sectorSize := 0x10000, name := "Am29F040",
     overrides := none }]

/-- The default `CFM_TABLE` (R292). -/
def defaultCfmTable : List CfmRow :=
  [{ arrayBase := 0x00000000, size := 0x80000, pageSize := 0x800, regBase := 0x401D0000, backdoorBase := 0x44000000,
     name := "CFM512" }]

/-- The default `INTEL_TABLE` (R312). -/
def defaultIntelTable : List IntelRow :=
  [{ manId := 0x0089, devId := 0x88C3, chipWidth := 2, chipSize := 0x200000, regions := [(8, 0x2000), (31, 0x10000)],
     buffered := false, name := "28F160C3B" },
   { manId := 0x0089, devId := 0x8818, chipWidth := 2, chipSize := 0x1000000, regions := [(127, 0x20000), (4, 0x8000)],
     buffered := true, name := "28F128P30T" }]

/-- The default parameters (R8). `PD` has the `DIRECT` encoding, `ICD` and `ColdFire` the `DEDICATED` one. UNVERIFIED, unsafe: notes/assumptions/31.md. As plain
data in State: DESIGN CHOICE (notes/assumptions/5.md). -/
def defaultParams : Params :=
  { pd := defaultVariantParams .direct directPatterns
    icd := defaultVariantParams .dedicated dedicatedPatterns
    coldFire := defaultVariantParams .dedicated dedicatedPatterns
    nopCmd := 0x0000
    goCmd := 0x0C00
    defaultBaseDelay := 1
    resetExtraDelay := 0
    delayRows := []
    boundRows := []
    settleDefault := true
    settleExceptions := []
    codeRows := []
    flashPollBound := 0xFFFF
    algOrder := [.amd, .cfm, .intel]
    amdNumbers := defaultAmdNumbers
    cfmNumbers := defaultCfmNumbers
    intelNumbers := defaultIntelNumbers
    amdTable := defaultAmdTable
    cfmTable := defaultCfmTable
    intelTable := defaultIntelTable }

/-- The parameters of a variant. -/
def variantParams (p : Params) : Variant → VariantParams
  | .pd => p.pd
  | .icd => p.icd
  | .coldFire => p.coldFire

/-- The default `derive_delays` (R31). -/
def defaultDelays (base : Nat) : Delays :=
  { shortDelay := base / 4, halfDelay := base / 2, longDelay := 4 * base + 4, minDelay := max 1 base }

/-- `derive_delays(base)` (R8, R30). -/
def deriveDelays (p : Params) (base : Nat) : Delays :=
  (p.delayRows.lookup base).getD (defaultDelays base)

/-- The bound of the freeze poll at the default base delay, "historically 0xFFFF" (R32). -/
def historicPollBound : Nat := 0xFFFF

/-- `stop_poll_bound(base)` (R8, R30); the formula is the default of R32. -/
def stopPollBoundOf (p : Params) (base : Nat) : Nat :=
  (p.boundRows.lookup base).getD
    (max 1 ((historicPollBound * (deriveDelays p p.defaultBaseDelay).minDelay) / (deriveDelays p base).minDelay))

/-- `SETTLE_BEFORE(cmd, delayBits)` (R8, R132). -/
def settleBefore (p : Params) (cmd : Word16) (delayBits : Nat) : Bool :=
  xor p.settleDefault (p.settleExceptions.contains (cmd, delayBits))

/-- The default number of each fault kind, in the source's order from -1 (R103). -/
def defaultFaultCode : FaultKind → Int
  | .proto .unknown => -1
  | .proto .power => -2
  | .proto .cable => -3
  | .proto .response => -4
  | .proto .reset => -5
  | .proto .port => -6
  | .proto .berr => -7
  | .proto .nvc => -8
  | .notOpen => -9
  | .illegalOperation => -10
  | .writeFail => -11
  | .readFail => -12
  | .illegalSize => -13
  | .openFail => -14
  | .loadFail => -15
  | .macroFileMissing => -16
  | .sectionMissing => -17
  | .versionMismatch => -18

/-- `FAULT_CODE(k)` (R8, R103). -/
def faultCode (p : Params) (k : FaultKind) : Int :=
  (p.codeRows.lookup k).getD (defaultFaultCode k)

end Sys2Proof.Machine
end

