-- ==== Sys2Proof/Machine/State.lean ====
section
/-! DEFINITION. The state of BDM-PE as plain data (R20): the channel with its session, the sequencer's working registers, the
registry with its areas and descriptors, the event traces; beside them the model's own fields, which carry the parameters, the
environment's answers and the caller's operations. -/

namespace Sys2Proof.Machine

open Sys2Proof

/-- The reasons a step could stop the machine. THERE ARE NONE: every operation ends by `return` or by `raise`, a raised fault is
an outcome handed to the caller and the block accepts the next operation (R352, R355). So no step of this model ends in a fault
of the machine. DEDUCED, safe: notes/assumptions/1.md. -/
inductive Fault where
  deriving DecidableEq, Repr

/-- The reasons a step could be refused a meaning. -/
inductive Refusal where
  /-- An operation without a meaning in this model, by its mnemonic. Raised by `exec` alone; safe. No arm of `exec` raises it:
  every row of the table has its meaning. -/
  | notModelled (mnemonic : String)
  deriving DecidableEq, Repr

/-- The capability table of a session: which of the eleven operations of R23 are present (R163, R166). -/
structure Caps where
  init : Bool
  deinit : Bool
  getStatus : Bool
  resetChip : Bool
  restartChip : Bool
  stopChip : Bool
  stepChip : Bool
  releaseChip : Bool
  serialClock : Bool
  setLed : Bool
  resynchronize : Bool
  deriving DecidableEq, Repr

/-- One `InterfaceSession` (R23). -/
structure Session where
  variant : Variant
  caps : Caps
  /-- The last pattern written to `CTRL` (R24). -/
  shadow : Byte
  baseDelay : Nat
  shortDelay : Nat
  halfDelay : Nat
  longDelay : Nat
  minDelay : Nat
  resetExtraDelay : Nat
  fast : Bool
  stopPollBound : Nat
  sense : Bool
  debugLevel : Nat
  deriving DecidableEq, Repr

/-- The working registers of the sequencer (R21). They hold a value only while an operation runs. -/
structure WorkRegs where
  acc : Word32
  cnt : Nat
  dbit : Bool
  poll : Nat
  st : BitVec 4
  deriving DecidableEq, Repr

/-- The working registers at rest: they have no value (R46), which the model writes as zeros. DESIGN CHOICE,
unsafe: notes/assumptions/7.md. -/
def WorkRegs.rest : WorkRegs := { acc := 0, cnt := 0, dbit := false, poll := 0, st := 0 }

/-- The flag set of an area (R34, R105). -/
structure AreaFlags where
  flash : Bool
  auto : Bool
  erased : Bool
  error : Bool
  deriving DecidableEq, Repr

/-- The descriptor fields common to all families (R38). -/
structure ChipCommon where
  base : Nat
  size : Nat
  name : String
  busWidth : Nat
  chipWidth : Nat
  sectorSize : Nat
  deriving DecidableEq, Repr

/-- An AMD erase that was started and not yet waited for (R260). -/
inductive PendingErase where
  | none
  | sector (lo hi : Nat)
  | whole
  deriving DecidableEq, Repr

/-- The AMD descriptor (R260). `pendingErase` is the one descriptor field that changes after registration. -/
structure AmdDescriptor where
  chip : ChipCommon
  manId : Nat
  devId : Nat
  numbers : AmdNumbers
  pendingErase : PendingErase
  deriving DecidableEq, Repr

/-- The CFM descriptor (R290). -/
structure CfmDescriptor where
  chip : ChipCommon
  regBase : Nat
  backdoorBase : Nat
  numbers : CfmNumbers
  deriving DecidableEq, Repr

/-- The INTEL descriptor (R310). -/
structure IntelDescriptor where
  chip : ChipCommon
  manId : Nat
  devId : Nat
  regions : List (Nat × Nat)
  buffered : Bool
  bufBytes : Nat
  numbers : IntelNumbers
  deriving DecidableEq, Repr

/-- The algorithm reference of an area together with its descriptor (R35): a RAM area has none. -/
inductive Binding where
  | ram
  | amd (d : AmdDescriptor)
  | cfm (d : CfmDescriptor)
  | intel (d : IntelDescriptor)
  deriving DecidableEq, Repr

/-- A `MemoryArea` (R35); `endAddr` is inclusive. -/
structure MemoryArea where
  beginAddr : Nat
  endAddr : Nat
  binding : Binding
  flags : AreaFlags
  deriving DecidableEq, Repr

/-- The result of a family operation (R104, R240). -/
structure FlashResult where
  count : Nat
  status : FlashStatus
  deriving DecidableEq, Repr

/-- The result of a family's `probe` (R240, R241): `binding` is the fresh descriptor on a match, none otherwise. -/
structure ProbeResult where
  size : Nat
  binding : Option Binding
  status : FlashStatus
  deriving DecidableEq, Repr

/-- The outcome of a stream operation (R145). -/
inductive StreamOutcome where
  | ok
  | notReady
  | fault (f : FaultKind)
  deriving DecidableEq, Repr

/-- The typed outcome of an operation, as the caller receives it (R12, R100). -/
inductive OpResult where
  /-- `Ok`. -/
  | ok
  /-- The operation ended with `raise f` (R352). -/
  | fault (f : FaultKind)
  /-- GET_STATUS: a `STATUS4` value (R177). -/
  | status (bits : BitVec 4)
  /-- SERIAL_CLOCK: the whole accumulator (R134). -/
  | frame (acc : Word32)
  /-- STREAM_WRITE (R146). -/
  | streamWrite (done : Nat) (outcome : StreamOutcome)
  /-- STREAM_READ, with the bytes of the result buffer (R147). -/
  | streamRead (done : Nat) (outcome : StreamOutcome) (data : List Byte)
  /-- REGISTER_AREA found no chip (R212). -/
  | notFound
  /-- WRITE_MEMORY (R220). -/
  | written (count : Nat) (status : FlashStatus)
  /-- An erase, wait or blank check of a RAM area (R230). -/
  | notFlash
  /-- The result of a family operation (R240) or of RAM.WRITE (R226). -/
  | flash (r : FlashResult)
  /-- The result of a probe (R241). -/
  | probe (r : ProbeResult)
  deriving DecidableEq, Repr

/-- Who issues an operation (R100, R101): the host, or the registry's dispatch, which passes the address of the area `A` the
family operation acts on (R240). DESIGN CHOICE, unsafe: notes/assumptions/3.md. -/
inductive Origin where
  | host
  | registry (area : Nat)
  deriving DecidableEq, Repr

/-- One call: its origin, its operation word and its data buffer (R99). -/
structure Request where
  origin : Origin
  word : Op72
  data : List Byte
  deriving DecidableEq, Repr

/-- The record of the bytes the block has stored to target memory (R66): address and byte. -/
abbrev Memory := List Host.Cell

/-- The machine. -/
structure State where
  /-- MODEL'S OWN: the parameters of R8, which no step changes (R45). -/
  params : Params
  /-- `owned`: the channel ownership flag (R26). -/
  owned : Bool
  /-- The session record, while the channel is open (R23). -/
  session : Option Session
  /-- The levels of the control lines: the last pattern written to `CTRL` (R25, R44). -/
  lines : Byte
  /-- The working registers (R21). -/
  work : WorkRegs
  /-- The registry: the areas, ordered by `beginAddr` (R36). -/
  registry : List MemoryArea
  /-- The events `W`, `R`, `D`, in order (R40). -/
  lineTrace : List LineEvent
  /-- The events `MR`, `MW`, in order (R40). -/
  memTrace : List MemEvent
  /-- The record of `MemWrite` (R66): the byte last stored at each address the block has stored to. -/
  memory : Memory
  /-- MODEL'S OWN: the environment's next answers to `ReadSTAT`, oldest first; once used up, `Config.statAnswer` answers. -/
  statScript : List Byte
  /-- MODEL'S OWN: the environment's next answers to the memory primitive, oldest first; once used up, `Config.memAnswer`
  answers. -/
  memScript : List MemReply
  /-- MODEL'S OWN: the number of calls of the memory primitive made so far, an argument of `Config.memAnswer`. -/
  memCalls : Nat
  /-- MODEL'S OWN: the operations the caller will issue, oldest first. -/
  requests : List Request
  /-- The data buffer of the running operation (R99). -/
  buffer : List Byte
  /-- MODEL'S OWN: an address of the area `A` that the registry's dispatch passed to the running family operation (R240). -/
  areaSel : Nat
  /-- MODEL'S OWN: the number of operations ended so far, an argument of `Config.missingByte`. -/
  opsDone : Nat
  /-- MODEL'S OWN: the outcome handed to the caller by the operation that ended last; none before the first. -/
  result : Option OpResult
  deriving DecidableEq, Repr

/-- The one RAM area that spans the whole space after block reset (R36, R46). -/
def wholeSpaceRam : MemoryArea :=
  { beginAddr := 0, endAddr := addrSpace - 1, binding := .ram
    flags := { flash := false, auto := false, erased := false, error := false } }

/-- The state after block reset (R46, R381). The levels of the lines, the working registers and the model's own fields hold
chosen values: DESIGN CHOICE, unsafe (notes/assumptions/6.md, 7.md, 8.md). -/
def State.reset : State :=
  { params := defaultParams, owned := false, session := none, lines := 0, work := WorkRegs.rest
    registry := [wholeSpaceRam], lineTrace := [], memTrace := [], memory := [], statScript := [], memScript := []
    memCalls := 0, requests := [], buffer := [], areaSel := 0, opsDone := 0, result := none }

end Sys2Proof.Machine
end

