-- ==== Sys2Proof/Machine/Operands.lean ====
section
/-! DEFINITION. Operand forms: what an operand field selects (R102), the control-line patterns and their kept LED bit (R96,
R97), the frame accumulator (R91), bytes and lanes of a bus word (R68, R107, R255), the bytes of the data buffer (R69, R99). -/

namespace Sys2Proof.Machine

open Sys2Proof

/-- The variant number of OPEN (R100, R102). -/
def variantOf : Nat → Option Variant
  | 0 => some .pd
  | 1 => some .icd
  | 2 => some .coldFire
  | _ => none

/-- The hint of REGISTER_AREA (R102, R106): the candidate families, in probe order (R211); none for a hint out of range. -/
def candidates (p : Params) : Nat → Option (List Family)
  | 0 => some p.algOrder
  | 1 => some [.amd]
  | 2 => some [.cfm]
  | 3 => some [.intel]
  | _ => none

/-- An operand that is "0 = off, other = on" (R102). -/
def isOn (operand : Nat) : Bool := operand != 0

/-- `CTRL` bit 6 (R94). -/
def ledBit : Byte := 0x40

/-- The LED bit that a pattern write keeps: that of `shadow` in the `DEDICATED` encoding, 0 in `DIRECT` (R96). -/
def keptLed (encoding : Encoding) (shadow : Byte) : Byte :=
  match encoding with
  | .direct => 0
  | .dedicated => shadow &&& ledBit

/-- A pattern with the LED bit kept (R96). -/
def keepLed (encoding : Encoding) (shadow pattern : Byte) : Byte := pattern ||| keptLed encoding shadow

/-- `CTRL` bit 0 holding a data bit (R94). -/
def dsi (bit : Bool) : Byte := if bit then 0x01 else 0x00

/-- `CTRL` bit 1 holding a clock level (R94). -/
def clk (raised : Bool) : Byte := if raised then 0x02 else 0x00

/-- `P_BIT(d, c) = P_IDLE | d | (c << 1)`, before the LED bit (R97). -/
def pBit (idle : Byte) (d c : Bool) : Byte := idle ||| dsi d ||| clk c

/-- The pattern SET_LED writes (R180). -/
def ledPattern (shadow : Byte) (on : Bool) : Byte := (shadow &&& 0xBF) ||| (if on then ledBit else 0x00)

/-- The accumulator at the start of an exchange: `zext_32(cmd) << 15` (R91). -/
def startAcc (cmd : Word16) : Word32 := cmd.setWidth 32 <<< headerOffset

/-- The bit presented: `acc[31]` (R91, R133). -/
def presentedBit (acc : Word32) : Bool := acc.getLsbD 31

/-- The accumulator after one sample: `(acc << 1) | bit` (R133, R150). -/
def shiftIn (acc : Word32) (bit : Bool) : Word32 := (acc <<< 1) ||| (if bit then 1 else 0)

/-- The first byte of a 2-byte stream unit is bits 15 to 8, the second bits 7 to 0 (R69). -/
def streamUnit (first second : Byte) : Word16 := first ++ second

/-- Bits 15 to 8 of a frame (R147). -/
def highByte (v : Word32) : Byte := v.extractLsb' 8 8

/-- Bits 7 to 0 of a frame (R147). -/
def lowByte (v : Word32) : Byte := v.extractLsb' 0 8

/-- Byte `i` of the data buffer of the running operation; a byte the caller did not supply is a free value. DESIGN CHOICE,
safe as to its value: notes/assumptions/9.md. -/
def State.dataByte (s : State) (i : Nat) : Byte := s.buffer.getD i (Config.missingByte s.opsDone i)

/-- The unsigned value of a bus word, most significant byte first (R68). -/
def busValue (w : BusWord) : Nat := w.foldl (fun v b => v * 256 + b.toNat) 0

/-- Byte `i` of the `n` bytes of a number below `256 ^ n`, most significant first (R68). -/
def byteOfNat (n v i : Nat) : Byte := BitVec.ofNat 8 (v / 256 ^ (n - 1 - i))

/-- The `n` bytes of a number, most significant first (R68). -/
def busBytes (n v : Nat) : BusWord := (List.range n).map (byteOfNat n v)

/-- The last `n` bytes of an answer, with zero bytes before it when it is shorter: the `8n`-bit value it stands for. DESIGN CHOICE,
safe: notes/assumptions/14.md. -/
def fitBytes (n : Nat) (v : BusWord) : BusWord := (List.replicate n 0 ++ v).drop v.length

/-- The number of lanes (R38, R255). -/
def laneCount (busWidth chipWidth : Nat) : Nat := busWidth / chipWidth

/-- Lane `i` of a bus word: lane 0 lies at the lowest address (R68). DEDUCED, unsafe: notes/assumptions/25.md. -/
def lane (chipWidth : Nat) (w : BusWord) (i : Nat) : BusWord := (w.drop (i * chipWidth)).take chipWidth

/-- All lanes of a bus word, in ascending order (R255). -/
def lanes (busWidth chipWidth : Nat) (w : BusWord) : List BusWord :=
  (List.range (laneCount busWidth chipWidth)).map (lane chipWidth w)

/-- A lane that holds `zext(v)` (R107); where `v` does not fit the lane its bytes are free values. DESIGN CHOICE, safe:
notes/assumptions/10.md. -/
def laneHolding (chipWidth v : Nat) : BusWord :=
  if v < 256 ^ chipWidth then busBytes chipWidth v
  else (List.range chipWidth).map (Config.laneOverflow chipWidth v)

/-- The bus word in which every lane holds `v` (R107, R317). -/
def replicateLanes (busWidth chipWidth v : Nat) : BusWord :=
  (List.replicate (laneCount busWidth chipWidth) (laneHolding chipWidth v)).flatten

/-- `rep(c)`: the command word of a command code (R107). -/
def rep (chip : ChipCommon) (c : Byte) : BusWord := replicateLanes chip.busWidth chip.chipWidth c.toNat

/-- `(v.L and mask) != 0` for a mask of at most 8 bits, zero-extended to the lane (R107). -/
def laneHas (l : BusWord) (mask : Byte) : Bool := (l.getLastD 0 &&& mask) != 0

/-- The one value every lane holds, when they agree (R243, R265). -/
def agreedValue (busWidth chipWidth : Nat) (w : BusWord) : Option Nat :=
  match lanes busWidth chipWidth w with
  | [] => none
  | l :: ls => if ls.all (fun m => m == l) then some (busValue l) else none

/-- The bitwise complement at the bus width (R150, R243). -/
def complement (w : BusWord) : BusWord := w.map (fun b => ~~~b)

/-- `2^(8W) - 1`: a bus word of `W` bytes that is all ones (R253). -/
def allOnes (busWidth : Nat) : BusWord := List.replicate busWidth 0xFF

/-- `cur` with its bytes `lo .. hi-1` replaced by the payload bytes from `done` on (R244). -/
def mergeCell (cur : BusWord) (lo hi : Nat) (data : Nat → Byte) (done : Nat) : BusWord :=
  cur.mapIdx (fun i b => if lo ≤ i ∧ i < hi then data (done + (i - lo)) else b)

/-- The bytes `start .. start + n - 1` of a payload, lowest address first, which is most significant first (R68). -/
def payload (data : Nat → Byte) (start n : Nat) : BusWord := (List.range n).map (fun i => data (start + i))

/-- Insertion before the first element whose key is not smaller, which puts `x` before its equals: notes/assumptions/37.md. -/
def insertBy {α : Type} (key : α → Nat) (x : α) : List α → List α
  | [] => [x]
  | y :: ys => if key x ≤ key y then x :: y :: ys else y :: insertBy key x ys

/-- The elements in ascending order of the key: how a chip table is searched (R211, R242, R262, R292). Those rules say no more than that; that
elements of equal keys keep their order is the model's. DESIGN CHOICE, unsafe: notes/assumptions/37.md. -/
def sortBy {α : Type} (key : α → Nat) : List α → List α
  | [] => []
  | x :: xs => insertBy key x (sortBy key xs)

end Sys2Proof.Machine
end

