-- ==== Sys2Proof/Machine/Flags.lean ====
section
/-! DEFINITION. Every flag computation: the bits of `STAT` (R95), the status bitset (R98, R200), the class of a response frame
(R92), the area flags (R34, R105, R249), and the numbers of outcomes at the boundary (R104, R230). -/

namespace Sys2Proof.Machine

open Sys2Proof

/-- `STAT.DSO`, bit 0 (R95). -/
def statDso (s : Byte) : Bool := s.getLsbD 0

/-- `STAT.FREEZE`, bit 1 (R95). -/
def statFreeze (s : Byte) : Bool := s.getLsbD 1

/-- `STAT.RSTS`, bit 2 (R95). -/
def statRsts (s : Byte) : Bool := s.getLsbD 2

/-- `STAT.PWR`, bit 3 (R95). -/
def statPwr (s : Byte) : Bool := s.getLsbD 3

/-- `STAT.CONN`, bit 4 (R95). -/
def statConn (s : Byte) : Bool := s.getLsbD 4

/-- The bit recorded from a sample: "a low level is recorded as a `1`" (R10, R151). -/
def recordedBit (s : Byte) : Bool := !statDso s

/-- A `STATUS4` value from its four members (R98). -/
def status4 (reset stopped powerFail notConnected : Bool) : BitVec 4 :=
  (if reset then 0b0001 else 0) ||| (if stopped then 0b0010 else 0) ||| (if powerFail then 0b0100 else 0) |||
    (if notConnected then 0b1000 else 0)

/-- `TARGET_RESET` (R98). -/
def targetReset (b : BitVec 4) : Bool := b.getLsbD 0

/-- `TARGET_STOPPED` (R98). -/
def targetStopped (b : BitVec 4) : Bool := b.getLsbD 1

/-- `TARGET_POWER_FAIL` (R98). -/
def targetPowerFail (b : BitVec 4) : Bool := b.getLsbD 2

/-- `TARGET_NOT_CONNECTED` (R98). -/
def targetNotConnected (b : BitVec 4) : Bool := b.getLsbD 3

/-- The status decoder (R200): the cable, then the power, in sense mode; then the reset and freeze bits. -/
def decodeStatus (sense : Bool) (s : Byte) : BitVec 4 :=
  if sense && !statConn s then status4 false false false true
  else if sense && !statPwr s then status4 false false true false
  else status4 (statRsts s) (statFreeze s) false false

/-- The fault of the up-front status test, in the order of R131 (R203): none when the target is available. -/
def unavailableFault (b : BitVec 4) : Option ProtoFault :=
  if targetReset b then some .reset
  else if targetNotConnected b then some .cable
  else if targetPowerFail b then some .power
  else none

/-- The class of a response frame (R92). -/
inductive FrameClass where
  | fault (f : ProtoFault)
  | notReady
  | payload (v : Word32)
  deriving DecidableEq, Repr

/-- `decodeFrame` (R92, R136): on the whole 32-bit value, in the order of the table. -/
def decodeFrame (v : Word32) : FrameClass :=
  if v = 0x0001FFFF then .fault .nvc
  else if v = 0x00010001 then .fault .berr
  else if v = 0x00010000 then .notReady
  else .payload v

/-- The level a recorded bit stands for (R10): a low level is recorded as a 1. -/
def recordedLevel (bit : Bool) : Level := if bit then .low else .high

/-- An area's flags as an `AREAFLAGS4` value (R105). -/
def AreaFlags.bits (f : AreaFlags) : BitVec 4 :=
  (if f.flash then 0b0001 else 0) ||| (if f.auto then 0b0010 else 0) ||| (if f.erased then 0b0100 else 0) |||
    (if f.error then 0b1000 else 0)

/-- The flags of an area at registration (R215). -/
def registeredFlags (hint : Nat) : AreaFlags := { flash := true, auto := hint == 0, erased := false, error := false }

/-- R249 (a), (b). -/
def MemoryArea.withErased (a : MemoryArea) (v : Bool) : MemoryArea := { a with flags := { a.flags with erased := v } }

/-- R249 (c): whether a status sets `ERROR`. -/
def setsError (st : FlashStatus) : Bool := decide (st ≠ .ok) && decide (st ≠ .unimplemented)

/-- R249 (c): the area after a family operation on it returned `st`. -/
def MemoryArea.afterStatus (a : MemoryArea) (st : FlashStatus) : MemoryArea :=
  { a with flags := { a.flags with error := a.flags.error || setsError st } }

/-- The default code of a flash status (R104). DESIGN CHOICE, unsafe: notes/assumptions/27.md. -/
def flashCode (p : Params) : FlashStatus → Int
  | .ok => 0
  | .deviceFault => -19
  | .verifyMismatch => -20
  | .blankFail => -21
  | .pollTimeout => -22
  | .unimplemented => -23
  | .access f => faultCode p (.proto f)

/-- What ERASE_AREA, ERASE_WAIT and BLANK_CHECK return at the boundary for a flash area: `OK` is 1, another status its code (R230). -/
def flashBoundary (p : Params) (st : FlashStatus) : Int := if st = .ok then 1 else flashCode p st

/-- The number of an outcome at the boundary, where the spec gives it one (R12, R98, R103, R220, R230). -/
def boundaryValue (p : Params) : OpResult → Option Int
  | .fault f => some (faultCode p f)
  | .status b => some b.toNat
  | .frame v => some v.toNat
  | .written n _ => some n
  | .notFlash => some 0
  | .flash r => some (flashBoundary p r.status)
  | _ => none

end Sys2Proof.Machine
end

