-- ==== Sys2Proof/Machine/Ops.lean ====
section
/-! DEFINITION. The shared operations: the record of stores, the primitives of R11 and the only ways a rule touches anything
outside the block's state, the session accessors, raising a fault (R352) and ending an operation. -/

namespace Sys2Proof.Machine

open Sys2Proof

/-! ### Target memory: the record of stores -/

/-- What the record holds for an address: the byte last stored there; none where the block has stored nothing. DESIGN CHOICE, safe: notes/assumptions/13.md. -/
def Memory.read : Memory → Nat → Option Byte
  | [], _ => none
  | (k, b) :: rest, a => if k = a then some b else Memory.read rest a

/-- The record after one byte is stored, in its canonical form. -/
def Memory.store : Memory → Nat → Byte → Memory
  | [], a, v => [(a, v)]
  | (k, b) :: rest, a, v =>
    if a < k then (a, v) :: (k, b) :: rest
    else if a = k then (a, v) :: rest
    else (k, b) :: Memory.store rest a v

/-- The record after the bytes of a bus word are stored from address `a` up (R68). -/
def Memory.storeAll : Memory → Nat → BusWord → Memory
  | m, _, [] => m
  | m, a, b :: rest => Memory.storeAll (m.store a b) (a + 1) rest

/-- The canonical form: addresses strictly rising. (An unlisted address reads as none, which no entry equals.) -/
def Memory.wf : Memory → Bool
  | [] => true
  | [_] => true
  | (a, _) :: (b, w) :: rest => decide (a < b) && Memory.wf ((b, w) :: rest)

/-- The byte the block last stored at a target address, if any. -/
def State.storedByte (s : State) (a : Nat) : Option Byte := Memory.read s.memory a

/-! ### What one primitive does to the state -/

/-- After `WriteCTRL(p)`: all lines at `p` at once, `shadow = p`, event `W(p)` (R11, R24, R61). -/
def State.wroteCtrl (s : State) (p : Byte) : State :=
  { s with lines := p, session := s.session.map (fun x => { x with shadow := p }), lineTrace := s.lineTrace ++ [.wrote p] }

/-- What the environment answers to the next `ReadSTAT` (R66). -/
def State.nextStat (s : State) : Byte :=
  match s.statScript with
  | v :: _ => v
  | [] => Config.statAnswer s.lineTrace s.memTrace

/-- After `ReadSTAT()`: event `R(s)`, and no other effect (R11, R63). -/
def State.readStat (s : State) : State :=
  { s with statScript := s.statScript.tail, lineTrace := s.lineTrace ++ [.read s.nextStat] }

/-- After `Delay(k)`: event `D(k)`; `Delay(0)` appends no event (R11, R406). -/
def State.delayed (s : State) (k : Nat) : State :=
  if k = 0 then s else { s with lineTrace := s.lineTrace ++ [.delay k] }

/-- What the environment answers to the next call of the memory primitive (R66). -/
def State.nextReply (s : State) (c : MemCall) : MemReply :=
  match s.memScript with
  | r :: _ => r
  | [] => Config.memAnswer s.memCalls s.lineTrace s.memTrace c

/-- One answer of the memory primitive is used up. -/
def State.tookReply (s : State) : State := { s with memScript := s.memScript.tail, memCalls := s.memCalls + 1 }

/-- After a completed `MemRead`: event `MR` (R11). -/
def State.didRead (s : State) (a : Nat) (v : BusWord) : State := { s with memTrace := s.memTrace ++ [.read a v] }

/-- After a completed `MemWrite`: event `MW`, and the store is recorded (R11, R66). -/
def State.didWrite (s : State) (a : Nat) (v : BusWord) : State :=
  { s with memTrace := s.memTrace ++ [.wrote a v], memory := s.memory.storeAll a v }

/-- The working registers after an update (R21). -/
def State.withWork (s : State) (f : WorkRegs → WorkRegs) : State := { s with work := f s.work }

/-- The session, while there is one, after an update of its fields. -/
def State.withSession (s : State) (f : Session → Session) : State := { s with session := s.session.map f }

/-- The registry after an update of the area that begins at `b`. -/
def State.withArea (s : State) (b : Nat) (f : MemoryArea → MemoryArea) : State :=
  { s with registry := s.registry.map (fun a => if a.beginAddr = b then f a else a) }

/-! ### The end of an operation -/

/-- An operation ends with an outcome: the caller receives it, and the sequencer returns to rest (R22, R352). -/
def State.conclude (s : State) (r : OpResult) : State :=
  { s with result := some r, work := WorkRegs.rest, opsDone := s.opsDone + 1 }

/-- FAULT ENTRY, the analogue of taking an exception (R352): nothing is saved, nothing is rolled back, no line is moved, the working
registers lose their meaning, the session stays open, the sequencer returns to rest and the caller receives the fault kind.
There is no return from it (R355). -/
def State.takeFault (s : State) (f : FaultKind) : State := s.conclude (.fault f)

/-! ### Operations as computations -/

/-- How an operation in progress ends early: `raise F` (R11), or an aborting access of a family operation (R250). -/
inductive Exit where
  | fault (f : FaultKind)
  | access (f : ProtoFault)
  deriving DecidableEq, Repr

/-- A computation of the sequencer: it returns a value or ends early, and in both cases everything it did stays done (R352). -/
abbrev Op := EStateM Exit State

/-- `raise F` (R11, R352). -/
def raise {α : Type} (f : FaultKind) : Op α := fun s => .error (.fault f) s

/-- The end of a family operation at a failed access (R250). -/
def abort {α : Type} (f : ProtoFault) : Op α := fun s => .error (.access f) s

/-- A whole operation, from its first step to its outcome. An access that failed outside a family operation is raised (R212). -/
def runOp (m : Op OpResult) (s : State) : Host.Outcome State Fault Refusal :=
  .next (match m s with
    | .ok r t => t.conclude r
    | .error (.fault f) t => t.takeFault f
    | .error (.access f) t => t.takeFault (.proto f))

/-- A nested operation whose fault the caller's rule handles (R354). -/
def attempt {α : Type} (m : Op α) : Op (Except FaultKind α) := fun s =>
  match m s with
  | .ok a t => .ok (.ok a) t
  | .error (.fault f) t => .ok (.error f) t
  | .error (.access f) t => .ok (.error (.proto f)) t

/-! ### The line port -/

/-- `WriteCTRL(p)` (R11). -/
def writeCtrl (p : Byte) : Op Unit := fun s => .ok () (s.wroteCtrl p)

/-- `ReadSTAT()` (R11). -/
def readStat : Op Byte := fun s => .ok s.nextStat s.readStat

/-- `Delay(k)` (R11). -/
def delay (k : Nat) : Op Unit := fun s => .ok () (s.delayed k)

/-! ### The memory primitive -/

/-- A primitive call the block may make: 1, 2 or 4 bytes (R11), naturally aligned (R71), inside the address space (R60, R78). Otherwise refused: DEDUCED,
unsafe (notes/assumptions/11.md). -/
def callAllowed (a n : Nat) : Bool :=
  (n == 1 || n == 2 || n == 4) && a % n == 0 && decide (a + n ≤ addrSpace)

/-- `MemRead(a, n)` (R11, R64). A call that is not allowed is refused before it is made: `ILLEGAL_OPERATION` (R71, R78, R150). -/
def memRead (a n : Nat) : Op (Except ProtoFault BusWord) := fun s =>
  if callAllowed a n then
    match s.nextReply (.read a n) with
    | .done v => .ok (.ok (fitBytes n v)) (s.tookReply.didRead a (fitBytes n v))
    | .fault f => .ok (.error f) s.tookReply
  else .error (.fault .illegalOperation) s

/-- `MemWrite(a, n, v)`, `n` the number of bytes of `v` (R11, R64). Refused as `MemRead` is. A failed access is no event: DESIGN CHOICE, unsafe
(notes/assumptions/12.md). -/
def memWrite (a : Nat) (v : BusWord) : Op (Except ProtoFault Unit) := fun s =>
  if callAllowed a v.length then
    match s.nextReply (.write a v) with
    | .done _ => .ok (.ok ()) (s.tookReply.didWrite a v)
    | .fault f => .ok (.error f) s.tookReply
  else .error (.fault .illegalOperation) s

/-- `rd(a, n)`: the aborting read of a family operation (R250). -/
def rd (a n : Nat) : Op BusWord := do
  match ← memRead a n with
  | .ok v => pure v
  | .error f => abort f

/-- `wr(a, n, v)`: the aborting write of a family operation (R250). -/
def wr (a : Nat) (v : BusWord) : Op Unit := do
  match ← memWrite a v with
  | .ok () => pure ()
  | .error f => abort f

/-- A command sequence: aborting writes in the order listed (R261, R311, R404). -/
def wrAll : List (Nat × BusWord) → Op Unit
  | [] => pure ()
  | (a, v) :: rest => do
    wr a v
    wrAll rest

/-! ### Working registers -/

/-- `cnt <- k` (R21). -/
def setCnt (k : Nat) : Op Unit := modify (fun s => s.withWork (fun w => { w with cnt := k }))

/-- `poll <- k` (R21). -/
def setPoll (k : Nat) : Op Unit := modify (fun s => s.withWork (fun w => { w with poll := k }))

/-- `acc <- v` (R21). -/
def setAcc (v : Word32) : Op Unit := modify (fun s => s.withWork (fun w => { w with acc := v }))

/-- `dbit <- d` (R21). -/
def setDbit (d : Bool) : Op Unit := modify (fun s => s.withWork (fun w => { w with dbit := d }))

/-- `st <- b` (R21). -/
def setSt (b : BitVec 4) : Op Unit := modify (fun s => s.withWork (fun w => { w with st := b }))

/-- The accumulator. -/
def getAcc : Op Word32 := fun s => .ok s.work.acc s

/-! ### The session -/

/-- The open session; `NOT_OPEN` when the channel has none (R162). -/
def openedSession : Op Session := fun s =>
  match s.session with
  | some x => .ok x s
  | none => .error (.fault .notOpen) s

/-- The parameters of the open session's variant (R137, R166). -/
def currentParams : Op VariantParams := do
  let x ← openedSession
  let s ← get
  pure (variantParams s.params x.variant)

/-- A pattern write that keeps the LED bit of `shadow`: `WriteCTRL(P | led)` (R96). -/
def writeKept (pattern : Byte) : Op Unit := do
  let x ← openedSession
  let v ← currentParams
  writeCtrl (keepLed v.encoding x.shadow pattern)

/-- A call through the capability table: an absent entry is `ILLEGAL_OPERATION` with nothing done (R163). DEDUCED, unsafe: notes/assumptions/16.md. -/
def useCap (present : Caps → Bool) : Op Unit := do
  let x ← openedSession
  if present x.caps then pure () else raise .illegalOperation

/-- An update of the session's fields. -/
def updateSession (f : Session → Session) : Op Unit := modify (fun s => s.withSession f)

/-! ### The registry -/

/-- `areaOf(a)` (R210). -/
def areaOf (areas : List MemoryArea) (a : Nat) : Option MemoryArea :=
  areas.find? (fun m => decide (m.beginAddr ≤ a) && decide (a ≤ m.endAddr))

/-- The area that owns an address. Every address below `2^32` has one (R210); an address outside the space is refused (R78, R150). DEDUCED, safe:
notes/assumptions/33.md. -/
def owningArea (a : Nat) : Op MemoryArea := fun s =>
  match areaOf s.registry a with
  | some m => .ok m s
  | none => .error (.fault .illegalOperation) s

/-- An update of the area that begins at `b`. -/
def updateArea (b : Nat) (f : MemoryArea → MemoryArea) : Op Unit := modify (fun s => s.withArea b f)

end Sys2Proof.Machine
end

