-- ==== Sys2Proof/Machine/Engine.lean ====
section
/-! DEFINITION. The engine: the status decoder (R200), stopping the target (R170), the serial exchange (R130 to R138),
resynchronization (R140) and the session's own initialisation (R164, R165, R176). Shared by the operations of
Machine/Lifecycle.lean and Machine/Serial.lean. -/

namespace Sys2Proof.Machine

open Sys2Proof

/-- `getStatus()`: one `ReadSTAT`, decoded afresh (R200). -/
def readStatus : Op (BitVec 4) := do
  useCap Caps.getStatus
  let x ← openedSession
  let s ← readStat
  let b := decodeStatus x.sense s
  setSt b
  pure b

/-- The loop of `pollFreeze()`, with the polls left: delay, then sample (R170). -/
def pollFreeze : Nat → Op Bool
  | 0 => pure false
  | k + 1 => do
    setPoll (k + 1)
    let x ← openedSession
    delay x.minDelay
    let st ← readStatus
    if targetStopped st then pure true else pollFreeze k

/-- `stopChip()` (R170). -/
def stopTarget : Op Unit := do
  useCap Caps.stopChip
  let v ← currentParams
  let st ← readStatus
  if targetStopped st then writeKept v.patterns.idle
  else do
    writeKept v.patterns.arm
    let x ← openedSession
    let frozen ← pollFreeze x.stopPollBound
    if frozen then writeKept v.patterns.idle
    else if v.forceBerr then do
      writeKept v.patterns.berr
      delay x.minDelay
      writeKept v.patterns.arm
      let frozen ← pollFreeze x.stopPollBound
      if frozen then writeKept v.patterns.idle else raise (.proto .response)
    else raise (.proto .response)

/-- The up-front status test of `serialClock` and `stepChip`: one sample, and the first fault in the order RESET, CABLE, POWER
(R131, R172, R203). -/
def checkAvailable : Op (BitVec 4) := do
  let st ← readStatus
  match unavailableFault st with
  | some f => raise (.proto f)
  | none => pure st

/-- `preconditions()` (R131). -/
def exchangePreconditions : Op Unit := do
  let st ← checkAvailable
  if targetStopped st then pure () else stopTarget

/-- The loop of `settlePoll`, with the polls left: it ends at the first low level, or when the polls run out (R132). -/
def settleLoop : Nat → Op Unit
  | 0 => pure ()
  | k + 1 => do
    setPoll (k + 1)
    let s ← readStat
    if statDso s then settleLoop k else pure ()

/-- `settlePoll(cmd, delayBits)`: in fast mode only (R132). -/
def settlePoll (cmd : Word16) (delayBits : Nat) : Op Unit := do
  let x ← openedSession
  let s ← get
  if x.fast && settleBefore s.params cmd delayBits then settleLoop settlePolls else pure ()

/-- A per-bit delay: skipped in fast mode (R133). -/
def bitDelay (x : Session) (k : Nat) : Op Unit := if x.fast then pure () else delay k

/-- `clockOneBit()`: present, raise, hold, sample and shift, lower, hold (R133). -/
def clockOneBit : Op Unit := do
  let x ← openedSession
  let v ← currentParams
  let acc ← getAcc
  let d := presentedBit acc
  setDbit d
  writeKept (pBit v.patterns.idle d false)
  writeKept (pBit v.patterns.idle d true)
  bitDelay x x.halfDelay
  let s ← readStat
  setAcc (shiftIn acc (recordedBit s))
  writeKept (pBit v.patterns.idle d false)
  bitDelay x x.baseDelay

/-- The bit loop, with the iterations left (R130). -/
def bitLoop : Nat → Op Unit
  | 0 => pure ()
  | k + 1 => do
    clockOneBit
    setCnt k
    bitLoop k

/-- `serialClock(cmd, delayBits)` (R130): the whole accumulator is returned, undecoded (R134, R136). -/
def serialExchange (cmd : Word16) (delayBits : Nat) : Op Word32 := do
  useCap Caps.serialClock
  if delayBits > 16 then raise .illegalOperation
  else do
    exchangePreconditions
    setAcc (startAcc cmd)
    setCnt (accBits - headerOffset - delayBits)
    settlePoll cmd delayBits
    bitLoop (accBits - headerOffset - delayBits)
    getAcc

/-- The NOP frames of `resynchronize`, results discarded (R140). -/
def nopFrames : Nat → Op Unit
  | 0 => pure ()
  | k + 1 => do
    let s ← get
    let _ ← serialExchange s.params.nopCmd 0
    nopFrames k

/-- The single-bit pulses of `resynchronize`, with the pulses left: it ends at the first idle level; `UNKNOWN` when none came (R140). -/
def idlePulses : Nat → Op Unit
  | 0 => raise (.proto .unknown)
  | k + 1 => do
    setPoll (k + 1)
    let s ← get
    let v ← serialExchange s.params.nopCmd 16
    let p ← currentParams
    if recordedLevel (v.getLsbD 0) = p.dsoIdle then pure () else idlePulses k

/-- `resynchronize()` (R140). -/
def resynchronizeTarget : Op Unit := do
  useCap Caps.resynchronize
  nopFrames resyncNops
  idlePulses resyncPulses

/-- The timing fields for a base delay (R30, R176). -/
def Session.withSpeed (x : Session) (p : Params) (base : Nat) : Session :=
  { x with
    baseDelay := base
    shortDelay := (deriveDelays p base).shortDelay
    halfDelay := (deriveDelays p base).halfDelay
    longDelay := (deriveDelays p base).longDelay
    minDelay := (deriveDelays p base).minDelay
    stopPollBound := stopPollBoundOf p base
    fast := base == 0 }

/-- The fields INIT writes (R164). -/
def Session.initialised (x : Session) (p : Params) : Session :=
  { x.withSpeed p p.defaultBaseDelay with resetExtraDelay := p.resetExtraDelay, sense := false, debugLevel := 0 }

/-- The capability table of a variant (R166). -/
def capsOf (v : Variant) : Caps :=
  { init := true, deinit := true, getStatus := true, resetChip := true, restartChip := true, stopChip := true
    stepChip := true, releaseChip := true, serialClock := true, setLed := decide (v ≠ .pd), resynchronize := true }

/-- A session as OPEN creates it (R160). The fields other than the variant and the capability table have no value until INIT,
which OPEN calls at once, has written them. DESIGN CHOICE, safe: notes/assumptions/20.md. -/
def newSession (v : Variant) : Session :=
  { variant := v, caps := capsOf v, shadow := 0, baseDelay := 0, shortDelay := 0, halfDelay := 0, longDelay := 0
    minDelay := 0, resetExtraDelay := 0, fast := false, stopPollBound := 0, sense := false, debugLevel := 0 }

/-- `INIT()` (R164). -/
def initSession : Op Unit := do
  useCap Caps.init
  let s ← get
  updateSession (fun x => x.initialised s.params)
  let v ← currentParams
  writeCtrl v.patterns.run

/-- `DEINIT()` (R165). -/
def deinitSession : Op Unit := do
  useCap Caps.deinit
  let v ← currentParams
  writeCtrl v.patterns.released

end Sys2Proof.Machine
end

