-- ==== Sys2Proof/Machine/Lifecycle.lean ====
section
/-! DEFINITION. The meanings of OPEN, CLOSE and the twelve lifecycle commands (R160 to R184). Every one but OPEN ends with
`NOT_OPEN` on a channel without a session (R162). -/

namespace Sys2Proof.Machine

open Sys2Proof

/-- INIT, `op = 0x00` (R164). -/
def execInit (s : State) : Host.Outcome State Fault Refusal :=
  runOp (do
    initSession
    pure .ok) s

/-- DEINIT, `op = 0x01` (R165). -/
def execDeinit (s : State) : Host.Outcome State Fault Refusal :=
  runOp (do
    deinitSession
    pure .ok) s

/-- RESET_CHIP, `op = 0x02` (R173). -/
def execResetChip (s : State) : Host.Outcome State Fault Refusal :=
  runOp (do
    useCap Caps.resetChip
    let x ← openedSession
    let v ← currentParams
    writeKept v.patterns.reset
    delay (x.longDelay + x.resetExtraDelay)
    writeKept v.patterns.run
    delay x.longDelay
    pure .ok) s

/-- RESTART_CHIP, `op = 0x03` (R174). -/
def execRestartChip (s : State) : Host.Outcome State Fault Refusal :=
  runOp (do
    useCap Caps.restartChip
    let x ← openedSession
    let v ← currentParams
    writeKept v.patterns.resetArm
    delay (x.longDelay + x.resetExtraDelay)
    writeKept v.patterns.arm
    delay x.longDelay
    stopTarget
    if v.resyncAfterRestart then resynchronizeTarget
    pure .ok) s

/-- STOP_CHIP, `op = 0x04` (R170). -/
def execStopChip (s : State) : Host.Outcome State Fault Refusal :=
  runOp (do
    stopTarget
    pure .ok) s

/-- The last bit of STEP_CHIP, clocked over the armed pattern with no sample taken (R172). -/
def clockArmedBit (d : Bool) : Op Unit := do
  let x ← openedSession
  let v ← currentParams
  writeKept (v.patterns.arm ||| dsi d)
  writeKept (v.patterns.arm ||| dsi d ||| clk true)
  bitDelay x x.halfDelay
  writeKept (v.patterns.arm ||| dsi d)
  bitDelay x x.baseDelay

/-- STEP_CHIP, `op = 0x05` (R172). -/
def execStepChip (s : State) : Host.Outcome State Fault Refusal :=
  runOp (do
    useCap Caps.stepChip
    let _ ← checkAvailable
    let t ← get
    let _ ← serialExchange t.params.goCmd 1
    clockArmedBit (t.params.goCmd.getLsbD 0)
    stopTarget
    let v ← currentParams
    if v.resyncAfterStep then resynchronizeTarget
    pure .ok) s

/-- GET_STATUS, `op = 0x06` (R177). -/
def execGetStatus (s : State) : Host.Outcome State Fault Refusal :=
  runOp (do
    let b ← readStatus
    pure (.status b)) s

/-- RELEASE_CHIP, `op = 0x07` (R175). -/
def execReleaseChip (s : State) : Host.Outcome State Fault Refusal :=
  runOp (do
    useCap Caps.releaseChip
    let x ← openedSession
    let v ← currentParams
    writeKept v.patterns.reset
    delay (x.longDelay + x.resetExtraDelay)
    writeCtrl v.patterns.released
    pure .ok) s

/-- SPEED, `op = 0x08` (R176). -/
def execSpeed (base : Nat) (s : State) : Host.Outcome State Fault Refusal :=
  runOp (do
    let _ ← openedSession
    let t ← get
    updateSession (fun x => x.withSpeed t.params base)
    pure .ok) s

/-- SENSE_CABLE, `op = 0x09` (R178). -/
def execSenseCable (flag : Nat) (s : State) : Host.Outcome State Fault Refusal :=
  runOp (do
    let _ ← openedSession
    updateSession (fun x => { x with sense := isOn flag })
    pure .ok) s

/-- DEBUG_LEVEL, `op = 0x0A` (R179). -/
def execDebugLevel (level : Nat) (s : State) : Host.Outcome State Fault Refusal :=
  runOp (do
    let _ ← openedSession
    updateSession (fun x => { x with debugLevel := level })
    pure .ok) s

/-- SET_LED, `op = 0x0B` (R180): absent from the capability table of `PD` (R166) and in the `DIRECT` encoding. -/
def execSetLed (flag : Nat) (s : State) : Host.Outcome State Fault Refusal :=
  runOp (do
    useCap Caps.setLed
    let x ← openedSession
    let v ← currentParams
    if v.encoding = .direct then raise .illegalOperation
    else do
      writeCtrl (ledPattern x.shadow (isOn flag))
      pure .ok) s

/-- OPEN, `op = 0x1E` (R160). -/
def execOpenSession (variant : Nat) (s : State) : Host.Outcome State Fault Refusal :=
  runOp (do
    match variantOf variant with
    | none => raise .openFail
    | some v => do
      let t ← get
      if t.owned then raise .openFail
      else do
        set { t with owned := true, session := some (newSession v) }
        initSession
        pure .ok) s

/-- CLOSE, `op = 0x1F` (R161). -/
def execCloseSession (s : State) : Host.Outcome State Fault Refusal :=
  runOp (do
    let t ← get
    if t.owned then do
      deinitSession
      modify (fun u => { u with session := none, owned := false })
      pure .ok
    else raise .notOpen) s

end Sys2Proof.Machine
end

