-- ==== Sys2Proof/Machine/FlashCommon.lean ====
section
/-! DEFINITION. What the flash controllers share (R240 to R257): the end of a family operation, the probe attempt, the cell loop
of `program`, the erase verify and the sector geometry. -/

namespace Sys2Proof.Machine

open Sys2Proof

/-- A completed family operation that moves no bytes (R104). -/
def flashDone (st : FlashStatus) : FlashResult := { count := 0, status := st }

/-- A failed access ends the operation with `{0, ACCESS(f)}` (R250). -/
def orAccess (m : Op FlashResult) : Op FlashResult := fun s =>
  match m s with
  | .error (.access f) t => .ok (flashDone (.access f)) t
  | r => r

/-- A failed access ends a step with the status `ACCESS(f)`; its caller counts the bytes done (R250). -/
def orAccessStatus (m : Op FlashStatus) : Op FlashStatus := fun s =>
  match m s with
  | .error (.access f) t => .ok (.access f) t
  | r => r

/-- A family operation on the area that begins at `b`: failed accesses become its status (R250), and the status sets `ERROR`
(R249 (c)). -/
def familyOp (b : Nat) (m : Op FlashResult) : Op FlashResult := do
  let r ← orAccess m
  updateArea b (fun a => a.afterStatus r.status)
  pure r

/-- A probe: no area is bound yet, so no flag changes; a failed access gives `{0, none, ACCESS(f)}` (R241). -/
def probeOp (m : Op ProbeResult) : Op ProbeResult := fun s =>
  match m s with
  | .error (.access f) t => .ok { size := 0, binding := none, status := .access f } t
  | r => r

/-- A probe without a match (R241). -/
def noMatch : ProbeResult := { size := 0, binding := none, status := .ok }

/-- The width pairs `(busWidth, chipWidth)` in search order (R242). -/
def widthPairs : List (Nat × Nat) := [(1, 1), (2, 1), (2, 2), (4, 1), (4, 2), (4, 4)]

/-- The pairs tried at an address: those whose accesses are naturally aligned (R242). -/
def pairsAt (addr : Nat) : List (Nat × Nat) := widthPairs.filter (fun p => addr % p.1 == 0)

/-- The guard of an attempt that found a row: the complement of the identifier word is stored and read back; a store that stuck is
RAM (R243). -/
def aliasGuard {ρ : Type} (addr busWidth : Nat) (man : BusWord) (row : ρ) : Op (Option ρ) := do
  wr addr (complement man)
  let r ← rd addr busWidth
  pure (if r = complement man then none else some row)

/-- One probe attempt for a width pair (R243): `idEnter` is the family's ID-entry sequence, `resetWord` its return-to-array command,
`row` the table search for a manufacturer and a device identifier. -/
def probeAttempt {ρ : Type} (addr busWidth chipWidth : Nat) (idEnter : List (Nat × BusWord)) (resetWord : BusWord)
    (row : Nat → Nat → Option ρ) : Op (Option ρ) := do
  let orig ← rd addr busWidth
  wrAll idEnter
  let man ← rd addr busWidth
  let dev ← rd (addr + busWidth) busWidth
  let found :=
    match agreedValue busWidth chipWidth man, agreedValue busWidth chipWidth dev with
    | some m, some v => row m v
    | _, _ => none
  let hit ←
    match found with
    | none => pure none
    | some e => aliasGuard addr busWidth man e
  wr addr resetWord
  let back ← rd addr busWidth
  if back ≠ orig then do
    wr addr orig
    pure hit
  else pure hit

/-- `sectorRange(d, addr)` for a uniform geometry (R254). -/
def uniformSector (chip : ChipCommon) (addr : Nat) : Nat × Nat :=
  (chip.base + (addr - chip.base) / chip.sectorSize * chip.sectorSize,
    chip.base + (addr - chip.base) / chip.sectorSize * chip.sectorSize + chip.sectorSize - 1)

/-- The loop of `verifyErased`, with the cells left (R253). -/
def verifyCells (busWidth : Nat) : Nat → Nat → Op FlashStatus
  | 0, _ => pure .ok
  | k + 1, c => do
    let v ← rd c busWidth
    if v = allOnes busWidth then verifyCells busWidth k (c + busWidth) else pure .verifyMismatch

/-- `verifyErased(lo, hi, W)`: every cell of the range, in ascending order, until one is not all ones (R253). -/
def verifyErased (lo hi busWidth : Nat) : Op FlashStatus :=
  verifyCells busWidth ((hi + 1 - lo + (busWidth - 1)) / busWidth) lo

/-- One cell of the cell loop (R244): read, merge, skip when the cell already holds the value (R246), else the family's cell step. -/
def programOneCell (busWidth : Nat) (programCell : Nat → BusWord → Op FlashStatus) (addr count : Nat)
    (data : Nat → Byte) (done c : Nat) : Op FlashStatus := do
  let cur ← rd c busWidth
  let want := mergeCell cur (max addr c - c) (min (addr + count) (c + busWidth) - c) data done
  if want = cur then pure .ok else programCell c want

/-- The cell loop of `program` (R244), with a bound on the cells left: each cell holds at least one payload byte. -/
def cellLoop (busWidth : Nat) (programCell : Nat → BusWord → Op FlashStatus) (addr count : Nat)
    (data : Nat → Byte) : Nat → Nat → Nat → Op FlashResult
  | 0, _, _ => pure { count := count, status := .ok }
  | k + 1, done, c =>
    if done < count then do
      let st ← orAccessStatus (programOneCell busWidth programCell addr count data done c)
      if st = .ok then
        cellLoop busWidth programCell addr count data k
          (done + (min (addr + count) (c + busWidth) - c - (max addr c - c))) (c + busWidth)
      else pure { count := done, status := st }
    else pure { count := count, status := .ok }

/-- The cell loop from the first cell of the payload (R244). -/
def programCells (busWidth : Nat) (programCell : Nat → BusWord → Op FlashStatus) (addr count : Nat)
    (data : Nat → Byte) : Op FlashResult :=
  cellLoop busWidth programCell addr count data count 0 (addr - addr % busWidth)

/-- `ERASED` of the area that begins at `b` (R249 (a), (b)). -/
def markErased (b : Nat) (v : Bool) : Op Unit := updateArea b (fun a => a.withErased v)

/-- The area a family operation acts on, entered outside the registry's host operations: it must own the whole range
(R257). A range it does not own is refused. -/
def areaOwning (addr count : Nat) : Op MemoryArea := do
  let a ← owningArea addr
  if addr + count ≤ a.endAddr + 1 then pure a else raise .illegalOperation

end Sys2Proof.Machine
end

