-- ==== Sys2Proof/Machine/Amd.lean ====
section
/-! DEFINITION. The AMD/SST 29F-style flash controller (R260 to R278). -/

namespace Sys2Proof.Machine

open Sys2Proof

/-- The descriptor of the area that begins at `b`; an area of another algorithm has no AMD capability (R163, R257). DEDUCED, unsafe:
notes/assumptions/15.md. -/
def amdDescriptor (b : Nat) : Op AmdDescriptor := do
  match (← owningArea b).binding with
  | .amd d => pure d
  | _ => raise .illegalOperation

/-- `U1` (R108, R260). -/
def AmdDescriptor.u1 (d : AmdDescriptor) : Nat := d.chip.base + d.numbers.unlock1Addr * d.chip.busWidth

/-- `U2` (R108, R260). -/
def AmdDescriptor.u2 (d : AmdDescriptor) : Nat := d.chip.base + d.numbers.unlock2Addr * d.chip.busWidth

/-- `unlock` (R261). -/
def amdUnlock (d : AmdDescriptor) : List (Nat × BusWord) :=
  [(d.u1, rep d.chip d.numbers.unlock1Val), (d.u2, rep d.chip d.numbers.unlock2Val)]

/-- `idEnter` (R261). -/
def amdIdEnter (d : AmdDescriptor) : List (Nat × BusWord) := amdUnlock d ++ [(d.u1, rep d.chip d.numbers.cmdId)]

/-- `programCmd(c, want)` (R261). -/
def amdProgramCmd (d : AmdDescriptor) (c : Nat) (want : BusWord) : List (Nat × BusWord) :=
  amdUnlock d ++ [(d.u1, rep d.chip d.numbers.cmdProgram), (c, want)]

/-- The writes shared by the two erase sequences (R261). -/
def amdEraseSetup (d : AmdDescriptor) : List (Nat × BusWord) :=
  amdUnlock d ++ [(d.u1, rep d.chip d.numbers.cmdErase)] ++ amdUnlock d

/-- `eraseSectorCmd(lo)` (R261). -/
def amdEraseSectorCmd (d : AmdDescriptor) (lo : Nat) : List (Nat × BusWord) :=
  amdEraseSetup d ++ [(lo, rep d.chip d.numbers.cmdEraseSector)]

/-- `eraseAllCmd` (R261). -/
def amdEraseAllCmd (d : AmdDescriptor) : List (Nat × BusWord) :=
  amdEraseSetup d ++ [(d.u1, rep d.chip d.numbers.cmdEraseAll)]

/-- `reset` (R261). -/
def amdReset (d : AmdDescriptor) : Op Unit := wr d.chip.base (rep d.chip d.numbers.cmdReset)

/-- The lanes of one toggle test, from a list of lane numbers on (R269): none when a lane was still toggling after its timeout bit was
seen, else whether some lane is still busy. -/
def toggleLanes (d : AmdDescriptor) (c : Nat) (prev cur : BusWord) : List Nat → Bool → Op (Option Bool)
  | [], busy => pure (some busy)
  | l :: ls, busy =>
    if lane d.chip.chipWidth prev l = lane d.chip.chipWidth cur l then toggleLanes d c prev cur ls busy
    else if laneHas (lane d.chip.chipWidth cur l) d.numbers.timeoutMask then do
      let a ← rd c d.chip.busWidth
      let b ← rd c d.chip.busWidth
      if lane d.chip.chipWidth a l = lane d.chip.chipWidth b l then toggleLanes d c prev cur ls true
      else pure none
    else toggleLanes d c prev cur ls true

/-- The loop of `togglePoll`, with the polls left (R269). -/
def toggleLoop (d : AmdDescriptor) (c : Nat) : Nat → BusWord → Op FlashStatus
  | 0, _ => do
    amdReset d
    pure .pollTimeout
  | k + 1, prev => do
    setPoll (k + 1)
    let cur ← rd c d.chip.busWidth
    let busy ← toggleLanes d c prev cur (List.range (laneCount d.chip.busWidth d.chip.chipWidth)) false
    match busy with
    | none => do
      amdReset d
      pure .deviceFault
    | some false => pure .ok
    | some true => toggleLoop d c k cur

/-- `togglePoll@AMD(A, c)` (R269). -/
def togglePoll (d : AmdDescriptor) (c : Nat) : Op FlashStatus := do
  let prev ← rd c d.chip.busWidth
  let s ← get
  toggleLoop d c s.params.flashPollBound prev

/-- `pendingErase` of an AMD area (R260). -/
def MemoryArea.withPending (a : MemoryArea) (p : PendingErase) : MemoryArea :=
  match a.binding with
  | .amd d => { a with binding := .amd { d with pendingErase := p } }
  | _ => a

/-- The range an erase in flight covers (R275); none when there is no erase in flight. -/
def AmdDescriptor.pendingRange (d : AmdDescriptor) : Option (Nat × Nat) :=
  match d.pendingErase with
  | .none => none
  | .sector lo hi => some (lo, hi)
  | .whole => some (d.chip.base, d.chip.base + d.chip.size - 1)

/-- The wait for an erase in flight over `lo .. hi` (R275). -/
def amdAwaitErase (b : Nat) (d : AmdDescriptor) (lo hi : Nat) : Op FlashResult := do
  updateArea b (fun a => a.withPending .none)
  let st ← togglePoll d lo
  if st ≠ .ok then pure (flashDone st)
  else do
    let st ← verifyErased lo hi d.chip.busWidth
    if st ≠ .ok then pure (flashDone st)
    else do
      if d.pendingErase = .whole then markErased b true
      pure (flashDone .ok)

/-- `eraseWait@AMD(A)` (R275). -/
def amdEraseWaitOp (b : Nat) : Op FlashResult :=
  familyOp b (do
    let d ← amdDescriptor b
    match d.pendingRange with
    | none => pure (flashDone .ok)
    | some (lo, hi) => amdAwaitErase b d lo hi)

/-- `prepare@AMD(A)` (R270): an erase in flight is waited for first; a status other than `OK` ends the caller. -/
def amdPrepare (b : Nat) (next : Op FlashResult) : Op FlashResult := do
  let d ← amdDescriptor b
  if d.pendingErase = .none then next
  else do
    let r ← amdEraseWaitOp b
    if r.status = .ok then next else pure (flashDone r.status)

/-- `programCell@AMD(A, c, want)` (R268). -/
def amdProgramCell (b : Nat) (d : AmdDescriptor) (c : Nat) (want : BusWord) : Op FlashStatus := do
  wrAll (amdProgramCmd d c want)
  markErased b false
  let st ← togglePoll d c
  if st ≠ .ok then pure st
  else do
    let v ← rd c d.chip.busWidth
    pure (if v = want then .ok else .verifyMismatch)

/-- `program@AMD(A, addr, count, data)` (R244, R268). A count of 0 runs the `prepare` hook all the same (R252), so a pending erase is waited for, and
the status of a wait that ends badly is returned; D49 says that a program of length 0 makes no access. DEDUCED, unsafe: notes/assumptions/35.md. -/
def amdProgramOp (b addr count : Nat) (data : Nat → Byte) : Op FlashResult :=
  familyOp b (amdPrepare b (do
    let d ← amdDescriptor b
    programCells d.chip.busWidth (amdProgramCell b d) addr count data))

/-- An erase command on the area that begins at `b`: `ERASED` cleared at the point the command is about to be written (R249 (a), the text C9 of
90_conflicts.md fixed), then the steps of R272 and R273 in their order: the six writes, the erase recorded as pending, `ERASED` cleared. That the first
clearing stands although the steps have only the second, which a write that fails shows: DEDUCED, unsafe: notes/assumptions/21.md. -/
def amdStartErase (b : Nat) (command : List (Nat × BusWord)) (p : PendingErase) : Op FlashResult := do
  markErased b false
  wrAll command
  updateArea b (fun a => a.withPending p)
  markErased b false
  pure (flashDone .ok)

/-- `eraseSector@AMD(A, addr)` (R272). -/
def amdEraseSectorOp (b addr : Nat) : Op FlashResult :=
  familyOp b (amdPrepare b (do
    let d ← amdDescriptor b
    amdStartErase b (amdEraseSectorCmd d (uniformSector d.chip addr).1)
      (.sector (uniformSector d.chip addr).1 (uniformSector d.chip addr).2)))

/-- `eraseAll@AMD(A)` (R273). -/
def amdEraseAllOp (b : Nat) : Op FlashResult :=
  familyOp b (amdPrepare b (do
    let d ← amdDescriptor b
    amdStartErase b (amdEraseAllCmd d) .whole))

/-- `blankCheck@AMD(A, addr)`: an explicit unimplemented capability (R276). -/
def amdBlankCheckOp (b : Nat) : Op FlashResult :=
  familyOp b (do
    let _ ← amdDescriptor b
    pure (flashDone .unimplemented))

/-- The descriptor `d0` of a probe attempt (R264). DEDUCED, safe: notes/assumptions/26.md. -/
def amdProbeDescriptor (p : Params) (addr busWidth chipWidth : Nat) : AmdDescriptor :=
  { chip := { base := addr, size := 0, name := "", busWidth, chipWidth, sectorSize := 0 }
    manId := 0, devId := 0, numbers := p.amdNumbers, pendingErase := .none }

/-- The descriptor of a matched row (R264). -/
def amdMatched (p : Params) (addr busWidth chipWidth : Nat) (e : AmdRow) : AmdDescriptor :=
  { chip :=
      { base := addr, size := e.chipSize * (busWidth / chipWidth), name := e.name, busWidth, chipWidth
        sectorSize := e.sectorSize * (busWidth / chipWidth) }
    manId := e.manId, devId := e.devId, numbers := e.overrides.getD p.amdNumbers, pendingErase := .none }

/-- The row of `AMD_TABLE` for an identifier pair: the first in ascending order of chip size (R242, R243), and among rows of
equal size the first of the table, DESIGN CHOICE: notes/assumptions/37.md. -/
def amdRow (p : Params) (chipWidth man dev : Nat) : Option AmdRow :=
  (sortBy AmdRow.chipSize p.amdTable).find?
    (fun e => e.manId == man && e.devId == dev && e.chipWidth == chipWidth)

/-- The width search of `probe@AMD` (R242, R264). -/
def amdProbePairs (addr : Nat) : List (Nat × Nat) → Op ProbeResult
  | [] => pure noMatch
  | (w, c) :: rest => do
    let s ← get
    let d := amdProbeDescriptor s.params addr w c
    let hit ← probeAttempt addr w c (amdIdEnter d) (rep d.chip d.numbers.cmdReset) (amdRow s.params c)
    match hit with
    | some e =>
      pure { size := (amdMatched s.params addr w c e).chip.size
             binding := some (.amd (amdMatched s.params addr w c e)), status := .ok }
    | none => amdProbePairs addr rest

/-- `probe@AMD(addr)` (R264). -/
def amdProbeOp (addr : Nat) : Op ProbeResult := probeOp (amdProbePairs addr (pairsAt addr))

/-- AMD.PROBE, internal selector `0x40` (R264). -/
def execAmdProbe (address : Nat) (s : State) : Host.Outcome State Fault Refusal :=
  runOp (do
    let r ← amdProbeOp address
    pure (.probe r)) s

/-- AMD.PROGRAM, internal selector `0x41` (R268). -/
def execAmdProgram (address count : Nat) (s : State) : Host.Outcome State Fault Refusal :=
  runOp (do
    let a ← areaOwning address count
    let r ← amdProgramOp a.beginAddr address count s.dataByte
    pure (.flash r)) s

/-- AMD.ERASE_SECTOR, internal selector `0x42` (R272). -/
def execAmdEraseSector (address : Nat) (s : State) : Host.Outcome State Fault Refusal :=
  runOp (do
    let a ← owningArea address
    let r ← amdEraseSectorOp a.beginAddr address
    pure (.flash r)) s

/-- AMD.ERASE_ALL, internal selector `0x43` (R273). -/
def execAmdEraseAll (s : State) : Host.Outcome State Fault Refusal :=
  runOp (do
    let a ← owningArea s.areaSel
    let r ← amdEraseAllOp a.beginAddr
    pure (.flash r)) s

/-- AMD.ERASE_WAIT, internal selector `0x44` (R275). -/
def execAmdEraseWait (s : State) : Host.Outcome State Fault Refusal :=
  runOp (do
    let a ← owningArea s.areaSel
    let r ← amdEraseWaitOp a.beginAddr
    pure (.flash r)) s

/-- AMD.BLANK_CHECK, internal selector `0x45` (R276). -/
def execAmdBlankCheck (address : Nat) (s : State) : Host.Outcome State Fault Refusal :=
  runOp (do
    let a ← owningArea address
    let r ← amdBlankCheckOp a.beginAddr
    pure (.flash r)) s

end Sys2Proof.Machine
end

