-- ==== Sys2Proof/Machine/Cfm.lean ====
section
/-! DEFINITION. The Freescale CFM flash controller (R290 to R302). -/

namespace Sys2Proof.Machine

open Sys2Proof

/-- The descriptor of the area that begins at `b`; an area of another algorithm has no CFM capability (R163, R257). DEDUCED, unsafe:
notes/assumptions/15.md. -/
def cfmDescriptor (b : Nat) : Op CfmDescriptor := do
  match (← owningArea b).binding with
  | .cfm d => pure d
  | _ => raise .illegalOperation

/-- `UST` (R290). -/
def CfmDescriptor.ust (d : CfmDescriptor) : Nat := d.regBase + d.numbers.ustatOff

/-- `CMD` (R290). -/
def CfmDescriptor.cmd (d : CfmDescriptor) : Nat := d.regBase + d.numbers.cmdOff

/-- `BD(a)` (R290). -/
def CfmDescriptor.backdoor (d : CfmDescriptor) (a : Nat) : Nat := d.backdoorBase + (a - d.chip.base)

/-- `PVIOL or ACCERR` (R291, R296). -/
def CfmDescriptor.faultMask (d : CfmDescriptor) : Byte := d.numbers.pviol ||| d.numbers.accerr

/-- The four writes of a command: clear stale error flags, latch through the backdoor, the command, launch (R291). -/
def cfmCommandWrites (d : CfmDescriptor) (a : Nat) (v : BusWord) (code : Byte) : List (Nat × BusWord) :=
  [(d.ust, [d.faultMask]), (d.backdoor a, v), (d.cmd, [code]), (d.ust, [d.numbers.cbeif])]

/-- One of the two completion loops, with the polls left: until the awaited bit is set, or a fault bit is (R291, R296). -/
def cfmPoll (d : CfmDescriptor) (awaited : Byte) : Nat → Op FlashStatus
  | 0 => pure .pollTimeout
  | k + 1 => do
    setPoll (k + 1)
    let s ← rd d.ust 1
    if laneHas s d.faultMask then pure .deviceFault
    else if laneHas s awaited then pure .ok
    else cfmPoll d awaited k

/-- `cfmCommand(A, a, v, code)` (R291): "command buffer empty" first, then "command complete". -/
def cfmCommand (d : CfmDescriptor) (a : Nat) (v : BusWord) (code : Byte) : Op FlashStatus := do
  wrAll (cfmCommandWrites d a v code)
  let s ← get
  let st ← cfmPoll d d.numbers.cbeif s.params.flashPollBound
  if st ≠ .ok then pure st else cfmPoll d d.numbers.ccif s.params.flashPollBound

/-- `programCell@CFM(A, c, want)` (R293). -/
def cfmProgramCell (b : Nat) (d : CfmDescriptor) (c : Nat) (want : BusWord) : Op FlashStatus := do
  markErased b false
  let st ← cfmCommand d c want d.numbers.cmdProgram
  if st ≠ .ok then pure st
  else do
    let v ← rd c 4
    pure (if v = want then .ok else .verifyMismatch)

/-- `program@CFM(A, addr, count, data)`: the cell loop with `W = 4` (R293). -/
def cfmProgramOp (b addr count : Nat) (data : Nat → Byte) : Op FlashResult :=
  familyOp b (do
    let d ← cfmDescriptor b
    programCells 4 (cfmProgramCell b d) addr count data)

/-- An erase of `lo .. hi`: it blocks, and is verified (R297). -/
def cfmErase (d : CfmDescriptor) (lo hi : Nat) (code : Byte) : Op FlashStatus := do
  let st ← cfmCommand d lo (allOnes 4) code
  if st ≠ .ok then pure st else verifyErased lo hi 4

/-- `eraseSector@CFM(A, addr)` (R297). -/
def cfmEraseSectorOp (b addr : Nat) : Op FlashResult :=
  familyOp b (do
    let d ← cfmDescriptor b
    markErased b false
    let st ← cfmErase d (uniformSector d.chip addr).1 (uniformSector d.chip addr).2 d.numbers.cmdPageErase
    pure (flashDone st))

/-- `eraseAll@CFM(A)` (R298). -/
def cfmEraseAllOp (b : Nat) : Op FlashResult :=
  familyOp b (do
    let d ← cfmDescriptor b
    markErased b false
    let st ← cfmErase d d.chip.base (d.chip.base + d.chip.size - 1) d.numbers.cmdMassErase
    if st = .ok then markErased b true
    pure (flashDone st))

/-- `eraseWait@CFM(A)`: no bus access (R299). -/
def cfmEraseWaitOp (b : Nat) : Op FlashResult :=
  familyOp b (do
    let _ ← cfmDescriptor b
    pure (flashDone .ok))

/-- `blankCheck@CFM(A, addr)`: the command checks the whole array (R300). -/
def cfmBlankCheckOp (b : Nat) : Op FlashResult :=
  familyOp b (do
    let d ← cfmDescriptor b
    let st ← cfmCommand d d.chip.base (allOnes 4) d.numbers.cmdBlankCheck
    if st ≠ .ok then pure (flashDone st)
    else do
      let s ← rd d.ust 1
      if laneHas s d.numbers.blank then do
        wr d.ust [d.numbers.blank]
        pure (flashDone .ok)
      else pure (flashDone .blankFail))

/-- The status bits that must be clear in an idle module, `0x0B` (R292). -/
def cfmReservedMask : Byte := 0x0B

/-- The descriptor of a matched row (R292). -/
def cfmMatched (p : Params) (addr : Nat) (e : CfmRow) : CfmDescriptor :=
  { chip := { base := addr, size := e.size, name := e.name, busWidth := 4, chipWidth := 4, sectorSize := e.pageSize }
    regBase := e.regBase, backdoorBase := e.backdoorBase, numbers := p.cfmNumbers }

/-- The presence test of each candidate row (R292). -/
def cfmProbeRows (addr : Nat) : List CfmRow → Op ProbeResult
  | [] => pure noMatch
  | e :: rest => do
    let s ← get
    let v ← rd (e.regBase + s.params.cfmNumbers.ustatOff) 1
    if laneHas v s.params.cfmNumbers.ccif && !laneHas v cfmReservedMask then
      pure { size := e.size, binding := some (.cfm (cfmMatched s.params addr e)), status := .ok }
    else cfmProbeRows addr rest

/-- `probe@CFM(addr)`: the rows with `arrayBase = addr`, in ascending order of size (R292); rows of equal size in the order of the
table, DESIGN CHOICE: notes/assumptions/37.md. -/
def cfmProbeOp (addr : Nat) : Op ProbeResult :=
  probeOp (do
    let s ← get
    cfmProbeRows addr (sortBy CfmRow.size (s.params.cfmTable.filter (fun e => e.arrayBase == addr))))

/-- CFM.PROBE, internal selector `0x50` (R292). -/
def execCfmProbe (address : Nat) (s : State) : Host.Outcome State Fault Refusal :=
  runOp (do
    let r ← cfmProbeOp address
    pure (.probe r)) s

/-- CFM.PROGRAM, internal selector `0x51` (R293). -/
def execCfmProgram (address count : Nat) (s : State) : Host.Outcome State Fault Refusal :=
  runOp (do
    let a ← areaOwning address count
    let r ← cfmProgramOp a.beginAddr address count s.dataByte
    pure (.flash r)) s

/-- CFM.ERASE_SECTOR, internal selector `0x52` (R297). -/
def execCfmEraseSector (address : Nat) (s : State) : Host.Outcome State Fault Refusal :=
  runOp (do
    let a ← owningArea address
    let r ← cfmEraseSectorOp a.beginAddr address
    pure (.flash r)) s

/-- CFM.ERASE_ALL, internal selector `0x53` (R298). -/
def execCfmEraseAll (s : State) : Host.Outcome State Fault Refusal :=
  runOp (do
    let a ← owningArea s.areaSel
    let r ← cfmEraseAllOp a.beginAddr
    pure (.flash r)) s

/-- CFM.ERASE_WAIT, internal selector `0x54` (R299). -/
def execCfmEraseWait (s : State) : Host.Outcome State Fault Refusal :=
  runOp (do
    let a ← owningArea s.areaSel
    let r ← cfmEraseWaitOp a.beginAddr
    pure (.flash r)) s

/-- CFM.BLANK_CHECK, internal selector `0x55` (R300). -/
def execCfmBlankCheck (address : Nat) (s : State) : Host.Outcome State Fault Refusal :=
  runOp (do
    let a ← owningArea address
    let r ← cfmBlankCheckOp a.beginAddr
    pure (.flash r)) s

end Sys2Proof.Machine
end

