-- ==== Sys2Proof/Machine/Intel.lean ====
section
/-! DEFINITION. The Intel C3/P30 flash controller (R310 to R325). -/

namespace Sys2Proof.Machine

open Sys2Proof

/-- The descriptor of the area that begins at `b`; an area of another algorithm has no INTEL capability (R163, R257). DEDUCED, unsafe:
notes/assumptions/15.md. -/
def intelDescriptor (b : Nat) : Op IntelDescriptor := do
  match (← owningArea b).binding with
  | .intel d => pure d
  | _ => raise .illegalOperation

/-- The sectors of a region list laid out upward from `base` (R254). -/
def sectorsFrom : Nat → List (Nat × Nat) → List (Nat × Nat)
  | _, [] => []
  | base, (n, size) :: rest =>
    (List.range n).map (fun i => (base + i * size, base + i * size + size - 1)) ++ sectorsFrom (base + n * size) rest

/-- `sectors(d)` (R254). -/
def IntelDescriptor.sectors (d : IntelDescriptor) : List (Nat × Nat) := sectorsFrom d.chip.base d.regions

/-- `sectorRange(d, addr)` (R254); none for an address outside the sectors, which the registry never passes (R257). -/
def IntelDescriptor.sectorRange (d : IntelDescriptor) (addr : Nat) : Option (Nat × Nat) :=
  d.sectors.find? (fun r => decide (r.1 ≤ addr) && decide (addr ≤ r.2))

/-- The sector that holds an address. -/
def intelSector (d : IntelDescriptor) (addr : Nat) : Op (Nat × Nat) :=
  match d.sectorRange addr with
  | some r => pure r
  | none => raise .illegalOperation

/-- `readArray` (R311). -/
def intelReadArray (d : IntelDescriptor) : Op Unit := wr d.chip.base (rep d.chip d.numbers.cmdReadArray)

/-- `clearStatus` (R311). -/
def intelClearStatus (d : IntelDescriptor) : Op Unit := wr d.chip.base (rep d.chip d.numbers.cmdClearStatus)

/-- `unlockSector(s)` (R311). -/
def intelUnlock (d : IntelDescriptor) (s : Nat) : List (Nat × BusWord) :=
  [(s, rep d.chip d.numbers.cmdLockSetup), (s, rep d.chip d.numbers.cmdConfirm)]

/-- `programCmd(c, want)` (R311). -/
def intelProgramCmd (d : IntelDescriptor) (c : Nat) (want : BusWord) : List (Nat × BusWord) :=
  [(c, rep d.chip d.numbers.cmdProgram), (c, want)]

/-- `eraseCmd(s)` (R311). -/
def intelEraseCmd (d : IntelDescriptor) (s : Nat) : List (Nat × BusWord) :=
  [(s, rep d.chip d.numbers.cmdEraseSetup), (s, rep d.chip d.numbers.cmdConfirm)]

/-- The loop of `statusPoll`, with the polls left (R315): the error bits are looked at only once every lane is ready. -/
def statusLoop (d : IntelDescriptor) (a : Nat) : Nat → Op FlashStatus
  | 0 => do
    intelReadArray d
    pure .pollTimeout
  | k + 1 => do
    setPoll (k + 1)
    let s ← rd a d.chip.busWidth
    if (lanes d.chip.busWidth d.chip.chipWidth s).all (fun l => laneHas l d.numbers.readyMask) then
      if (lanes d.chip.busWidth d.chip.chipWidth s).any (fun l => laneHas l d.numbers.errorMask) then do
        intelClearStatus d
        intelReadArray d
        pure .deviceFault
      else pure .ok
    else statusLoop d a k

/-- `statusPoll@INTEL(A, a)` (R315). -/
def statusPoll (d : IntelDescriptor) (a : Nat) : Op FlashStatus := do
  let s ← get
  statusLoop d a s.params.flashPollBound

/-- `programCell@INTEL(A, c, want)` (R318). -/
def intelProgramCell (d : IntelDescriptor) (c : Nat) (want : BusWord) : Op FlashStatus := do
  wrAll (intelProgramCmd d c want)
  let st ← statusPoll d c
  if st ≠ .ok then pure st
  else do
    intelReadArray d
    let v ← rd c d.chip.busWidth
    pure (if v = want then .ok else .verifyMismatch)

/-- The data writes of a burst (R317). -/
def burstWrites (busWidth : Nat) : Nat → List BusWord → List (Nat × BusWord)
  | _, [] => []
  | c, v :: rest => (c, v) :: burstWrites busWidth (c + busWidth) rest

/-- The verify reads of a burst, until one differs (R317). -/
def verifyBurst (busWidth : Nat) : Nat → List BusWord → Op FlashStatus
  | _, [] => pure .ok
  | c, want :: rest => do
    let v ← rd c busWidth
    if v = want then verifyBurst busWidth (c + busWidth) rest else pure .verifyMismatch

/-- `bufferProgram@INTEL(A, s, c, m, wants)` (R317), `m` the number of words. -/
def bufferProgram (d : IntelDescriptor) (s c : Nat) (wants : List BusWord) : Op FlashStatus := do
  wr s (rep d.chip d.numbers.cmdBufferProgram)
  let st ← statusPoll d s
  if st ≠ .ok then pure st
  else do
    wr s (replicateLanes d.chip.busWidth d.chip.chipWidth (wants.length - 1))
    wrAll (burstWrites d.chip.busWidth c wants)
    wr s (rep d.chip d.numbers.cmdConfirm)
    let st ← statusPoll d s
    if st ≠ .ok then pure st
    else do
      intelReadArray d
      verifyBurst d.chip.busWidth c wants

/-- The number of cells of the chunk at `c` in the sector that ends at `hi` (R316): up to the end of the payload's last cell, the next
multiple of `bufBytes` counted from the base, and the end of the sector; at least one. DEDUCED, safe:
notes/assumptions/24.md. -/
def chunkCells (d : IntelDescriptor) (addr count c hi : Nat) : Nat :=
  if d.bufBytes = 0 then 1
  else
    let payloadEnd := (addr + count + (d.chip.busWidth - 1)) / d.chip.busWidth * d.chip.busWidth
    let bufferEnd := d.chip.base + ((c - d.chip.base) / d.bufBytes + 1) * d.bufBytes
    max 1 ((min payloadEnd (min bufferEnd (hi + 1)) - c) / d.chip.busWidth)

/-- Read and merge the cells of a chunk, with the cells left (R316): whether some cell differs, and the wanted values. -/
def mergeChunk (busWidth addr count : Nat) (data : Nat → Byte) : Nat → Nat → Nat → Op (Bool × List BusWord)
  | 0, _, _ => pure (false, [])
  | k + 1, done, c => do
    let cur ← rd c busWidth
    let lo := max addr c - c
    let hi := min (addr + count) (c + busWidth) - c
    let want := mergeCell cur lo hi data done
    let r ← mergeChunk busWidth addr count data k (done + (hi - lo)) (c + busWidth)
    pure (decide (want ≠ cur) || r.1, want :: r.2)

/-- `unlockSector(s)`, once per sector within one call (R314). -/
def unlockOnce (d : IntelDescriptor) (s : Nat) (unlocked : List Nat) : Op (List Nat) :=
  if unlocked.contains s then pure unlocked
  else do
    wrAll (intelUnlock d s)
    pure (s :: unlocked)

/-- Program a chunk of which some cell differs: a burst when it has two or more cells, a single-word program otherwise (R316). -/
def programChunk (d : IntelDescriptor) (s c : Nat) : List BusWord → Op FlashStatus
  | [] => pure .ok
  | [want] => intelProgramCell d c want
  | wants => bufferProgram d s c wants

/-- One chunk (R316): its status, the cells it had, and the sectors unlocked so far. -/
def intelChunk (b : Nat) (d : IntelDescriptor) (addr count : Nat) (data : Nat → Byte) (done c : Nat)
    (unlocked : List Nat) : Op (FlashStatus × Nat × List Nat) := do
  let r ← intelSector d c
  let m := chunkCells d addr count c r.2
  let x ← mergeChunk d.chip.busWidth addr count data m done c
  if x.1 then do
    let u ← unlockOnce d r.1 unlocked
    markErased b false
    let st ← programChunk d r.1 c x.2
    pure (st, m, u)
  else pure (.ok, m, unlocked)

/-- A failed access ends a chunk with the status `ACCESS(f)` (R250). -/
def orAccessChunk (m : Op (FlashStatus × Nat × List Nat)) : Op (FlashStatus × Nat × List Nat) := fun s =>
  match m s with
  | .error (.access f) t => .ok (.access f, 0, []) t
  | r => r

/-- The closing `readArray` (R316). A failed access there ends the operation with the bytes done before the last chunk, so that the
result stays a short count (R222 (e), R250). DEDUCED, unsafe: notes/assumptions/23.md. -/
def intelFinish (d : IntelDescriptor) (before count : Nat) : Op FlashResult := do
  let st ← orAccessStatus (do
    intelReadArray d
    pure .ok)
  pure (if st = .ok then { count := count, status := .ok } else { count := before, status := st })

/-- The chunk loop (R316), with a bound on the chunks left: each holds at least one payload byte. `before` is the payload done before
the last chunk taken. An access that fails inside a chunk of several cells ends it with the bytes done before the chunk, since `done` advances chunk by
chunk, where R250 speaks of the bytes before the current cell. DEDUCED, unsafe: notes/assumptions/36.md. -/
def chunkLoop (b : Nat) (d : IntelDescriptor) (addr count : Nat) (data : Nat → Byte) :
    Nat → Nat → Nat → Nat → List Nat → Op FlashResult
  | 0, before, _, _, _ => intelFinish d before count
  | k + 1, before, done, c, unlocked =>
    if done < count then do
      let (st, m, u) ← orAccessChunk (intelChunk b d addr count data done c unlocked)
      if st = .ok then
        chunkLoop b d addr count data k done
          (done + (min (addr + count) (c + m * d.chip.busWidth) - max addr c)) (c + m * d.chip.busWidth) u
      else pure { count := done, status := st }
    else intelFinish d before count

/-- `program@INTEL(A, addr, count, data)` (R316); of no byte it makes no access (R252, D49). DEDUCED, unsafe: notes/assumptions/22.md. -/
def intelProgramOp (b addr count : Nat) (data : Nat → Byte) : Op FlashResult :=
  familyOp b (do
    let d ← intelDescriptor b
    if count = 0 then pure (flashDone .ok)
    else chunkLoop b d addr count data count 0 0 (addr - addr % d.chip.busWidth) [])

/-- `eraseSector@INTEL(A, addr)`: it blocks, and is verified (R320). -/
def intelEraseSectorOp (b addr : Nat) : Op FlashResult :=
  familyOp b (do
    let d ← intelDescriptor b
    let r ← intelSector d addr
    markErased b false
    wrAll (intelUnlock d r.1)
    wrAll (intelEraseCmd d r.1)
    let st ← statusPoll d r.1
    if st ≠ .ok then pure (flashDone st)
    else do
      intelReadArray d
      let st ← verifyErased r.1 r.2 d.chip.busWidth
      pure (flashDone st))

/-- The loop of `eraseAll@INTEL`: sector after sector, until one fails (R321). -/
def intelEraseSectors (b : Nat) : List (Nat × Nat) → Op FlashResult
  | [] => do
    markErased b true
    pure (flashDone .ok)
  | r :: rest => do
    let x ← intelEraseSectorOp b r.1
    if x.status = .ok then intelEraseSectors b rest else pure (flashDone x.status)

/-- `eraseAll@INTEL(A)` (R321). -/
def intelEraseAllOp (b : Nat) : Op FlashResult :=
  familyOp b (do
    let d ← intelDescriptor b
    intelEraseSectors b d.sectors)

/-- `eraseWait@INTEL(A)`: no bus access (R322). -/
def intelEraseWaitOp (b : Nat) : Op FlashResult :=
  familyOp b (do
    let _ ← intelDescriptor b
    pure (flashDone .ok))

/-- `blankCheck@INTEL(A, addr)`: an explicit unimplemented capability (R323). -/
def intelBlankCheckOp (b : Nat) : Op FlashResult :=
  familyOp b (do
    let _ ← intelDescriptor b
    pure (flashDone .unimplemented))

/-- The regions of a matched row across the whole bus (R312). -/
def busRegions (lanesPerWord : Nat) (regions : List (Nat × Nat)) : List (Nat × Nat) :=
  regions.map (fun r => (r.1, r.2 * lanesPerWord))

/-- The largest sector of a region list (R310). -/
def largestSector (regions : List (Nat × Nat)) : Nat := regions.foldl (fun m r => max m r.2) 0

/-- The descriptor of a matched row, before the buffer-size query (R312). -/
def intelMatched (p : Params) (addr busWidth chipWidth : Nat) (e : IntelRow) : IntelDescriptor :=
  { chip :=
      { base := addr, size := e.chipSize * (busWidth / chipWidth), name := e.name, busWidth, chipWidth
        sectorSize := largestSector (busRegions (busWidth / chipWidth) e.regions) }
    manId := e.manId, devId := e.devId, regions := busRegions (busWidth / chipWidth) e.regions
    buffered := e.buffered, bufBytes := 0, numbers := p.intelNumbers }

/-- The buffer size of a query answer (R312): 0 when the lanes disagree or the exponent is not 1 to 10. -/
def bufferBytes (d : IntelDescriptor) (answer : BusWord) : Nat :=
  match agreedValue d.chip.busWidth d.chip.chipWidth answer with
  | none => 0
  | some v =>
    if 1 ≤ v % 256 ∧ v % 256 ≤ 10 then 2 ^ (v % 256) * laneCount d.chip.busWidth d.chip.chipWidth else 0

/-- `query`, then back to array-read mode (R311, R312). -/
def intelQuery (d : IntelDescriptor) : Op Nat := do
  wr (d.chip.base + d.numbers.queryAddr * d.chip.busWidth) (rep d.chip d.numbers.cmdQuery)
  let n ← rd (d.chip.base + d.numbers.bufSizeOff * d.chip.busWidth) d.chip.busWidth
  intelReadArray d
  pure (bufferBytes d n)

/-- The row of `INTEL_TABLE` for an identifier pair: the first in ascending order of chip size (R242, R243), and among rows of
equal size the first of the table, DESIGN CHOICE: notes/assumptions/37.md. -/
def intelRow (p : Params) (chipWidth man dev : Nat) : Option IntelRow :=
  (sortBy IntelRow.chipSize p.intelTable).find?
    (fun e => e.manId == man && e.devId == dev && e.chipWidth == chipWidth)

/-- What a hit of `probe@INTEL` returns (R312). -/
def intelHit (d : IntelDescriptor) : Op ProbeResult :=
  if d.buffered then do
    let n ← intelQuery d
    pure { size := d.chip.size, binding := some (.intel { d with bufBytes := n }), status := .ok }
  else pure { size := d.chip.size, binding := some (.intel d), status := .ok }

/-- The width search of `probe@INTEL` (R242, R312). -/
def intelProbePairs (addr : Nat) : List (Nat × Nat) → Op ProbeResult
  | [] => pure noMatch
  | (w, c) :: rest => do
    let s ← get
    let chip : ChipCommon := { base := addr, size := 0, name := "", busWidth := w, chipWidth := c, sectorSize := 0 }
    let hit ← probeAttempt addr w c [(addr, rep chip s.params.intelNumbers.cmdReadId)]
      (rep chip s.params.intelNumbers.cmdReadArray) (intelRow s.params c)
    match hit with
    | some e => intelHit (intelMatched s.params addr w c e)
    | none => intelProbePairs addr rest

/-- `probe@INTEL(addr)` (R312). -/
def intelProbeOp (addr : Nat) : Op ProbeResult := probeOp (intelProbePairs addr (pairsAt addr))

/-- INTEL.PROBE, internal selector `0x60` (R312). -/
def execIntelProbe (address : Nat) (s : State) : Host.Outcome State Fault Refusal :=
  runOp (do
    let r ← intelProbeOp address
    pure (.probe r)) s

/-- INTEL.PROGRAM, internal selector `0x61` (R316). -/
def execIntelProgram (address count : Nat) (s : State) : Host.Outcome State Fault Refusal :=
  runOp (do
    let a ← areaOwning address count
    let r ← intelProgramOp a.beginAddr address count s.dataByte
    pure (.flash r)) s

/-- INTEL.ERASE_SECTOR, internal selector `0x62` (R320). -/
def execIntelEraseSector (address : Nat) (s : State) : Host.Outcome State Fault Refusal :=
  runOp (do
    let a ← owningArea address
    let r ← intelEraseSectorOp a.beginAddr address
    pure (.flash r)) s

/-- INTEL.ERASE_ALL, internal selector `0x63` (R321). -/
def execIntelEraseAll (s : State) : Host.Outcome State Fault Refusal :=
  runOp (do
    let a ← owningArea s.areaSel
    let r ← intelEraseAllOp a.beginAddr
    pure (.flash r)) s

/-- INTEL.ERASE_WAIT, internal selector `0x64` (R322). -/
def execIntelEraseWait (s : State) : Host.Outcome State Fault Refusal :=
  runOp (do
    let a ← owningArea s.areaSel
    let r ← intelEraseWaitOp a.beginAddr
    pure (.flash r)) s

/-- INTEL.BLANK_CHECK, internal selector `0x65` (R323). -/
def execIntelBlankCheck (address : Nat) (s : State) : Host.Outcome State Fault Refusal :=
  runOp (do
    let a ← owningArea address
    let r ← intelBlankCheckOp a.beginAddr
    pure (.flash r)) s

end Sys2Proof.Machine
end

