-- ==== Sys2Proof/Machine/Ram.lean ====
section
/-! DEFINITION. RAM.WRITE, the raw memory write (R226). -/

namespace Sys2Proof.Machine

open Sys2Proof

/-- The widest naturally aligned access that fits `r` remaining bytes at `p` (R226). -/
def ramWidth (p r : Nat) : Nat :=
  if p % 4 = 0 ∧ 4 ≤ r then 4 else if p % 2 = 0 ∧ 2 ≤ r then 2 else 1

/-- The loop of RAM.WRITE, with a bound on the accesses left: each moves at least one byte (R226). -/
def ramLoop (a n : Nat) (data : Nat → Byte) : Nat → Nat → Op FlashResult
  | 0, _ => pure { count := n, status := .ok }
  | k + 1, done =>
    if done < n then do
      match ← memWrite (a + done) (payload data done (ramWidth (a + done) (n - done))) with
      | .error f => pure { count := done, status := .access f }
      | .ok () => ramLoop a n data k (done + ramWidth (a + done) (n - done))
    else pure { count := n, status := .ok }

/-- `RAM.WRITE(a, n, data)` (R226): nothing is read back and nothing is verified. -/
def ramStore (a n : Nat) (data : Nat → Byte) : Op FlashResult := ramLoop a n data n 0

/-- RAM.WRITE, internal selector `0x30` (R226). -/
def execRamWrite (address count : Nat) (s : State) : Host.Outcome State Fault Refusal :=
  runOp (do
    let r ← ramStore address count s.dataByte
    pure (.flash r)) s

end Sys2Proof.Machine
end

