-- ==== Sys2Proof/Machine/Registry.lean ====
section
/-! DEFINITION. The memory area registry and the block write and erase orchestrator (R210 to R233): REGISTER_AREA, WRITE_MEMORY,
ERASE_AREA, ERASE_WAIT and BLANK_CHECK. They need no open session (R347). -/

namespace Sys2Proof.Machine

open Sys2Proof

/-- `probe@F(addr)` of a family (R211, R241). -/
def probeFamily (addr : Nat) : Family → Op ProbeResult
  | .amd => amdProbeOp addr
  | .cfm => cfmProbeOp addr
  | .intel => intelProbeOp addr

/-- The candidates probed in order: the first match, and none when there is none; a failed access is raised (R212). A descriptor of size 0 is no match: DEDUCED, safe
(notes/assumptions/28.md). -/
def probeCandidates (addr : Nat) : List Family → Op (Option (Nat × Binding))
  | [] => pure none
  | f :: rest => do
    let r ← probeFamily addr f
    match r.status with
    | .access e => raise (.proto e)
    | _ =>
      match r.binding with
      | some d => if 0 < r.size then pure (some (r.size, d)) else probeCandidates addr rest
      | none => probeCandidates addr rest

/-- A RAM area (R35): no descriptor, no flag. -/
def ramArea (lo hi : Nat) : MemoryArea := { wholeSpaceRam with beginAddr := lo, endAddr := hi }

/-- What takes the place of a RAM area when a new area is spliced into it (R213). -/
def splicePieces (e new : MemoryArea) : List MemoryArea :=
  (if e.beginAddr < new.beginAddr then [{ e with endAddr := new.beginAddr - 1 }] else []) ++ [new] ++
    (if new.endAddr < e.endAddr then [ramArea (new.endAddr + 1) e.endAddr] else [])

/-- The splice (R213): the enclosing area is replaced in its place, so the order by `beginAddr` is kept (R36). -/
def splice (areas : List MemoryArea) (e new : MemoryArea) : List MemoryArea :=
  areas.flatMap (fun a => if a.beginAddr = e.beginAddr then splicePieces e new else [a])

/-- REGISTER_AREA, `op = 0x20` (R212): the base must lie in a RAM area (R214 (a)), tested before any probe; the probed chip must end
inside it (R214 (b), (c)), tested after the probes (R350 (h)). -/
def execRegisterArea (hint base : Nat) (s : State) : Host.Outcome State Fault Refusal :=
  runOp (do
    match candidates s.params hint with
    | none => raise .illegalOperation
    | some families => do
      let e ← owningArea base
      if e.binding ≠ .ram then raise .illegalOperation
      else do
        match ← probeCandidates base families with
        | none => pure .notFound
        | some (size, d) =>
          if e.endAddr < base + size - 1 then raise .illegalOperation
          else do
            let new : MemoryArea :=
              { beginAddr := base, endAddr := base + size - 1, binding := d, flags := registeredFlags hint }
            modify (fun t => { t with registry := splice t.registry e new })
            pure .ok) s

/-- One delegation of WRITE_MEMORY (R220): to `RAM.WRITE` or to the owning family's `program`. -/
def delegateWrite (a : MemoryArea) (addr count : Nat) (data : Nat → Byte) : Op FlashResult :=
  match a.binding with
  | .ram => ramStore addr count data
  | .amd _ => amdProgramOp a.beginAddr addr count data
  | .cfm _ => cfmProgramOp a.beginAddr addr count data
  | .intel _ => intelProgramOp a.beginAddr addr count data

/-- The loop of WRITE_MEMORY, with a bound on the delegations left: each moves at least one byte or is a short write (R220, R221). -/
def writeLoop (address length : Nat) (data : Nat → Byte) : Nat → Nat → FlashStatus → Op OpResult
  | 0, written, st => pure (.written written st)
  | k + 1, written, st =>
    if written < length ∧ address + written < addrSpace then do
      let a ← owningArea (address + written)
      let n := min (length - written) (a.endAddr - (address + written) + 1)
      let r ← delegateWrite a (address + written) n (fun i => data (written + i))
      if r.count < n then pure (.written (written + r.count) r.status)
      else writeLoop address length data k (written + r.count) r.status
    else pure (.written written st)

/-- WRITE_MEMORY, `op = 0x21` (R220). -/
def execWriteMemory (address length : Nat) (s : State) : Host.Outcome State Fault Refusal :=
  runOp (writeLoop address length s.dataByte length 0 .ok) s

/-- `eraseAll@F` or `eraseSector@F` of the area's family; none for a RAM area (R230). -/
def eraseOf (a : MemoryArea) (address : Nat) (whole : Bool) : Option (Op FlashResult) :=
  match a.binding with
  | .ram => none
  | .amd _ => some (if whole then amdEraseAllOp a.beginAddr else amdEraseSectorOp a.beginAddr address)
  | .cfm _ => some (if whole then cfmEraseAllOp a.beginAddr else cfmEraseSectorOp a.beginAddr address)
  | .intel _ => some (if whole then intelEraseAllOp a.beginAddr else intelEraseSectorOp a.beginAddr address)

/-- `eraseWait@F` of the area's family; none for a RAM area (R231). -/
def eraseWaitOf (a : MemoryArea) : Option (Op FlashResult) :=
  match a.binding with
  | .ram => none
  | .amd _ => some (amdEraseWaitOp a.beginAddr)
  | .cfm _ => some (cfmEraseWaitOp a.beginAddr)
  | .intel _ => some (intelEraseWaitOp a.beginAddr)

/-- `blankCheck@F` of the area's family; none for a RAM area (R232). -/
def blankCheckOf (a : MemoryArea) : Option (Op FlashResult) :=
  match a.binding with
  | .ram => none
  | .amd _ => some (amdBlankCheckOp a.beginAddr)
  | .cfm _ => some (cfmBlankCheckOp a.beginAddr)
  | .intel _ => some (intelBlankCheckOp a.beginAddr)

/-- The single dispatch to the owning algorithm; `NotFlash` for a RAM area (R230 to R232). -/
def dispatchOwner (address : Nat) (op : MemoryArea → Option (Op FlashResult)) : Op OpResult := do
  let a ← owningArea address
  match op a with
  | none => pure .notFlash
  | some m => do
    let r ← m
    pure (.flash r)

/-- ERASE_AREA, `op = 0x22` (R230). -/
def execEraseArea (address whole : Nat) (s : State) : Host.Outcome State Fault Refusal :=
  runOp (dispatchOwner address (fun a => eraseOf a address (isOn whole))) s

/-- ERASE_WAIT, `op = 0x23` (R231). -/
def execEraseWait (address : Nat) (s : State) : Host.Outcome State Fault Refusal :=
  runOp (dispatchOwner address eraseWaitOf) s

/-- BLANK_CHECK, `op = 0x24` (R232). -/
def execBlankCheck (address : Nat) (s : State) : Host.Outcome State Fault Refusal :=
  runOp (dispatchOwner address blankCheckOf) s

end Sys2Proof.Machine
end

