-- ==== Sys2Proof/Machine/Serial.lean ====
section
/-! DEFINITION. The meanings of SERIAL_CLOCK, RESYNCHRONIZE, STREAM_WRITE and STREAM_READ (R130 to R148). -/

namespace Sys2Proof.Machine

open Sys2Proof

/-- SERIAL_CLOCK, `op = 0x10` (R130). -/
def execSerialClock (cmd : Word16) (delayBits : Nat) (s : State) : Host.Outcome State Fault Refusal :=
  runOp (do
    let v ← serialExchange cmd delayBits
    pure (.frame v)) s

/-- RESYNCHRONIZE, `op = 0x11` (R140). -/
def execResynchronize (s : State) : Host.Outcome State Fault Refusal :=
  runOp (do
    resynchronizeTarget
    pure .ok) s

/-- The loop of `streamWrite`, with the units left: responses are discarded, a fault of the exchange ends it (R146). -/
def writeUnits : Nat → Nat → Op (Nat × StreamOutcome)
  | 0, done => pure (done, .ok)
  | k + 1, done => do
    let s ← get
    match ← attempt (serialExchange (streamUnit (s.dataByte done) (s.dataByte (done + 1))) 0) with
    | .error f => pure (done, .fault f)
    | .ok _ => writeUnits k (done + 2)

/-- STREAM_WRITE, `op = 0x12` (R145, R146): the result is the pair `{done, outcome}`, and `done` counts bytes; the result column of R100 says units
written. DEDUCED from R145 and R146, unsafe: notes/assumptions/34.md. -/
def execStreamWrite (count : Nat) (s : State) : Host.Outcome State Fault Refusal :=
  runOp (do
    let _ ← openedSession
    if count % 2 ≠ 0 then raise .illegalSize
    else do
      let r ← writeUnits (count / 2) 0
      pure (.streamWrite r.1 r.2)) s

/-- The loop of `streamRead`, with the units left and the bytes read so far (R147). -/
def readUnits : Nat → List Byte → Op (StreamOutcome × List Byte)
  | 0, data => pure (.ok, data)
  | k + 1, data => do
    let s ← get
    match ← attempt (serialExchange s.params.nopCmd 0) with
    | .error f => pure (.fault f, data)
    | .ok v =>
      match decodeFrame v with
      | .fault f => pure (.fault (.proto f), data)
      | .notReady => pure (.notReady, data)
      | .payload p => readUnits k (data ++ [highByte p, lowByte p])

/-- STREAM_READ, `op = 0x13` (R145, R147): `done` is the number of bytes read. -/
def execStreamRead (count : Nat) (s : State) : Host.Outcome State Fault Refusal :=
  runOp (do
    let _ ← openedSession
    if count % 2 ≠ 0 then raise .illegalSize
    else do
      let r ← readUnits (count / 2) []
      pure (.streamRead r.2.length r.1 r.2)) s

end Sys2Proof.Machine
end

