-- ==== Sys2Proof/Machine/Dispatch.lean ====
section
/-! DEFINITION. The dispatch: one arm per operation, one direct call of its meaning (R100, R153). -/

namespace Sys2Proof.Machine

open Sys2Proof

def exec (i : Instr) (s : State) : Host.Outcome State Fault Refusal :=
  match i with
  | .init => Sys2Proof.Machine.execInit s
  | .deinit => Sys2Proof.Machine.execDeinit s
  | .resetChip => Sys2Proof.Machine.execResetChip s
  | .restartChip => Sys2Proof.Machine.execRestartChip s
  | .stopChip => Sys2Proof.Machine.execStopChip s
  | .stepChip => Sys2Proof.Machine.execStepChip s
  | .getStatus => Sys2Proof.Machine.execGetStatus s
  | .releaseChip => Sys2Proof.Machine.execReleaseChip s
  | .speed base => Sys2Proof.Machine.execSpeed base s
  | .senseCable flag => Sys2Proof.Machine.execSenseCable flag s
  | .debugLevel level => Sys2Proof.Machine.execDebugLevel level s
  | .setLed flag => Sys2Proof.Machine.execSetLed flag s
  | .serialClock cmd delayBits => Sys2Proof.Machine.execSerialClock cmd delayBits s
  | .resynchronize => Sys2Proof.Machine.execResynchronize s
  | .streamWrite count => Sys2Proof.Machine.execStreamWrite count s
  | .streamRead count => Sys2Proof.Machine.execStreamRead count s
  | .openSession variant => Sys2Proof.Machine.execOpenSession variant s
  | .closeSession => Sys2Proof.Machine.execCloseSession s
  | .registerArea hint base => Sys2Proof.Machine.execRegisterArea hint base s
  | .writeMemory address length => Sys2Proof.Machine.execWriteMemory address length s
  | .eraseArea address whole => Sys2Proof.Machine.execEraseArea address whole s
  | .eraseWait address => Sys2Proof.Machine.execEraseWait address s
  | .blankCheck address => Sys2Proof.Machine.execBlankCheck address s
  | .ramWrite address count => Sys2Proof.Machine.execRamWrite address count s
  | .amdProbe address => Sys2Proof.Machine.execAmdProbe address s
  | .amdProgram address count => Sys2Proof.Machine.execAmdProgram address count s
  | .amdEraseSector address => Sys2Proof.Machine.execAmdEraseSector address s
  | .amdEraseAll => Sys2Proof.Machine.execAmdEraseAll s
  | .amdEraseWait => Sys2Proof.Machine.execAmdEraseWait s
  | .amdBlankCheck address => Sys2Proof.Machine.execAmdBlankCheck address s
  | .cfmProbe address => Sys2Proof.Machine.execCfmProbe address s
  | .cfmProgram address count => Sys2Proof.Machine.execCfmProgram address count s
  | .cfmEraseSector address => Sys2Proof.Machine.execCfmEraseSector address s
  | .cfmEraseAll => Sys2Proof.Machine.execCfmEraseAll s
  | .cfmEraseWait => Sys2Proof.Machine.execCfmEraseWait s
  | .cfmBlankCheck address => Sys2Proof.Machine.execCfmBlankCheck address s
  | .intelProbe address => Sys2Proof.Machine.execIntelProbe address s
  | .intelProgram address count => Sys2Proof.Machine.execIntelProgram address count s
  | .intelEraseSector address => Sys2Proof.Machine.execIntelEraseSector address s
  | .intelEraseAll => Sys2Proof.Machine.execIntelEraseAll s
  | .intelEraseWait => Sys2Proof.Machine.execIntelEraseWait s
  | .intelBlankCheck address => Sys2Proof.Machine.execIntelBlankCheck address s

end Sys2Proof.Machine
end

