-- ==== Sys2Proof/Machine/Fetch.lean ====
section
/-! DEFINITION. How an operation reaches the sequencer: the block fetches nothing (R22, R383); a call brings the operation word and its
data buffer (R99). The next call is taken from the head of `requests`. -/

namespace Sys2Proof.Machine

open Sys2Proof

/-- The state in which the operation of a call starts: the call is taken, its data buffer is the operation's. -/
def State.accept (s : State) (r : Request) (rest : List Request) : State :=
  { s with
    requests := rest
    buffer := r.data
    areaSel :=
      match r.origin with
      | .host => s.areaSel
      | .registry area => area }

/-- The decision of R101: the operation of a call, or `ILLEGAL_OPERATION` for a selector outside the table and for an internal
selector that comes from the host. -/
def admitted (r : Request) : Except FaultKind Instr :=
  match decode r.word with
  | .error _ => .error .illegalOperation
  | .ok i => if internalSelector (Op72.selector r.word) && r.origin == .host then .error .illegalOperation else .ok i

/-- A call of an operation word with no data: from the registry's dispatch, on the area that owns address 0, for an internal selector,
from the host otherwise. -/
def requestOf (w : Op72) : Request :=
  { origin := if internalSelector (Op72.selector w) then .registry 0 else .host, word := w, data := [] }

end Sys2Proof.Machine
end

