-- ==== Sys2Proof/Machine/Step.lean ====
section
/-! DEFINITION. One step: the next operation runs from its first step to its end (R22). With no operation asked for the sequencer stays at
rest. -/

namespace Sys2Proof.Machine

open Sys2Proof

/-- One step of the machine: one whole operation (R22, R80). With no call it answers the same state: DESIGN CHOICE, unsafe
(notes/assumptions/2.md). -/
def step (s : State) : Host.Outcome State Fault Refusal :=
  match s.requests with
  | [] => .next s
  | r :: rest =>
    match admitted r with
    | .error f => .next ((s.accept r rest).takeFault f)
    | .ok i => exec i (s.accept r rest)

/-- The state in which the next operation asked for is the one of an opcode-table row's bits. -/
def State.withFetchWord (s : State) (nbits w : Nat) : State :=
  { s with requests := requestOf (wordOfBits nbits w) :: s.requests }

end Sys2Proof.Machine
end

