-- ==== Sys2Proof/Safety.lean ====
section
/-! DEFINITION. What a sound state of the block is, in the spec's own terms: the ownership partition (R36, R210), the session's relations
(R23, R24, R26, R30), the areas and their descriptors (R34, R35, R38, R215), the parameters' side conditions (R8, R31, R103), the
sequencer at rest (R22). -/

namespace Sys2Proof.Machine

open Sys2Proof

/-- The areas, in order, cover exactly the addresses from `lo` to the top: no gap and no overlap (R36, R216). -/
def coversFrom : Nat → List MemoryArea → Bool
  | lo, [] => lo == addrSpace
  | lo, a :: rest => a.beginAddr == lo && decide (a.beginAddr ≤ a.endAddr) && coversFrom (a.endAddr + 1) rest

/-- THE PARTITION INVARIANT (R36, R210, R216). -/
def State.partitioned (s : State) : Bool := coversFrom 0 s.registry

/-- A descriptor is bound to the area it describes (R38, R215). -/
def boundTo (chip : ChipCommon) (a : MemoryArea) : Bool :=
  chip.base == a.beginAddr && chip.size == a.endAddr - a.beginAddr + 1

/-- The algorithm reference, the descriptor and the `FLASH` flag of an area agree (R34, R35, R38); a RAM area has no flag (R213). -/
def MemoryArea.sound (a : MemoryArea) : Bool :=
  match a.binding with
  | .ram => a.flags == { flash := false, auto := false, erased := false, error := false }
  | .amd d => a.flags.flash && boundTo d.chip a
  | .cfm d => a.flags.flash && boundTo d.chip a
  | .intel d => a.flags.flash && boundTo d.chip a

/-- Every area is sound. -/
def State.areasSound (s : State) : Bool := s.registry.all MemoryArea.sound

/-- The relation of the timing fields after INIT or SPEED (R30). -/
def Session.timingSound (x : Session) (p : Params) : Bool :=
  x.shortDelay == (deriveDelays p x.baseDelay).shortDelay && x.halfDelay == (deriveDelays p x.baseDelay).halfDelay &&
    x.longDelay == (deriveDelays p x.baseDelay).longDelay && x.minDelay == (deriveDelays p x.baseDelay).minDelay &&
    x.stopPollBound == stopPollBoundOf p x.baseDelay && x.fast == (x.baseDelay == 0)

/-- A session holds its variant's capability table (R166) and related timing fields (R30). -/
def Session.sound (x : Session) (p : Params) : Bool := x.caps == capsOf x.variant && x.timingSound p

/-- The open session, if any, is sound, and its shadow is what the lines hold (R24, R44). -/
def State.sessionSound (s : State) : Bool :=
  match s.session with
  | none => true
  | some x => x.sound s.params && x.shadow == s.lines

/-- A channel is owned exactly while it has a session (R26, R160, R161). -/
def State.ownershipSound (s : State) : Bool := s.owned == s.session.isSome

/-- The sequencer is at rest: it holds no position and no working value (R21, R22). -/
def State.atRest (s : State) : Bool := s.work == WorkRegs.rest

/-- The delays and the poll bound that R23 and R31 ask of a parameter choice: the poll loops and the reset pulses keep a non-zero delay. -/
def timingParamsSound (p : Params) : Bool :=
  p.delayRows.all (fun r => decide (1 ≤ r.2.minDelay) && decide (1 ≤ r.2.longDelay)) &&
    p.boundRows.all (fun r => decide (1 ≤ r.2))

/-- All fault kinds (R103). -/
def allFaultKinds : List FaultKind :=
  [.proto .unknown, .proto .power, .proto .cable, .proto .response, .proto .reset, .proto .port, .proto .berr,
   .proto .nvc, .notOpen, .illegalOperation, .writeFail, .readFail, .illegalSize, .openFail, .loadFail,
   .macroFileMissing, .sectionMissing, .versionMismatch]

/-- `FAULT_CODE` is negative and injective (R103). -/
def codesSound (p : Params) : Bool :=
  (allFaultKinds.map (faultCode p)).all (fun c => decide (c < 0)) && decide ((allFaultKinds.map (faultCode p)).Nodup)

/-- The invariant of the machine: what every step keeps. -/
def State.sound (s : State) : Bool :=
  s.partitioned && s.areasSound && s.sessionSound && s.ownershipSound && s.atRest && s.memory.wf

end Sys2Proof.Machine
end

