-- ==== Sys2Proof/Vocabulary.lean ====
section
/-! DEFINITION. The words in which the statements of Certificates/ are made: which operations reach which space (R65), the events of a
serial exchange written out from R91, R133 and R151, and the state after a list of memory events. Nothing in the machine uses them. -/

namespace Sys2Proof.Machine

open Sys2Proof

/-! ### Operations -/

/-- The operations of 41_lifecycle.md and 40_serial_exchange.md other than OPEN (R162). -/
def engineOperation : Instr → Bool
  | .init => true
  | .deinit => true
  | .resetChip => true
  | .restartChip => true
  | .stopChip => true
  | .stepChip => true
  | .getStatus => true
  | .releaseChip => true
  | .speed _ => true
  | .senseCable _ => true
  | .debugLevel _ => true
  | .setLed _ => true
  | .serialClock _ _ => true
  | .resynchronize => true
  | .streamWrite _ => true
  | .streamRead _ => true
  | .openSession _ => false
  | .closeSession => true
  | .registerArea _ _ => false
  | .writeMemory _ _ => false
  | .eraseArea _ _ => false
  | .eraseWait _ => false
  | .blankCheck _ => false
  | .ramWrite _ _ => false
  | .amdProbe _ => false
  | .amdProgram _ _ => false
  | .amdEraseSector _ => false
  | .amdEraseAll => false
  | .amdEraseWait => false
  | .amdBlankCheck _ => false
  | .cfmProbe _ => false
  | .cfmProgram _ _ => false
  | .cfmEraseSector _ => false
  | .cfmEraseAll => false
  | .cfmEraseWait => false
  | .cfmBlankCheck _ => false
  | .intelProbe _ => false
  | .intelProgram _ _ => false
  | .intelEraseSector _ => false
  | .intelEraseAll => false
  | .intelEraseWait => false
  | .intelBlankCheck _ => false

/-- OPEN (R160). -/
def opensChannel : Instr → Bool
  | .openSession _ => true
  | _ => false

/-- The operations of the registry and of the flash families, which reach only target memory (R65). -/
def memoryOperation (i : Instr) : Bool := !engineOperation i && !opensChannel i

/-- The selectors of R100. -/
def tableSelectors : List Nat :=
  [0x00, 0x01, 0x02, 0x03, 0x04, 0x05, 0x06, 0x07, 0x08, 0x09, 0x0A, 0x0B, 0x10, 0x11, 0x12, 0x13, 0x1E, 0x1F, 0x20,
   0x21, 0x22, 0x23, 0x24, 0x30, 0x40, 0x41, 0x42, 0x43, 0x44, 0x45, 0x50, 0x51, 0x52, 0x53, 0x54, 0x55, 0x60, 0x61,
   0x62, 0x63, 0x64, 0x65]

/-- The bits of the word that an operation of the table uses, by its selector: the selector itself, and the operand fields the table names, of
SERIAL_CLOCK's first only bits 15 to 0 (R99, R100, R102). -/
def usedBits (op : Byte) : Op72 :=
  if op.toNat ∈ [0x20, 0x21, 0x22, 0x30, 0x41, 0x51, 0x61] then 0xFFFFFFFFFFFFFFFFFF
  else if op.toNat = 0x10 then 0xFF0000FFFFFFFFFFFF
  else if op.toNat ∈ [0x08, 0x09, 0x0A, 0x0B, 0x12, 0x13, 0x1E, 0x23, 0x24, 0x40, 0x42, 0x45, 0x50, 0x52, 0x55, 0x60, 0x62, 0x65] then
    0xFFFFFFFFFF00000000
  else 0xFF0000000000000000

/-! ### Areas -/

/-- A binding without what may change after registration: the pending erase of an AMD descriptor (R38, R260). -/
def Binding.settled : Binding → Binding
  | .ram => .ram
  | .amd d => .amd { d with pendingErase := .none }
  | .cfm d => .cfm d
  | .intel d => .intel d

/-- What of an area is fixed at registration: its bounds, `FLASH`, `AUTO` and its descriptor (R38, R249). -/
def MemoryArea.fixed (a : MemoryArea) : Nat × Nat × Bool × Bool × Binding :=
  (a.beginAddr, a.endAddr, a.flags.flash, a.flags.auto, a.binding.settled)

/-! ### Line events -/

/-- The events of `Delay(k)`: none for 0 ticks (R11). -/
def delayEvents (k : Nat) : List LineEvent := if k = 0 then [] else [.delay k]

/-- The events of a per-bit delay: none in fast mode (R133). -/
def bitDelayEvents (x : Session) (k : Nat) : List LineEvent := if x.fast then [] else delayEvents k

/-- A status sample on which an exchange starts at once: available and frozen (R131). -/
def frozenSample (x : Session) (st : Byte) : Bool :=
  (unavailableFault (decodeStatus x.sense st)).isNone && targetStopped (decodeStatus x.sense st)

/-- A status sample of a target that is not frozen (R170). -/
def runningSample (x : Session) (st : Byte) : Bool := !targetStopped (decodeStatus x.sense st)

/-- No control-line pattern holds the LED bit, which is the session's own (R94, R96). -/
def ledClear (q : PatternSet) : Bool :=
  [q.idle, q.arm, q.run, q.reset, q.resetArm, q.berr, q.released].all (fun p => p &&& ledBit == 0)

/-- The patterns of every variant leave the LED bit to the session. -/
def patternsSound (p : Params) : Bool :=
  ledClear p.pd.patterns && ledClear p.icd.patterns && ledClear p.coldFire.patterns

/-! ### The serial exchange (R91, R133, R134, R151) -/

/-- The bit presented at iteration `i`, from 0: the header bit 0, then `cmd[15]` down to `cmd[0]` (R91). -/
def commandBit (cmd : Word16) (i : Nat) : Bool := cmd.getLsbD (16 - i)

/-- `r_1 * 2^(k-1) + ... + r_k` for the recorded bits of an exchange, in order (R151). -/
def sampledValue (samples : List Byte) : Nat :=
  samples.foldl (fun v s => 2 * v + (if recordedBit s then 1 else 0)) 0

/-- The result of an exchange by the sampling law (R151). -/
def exchangeResult (cmd : Word16) (samples : List Byte) : Word32 :=
  BitVec.ofNat 32 (cmd.toNat * 2 ^ 15 * 2 ^ samples.length % 2 ^ 32 + sampledValue samples)

/-- The pattern on the lines while bit `i` of a command is presented at a clock level (R97). -/
def bitPattern (v : VariantParams) (x : Session) (cmd : Word16) (i : Nat) (raised : Bool) : Byte :=
  keepLed v.encoding x.shadow (pBit v.patterns.idle (commandBit cmd i) raised)

/-- The events of iteration `i` of the bit loop, whose sample is `smp` (R133). -/
def bitEvents (v : VariantParams) (x : Session) (cmd : Word16) (i : Nat) (smp : Byte) : List LineEvent :=
  [.wrote (bitPattern v x cmd i false), .wrote (bitPattern v x cmd i true)] ++ bitDelayEvents x x.halfDelay ++
    [.read smp, .wrote (bitPattern v x cmd i false)] ++ bitDelayEvents x x.baseDelay

/-- The reads of the settle poll: up to the first low level, or 100 high ones; none when there is no settle poll (R132). -/
def settleReads (polled : Bool) (reads : List Byte) : Bool :=
  if polled then
    (reads.length == 100 && reads.all statDso) ||
      (decide (reads.length ≤ 100) && reads.dropLast.all statDso && (reads.getLast?.map statDso == some false))
  else reads == []

/-- One exchange of a frozen target, as the environment answers it: the command, the status sample, the reads of the settle poll, the data
samples. -/
structure Exchange where
  cmd : Word16
  status : Byte
  settle : List Byte
  samples : List Byte
  deriving DecidableEq, Repr

/-- What the environment answers during an exchange, in order. -/
def Exchange.script (e : Exchange) : List Byte := e.status :: (e.settle ++ e.samples)

/-- The target is frozen and answers an exchange of `delayBits` to the end (R130, R131, R132). -/
def Exchange.answered (e : Exchange) (p : Params) (x : Session) (delayBits : Nat) : Bool :=
  frozenSample x e.status && settleReads (x.fast && settleBefore p e.cmd delayBits) e.settle &&
    e.samples.length == 17 - delayBits

/-- The events of an exchange of a frozen target (R130 to R133). -/
def Exchange.events (e : Exchange) (v : VariantParams) (x : Session) : List LineEvent :=
  [.read e.status] ++ e.settle.map .read ++ (e.samples.mapIdx (bitEvents v x e.cmd)).flatten

/-- The state after an exchange of a frozen target: its events, the lines and the shadow at the last bit presented with the clock low
(R134), and nothing else. -/
def State.exchanged (s : State) (e : Exchange) : State :=
  match s.session with
  | none => s
  | some x =>
    let v := variantParams s.params x.variant
    let p := bitPattern v x e.cmd (e.samples.length - 1) false
    { s with
      lines := p, session := some { x with shadow := p }
      lineTrace := s.lineTrace ++ e.events v x
      statScript := s.statScript.drop e.script.length }

/-! ### Operations in parts (R131, R140, R146, R147, R172, R174, R212) -/

/-- The state in which an operation that was at `s` goes on when a part of it has done what the operation that ended in `t` does: the count of operations and
the last result are the caller's own. -/
def State.nestedIn (t s : State) : State := { t with opsDone := s.opsDone, result := s.result }

/-- One exchange of a longer operation: its operands and the frame it returned. -/
structure Clocked where
  cmd : Word16
  delayBits : Nat
  frame : Word32
  deriving DecidableEq, Repr

/-- The exchanges, made one after the other from the first state, lead to the last one: each does all that SERIAL_CLOCK does there, a nested stop of a running
target with it (R131), and returns its frame. -/
def clocksTo : State → List Clocked → State → Prop
  | s, [], t => t = s
  | s, c :: rest, t =>
    ∃ u, exec (.serialClock c.cmd c.delayBits) s = .next u ∧ u.result = some (.frame c.frame) ∧ clocksTo (u.nestedIn s) rest t

/-- How STEP_CHIP and RESTART_CHIP end once they are at `m` and call `stopChip` (R172, R174): with all that STOP_CHIP does at `m`, its fault with it; and
where it succeeds and the variant asks for it (R183), with all that RESYNCHRONIZE then does. -/
def endsStopping (o : Host.Outcome State Fault Refusal) (resync : Bool) (m : State) : Prop :=
  ∀ t, exec .stopChip m = .next t →
    (t.result ≠ some .ok ∨ resync = false → o = .next t) ∧
    (t.result = some .ok → resync = true → o = exec .resynchronize (t.nestedIn m))

/-- The PROBE of a family at a base (R100). -/
def probeInstr (base : Nat) : Family → Instr
  | .amd => .amdProbe base
  | .cfm => .cfmProbe base
  | .intel => .intelProbe base

/-- The probes of these families, made one after the other from the first state, lead to the last one without a match: each does all that its PROBE does
there, no access of it failed, and its size is 0 (R212). -/
def probedWithoutMatch (base : Nat) : State → List Family → State → Prop
  | s, [], t => t = s
  | s, f :: rest, t =>
    ∃ u r, exec (probeInstr base f) s = .next u ∧ u.result = some (.probe r) ∧ (∀ g, r.status ≠ .access g) ∧ r.size = 0 ∧
      probedWithoutMatch base (u.nestedIn s) rest t

/-! ### Memory events -/

/-- The state after a list of completed calls of the memory primitive (R11, R66). -/
def State.performed (s : State) : List MemEvent → State
  | [] => s
  | .read a v :: rest => (s.tookReply.didRead a v).performed rest
  | .wrote a v :: rest => (s.tookReply.didWrite a v).performed rest

/-- The answers with which the environment completes a list of calls: the value of a read, nothing for a write. -/
def answersOf (evs : List MemEvent) : List MemReply :=
  evs.map (fun e =>
    match e with
    | .read _ v => .done v
    | .wrote _ _ => .done [])

/-- Every call of the list is one the block may make (R11, R71, R78). -/
def callsAllowed (evs : List MemEvent) : Bool :=
  evs.all (fun e =>
    match e with
    | .read a v => callAllowed a v.length
    | .wrote a v => callAllowed a v.length)

/-- The events of a command sequence. -/
def writesOf (ws : List (Nat × BusWord)) : List MemEvent := ws.map (fun w => .wrote w.1 w.2)

/-- The widths of the accesses that store `n` bytes from `p` up: each the widest of 4, 2 and 1 that is naturally aligned and fits (R226). -/
def widestWidths : Nat → Nat → List Nat → Prop
  | _, n, [] => n = 0
  | p, n, w :: ws =>
    (if 4 ≤ n ∧ p % 4 = 0 then w = 4 else if 2 ≤ n ∧ p % 2 = 0 then w = 2 else w = 1) ∧ w ≤ n ∧ widestWidths (p + w) (n - w) ws

/-- The writes of these widths that store the payload's bytes `k`, `k + 1`, ... at `address + k` and up (R226). -/
def storesOf (address : Nat) (data : Nat → Byte) : Nat → List Nat → List MemEvent
  | _, [] => []
  | k, w :: ws => .wrote (address + k) ((List.range w).map (fun i => data (k + i))) :: storesOf address data (k + w) ws

/-- `n` reads of cells from `c` up, each all ones (R253). -/
def erasedReads (busWidth : Nat) : Nat → Nat → List MemEvent
  | 0, _ => []
  | n + 1, c => .read c (allOnes busWidth) :: erasedReads busWidth n (c + busWidth)

/-- The number of cells of a range (R154, R253). -/
def cellsIn (lo hi busWidth : Nat) : Nat := (hi + 1 - lo + (busWidth - 1)) / busWidth

/-- A replayed list of events: whether it writes the byte at an address. -/
def writesByte (evs : List MemEvent) (a : Nat) : Bool :=
  evs.any (fun e =>
    match e with
    | .read _ _ => false
    | .wrote b v => decide (b ≤ a) && decide (a < b + v.length))

/-- Every access of the trace is one the block may make: 1, 2 or 4 bytes, naturally aligned, inside the address space (R71). -/
def State.accessesSound (s : State) : Bool := callsAllowed s.memTrace

end Sys2Proof.Machine
end

