-- ==== Sys2Proof/Conduct.lean ====
section
/-! DEFINITION. The words in which the statements say how a flash chip may answer an operation: a `Conduct` is the set of pairs of events and
status that a rule's pseudocode allows when no access fails. Written from R243, R244, R246, R251, R253, R268, R269, R291, R296, R314 to R318;
nothing in the machine uses them. -/

namespace Sys2Proof.Machine

open Sys2Proof

/-! ### What an operation leaves behind -/

/-- The state after calls that completed and one more that failed (R250). The failed call is no event: notes/assumptions/12.md. -/
def State.cutOff (s : State) (evs : List MemEvent) : State := (s.performed evs).tookReply

/-- The flags of an area after an operation: `ERASED` is cleared by a command, `ERROR` is set by a bad status, and nothing else (R249). -/
def MemoryArea.flagged (a : MemoryArea) (cleared failed : Bool) : MemoryArea :=
  { a with flags := { a.flags with erased := a.flags.erased && !cleared, error := a.flags.error || failed } }

/-! ### Conducts -/

/-- What a part of an operation may do when no access fails: its events and its status. -/
abbrev Conduct := List MemEvent → FlashStatus → Prop

/-- First one part, then, when its status is `OK`, the next; another status ends both. -/
def Conduct.andThen (first next : Conduct) : Conduct := fun evs st =>
  (∃ a b, evs = a ++ b ∧ first a .ok ∧ next b st) ∨ (first evs st ∧ st ≠ .ok)

/-- A command sequence: these writes, in order (R261, R291, R311). -/
def sends (ws : List (Nat × BusWord)) : Conduct := fun evs st => evs = writesOf ws ∧ st = .ok

/-- The reads of consecutive cells from `c` up. -/
def cellReads (w c : Nat) (vs : List BusWord) : List MemEvent := vs.mapIdx (fun i v => MemEvent.read (c + i * w) v)

/-- The verify of programmed cells from `c` up: one read each, up to the first that does not hold what it should (R253, R317). -/
def verifies (w c : Nat) (wants : List BusWord) : Conduct := fun evs st =>
  (evs = cellReads w c wants ∧ st = .ok) ∨
  (∃ (k : Nat) (want bad : BusWord), wants[k]? = some want ∧ bad ≠ want ∧ bad.length = w ∧
    evs = cellReads w c (wants.take k ++ [bad]) ∧ st = .verifyMismatch)

/-- The verify of an erased range: one read of each cell, up to the first that is not all ones (R253). -/
def verifiesErased (w lo hi : Nat) : Conduct := fun evs st =>
  (evs = erasedReads w (cellsIn lo hi w) lo ∧ st = .ok) ∨
  (∃ (k : Nat) (bad : BusWord), k < cellsIn lo hi w ∧ bad ≠ allOnes w ∧ bad.length = w ∧
    evs = erasedReads w k lo ++ [MemEvent.read (lo + k * w) bad] ∧ st = .verifyMismatch)

/-- The verdict of a bounded poll on its reads (R251): the first read that shows a fault ends it with `DEVICE_FAULT`, the first that shows what is
awaited with `OK`, and as many reads as the bound that show neither with `POLL_TIMEOUT`. None: no poll makes these reads. -/
def pollVerdict {α : Type} (faulty awaited : α → Bool) : Nat → List α → Option FlashStatus
  | 0, [] => some .pollTimeout
  | 0, _ :: _ => none
  | _ + 1, [] => none
  | k + 1, v :: rest =>
    if faulty v then (if rest.isEmpty then some .deviceFault else none)
    else if awaited v then (if rest.isEmpty then some .ok else none)
    else pollVerdict faulty awaited k rest

/-! ### The AMD toggle poll (R269, R401) -/

/-- One round of the toggle poll: its read, and the pairs of reads that recheck lanes. -/
structure ToggleRound where
  cur : BusWord
  rechecks : List (BusWord × BusWord)
  deriving DecidableEq, Repr

/-- How a round of the toggle poll ends. -/
inductive RoundEnd where
  /-- Every lane agrees with its read before. -/
  | done
  /-- Some lane differs, and every recheck found its lane stable. -/
  | busy
  /-- A recheck found its lane still toggling. -/
  | stuck
  deriving DecidableEq, Repr

/-- The lanes to recheck, in ascending order: those that differ from the read before and show the timeout bit (R255, R269). -/
def suspectLanes (d : AmdDescriptor) (prev cur : BusWord) : List Nat :=
  (List.range (laneCount d.chip.busWidth d.chip.chipWidth)).filter (fun l =>
    lane d.chip.chipWidth prev l != lane d.chip.chipWidth cur l && laneHas (lane d.chip.chipWidth cur l) d.numbers.timeoutMask)

/-- The rechecks of a list of lanes, one pair of reads each (R269): whether every lane proved stable; the first pair that shows its lane still
toggling is the last. None: no round makes these reads. -/
def rechecksStable (d : AmdDescriptor) : List Nat → List (BusWord × BusWord) → Option Bool
  | [], [] => some true
  | [], _ :: _ => none
  | _ :: _, [] => none
  | l :: ls, x :: xs =>
    if lane d.chip.chipWidth x.1 l = lane d.chip.chipWidth x.2 l then rechecksStable d ls xs
    else if xs.isEmpty then some false else none

/-- The end of a round (R269). None: no round makes these reads. -/
def ToggleRound.ends (d : AmdDescriptor) (prev : BusWord) (r : ToggleRound) : Option RoundEnd :=
  match rechecksStable d (suspectLanes d prev r.cur) r.rechecks with
  | none => none
  | some false => some .stuck
  | some true =>
    some (if lanes d.chip.busWidth d.chip.chipWidth prev = lanes d.chip.busWidth d.chip.chipWidth r.cur then .done else .busy)

/-- The verdict of a toggle poll on its rounds, with the rounds left and the read before (R269). None: no poll makes these reads. -/
def toggleVerdict (d : AmdDescriptor) : Nat → BusWord → List ToggleRound → Option FlashStatus
  | 0, _, [] => some .pollTimeout
  | 0, _, _ :: _ => none
  | _ + 1, _, [] => none
  | k + 1, prev, r :: rest =>
    match r.ends d prev with
    | some .done => if rest.isEmpty then some .ok else none
    | some .stuck => if rest.isEmpty then some .deviceFault else none
    | some .busy => toggleVerdict d k r.cur rest
    | none => none

/-- The reads of a round of the toggle poll at `c`. -/
def ToggleRound.reads (c : Nat) (r : ToggleRound) : List MemEvent :=
  .read c r.cur :: r.rechecks.flatMap (fun x => [.read c x.1, .read c x.2])

/-- Every word of a round is a bus word. -/
def ToggleRound.wide (w : Nat) (r : ToggleRound) : Bool :=
  r.cur.length == w && r.rechecks.all (fun x => x.1.length == w && x.2.length == w)

/-- `togglePoll@AMD(A, c)` (R269): the first read, the rounds, and the reset command after every end but `OK`. -/
def togglePolls (d : AmdDescriptor) (bound c : Nat) : Conduct := fun evs st =>
  ∃ (first : BusWord) (rounds : List ToggleRound), toggleVerdict d bound first rounds = some st ∧
    first.length = d.chip.busWidth ∧ rounds.all (ToggleRound.wide d.chip.busWidth) = true ∧
    evs = (MemEvent.read c first :: rounds.flatMap (ToggleRound.reads c)) ++
      if st = .ok then [] else [.wrote d.chip.base (rep d.chip d.numbers.cmdReset)]

/-- `programCell@AMD(A, c, want)` (R268). -/
def amdCell (d : AmdDescriptor) (bound c : Nat) (want : BusWord) : Conduct :=
  (sends [(d.u1, rep d.chip d.numbers.unlock1Val), (d.u2, rep d.chip d.numbers.unlock2Val),
    (d.u1, rep d.chip d.numbers.cmdProgram), (c, want)]).andThen
  ((togglePolls d bound c).andThen (verifies d.chip.busWidth c [want]))

/-! ### The CFM command (R291, R296) -/

/-- One of the two completion loops: until `awaited` is set, or `PVIOL` or `ACCERR` is (R291, R296). -/
def cfmAwaits (d : CfmDescriptor) (bound : Nat) (awaited : Byte) : Conduct := fun evs st =>
  ∃ reads : List Byte,
    pollVerdict (fun v => v &&& (d.numbers.pviol ||| d.numbers.accerr) != 0) (fun v => v &&& awaited != 0) bound reads = some st ∧
    evs = reads.map (fun v => MemEvent.read d.ust [v])

/-- `cfmCommand(A, a, v, code)` (R291): "command buffer empty" first, then "command complete". -/
def cfmCommandRun (d : CfmDescriptor) (bound a : Nat) (v : BusWord) (code : Byte) : Conduct :=
  (sends [(d.ust, [d.numbers.pviol ||| d.numbers.accerr]), (d.backdoorBase + (a - d.chip.base), v), (d.cmd, [code]),
    (d.ust, [d.numbers.cbeif])]).andThen
  ((cfmAwaits d bound d.numbers.cbeif).andThen (cfmAwaits d bound d.numbers.ccif))

/-- `programCell@CFM(A, c, want)` (R293). -/
def cfmCell (d : CfmDescriptor) (bound c : Nat) (want : BusWord) : Conduct :=
  (cfmCommandRun d bound c want d.numbers.cmdProgram).andThen (verifies 4 c [want])

/-- The end of a blank check (R300): one more status read; `BLANK` set is cleared and is `OK`, clear is `BLANK_FAIL`. -/
def cfmReadsBlank (d : CfmDescriptor) : Conduct := fun evs st =>
  ∃ v : Byte,
    (v &&& d.numbers.blank ≠ 0 ∧ evs = [MemEvent.read d.ust [v], .wrote d.ust [d.numbers.blank]] ∧ st = .ok) ∨
    (v &&& d.numbers.blank = 0 ∧ evs = [MemEvent.read d.ust [v]] ∧ st = .blankFail)

/-! ### The INTEL status poll, cell and burst (R315, R317, R318) -/

/-- The command to go back to array-read mode (R311). -/
def intelReadArrayEvent (d : IntelDescriptor) : MemEvent := .wrote d.chip.base (rep d.chip d.numbers.cmdReadArray)

/-- `statusPoll@INTEL(A, a)` (R315): ready is every lane ready, and only then do the error bits count; a device fault is followed by the
clear-status and array-read commands, a timeout by the array-read command. -/
def statusPolls (d : IntelDescriptor) (bound a : Nat) : Conduct := fun evs st =>
  ∃ reads : List BusWord,
    let ready := fun (v : BusWord) => (lanes d.chip.busWidth d.chip.chipWidth v).all (fun l => laneHas l d.numbers.readyMask)
    let failed := fun (v : BusWord) => (lanes d.chip.busWidth d.chip.chipWidth v).any (fun l => laneHas l d.numbers.errorMask)
    pollVerdict (fun v => ready v && failed v) ready bound reads = some st ∧ (∀ v ∈ reads, v.length = d.chip.busWidth) ∧
    evs = reads.map (fun v => MemEvent.read a v) ++
      match st with
      | .deviceFault => [.wrote d.chip.base (rep d.chip d.numbers.cmdClearStatus), intelReadArrayEvent d]
      | .pollTimeout => [intelReadArrayEvent d]
      | _ => []

/-- `programCell@INTEL(A, c, want)` (R318). -/
def intelCell (d : IntelDescriptor) (bound c : Nat) (want : BusWord) : Conduct :=
  (sends [(c, rep d.chip d.numbers.cmdProgram), (c, want)]).andThen
  ((statusPolls d bound c).andThen
  ((sends [(d.chip.base, rep d.chip d.numbers.cmdReadArray)]).andThen (verifies d.chip.busWidth c [want])))

/-- `bufferProgram@INTEL(A, s, c, m, wants)` (R317). -/
def intelBurst (d : IntelDescriptor) (bound s c : Nat) (wants : List BusWord) : Conduct :=
  (sends [(s, rep d.chip d.numbers.cmdBufferProgram)]).andThen
  ((statusPolls d bound s).andThen
  ((sends ((s, replicateLanes d.chip.busWidth d.chip.chipWidth (wants.length - 1)) ::
    (wants.mapIdx (fun i v => (c + i * d.chip.busWidth, v)) ++ [(s, rep d.chip d.numbers.cmdConfirm)]))).andThen
  ((statusPolls d bound s).andThen
  ((sends [(d.chip.base, rep d.chip d.numbers.cmdReadArray)]).andThen (verifies d.chip.busWidth c wants)))))

/-- One sector of an INTEL erase (R320). -/
def intelSectorErase (d : IntelDescriptor) (bound : Nat) (r : Nat × Nat) : Conduct :=
  (sends [(r.1, rep d.chip d.numbers.cmdLockSetup), (r.1, rep d.chip d.numbers.cmdConfirm),
    (r.1, rep d.chip d.numbers.cmdEraseSetup), (r.1, rep d.chip d.numbers.cmdConfirm)]).andThen
  ((statusPolls d bound r.1).andThen
  ((sends [(d.chip.base, rep d.chip d.numbers.cmdReadArray)]).andThen (verifiesErased d.chip.busWidth r.1 r.2)))

/-- Sector after sector, until one fails (R321). -/
def intelSectorErases (d : IntelDescriptor) (bound : Nat) : List (Nat × Nat) → Conduct
  | [] => sends []
  | r :: rest => (intelSectorErase d bound r).andThen (intelSectorErases d bound rest)

/-! ### The cell loop of `program` (R244, R246) -/

/-- What the cell at `c` should hold after a program of `n` bytes from `address` (R244): its contents with the payload bytes it takes. -/
def wantedAt (w address n : Nat) (data : Nat → Byte) (c : Nat) (cur : BusWord) : BusWord :=
  cur.mapIdx (fun i b => if address ≤ c + i ∧ c + i < address + n ∧ i < w then data (c + i - address) else b)

/-- One cell of a program: what its first read shows, the events of the family's cell step (none for a cell that is skipped), its status. -/
structure CellRun where
  cur : BusWord
  step : List MemEvent
  status : FlashStatus
  deriving DecidableEq, Repr

/-- The events of a cell at `c`. -/
def CellRun.events (c : Nat) (r : CellRun) : List MemEvent := .read c r.cur :: r.step

/-- The events of cells from `c` up. -/
def cellRunEvents (w c : Nat) (cells : List CellRun) : List MemEvent :=
  (cells.mapIdx (fun i r => r.events (c + i * w))).flatten

/-- What the cells of a program may do (R244, R246): each holds a byte of the payload; one that already holds what it should is skipped; another
follows the family's cell step; and the program goes on only after `OK`. -/
def cellRuns (w address n : Nat) (data : Nat → Byte) (change : Nat → BusWord → Conduct) (cells : List CellRun) : Prop :=
  ∀ (i : Nat) (r : CellRun), cells[i]? = some r →
    let c := address - address % w + i * w
    r.cur.length = w ∧ c < address + n ∧ (i + 1 < cells.length → r.status = .ok) ∧
    if wantedAt w address n data c r.cur = r.cur then r.step = [] ∧ r.status = .ok
    else change c (wantedAt w address n data c r.cur) r.step r.status

/-- A command was sent to some cell. -/
def anyChanged (cells : List CellRun) : Bool := cells.any (fun r => !r.step.isEmpty)

/-! ### The chunk loop of INTEL `program` (R314, R316) -/

/-- One chunk: what the reads of its cells show, the unlock writes, the events after them, its status. -/
structure ChunkRun where
  curs : List BusWord
  unlock : List MemEvent
  step : List MemEvent
  status : FlashStatus
  deriving DecidableEq, Repr

/-- The events of a chunk at `c`. -/
def ChunkRun.events (w c : Nat) (r : ChunkRun) : List MemEvent := cellReads w c r.curs ++ r.unlock ++ r.step

/-- The address after chunks from `c` up. -/
def chunksEnd (w : Nat) : Nat → List ChunkRun → Nat
  | c, [] => c
  | c, r :: rest => chunksEnd w (c + r.curs.length * w) rest

/-- The events of chunks from `c` up. -/
def chunkRunEvents (w : Nat) : Nat → List ChunkRun → List MemEvent
  | _, [] => []
  | c, r :: rest => r.events w c ++ chunkRunEvents w (c + r.curs.length * w) rest

/-- `k` cells from `c` up end before none of the three boundaries is passed (R316): each holds a byte of the payload, and they do not reach past
the next multiple of `bufBytes` above `c`, counted from the base, nor past the sector, which ends at `hi`. -/
def chunkFits (d : IntelDescriptor) (address n c hi k : Nat) : Prop :=
  c + (k - 1) * d.chip.busWidth < address + n ∧ c + k * d.chip.busWidth ≤ hi + 1 ∧
    c + k * d.chip.busWidth ≤ d.chip.base + ((c - d.chip.base) / d.bufBytes + 1) * d.bufBytes

/-- The chunk at `c` has `m` cells (R316): one on a part without a buffer, else as many as fit; at least one (notes/assumptions/24.md). -/
def chunkLength (d : IntelDescriptor) (address n c hi m : Nat) : Prop :=
  if d.bufBytes = 0 then m = 1
  else 1 ≤ m ∧ (1 < m → chunkFits d address n c hi m) ∧ ¬ chunkFits d address n c hi (m + 1)

/-- What the chunks of a program may do, from the chunk at `c` on and with the sectors already unlocked in this call (R314, R316): a chunk whose
cells all hold what they should is skipped; another has its sector unlocked, once in a call, and is programmed by the single-word command when it
has one cell and by a burst when it has more; and the program goes on only after `OK`. -/
def chunkRuns (d : IntelDescriptor) (bound address n : Nat) (data : Nat → Byte) : Nat → List Nat → List ChunkRun → Prop
  | _, _, [] => True
  | c, unlocked, r :: rest =>
    ∃ lo hi, d.sectorRange c = some (lo, hi) ∧ c < address + n ∧ chunkLength d address n c hi r.curs.length ∧
      (∀ cur ∈ r.curs, cur.length = d.chip.busWidth) ∧ (rest ≠ [] → r.status = .ok) ∧
      let w := d.chip.busWidth
      let wants := r.curs.mapIdx (fun i cur => wantedAt w address n data (c + i * w) cur)
      if wants = r.curs then
        r.unlock = [] ∧ r.step = [] ∧ r.status = .ok ∧ chunkRuns d bound address n data (c + r.curs.length * w) unlocked rest
      else
        r.unlock = (if lo ∈ unlocked then []
          else [.wrote lo (rep d.chip d.numbers.cmdLockSetup), .wrote lo (rep d.chip d.numbers.cmdConfirm)]) ∧
        (if r.curs.length = 1 then intelCell d bound c (wants.headD []) r.step r.status
         else intelBurst d bound lo c wants r.step r.status) ∧
        chunkRuns d bound address n data (c + r.curs.length * w) (lo :: unlocked) rest

/-- A command was sent to some chunk. -/
def anyProgrammed (chunks : List ChunkRun) : Bool := chunks.any (fun r => !r.step.isEmpty)

/-! ### Probes (R242, R243) -/

/-- One attempt of a probe: what the address holds, the two identifier words, the read after the guard's store (none where no row was found), and what
the address holds after the return-to-array command. -/
structure ProbeTry where
  orig : BusWord
  man : BusWord
  dev : BusWord
  guard : Option BusWord
  back : BusWord
  deriving DecidableEq, Repr

variable {ρ : Type}

/-- The row an attempt finds: every lane of each identifier word agrees, and the table has a row for the two (R243). -/
def ProbeTry.row (t : ProbeTry) (w c : Nat) (table : Nat → Nat → Option ρ) : Option ρ :=
  match agreedValue w c t.man, agreedValue w c t.dev with
  | some m, some v => table m v
  | none, _ => none
  | some _, none => none

/-- The row an attempt ends with: the one found, unless the guard's store stuck (R243). -/
def ProbeTry.hit (t : ProbeTry) (w c : Nat) (table : Nat → Nat → Option ρ) : Option ρ :=
  if t.guard = some (complement t.man) then none else t.row w c table

/-- The words of an attempt are bus words, and the guard was stored exactly where a row was found (R243). -/
def ProbeTry.sound (t : ProbeTry) (w c : Nat) (table : Nat → Nat → Option ρ) : Bool :=
  t.orig.length == w && t.man.length == w && t.dev.length == w && t.back.length == w &&
    (t.guard.isSome == (t.row w c table).isSome) && t.guard.all (fun g => g.length == w)

/-- The accesses of an attempt (R243): `enter` is the family's ID-entry sequence, `leave` its return-to-array command. -/
def ProbeTry.events (t : ProbeTry) (address w : Nat) (enter : List (Nat × BusWord)) (leave : BusWord) : List MemEvent :=
  [MemEvent.read address t.orig] ++ writesOf enter ++ [.read address t.man, .read (address + w) t.dev] ++
    (match t.guard with
      | none => []
      | some g => [.wrote address (complement t.man), .read address g]) ++
    [.wrote address leave, .read address t.back] ++ (if t.back = t.orig then [] else [.wrote address t.orig])

/-- The width pairs tried at an address, in their order: those whose accesses are naturally aligned (R242). -/
def triedPairs (address : Nat) : List (Nat × Nat) :=
  [(1, 1), (2, 1), (2, 2), (4, 1), (4, 2), (4, 4)].filter (fun p => address % p.1 == 0)

/-- The attempts a search may make: one for each pair in turn, and none after a hit (R242, R243). -/
def triesSound (table : Nat → Nat → Nat → Option ρ) : List (Nat × Nat) → List ProbeTry → Bool
  | _, [] => true
  | [], _ :: _ => false
  | p :: ps, t :: ts =>
    t.sound p.1 p.2 (table p.2) && (ts.isEmpty || (t.hit p.1 p.2 (table p.2)).isNone) && triesSound table ps ts

/-- What the attempts end with: the pair and the row of the hit. -/
def triesHit (table : Nat → Nat → Nat → Option ρ) : List (Nat × Nat) → List ProbeTry → Option ((Nat × Nat) × ρ)
  | p :: ps, t :: ts =>
    match t.hit p.1 p.2 (table p.2) with
    | some e => some (p, e)
    | none => triesHit table ps ts
  | [], _ => none
  | _ :: _, [] => none

/-- The accesses of the attempts. -/
def triesEvents (address : Nat) (enter : Nat → Nat → List (Nat × BusWord)) (leave : Nat → Nat → BusWord) :
    List (Nat × Nat) → List ProbeTry → List MemEvent
  | p :: ps, t :: ts => t.events address p.1 (enter p.1 p.2) (leave p.1 p.2) ++ triesEvents address enter leave ps ts
  | [], _ => []
  | _ :: _, [] => []

end Sys2Proof.Machine
end

