-- ==== Sys2Proof/Certificates/Slice0/Obligations.lean ====
section
/-! DEFINITION. The statements for the provers, from the numbered rules of spec/. A statement that gives the next state as an equation is also the
frame: every field it does not name is as it was. -/

open Sys2Proof Sys2Proof.Machine

/-! ### Encoding and dispatch (R99 to R102) -/

/-- R99, R100, R102: every operation, with every operand its fields can hold, is what its own word decodes to. -/
def Obligations.DecodeOfEncodeIsTheOperation : Prop :=
  ∀ i : Instr, i.wellFormed = true → decode (encode i) = .ok i

/-- R99, R100: words written out in 95_test_vectors.md V31 from the encoding decode to the operations they stand for. -/
def Obligations.WrittenWordsDecode : Prop :=
  decode 0x000000000000000000#72 = .ok .init ∧
  decode 0x080000000400000000#72 = .ok (.speed 4) ∧
  decode 0x1000000C0000000001#72 = .ok (.serialClock 0x0C00 1) ∧
  decode 0x1E0000000200000000#72 = .ok (.openSession 2) ∧
  decode 0x200000000310000000#72 = .ok (.registerArea 3 0x10000000) ∧
  decode 0x210007FFFE00000004#72 = .ok (.writeMemory 0x7FFFE 4) ∧
  decode 0x220000000000000001#72 = .ok (.eraseArea 0 1)

/-- R100, R101: a word decodes exactly when its selector is one of the table's 42; otherwise the decoder names the selector. -/
def Obligations.OnlyTableSelectorsDecode : Prop :=
  ∀ w : Op72, ((Op72.selector w).toNat ∈ tableSelectors → ∃ i, decode w = .ok i) ∧
    ((Op72.selector w).toNat ∉ tableSelectors → decode w = .error (.illegalSelector (Op72.selector w)))

/-- R99 ("Unused operand bits are ignored"), R100, R102: two words that agree in their selector and in the operand fields the table gives it decode alike;
and what a word decodes to is well-formed and is encoded by the word with every other bit 0, so each operand is its own field of the word. -/
def Obligations.UnusedOperandBitsAreIgnored : Prop :=
  (∀ w w' : Op72, w &&& usedBits (Op72.selector w) = w' &&& usedBits (Op72.selector w) → decode w' = decode w) ∧
  (∀ (w : Op72) (i : Instr), decode w = .ok i →
    i.wellFormed = true ∧ i.selector = Op72.selector w ∧ encode i = w &&& usedBits (Op72.selector w) ∧
    decode (encode i) = .ok i)

/-- R22, R99: when the next call's word decodes to an operation the caller may issue, the step is that operation, on the state in which the call is taken: it
leaves the list of calls, its data is the operation's buffer. -/
def Obligations.StepRunsTheDecodedOperation : Prop :=
  ∀ (s : State) (r : Request) (rest : List Request) (i : Instr), s.requests = r :: rest → decode r.word = .ok i →
    (r.origin = .host → internalSelector (Op72.selector r.word) = false) →
    step s = exec i (s.accept r rest) ∧ (s.accept r rest).requests = rest ∧ (s.accept r rest).buffer = r.data

/-- R101: a selector outside the table, and an internal selector from the host, end with `ILLEGAL_OPERATION`: no line moves, no memory access is made, no state of
the block changes. -/
def Obligations.IllegalSelectorDoesNothing : Prop :=
  ∀ (s : State) (r : Request) (rest : List Request), s.requests = r :: rest →
    ((Op72.selector r.word).toNat ∉ tableSelectors ∨
      (r.origin = .host ∧ 0x30 ≤ (Op72.selector r.word).toNat ∧ (Op72.selector r.word).toNat ≤ 0x65)) →
    ∃ t, step s = .next t ∧ t.result = some (.fault .illegalOperation) ∧ t.lines = s.lines ∧ t.lineTrace = s.lineTrace ∧
      t.memTrace = s.memTrace ∧ t.memory = s.memory ∧ t.session = s.session ∧ t.owned = s.owned ∧
      t.registry = s.registry ∧ t.params = s.params ∧ t.statScript = s.statScript ∧ t.memScript = s.memScript ∧
      t.memCalls = s.memCalls ∧ (s.atRest = true → t.work = s.work)

/-! ### Reset and the invariants -/

/-- R381 (with R36): after block reset no channel is owned, there is no session, one RAM area spans the whole space with no flag, and the traces are empty. -/
def Obligations.ResetState : Prop :=
  State.reset.owned = false ∧ State.reset.session = none ∧
  State.reset.registry =
    [{ beginAddr := 0, endAddr := 2 ^ 32 - 1, binding := .ram
       flags := { flash := false, auto := false, erased := false, error := false } }] ∧
  State.reset.lineTrace = [] ∧ State.reset.memTrace = [] ∧ (∀ a, State.reset.storedByte a = none)

/-- The state after reset meets every invariant stated below, and the default parameters meet the side conditions of R31, R96 and R103; and under those
conditions, whatever the base delay, the poll delay, the reset pulse and the poll bound are at least 1 (R23, R31, R32). The soundness of the working
registers and of the record of stores is the model's: notes/assumptions/7.md, 13.md. -/
def Obligations.ResetIsSound : Prop :=
  State.reset.sound = true ∧ State.reset.accessesSound = true ∧ patternsSound State.reset.params = true ∧
    timingParamsSound State.reset.params = true ∧ codesSound State.reset.params = true ∧
    ∀ p : Params, timingParamsSound p = true → ∀ base : Nat,
      1 ≤ (deriveDelays p base).minDelay ∧ 1 ≤ (deriveDelays p base).longDelay ∧ 1 ≤ stopPollBoundOf p base

/-- R36, R210, R216: every step keeps the ownership partition. -/
def Obligations.EveryStepKeepsThePartition : Prop :=
  ∀ s t : State, s.partitioned = true → step s = .next t → t.partitioned = true

/-- R34, R35, R38, R215: every step keeps areas, flags and descriptors in agreement. -/
def Obligations.EveryStepKeepsTheAreasSound : Prop :=
  ∀ s t : State, s.partitioned = true → s.areasSound = true → step s = .next t → t.areasSound = true

/-- R24, R26, R30, R44, R166: every step keeps the session's relations: its capability table is its variant's, its timing fields belong together, its shadow is what the
lines hold, and it exists exactly while the channel is owned. -/
def Obligations.EveryStepKeepsTheSessionSound : Prop :=
  ∀ s t : State, s.sessionSound = true → s.ownershipSound = true → step s = .next t →
    t.sessionSound = true ∧ t.ownershipSound = true

/-- R21, R22, R66: every step ends at rest and keeps the record of stores in its canonical form. -/
def Obligations.EveryStepEndsAtRest : Prop :=
  ∀ s t : State, s.atRest = true → s.memory.wf = true → step s = .next t → t.atRest = true ∧ t.memory.wf = true

/-- R71: every access the block makes is of 1, 2 or 4 bytes, naturally aligned and inside the address space. -/
def Obligations.EveryStepKeepsAccessesAligned : Prop :=
  ∀ s t : State, s.accessesSound = true → step s = .next t → t.accessesSound = true

/-- R22, R40, R45, R80, R154: every step ends in a next state; it changes no parameter and only appends to the traces; with no operation asked for the sequencer stays at
rest and nothing changes. (That a step without a call changes nothing is the model's choice: notes/assumptions/2.md. That the line trace goes on over sessions
is read from R40 and R46 by inference: notes/assumptions/19.md.) -/
def Obligations.EveryStepEndsAndOnlyAppendsEvents : Prop :=
  ∀ s : State, (s.requests = [] → step s = .next s) ∧
    ∃ t, step s = .next t ∧ t.params = s.params ∧
      (∃ l, t.lineTrace = s.lineTrace ++ l) ∧ (∃ m, t.memTrace = s.memTrace ++ m)

/-- R65: an engine operation reaches only the line port, an operation of the registry or of a flash family only target memory; no operation reaches both. -/
def Obligations.NoOperationReachesBothSpaces : Prop :=
  ∀ (i : Instr) (s t : State), exec i s = .next t →
    (memoryOperation i = false → t.memTrace = s.memTrace ∧ t.memory = s.memory ∧ t.registry = s.registry ∧
      t.memScript = s.memScript) ∧
    (memoryOperation i = true → t.lineTrace = s.lineTrace ∧ t.lines = s.lines ∧ t.session = s.session ∧
      t.owned = s.owned ∧ t.statScript = s.statScript)

/-- R11, R66: whatever the operation, a byte that none of its memory writes covers is recorded as before. -/
def Obligations.BytesNotWrittenAreKept : Prop :=
  ∀ (i : Instr) (s t : State), s.memory.wf = true → exec i s = .next t →
    ∃ evs, t.memTrace = s.memTrace ++ evs ∧ ∀ a, writesByte evs a = false → t.storedByte a = s.storedByte a

/-- R249, R38, R260: after registration the bounds of an area, `FLASH`, `AUTO` and its descriptor never change but for an AMD descriptor's pending erase, and
`ERROR` is never cleared; REGISTER_AREA leaves every flash area as it was (R213). -/
def Obligations.AreaFlagsAfterRegistration : Prop :=
  (∀ (i : Instr) (s t : State), (∀ hint base, i ≠ .registerArea hint base) → exec i s = .next t →
    t.registry.map (fun a => (a.beginAddr, a.endAddr, a.flags.flash, a.flags.auto)) =
      s.registry.map (fun a => (a.beginAddr, a.endAddr, a.flags.flash, a.flags.auto)) ∧
    t.registry.map MemoryArea.fixed = s.registry.map MemoryArea.fixed ∧
    ∀ (k : Nat) (a b : MemoryArea), s.registry[k]? = some a → t.registry[k]? = some b → a.flags.error = true → b.flags.error = true) ∧
  (∀ (hint base : Nat) (s t : State), s.partitioned = true → exec (.registerArea hint base) s = .next t →
    ∀ a ∈ s.registry, a.binding ≠ .ram → a ∈ t.registry)

/-! ### The session (R160 to R166, R176 to R180) -/

/-- R162: every operation of the engine other than OPEN returns `NOT_OPEN`, with nothing done, when the channel has no open session. -/
def Obligations.NotOpenWithoutASession : Prop :=
  ∀ (i : Instr) (s : State), engineOperation i = true → s.session = none → s.owned = false →
    exec i s = .next (s.takeFault .notOpen)

/-- R160 (with R102, R164, R166): OPEN of a free channel with variant 0, 1 or 2, which are PD, ICD and ColdFire, creates the session with its capability table
and INIT's values and writes `P_RUN`; a variant above 2 and an owned channel are `OPEN_FAIL`. The line trace goes on over sessions:
notes/assumptions/19.md. -/
def Obligations.OpenCreatesTheSession : Prop :=
  ∀ (n : Nat) (s : State),
    (2 < n ∨ s.owned = true → exec (.openSession n) s = .next (s.takeFault .openFail)) ∧
    (∀ v : Variant, (n = 0 ∧ v = .pd) ∨ (n = 1 ∧ v = .icd) ∨ (n = 2 ∧ v = .coldFire) → s.owned = false →
      exec (.openSession n) s = .next
        ({ s with
            owned := true
            session := some
              { variant := v
                caps :=
                  { init := true, deinit := true, getStatus := true, resetChip := true, restartChip := true
                    stopChip := true, stepChip := true, releaseChip := true, serialClock := true
                    setLed := decide (v ≠ Variant.pd), resynchronize := true }
                shadow := (variantParams s.params v).patterns.run
                baseDelay := s.params.defaultBaseDelay
                shortDelay := (deriveDelays s.params s.params.defaultBaseDelay).shortDelay
                halfDelay := (deriveDelays s.params s.params.defaultBaseDelay).halfDelay
                longDelay := (deriveDelays s.params s.params.defaultBaseDelay).longDelay
                minDelay := (deriveDelays s.params s.params.defaultBaseDelay).minDelay
                resetExtraDelay := s.params.resetExtraDelay
                fast := s.params.defaultBaseDelay == 0
                stopPollBound := stopPollBoundOf s.params s.params.defaultBaseDelay
                sense := false, debugLevel := 0 }
            lines := (variantParams s.params v).patterns.run
            lineTrace := s.lineTrace ++ [LineEvent.wrote (variantParams s.params v).patterns.run] }.conclude .ok))

/-- R161 (with R165): CLOSE of a free channel is `NOT_OPEN`; on an open one it writes `P_RELEASED`, destroys the session and frees the channel; the registry is not touched. The line trace goes
on over sessions: notes/assumptions/19.md. -/
def Obligations.CloseFreesTheChannel : Prop :=
  ∀ s : State,
    (s.owned = false → exec .closeSession s = .next (s.takeFault .notOpen)) ∧
    (∀ x, s.owned = true → s.session = some x → x.caps = capsOf x.variant →
      exec .closeSession s = .next
        ({ s with
            owned := false, session := none, lines := (variantParams s.params x.variant).patterns.released
            lineTrace := s.lineTrace ++ [LineEvent.wrote (variantParams s.params x.variant).patterns.released] }.conclude .ok))

/-- R164: INIT puts every field of the session but the variant, the capability table and the shadow back to its value after OPEN and writes `P_RUN`, LED off. R165: DEINIT writes
`P_RELEASED`, LED off, and changes no field but the shadow. -/
def Obligations.InitAndDeinit : Prop :=
  ∀ (s : State) (x : Session), s.session = some x → x.caps = capsOf x.variant →
    exec .init s = .next
      ({ s with
          session := some
            { variant := x.variant, caps := x.caps, shadow := (variantParams s.params x.variant).patterns.run
              baseDelay := s.params.defaultBaseDelay
              shortDelay := (deriveDelays s.params s.params.defaultBaseDelay).shortDelay
              halfDelay := (deriveDelays s.params s.params.defaultBaseDelay).halfDelay
              longDelay := (deriveDelays s.params s.params.defaultBaseDelay).longDelay
              minDelay := (deriveDelays s.params s.params.defaultBaseDelay).minDelay
              resetExtraDelay := s.params.resetExtraDelay
              fast := s.params.defaultBaseDelay == 0
              stopPollBound := stopPollBoundOf s.params s.params.defaultBaseDelay
              sense := false, debugLevel := 0 }
          lines := (variantParams s.params x.variant).patterns.run
          lineTrace := s.lineTrace ++ [LineEvent.wrote (variantParams s.params x.variant).patterns.run] }.conclude .ok) ∧
    exec .deinit s = .next
      ({ s with
          session := some { x with shadow := (variantParams s.params x.variant).patterns.released }
          lines := (variantParams s.params x.variant).patterns.released
          lineTrace := s.lineTrace ++ [LineEvent.wrote (variantParams s.params x.variant).patterns.released] }.conclude .ok)

/-- R176, R178, R179: SPEED sets the base delay, the derived delays, the poll bound and the fast flag; SENSE_CABLE and DEBUG_LEVEL set their field; no line moves and nothing else
changes. -/
def Obligations.ConfigurationCommands : Prop :=
  ∀ (s : State) (x : Session) (n : Nat), s.session = some x →
    exec (.speed n) s = .next
      ({ s with
          session := some
            { x with
              baseDelay := n
              shortDelay := (deriveDelays s.params n).shortDelay, halfDelay := (deriveDelays s.params n).halfDelay
              longDelay := (deriveDelays s.params n).longDelay, minDelay := (deriveDelays s.params n).minDelay
              stopPollBound := stopPollBoundOf s.params n, fast := n == 0 } }.conclude .ok) ∧
    exec (.senseCable n) s = .next ({ s with session := some { x with sense := n != 0 } }.conclude .ok) ∧
    exec (.debugLevel n) s = .next ({ s with session := some { x with debugLevel := n } }.conclude .ok)

/-- R180 (with R163, R166): on a session with the `setLed` capability and the `DEDICATED` encoding SET_LED writes the shadow with its LED bit as asked, so that only the LED line can move;
on `PD`, and in the `DIRECT` encoding, it is `ILLEGAL_OPERATION` with nothing done. -/
def Obligations.SetLedMovesOnlyTheLed : Prop :=
  ∀ (s : State) (x : Session) (f : Nat), s.session = some x → x.caps = capsOf x.variant →
    (x.variant ≠ .pd → (variantParams s.params x.variant).encoding = .dedicated →
      exec (.setLed f) s = .next
        ((s.wroteCtrl ((x.shadow &&& 0xBF) ||| (if f ≠ 0 then 0x40 else 0x00))).conclude .ok)) ∧
    (x.variant = .pd ∨ (variantParams s.params x.variant).encoding = .direct →
      exec (.setLed f) s = .next (s.takeFault .illegalOperation))

/-! ### Status (R177, R200, R201) and frames (R92) -/

/-- R177, R200: GET_STATUS makes exactly one read and returns its decoding: in sense mode the missing cable, then the missing power, alone; otherwise the reset and freeze bits. -/
def Obligations.GetStatusDecodesOneSample : Prop :=
  ∀ (s : State) (x : Session), s.session = some x → x.caps = capsOf x.variant →
    exec .getStatus s = .next
      (s.readStat.conclude (.status
        (if x.sense ∧ s.nextStat.getLsbD 4 = false then 0b1000
         else if x.sense ∧ s.nextStat.getLsbD 3 = false then 0b0100
         else (if s.nextStat.getLsbD 2 then 0b0001 else 0) ||| (if s.nextStat.getLsbD 1 then 0b0010 else 0))))

/-- R201: the cable is tested first, and its bit is returned alone; `TARGET_NOT_CONNECTED` and `TARGET_POWER_FAIL` are never set together, neither comes with another bit, and with sense mode off neither is ever set. -/
def Obligations.StatusBitsExclude : Prop :=
  ∀ (sense : Bool) (st : Byte),
    (sense = true → statConn st = false → decodeStatus sense st = 0b1000) ∧
    (targetNotConnected (decodeStatus sense st) = true → decodeStatus sense st = 0b1000) ∧
    (targetPowerFail (decodeStatus sense st) = true → decodeStatus sense st = 0b0100) ∧
    (sense = false → targetNotConnected (decodeStatus sense st) = false ∧
      targetPowerFail (decodeStatus sense st) = false)

/-- R92, R136: the three sentinels, compared on the whole 32-bit value; anything else is a payload. -/
def Obligations.FrameClasses : Prop :=
  ∀ v : Word32,
    (v = 0x0001FFFF → decodeFrame v = .fault .nvc) ∧ (v = 0x00010001 → decodeFrame v = .fault .berr) ∧
    (v = 0x00010000 → decodeFrame v = .notReady) ∧
    (v ≠ 0x0001FFFF → v ≠ 0x00010001 → v ≠ 0x00010000 → decodeFrame v = .payload v)

/-! ### Lifecycle sequences (R170 to R175) -/

/-- R173: RESET_CHIP asserts the reset, delays, deasserts it to `P_RUN`, delays; the LED is kept; no status is sampled. R175: RELEASE_CHIP asserts the reset, delays, and detaches the pod with the
LED bit 0; the session stays open. -/
def Obligations.ResetAndReleaseSequences : Prop :=
  ∀ (s : State) (x : Session), s.session = some x → x.caps = capsOf x.variant → patternsSound s.params = true →
    let v := variantParams s.params x.variant
    let led := fun p => keepLed v.encoding x.shadow p
    exec .resetChip s = .next
      ({ s with
          lines := led v.patterns.run, session := some { x with shadow := led v.patterns.run }
          lineTrace := s.lineTrace ++ [LineEvent.wrote (led v.patterns.reset)] ++
            delayEvents (x.longDelay + x.resetExtraDelay) ++ [LineEvent.wrote (led v.patterns.run)] ++
            delayEvents x.longDelay }.conclude .ok) ∧
    exec .releaseChip s = .next
      ({ s with
          lines := v.patterns.released, session := some { x with shadow := v.patterns.released }
          lineTrace := s.lineTrace ++ [LineEvent.wrote (led v.patterns.reset)] ++
            delayEvents (x.longDelay + x.resetExtraDelay) ++
            [LineEvent.wrote v.patterns.released] }.conclude .ok)

/-- R170, R181: STOP_CHIP on a target that is frozen already is one status read and one write of `P_IDLE`, the LED kept. -/
def Obligations.StopChipOnAFrozenTarget : Prop :=
  ∀ (s : State) (x : Session), s.session = some x → x.caps = capsOf x.variant → runningSample x s.nextStat = false →
    let v := variantParams s.params x.variant
    exec .stopChip s = .next
      ((s.readStat.wroteCtrl (keepLed v.encoding x.shadow v.patterns.idle)).conclude .ok)

/-- R170, R171: STOP_CHIP on a running target that freezes at a poll within the bound arms the stop, delays and samples until the freeze is seen, and leaves the
idle pattern; on a variant with the forced bus error, a target that freezes at a poll after it as well. -/
def Obligations.StopChipFrozenAtAPoll : Prop :=
  ∀ (s : State) (x : Session) (first : Byte) (polls : List Byte) (last : Byte) (rest : List Byte), s.session = some x →
    x.caps = capsOf x.variant → patternsSound s.params = true → runningSample x first = true →
    polls.all (runningSample x) = true → runningSample x last = false →
    let v := variantParams s.params x.variant
    let idle := keepLed v.encoding x.shadow v.patterns.idle
    let arm := keepLed v.encoding x.shadow v.patterns.arm
    let polled := fun (l : List Byte) => l.flatMap (fun p => delayEvents x.minDelay ++ [LineEvent.read p])
    (polls.length < x.stopPollBound → s.statScript = first :: (polls ++ last :: rest) →
      exec .stopChip s = .next
        ({ s with
            lines := idle, session := some { x with shadow := idle }, statScript := rest
            lineTrace := s.lineTrace ++ [LineEvent.read first, .wrote arm] ++ polled (polls ++ [last]) ++
              [LineEvent.wrote idle] }.conclude .ok)) ∧
    (∀ again : List Byte, v.forceBerr = true → polls.length = x.stopPollBound → again.all (runningSample x) = true →
      again.length < x.stopPollBound → s.statScript = first :: (polls ++ again ++ last :: rest) →
      exec .stopChip s = .next
        ({ s with
            lines := idle, session := some { x with shadow := idle }, statScript := rest
            lineTrace := s.lineTrace ++ [LineEvent.read first, .wrote arm] ++ polled polls ++
              [LineEvent.wrote (keepLed v.encoding x.shadow v.patterns.berr)] ++ delayEvents x.minDelay ++ [LineEvent.wrote arm] ++
              polled (again ++ [last]) ++ [LineEvent.wrote idle] }.conclude .ok))

/-- R170, R171, R352: STOP_CHIP on a target that never freezes ends with `RESPONSE` and the stop condition armed: after `1 + stopPollBound` reads without the forced bus error, after
`1 + 2 * stopPollBound` reads with it. -/
def Obligations.StopChipNeverFrozen : Prop :=
  ∀ (s : State) (x : Session) (first : Byte) (polls again rest : List Byte), s.session = some x →
    x.caps = capsOf x.variant → patternsSound s.params = true → runningSample x first = true →
    polls.all (runningSample x) = true → again.all (runningSample x) = true → polls.length = x.stopPollBound →
    let v := variantParams s.params x.variant
    let arm := keepLed v.encoding x.shadow v.patterns.arm
    let polled := fun (l : List Byte) => l.flatMap (fun p => delayEvents x.minDelay ++ [LineEvent.read p])
    (v.forceBerr = false → s.statScript = first :: (polls ++ rest) →
      exec .stopChip s = .next
        ({ s with
            lines := arm, session := some { x with shadow := arm }, statScript := rest
            lineTrace := s.lineTrace ++ [LineEvent.read first, .wrote arm] ++ polled polls }.takeFault (.proto .response))) ∧
    (v.forceBerr = true → again.length = x.stopPollBound → s.statScript = first :: (polls ++ again ++ rest) →
      exec .stopChip s = .next
        ({ s with
            lines := arm, session := some { x with shadow := arm }, statScript := rest
            lineTrace := s.lineTrace ++ [LineEvent.read first, .wrote arm] ++ polled polls ++
              [LineEvent.wrote (keepLed v.encoding x.shadow v.patterns.berr)] ++ delayEvents x.minDelay ++ [LineEvent.wrote arm] ++
              polled again }.takeFault (.proto .response)))

/-- R174, R183: RESTART_CHIP resets with the stop armed, delays, deasserts with it still armed, delays, and then does all that STOP_CHIP does there: on a target
that runs at the first sample as on a frozen one, with the same fault; where the variant asks for a resynchronization and the stop succeeds, RESYNCHRONIZE follows. On
a target that comes out of reset frozen, with no resynchronization configured, that is one status read and the idle pattern. -/
def Obligations.RestartChipIntoTheFrozenState : Prop :=
  ∀ (s : State) (x : Session), s.session = some x → x.caps = capsOf x.variant → patternsSound s.params = true →
    let v := variantParams s.params x.variant
    let led := fun p => keepLed v.encoding x.shadow p
    let pulse := [LineEvent.wrote (led v.patterns.resetArm)] ++ delayEvents (x.longDelay + x.resetExtraDelay) ++
      [LineEvent.wrote (led v.patterns.arm)] ++ delayEvents x.longDelay
    endsStopping (exec .restartChip s) v.resyncAfterRestart
      { s with
        lines := led v.patterns.arm, session := some { x with shadow := led v.patterns.arm }
        lineTrace := s.lineTrace ++ pulse } ∧
    (∀ (st : Byte) (rest : List Byte), v.resyncAfterRestart = false → s.statScript = st :: rest → runningSample x st = false →
      exec .restartChip s = .next
        ({ s with
            lines := led v.patterns.idle, session := some { x with shadow := led v.patterns.idle }, statScript := rest
            lineTrace := s.lineTrace ++ pulse ++ [LineEvent.read st, .wrote (led v.patterns.idle)] }.conclude .ok))

/-- R172, R183: STEP_CHIP on an available target does all that SERIAL_CLOCK does with 16 bits of the GO command (a running target is stopped by it first, R131),
clocks the held-back bit over the armed pattern without a sample, and then does all that STOP_CHIP does there: with the freeze seen at once or at a later
poll, or with the same fault; where the variant asks for a resynchronization and the stop succeeds, RESYNCHRONIZE follows. On a frozen target that freezes
again at once, with no resynchronization configured, the stop is one status read and the idle pattern. -/
def Obligations.StepChipClocksTheHeldBitArmed : Prop :=
  ∀ (s : State) (x : Session), s.session = some x → x.caps = capsOf x.variant → patternsSound s.params = true →
    let v := variantParams s.params x.variant
    let d := dsi (s.params.goCmd.getLsbD 0)
    let held := fun (y : Session) =>
      let led := fun p => keepLed v.encoding y.shadow p
      [LineEvent.wrote (led (v.patterns.arm ||| d)), .wrote (led (v.patterns.arm ||| d ||| 0x02))] ++ bitDelayEvents y y.halfDelay ++
        [LineEvent.wrote (led (v.patterns.arm ||| d))] ++ bitDelayEvents y y.baseDelay
    (∀ (u : State) (w : Word32) (y : Session), unavailableFault (decodeStatus x.sense s.nextStat) = none →
      exec (.serialClock s.params.goCmd 1) s.readStat = .next u → u.result = some (.frame w) → u.session = some y →
      let last := keepLed v.encoding y.shadow (v.patterns.arm ||| d)
      endsStopping (exec .stepChip s) v.resyncAfterStep
        { u.nestedIn s with
          lines := last, session := some { y with shadow := last }, lineTrace := u.lineTrace ++ held y }) ∧
    (∀ (first : Byte) (e : Exchange) (last : Byte) (rest : List Byte), v.resyncAfterStep = false → e.cmd = s.params.goCmd →
      unavailableFault (decodeStatus x.sense first) = none → e.answered s.params x 1 = true →
      runningSample x last = false → s.statScript = first :: (e.script ++ last :: rest) →
      let idle := keepLed v.encoding x.shadow v.patterns.idle
      exec .stepChip s = .next
        ({ s with
            lines := idle, session := some { x with shadow := idle }, statScript := rest
            lineTrace := s.lineTrace ++ [LineEvent.read first] ++ e.events v x ++ held x ++
              [LineEvent.read last, .wrote idle] }.conclude .ok))

/-! ### The serial exchange (R130 to R151) and the streams -/

/-- R151 (with R130 to R134): SERIAL_CLOCK on a frozen target, in slow or fast mode: the result is the sampling law's number; the events are the status read, the settle poll of fast mode
and the bits, most significant first; the lines are left at the last bit with the clock low; nothing else changes. On an available target that runs, the status
read is followed by all that STOP_CHIP does, and then by the same exchange without a second test (R131, R138 (d)). -/
def Obligations.SerialClockSamplingLaw : Prop :=
  ∀ (s : State) (x : Session) (e : Exchange) (delayBits : Nat) (rest : List Byte), s.session = some x →
    x.caps = capsOf x.variant → patternsSound s.params = true → delayBits ≤ 16 →
    let v := variantParams s.params x.variant
    let k := 17 - delayBits
    let result := OpResult.frame (BitVec.ofNat 32 (e.cmd.toNat * 2 ^ 15 * 2 ^ k % 2 ^ 32 + sampledValue e.samples))
    (e.answered s.params x delayBits = true → s.statScript = e.script ++ rest →
      let p := bitPattern v x e.cmd (k - 1) false
      exec (.serialClock e.cmd delayBits) s = .next
        ({ s with
            lines := p, session := some { x with shadow := p }, statScript := rest
            lineTrace := s.lineTrace ++ e.events v x }.conclude result)) ∧
    (∀ (t : State) (y : Session), unavailableFault (decodeStatus x.sense s.nextStat) = none →
      runningSample x s.nextStat = true → exec .stopChip s.readStat = .next t → t.result = some .ok →
      t.session = some y → settleReads (y.fast && settleBefore s.params e.cmd delayBits) e.settle = true →
      e.samples.length = k → t.statScript = e.settle ++ e.samples ++ rest →
      let p := bitPattern v y e.cmd (k - 1) false
      exec (.serialClock e.cmd delayBits) s = .next
        ({ t with
            lines := p, session := some { y with shadow := p }, statScript := rest, opsDone := s.opsDone
            lineTrace := t.lineTrace ++ (e.events v y).drop 1 }.conclude result))

/-- R73, R130, R131, R145, R172, R203: before anything else `delayBits` above 16 is `ILLEGAL_OPERATION` and an odd stream count `ILLEGAL_SIZE`, with nothing done; a target that the one
status read shows unavailable ends SERIAL_CLOCK and STEP_CHIP with `RESET`, `CABLE` or `POWER`, and the trace is that single read; and on an available target a
STOP_CHIP that fails ends SERIAL_CLOCK, and an exchange that fails ends STEP_CHIP, with the same fault, where it ended. -/
def Obligations.ExchangesFailFast : Prop :=
  ∀ (s : State) (x : Session) (cmd : Word16) (delayBits : Nat), s.session = some x → x.caps = capsOf x.variant →
    (16 < delayBits → exec (.serialClock cmd delayBits) s = .next (s.takeFault .illegalOperation)) ∧
    (∀ n, n % 2 = 1 → exec (.streamWrite n) s = .next (s.takeFault .illegalSize) ∧
      exec (.streamRead n) s = .next (s.takeFault .illegalSize)) ∧
    (∀ f, unavailableFault (decodeStatus x.sense s.nextStat) = some f →
      (delayBits ≤ 16 → exec (.serialClock cmd delayBits) s = .next (s.readStat.takeFault (.proto f))) ∧
      exec .stepChip s = .next (s.readStat.takeFault (.proto f))) ∧
    (unavailableFault (decodeStatus x.sense s.nextStat) = none → ∀ (t : State) (f : FaultKind), t.result = some (.fault f) →
      (delayBits ≤ 16 → runningSample x s.nextStat = true → exec .stopChip s.readStat = .next t →
        exec (.serialClock cmd delayBits) s = .next t) ∧
      (exec (.serialClock s.params.goCmd 1) s.readStat = .next t → exec .stepChip s = .next t))

/-- R140, R347: RESYNCHRONIZE sends three NOP frames, whose responses are discarded, and then single-bit pulses until one shows the idle level: it ends with `Ok` at the
first such pulse, and with `UNKNOWN` when 17 pulses show none. Each frame and each pulse is all that SERIAL_CLOCK does there (a target that runs is
stopped first, R131), and the first one that ends with a fault, `RESET`, `CABLE`, `POWER` or `RESPONSE`, ends RESYNCHRONIZE with that fault, where it ended. The first two
clauses say it of a frozen target in its own events. -/
def Obligations.ResynchronizeFindsTheIdleLevel : Prop :=
  ∀ (s : State) (x : Session), s.session = some x → x.caps = capsOf x.variant →
    let idle := fun (v : Word32) => recordedLevel (v.getLsbD 0) = (variantParams s.params x.variant).dsoIdle
    (∀ (frames pulses rest : List Exchange) (more : List Byte), patternsSound s.params = true → frames.length = 3 →
      (∀ e ∈ frames, e.cmd = s.params.nopCmd ∧ e.answered s.params x 0 = true) →
      (∀ e ∈ pulses ++ rest, e.cmd = s.params.nopCmd ∧ e.answered s.params x 16 = true) →
      (∀ e ∈ pulses, ¬ idle (exchangeResult e.cmd e.samples)) →
      (∀ last, rest = [last] → pulses.length ≤ 16 → idle (exchangeResult last.cmd last.samples) →
        s.statScript = (frames ++ pulses ++ [last]).flatMap Exchange.script ++ more →
        exec .resynchronize s = .next (((frames ++ pulses ++ [last]).foldl State.exchanged s).conclude .ok)) ∧
      (pulses.length = 17 → s.statScript = (frames ++ pulses).flatMap Exchange.script ++ more →
        exec .resynchronize s = .next (((frames ++ pulses).foldl State.exchanged s).takeFault (.proto .unknown)))) ∧
    (∀ (frames pulses : List Clocked) (s1 : State), (∀ c ∈ frames, c.cmd = s.params.nopCmd ∧ c.delayBits = 0) →
      (∀ c ∈ pulses, c.cmd = s.params.nopCmd ∧ c.delayBits = 16) → clocksTo s (frames ++ pulses) s1 →
      (∀ before last, frames.length = 3 → pulses = before ++ [last] → before.length ≤ 16 → (∀ c ∈ before, ¬ idle c.frame) →
        idle last.frame → exec .resynchronize s = .next (s1.conclude .ok)) ∧
      ((∀ c ∈ pulses, ¬ idle c.frame) →
        (frames.length = 3 → pulses.length = 17 → exec .resynchronize s = .next (s1.takeFault (.proto .unknown))) ∧
        (∀ (t : State) (f : FaultKind), t.result = some (.fault f) →
          (frames.length < 3 → pulses = [] → exec (.serialClock s.params.nopCmd 0) s1 = .next t → exec .resynchronize s = .next t) ∧
          (frames.length = 3 → pulses.length < 17 → exec (.serialClock s.params.nopCmd 16) s1 = .next t →
            exec .resynchronize s = .next t))))

/-- R145, R146: STREAM_WRITE of an even count sends one exchange for each two bytes, the first byte in bits 15 to 8, discards the responses, whatever they are, and returns the count; an
exchange that fails ends it with the bytes sent before and that fault, where the exchange ended. Each exchange is all that SERIAL_CLOCK does there: a target that
runs is stopped first (R131). The first clause says it of a frozen target in its own events. A byte that the caller did not supply is a free value
(notes/assumptions/9.md); that `done` counts bytes is read from R145 and R146, where the result column of R100 says units
(notes/assumptions/34.md). -/
def Obligations.StreamWriteSendsEachUnit : Prop :=
  ∀ (s : State) (x : Session), s.session = some x → x.caps = capsOf x.variant →
    let unit := fun (k : Nat) => (s.dataByte (2 * k)).setWidth 16 <<< 8 ||| (s.dataByte (2 * k + 1)).setWidth 16
    (∀ (es : List Exchange) (rest : List Byte), patternsSound s.params = true →
      (∀ k e, es[k]? = some e → e.answered s.params x 0 = true ∧ e.cmd = unit k) →
      s.statScript = es.flatMap Exchange.script ++ rest →
      exec (.streamWrite (2 * es.length)) s = .next
        ((es.foldl State.exchanged s).conclude (.streamWrite (2 * es.length) .ok)) ∧
      (∀ (t : State) (f : FaultKind) (more : Nat),
        exec (.serialClock (unit es.length) 0) (es.foldl State.exchanged s) = .next t → t.result = some (.fault f) →
        exec (.streamWrite (2 * (es.length + 1 + more))) s = .next
          { t with result := some (.streamWrite (2 * es.length) (.fault f)) })) ∧
    (∀ (l : List Clocked) (s1 : State), (∀ k c, l[k]? = some c → c.cmd = unit k ∧ c.delayBits = 0) → clocksTo s l s1 →
      exec (.streamWrite (2 * l.length)) s = .next (s1.conclude (.streamWrite (2 * l.length) .ok)) ∧
      (∀ (t : State) (f : FaultKind) (more : Nat),
        exec (.serialClock (unit l.length) 0) s1 = .next t → t.result = some (.fault f) →
        exec (.streamWrite (2 * (l.length + 1 + more))) s = .next
          { t with result := some (.streamWrite (2 * l.length) (.fault f)) }))

/-- R147: STREAM_READ of an even count sends one NOP exchange for each two bytes and delivers the low 16 bits of each payload, high byte first. Each exchange is
all that SERIAL_CLOCK does there: a target that runs is stopped first (R131). The first clause says it of a frozen target in its own events. -/
def Obligations.StreamReadDeliversPayloads : Prop :=
  ∀ (s : State) (x : Session), s.session = some x → x.caps = capsOf x.variant →
    (∀ (es : List Exchange) (rest : List Byte), patternsSound s.params = true →
      (∀ e ∈ es, e.cmd = s.params.nopCmd ∧ e.answered s.params x 0 = true ∧
        decodeFrame (exchangeResult e.cmd e.samples) = .payload (exchangeResult e.cmd e.samples)) →
      s.statScript = es.flatMap Exchange.script ++ rest →
      exec (.streamRead (2 * es.length)) s = .next
        ((es.foldl State.exchanged s).conclude (.streamRead (2 * es.length) .ok
          (es.flatMap (fun e => [(exchangeResult e.cmd e.samples).extractLsb' 8 8,
            (exchangeResult e.cmd e.samples).extractLsb' 0 8]))))) ∧
    (∀ (l : List Clocked) (s1 : State), (∀ c ∈ l, c.cmd = s.params.nopCmd ∧ c.delayBits = 0 ∧ decodeFrame c.frame = .payload c.frame) →
      clocksTo s l s1 →
      exec (.streamRead (2 * l.length)) s = .next
        (s1.conclude (.streamRead (2 * l.length) .ok (l.flatMap (fun c => [c.frame.extractLsb' 8 8, c.frame.extractLsb' 0 8])))))

/-- R147, R148: STREAM_READ stops at the first frame that is no payload, with the bytes read so far: `NotReady`, `BERR` or `NVC`; and at the first exchange that
fails, with its fault, where the exchange ended. Each exchange is all that SERIAL_CLOCK does there: a target that runs is stopped first (R131). The first two
clauses say it of a frozen target in its own events. -/
def Obligations.StreamReadStopsAtASentinel : Prop :=
  ∀ (s : State) (x : Session) (more : Nat), s.session = some x → x.caps = capsOf x.variant →
    (∀ (es : List Exchange) (rest : List Byte), patternsSound s.params = true →
      (∀ e ∈ es, e.cmd = s.params.nopCmd ∧ e.answered s.params x 0 = true ∧
        decodeFrame (exchangeResult e.cmd e.samples) = .payload (exchangeResult e.cmd e.samples)) →
      let data := es.flatMap (fun e => [(exchangeResult e.cmd e.samples).extractLsb' 8 8,
        (exchangeResult e.cmd e.samples).extractLsb' 0 8])
      (∀ bad : Exchange, bad.cmd = s.params.nopCmd → bad.answered s.params x 0 = true →
        s.statScript = (es ++ [bad]).flatMap Exchange.script ++ rest →
        let ended := fun o => exec (.streamRead (2 * (es.length + 1 + more))) s = .next
          (((es ++ [bad]).foldl State.exchanged s).conclude (.streamRead (2 * es.length) o data))
        (exchangeResult bad.cmd bad.samples = 0x00010000 → ended .notReady) ∧
        (exchangeResult bad.cmd bad.samples = 0x00010001 → ended (.fault (.proto .berr))) ∧
        (exchangeResult bad.cmd bad.samples = 0x0001FFFF → ended (.fault (.proto .nvc)))) ∧
      (∀ (t : State) (f : FaultKind), s.statScript = es.flatMap Exchange.script ++ rest →
        exec (.serialClock s.params.nopCmd 0) (es.foldl State.exchanged s) = .next t → t.result = some (.fault f) →
        exec (.streamRead (2 * (es.length + 1 + more))) s = .next
          { t with result := some (.streamRead (2 * es.length) (.fault f) data) })) ∧
    (∀ (l : List Clocked) (s1 t : State), (∀ c ∈ l, c.cmd = s.params.nopCmd ∧ c.delayBits = 0 ∧ decodeFrame c.frame = .payload c.frame) →
      clocksTo s l s1 → exec (.serialClock s.params.nopCmd 0) s1 = .next t →
      let data := l.flatMap (fun c => [c.frame.extractLsb' 8 8, c.frame.extractLsb' 0 8])
      let ended := fun o => exec (.streamRead (2 * (l.length + 1 + more))) s = .next
        { t with result := some (.streamRead (2 * l.length) o data) }
      (t.result = some (.frame 0x00010000) → ended .notReady) ∧
      (t.result = some (.frame 0x00010001) → ended (.fault (.proto .berr))) ∧
      (t.result = some (.frame 0x0001FFFF) → ended (.fault (.proto .nvc))) ∧
      (∀ f, t.result = some (.fault f) → ended (.fault f)))

/-! ### The registry (R210 to R232) -/

/-- R213: after a splice the new area owns its range, what is left of the RAM area owns what it owned outside that range, and every other address keeps its owner. -/
def Obligations.SpliceReassignsOnlyTheNewRange : Prop :=
  ∀ (areas : List MemoryArea) (e new : MemoryArea) (a : Nat), coversFrom 0 areas = true → e ∈ areas → e.binding = .ram →
    e.beginAddr ≤ new.beginAddr → new.beginAddr ≤ new.endAddr → new.endAddr ≤ e.endAddr →
    areaOf (splice areas e new) a =
      if new.beginAddr ≤ a ∧ a ≤ new.endAddr then some new
      else if e.beginAddr ≤ a ∧ a < new.beginAddr then some { e with endAddr := new.beginAddr - 1 }
      else if new.endAddr < a ∧ a ≤ e.endAddr then
        some { beginAddr := new.endAddr + 1, endAddr := e.endAddr, binding := .ram
               flags := { flash := false, auto := false, erased := false, error := false } }
      else areaOf areas a

/-- R211 to R215: REGISTER_AREA on an address in a RAM area probes its candidates in order, the family of the hint or, with no hint, `ALG_ORDER`, each probe being all that
the family's PROBE does there, and the first match ends the search. No match is `NotFound`; a chip that would reach past the RAM area is `ILLEGAL_OPERATION`; in
both the partition is as it was; otherwise the new area is spliced in with `FLASH`, and `AUTO` when there was no hint. A probe that ends with `ACCESS(f)` ends
REGISTER_AREA with `f`, and one that ends with a fault with that fault, and the partition is as it was. That a descriptor of size 0 is no match:
notes/assumptions/28.md. -/
def Obligations.RegisterAreaBindsTheChipFound : Prop :=
  ∀ (s : State) (hint base : Nat) (families before : List Family) (e : MemoryArea) (s1 : State),
    (hint = 0 ∧ families = s.params.algOrder) ∨ (hint = 1 ∧ families = [.amd]) ∨ (hint = 2 ∧ families = [.cfm]) ∨
      (hint = 3 ∧ families = [.intel]) →
    areaOf s.registry base = some e → e.binding = .ram → probedWithoutMatch base s before s1 →
    s1.registry = s.registry ∧
    (families = before → exec (.registerArea hint base) s = .next (s1.conclude .notFound)) ∧
    (∀ (fam : Family) (after : List Family) (u : State), families = before ++ fam :: after →
      exec (probeInstr base fam) s1 = .next u →
      u.registry = s.registry ∧
      (∀ f, u.result = some (.fault f) → exec (.registerArea hint base) s = .next u) ∧
      (∀ r, u.result = some (.probe r) →
        (∀ f, r.status = .access f →
          exec (.registerArea hint base) s = .next { u with result := some (.fault (.proto f)) }) ∧
        ((∀ f, r.status ≠ .access f) → 0 < r.size →
          ∃ d, r.binding = some d ∧
            exec (.registerArea hint base) s = .next
              (if e.endAddr < base + r.size - 1 then { u with result := some (.fault .illegalOperation) }
               else
                { u with
                  registry := splice s.registry e
                    { beginAddr := base, endAddr := base + r.size - 1, binding := d
                      flags := { flash := true, auto := hint == 0, erased := false, error := false } }
                  result := some .ok }))))

/-- R212, R292: REGISTER_AREA with the CFM hint at a base where the table has a row whose idle module answers and whose array fits the RAM area: one byte read, and the area is bound. That of rows of
equal size the first of the table is tried first is the model's choice: notes/assumptions/37.md. -/
def Obligations.RegisterAreaFindsTheCfm : Prop :=
  ∀ (s : State) (base : Nat) (e : MemoryArea) (row : CfmRow) (more : List CfmRow) (st : Byte) (rest : List MemReply),
    areaOf s.registry base = some e → e.binding = .ram →
    sortBy CfmRow.size (s.params.cfmTable.filter (fun r => r.arrayBase == base)) = row :: more → 0 < row.size →
    base + row.size - 1 ≤ e.endAddr → callAllowed (row.regBase + s.params.cfmNumbers.ustatOff) 1 = true →
    st &&& s.params.cfmNumbers.ccif ≠ 0 → st &&& 0x0B = 0 → s.memScript = .done [st] :: rest →
    exec (.registerArea 2 base) s = .next
      ({ s.performed [.read (row.regBase + s.params.cfmNumbers.ustatOff) [st]] with
          registry := splice s.registry e
            { beginAddr := base, endAddr := base + row.size - 1
              binding := .cfm
                { chip := { base := base, size := row.size, name := row.name, busWidth := 4, chipWidth := 4,
                            sectorSize := row.pageSize }
                  regBase := row.regBase, backdoorBase := row.backdoorBase, numbers := s.params.cfmNumbers }
              flags := { flash := true, auto := false, erased := false, error := false } } }.conclude .ok)

/-- R102, R212, R214: a hint out of range, and a base in a flash area, are refused with `ILLEGAL_OPERATION`; nothing is probed and nothing changes. -/
def Obligations.RegisterAreaRefusals : Prop :=
  ∀ (s : State) (hint base : Nat),
    (3 < hint → exec (.registerArea hint base) s = .next (s.takeFault .illegalOperation)) ∧
    (∀ e, hint ≤ 3 → areaOf s.registry base = some e → e.binding ≠ .ram →
      exec (.registerArea hint base) s = .next (s.takeFault .illegalOperation))

/-- R226: RAM.WRITE makes, in ascending order, the widest naturally aligned accesses of 4, 2 and 1 bytes that fit; when they complete it has stored every byte of its data, most significant
byte at the lowest address, and nothing else, and returns the count; and WRITE_MEMORY inside one RAM area does the same and returns the count (R220). A data byte that
the caller did not supply is a free value (notes/assumptions/9.md). -/
def Obligations.RamWriteStoresItsBytes : Prop :=
  ∀ (s : State) (address n : Nat), s.memory.wf = true → address + n ≤ 2 ^ 32 →
    (∃ ws, widestWidths address n ws) ∧
    ∀ ws, widestWidths address n ws →
      let t := s.performed (storesOf address s.dataByte 0 ws)
      (∀ a, t.storedByte a =
        if address ≤ a ∧ a < address + n then some (s.dataByte (a - address)) else s.storedByte a) ∧
      ∀ done rest : List MemReply, s.memScript = done ++ rest → done.length = ws.length → (∀ r ∈ done, ∃ v, r = .done v) →
        exec (.ramWrite address n) s = .next (t.conclude (.flash { count := n, status := .ok })) ∧
        (∀ e, areaOf s.registry address = some e → e.binding = .ram → address + n ≤ e.endAddr + 1 →
          exec (.writeMemory address n) s = .next (t.conclude (.written n .ok)))

/-- R220, R221, R226, R250: the first access that fails ends RAM.WRITE with the bytes stored before it as the count and the fault as its status, and WRITE_MEMORY in a RAM area with that short
count; nothing is retried and nothing is rolled back. R222: a length of 0 makes no access. That the failed access is no event is the model's choice:
notes/assumptions/12.md. -/
def Obligations.ShortWriteIsFinal : Prop :=
  ∀ (s : State) (address n : Nat),
    (∀ (ws : List Nat) (j : Nat) (done : List MemReply) (f : ProtoFault) (rest : List MemReply), address + n ≤ 2 ^ 32 →
      widestWidths address n ws → j < ws.length → done.length = j → (∀ r ∈ done, ∃ v, r = .done v) →
      s.memScript = done ++ .fault f :: rest →
      let t := s.cutOff (storesOf address s.dataByte 0 (ws.take j))
      let stored := (ws.take j).sum
      exec (.ramWrite address n) s = .next (t.conclude (.flash { count := stored, status := .access f })) ∧
      (∀ e, areaOf s.registry address = some e → e.binding = .ram → address + n ≤ e.endAddr + 1 →
        exec (.writeMemory address n) s = .next (t.conclude (.written stored (.access f))))) ∧
    (∀ (f : ProtoFault) (rest : List MemReply), 0 < n → address + n ≤ 2 ^ 32 → s.memScript = .fault f :: rest →
      exec (.ramWrite address n) s = .next (s.tookReply.conclude (.flash { count := 0, status := .access f })) ∧
      (∀ e, areaOf s.registry address = some e → e.binding = .ram → address + n ≤ e.endAddr + 1 →
        exec (.writeMemory address n) s = .next (s.tookReply.conclude (.written 0 (.access f))))) ∧
    exec (.ramWrite address 0) s = .next (s.conclude (.flash { count := 0, status := .ok })) ∧
    exec (.writeMemory address 0) s = .next (s.conclude (.written 0 .ok))

/-- R220: a WRITE_MEMORY that lies in one flash area is that family's `program`, and returns the bytes it programmed. One that goes on past its first area is the
WRITE_MEMORY of the bytes up to that area's end and then, if that was not short, the WRITE_MEMORY of the others at the next area's begin, and returns
the sum (R221, R222 (d)); here the caller supplied every byte, since a missing one is a free value of its own index (notes/assumptions/9.md). One that reaches the
top of the address space stops there (R222 (b)). -/
def Obligations.WriteMemoryDelegatesToTheOwner : Prop :=
  (∀ (s t : State) (address n : Nat) (e : MemoryArea) (r : FlashResult), 0 < n → areaOf s.registry address = some e →
    address + n ≤ e.endAddr + 1 → address + n ≤ 2 ^ 32 → t.result = some (.flash r) →
    (∀ d, e.binding = .amd d → exec (.amdProgram address n) s = .next t →
      exec (.writeMemory address n) s = .next { t with result := some (.written r.count r.status) }) ∧
    (∀ d, e.binding = .cfm d → exec (.cfmProgram address n) s = .next t →
      exec (.writeMemory address n) s = .next { t with result := some (.written r.count r.status) }) ∧
    (∀ d, e.binding = .intel d → exec (.intelProgram address n) s = .next t →
      exec (.writeMemory address n) s = .next { t with result := some (.written r.count r.status) })) ∧
  (∀ (s t : State) (address n : Nat) (e : MemoryArea), areaOf s.registry address = some e → n ≤ s.buffer.length →
    let k := e.endAddr + 1 - address
    k < n → address + k < 2 ^ 32 → exec (.writeMemory address k) s = .next t →
    (∀ f, t.result = some (.fault f) → exec (.writeMemory address n) s = .next t) ∧
    (∀ c st, t.result = some (.written c st) → c < k → exec (.writeMemory address n) s = .next t) ∧
    (∀ st u, t.result = some (.written k st) →
      exec (.writeMemory (address + k) (n - k))
        { t with buffer := s.buffer.drop k, opsDone := s.opsDone, result := s.result } = .next u →
      (∀ c st', u.result = some (.written c st') →
        exec (.writeMemory address n) s = .next { u with buffer := s.buffer, result := some (.written (k + c) st') }) ∧
      (∀ f, u.result = some (.fault f) → exec (.writeMemory address n) s = .next { u with buffer := s.buffer }))) ∧
  (∀ (s : State) (address n : Nat), s.partitioned = true → address < 2 ^ 32 → 2 ^ 32 < address + n →
    exec (.writeMemory address n) s = exec (.writeMemory address (2 ^ 32 - address)) s)

/-- R230 to R232: an erase, an erase wait and a blank check of an address in a RAM area return `NotFlash`, with no access. -/
def Obligations.RamIsNotFlash : Prop :=
  ∀ (s : State) (address whole : Nat) (e : MemoryArea), areaOf s.registry address = some e → e.binding = .ram →
    exec (.eraseArea address whole) s = .next (s.conclude .notFlash) ∧
    exec (.eraseWait address) s = .next (s.conclude .notFlash) ∧
    exec (.blankCheck address) s = .next (s.conclude .notFlash)

/-- R248, R276, R299, R322, R323: CFM and INTEL erase waits return `{0, OK}`, AMD and INTEL blank checks `{0, UNIMPLEMENTED}`, with no access and no flag changed; so do ERASE_WAIT and BLANK_CHECK of the
host on such areas (R231, R232). A program of no byte, with no AMD erase pending, returns `{0, OK}` with no access (R252 and D49; that
INTEL then sends no closing command either is notes/assumptions/22.md). That `areaSel` names the area of a wait is the model's choice: notes/assumptions/3.md. -/
def Obligations.OperationsWithoutAccess : Prop :=
  ∀ (s : State) (address : Nat) (e : MemoryArea), s.partitioned = true → areaOf s.registry address = some e →
    let selected := areaOf s.registry s.areaSel = some e
    let ok := s.conclude (.flash { count := 0, status := .ok })
    let absent := s.conclude (.flash { count := 0, status := .unimplemented })
    (∀ d, e.binding = .amd d → exec (.amdBlankCheck address) s = .next absent ∧
      exec (.blankCheck address) s = .next absent ∧
      (d.pendingErase = .none → exec (.amdProgram address 0) s = .next ok)) ∧
    (∀ d, e.binding = .cfm d → (selected → exec .cfmEraseWait s = .next ok) ∧ exec (.eraseWait address) s = .next ok ∧
      exec (.cfmProgram address 0) s = .next ok) ∧
    (∀ d, e.binding = .intel d → (selected → exec .intelEraseWait s = .next ok) ∧ exec (.eraseWait address) s = .next ok ∧
      exec (.intelBlankCheck address) s = .next absent ∧ exec (.blankCheck address) s = .next absent ∧
      exec (.intelProgram address 0) s = .next ok)

/-! ### The flash families: what each operation does when the environment completes its calls -/

/-- R242, R243, R264: AMD.PROBE tries the width pairs in order, each attempt with its entry sequence, its guard where a row was found, its return-to-array
command and, where the address does not hold what it held, its restoring store; it ends at the first hit with the descriptor of that row across the bus, with
no match when no attempt hits, and with `ACCESS(f)` at the first access that fails (R241, R250). That a failed access is no event of the trace is the model's
choice: notes/assumptions/12.md. That of rows of equal size with the same identifiers the first of the table is taken is the model's choice:
notes/assumptions/37.md. -/
def Obligations.AmdProbeFindsTheChip : Prop :=
  ∀ (s : State) (address : Nat) (tries : List ProbeTry),
    let n := s.params.amdNumbers
    let word := fun (w c : Nat) (code : Byte) => replicateLanes w c code.toNat
    let enter := fun (w c : Nat) =>
      [(address + n.unlock1Addr * w, word w c n.unlock1Val), (address + n.unlock2Addr * w, word w c n.unlock2Val),
       (address + n.unlock1Addr * w, word w c n.cmdId)]
    let pairs := triedPairs address
    let evs := triesEvents address enter (fun w c => word w c n.cmdReset) pairs tries
    triesSound (amdRow s.params) pairs tries = true → callsAllowed evs = true →
    (∀ rest, tries.length = pairs.length → triesHit (amdRow s.params) pairs tries = none → s.memScript = answersOf evs ++ rest →
      exec (.amdProbe address) s = .next ((s.performed evs).conclude (.probe { size := 0, binding := none, status := .ok }))) ∧
    (∀ w c row rest, triesHit (amdRow s.params) pairs tries = some ((w, c), row) → s.memScript = answersOf evs ++ rest →
      exec (.amdProbe address) s = .next ((s.performed evs).conclude (.probe
        { size := row.chipSize * (w / c)
          binding := some (.amd
            { chip := { base := address, size := row.chipSize * (w / c), name := row.name, busWidth := w, chipWidth := c,
                        sectorSize := row.sectorSize * (w / c) }
              manId := row.manId, devId := row.devId, numbers := row.overrides.getD n, pendingErase := .none })
          status := .ok }))) ∧
    (∀ j f rest, j < evs.length → s.memScript = answersOf (evs.take j) ++ .fault f :: rest →
      exec (.amdProbe address) s = .next
        ((s.cutOff (evs.take j)).conclude (.probe { size := 0, binding := none, status := .access f })))

/-- R242, R243, R312: INTEL.PROBE tries the width pairs as AMD.PROBE does, with its own commands; a hit on a buffered row is followed by the buffer-size
query, whose answer gives the buffer size when its lanes agree and the exponent is 1 to 10, and none otherwise; no match and `ACCESS(f)` as there (R241,
R250). That a failed access is no event of the trace is the model's choice: notes/assumptions/12.md. That of rows of equal size with the same identifiers the
first of the table is taken is the model's choice: notes/assumptions/37.md. -/
def Obligations.IntelProbeFindsTheChip : Prop :=
  ∀ (s : State) (address : Nat) (tries : List ProbeTry),
    let n := s.params.intelNumbers
    let word := fun (w c : Nat) (code : Byte) => replicateLanes w c code.toNat
    let pairs := triedPairs address
    let evs := triesEvents address (fun w c => [(address, word w c n.cmdReadId)]) (fun w c => word w c n.cmdReadArray) pairs tries
    let none' : OpResult := .probe { size := 0, binding := none, status := .ok }
    let failed := fun (evs : List MemEvent) => ∀ j f rest, j < evs.length →
      s.memScript = answersOf (evs.take j) ++ .fault f :: rest →
      exec (.intelProbe address) s = .next
        ((s.cutOff (evs.take j)).conclude (.probe { size := 0, binding := none, status := .access f }))
    let found := fun (w c : Nat) (row : IntelRow) (bufBytes : Nat) => OpResult.probe
      { size := row.chipSize * (w / c)
        binding := some (.intel
          { chip := { base := address, size := row.chipSize * (w / c), name := row.name, busWidth := w, chipWidth := c,
                      sectorSize := (row.regions.map (fun r => r.2 * (w / c))).foldl max 0 }
            manId := row.manId, devId := row.devId, regions := row.regions.map (fun r => (r.1, r.2 * (w / c)))
            buffered := row.buffered, bufBytes, numbers := n })
        status := .ok }
    triesSound (intelRow s.params) pairs tries = true → callsAllowed evs = true →
    (∀ rest, tries.length = pairs.length → triesHit (intelRow s.params) pairs tries = none → s.memScript = answersOf evs ++ rest →
      exec (.intelProbe address) s = .next ((s.performed evs).conclude none')) ∧
    failed evs ∧
    (∀ w c row, triesHit (intelRow s.params) pairs tries = some ((w, c), row) →
      (∀ rest, row.buffered = false → s.memScript = answersOf evs ++ rest →
        exec (.intelProbe address) s = .next ((s.performed evs).conclude (found w c row 0))) ∧
      (∀ (answer : BusWord) (rest : List MemReply), row.buffered = true → answer.length = w →
        let query : List MemEvent :=
          [.wrote (address + n.queryAddr * w) (word w c n.cmdQuery), .read (address + n.bufSizeOff * w) answer,
           .wrote address (word w c n.cmdReadArray)]
        let bytes := fun b => exec (.intelProbe address) s = .next ((s.performed (evs ++ query)).conclude (found w c row b))
        callsAllowed query = true →
        failed (evs ++ query) ∧
        (s.memScript = answersOf (evs ++ query) ++ rest →
          (∀ v, agreedValue w c answer = some v → 1 ≤ v % 256 → v % 256 ≤ 10 → bytes (2 ^ (v % 256) * (w / c))) ∧
          (∀ v, agreedValue w c answer = some v → ¬ (1 ≤ v % 256 ∧ v % 256 ≤ 10) → bytes 0) ∧
          (agreedValue w c answer = none → bytes 0))))

/-- R292: CFM.PROBE reads one status byte for each row at its base, in order of size, up to the first whose module answers idle, and returns that row's
descriptor; no match when none does, or when there is no row, and then no access; and `ACCESS(f)` at the first read that fails (R241, R250). That a failed
access is no event of the trace is the model's choice: notes/assumptions/12.md. That rows of equal size are read in the order of the table is the model's
choice: notes/assumptions/37.md. -/
def Obligations.CfmProbeTestsPresence : Prop :=
  ∀ (s : State) (address : Nat) (status : List Byte),
    let n := s.params.cfmNumbers
    let rows := sortBy CfmRow.size (s.params.cfmTable.filter (fun r => r.arrayBase == address))
    let present := fun (st : Byte) => st &&& n.ccif != 0 && st &&& 0x0B == 0
    let evs := (rows.zip status).map (fun p => MemEvent.read (p.1.regBase + n.ustatOff) [p.2])
    (rows = [] → exec (.cfmProbe address) s = .next (s.conclude (.probe { size := 0, binding := none, status := .ok }))) ∧
    (callsAllowed evs = true →
      (∀ rest, status.length = rows.length → status.any present = false → s.memScript = answersOf evs ++ rest →
        exec (.cfmProbe address) s = .next ((s.performed evs).conclude (.probe { size := 0, binding := none, status := .ok }))) ∧
      (∀ before st row rest, status = before ++ [st] → before.any present = false → present st = true →
        rows[before.length]? = some row → s.memScript = answersOf evs ++ rest →
        exec (.cfmProbe address) s = .next ((s.performed evs).conclude (.probe
          { size := row.size
            binding := some (.cfm
              { chip := { base := address, size := row.size, name := row.name, busWidth := 4, chipWidth := 4,
                          sectorSize := row.pageSize }
                regBase := row.regBase, backdoorBase := row.backdoorBase, numbers := n })
            status := .ok }))) ∧
      (∀ row f rest, status.any present = false → rows[status.length]? = some row → callAllowed (row.regBase + n.ustatOff) 1 = true →
        s.memScript = answersOf evs ++ .fault f :: rest →
        exec (.cfmProbe address) s = .next
          ((s.cutOff evs).conclude (.probe { size := 0, binding := none, status := .access f }))))

/-- R244, R246, R250, R253, R268, R269, R401: AMD.PROGRAM with no erase pending: each cell of the payload in ascending order is read, and one that differs
follows the program command, the toggle poll and the verify read, up to the first that does not end with `OK`. To the end it returns the count; a cell that
ends badly, or an access that fails, ends it with the payload bytes of the cells before and that status, and sets `ERROR`. `ERASED` is cleared as soon as the
command of some cell was written. A byte that the caller did not supply is a free value (notes/assumptions/9.md). That a failed access is no event of the
trace is the model's choice: notes/assumptions/12.md. That lane 0, the first rechecked, lies at the lowest address is R68 against N17 and D35:
notes/assumptions/25.md. -/
def Obligations.AmdProgramsItsCells : Prop :=
  ∀ (s : State) (e : MemoryArea) (d : AmdDescriptor) (address n : Nat) (cells : List CellRun),
    let w := d.chip.busWidth
    let first := address - address % w
    let evs := cellRunEvents w first cells
    let ended := fun (t : State) (cleared failed : Bool) (count : Nat) (status : FlashStatus) =>
      exec (.amdProgram address n) s = .next
        ((t.withArea e.beginAddr (fun a => a.flagged cleared failed)).conclude (.flash { count, status }))
    s.partitioned = true → areaOf s.registry address = some e → e.binding = .amd d → d.pendingErase = .none → 0 < n →
    address + n ≤ e.endAddr + 1 → 0 < w →
    cellRuns w address n s.dataByte (amdCell d s.params.flashPollBound) cells → callsAllowed evs = true →
    (∀ rest, (∀ r ∈ cells, r.status = .ok) → address + n ≤ first + cells.length * w → s.memScript = answersOf evs ++ rest →
      ended (s.performed evs) (anyChanged cells) false n .ok) ∧
    (∀ before last, cells = before ++ [last] →
      let count := max address (first + before.length * w) - address
      (∀ rest, last.status ≠ .ok → s.memScript = answersOf evs ++ rest →
        ended (s.performed evs) (anyChanged cells) true count last.status) ∧
      (∀ j f rest, j ≤ last.step.length →
        let made := cellRunEvents w first before ++ (last.events (first + before.length * w)).take j
        s.memScript = answersOf made ++ .fault f :: rest →
        ended (s.cutOff made) (anyChanged before || decide (5 ≤ j)) true count (.access f)))

/-- R249, R250, R254, R261, R272, R273: AMD.ERASE_SECTOR and AMD.ERASE_ALL with no erase pending, and ERASE_AREA of the host on such an area: `ERASED`
cleared, six writes, nothing read, the erase recorded as pending; a write that fails ends it with no erase pending, `ERASED` cleared and `ERROR` set. That
`ERASED` is cleared before the first write (R249 (a)), where the steps of R272 have the line after the last, is notes/assumptions/21.md. That `areaSel` names
the area of ERASE_ALL is the model's choice: notes/assumptions/3.md. That a failed access is no event of the trace is the model's choice:
notes/assumptions/12.md. -/
def Obligations.AmdEraseReturnsAtOnce : Prop :=
  ∀ (s : State) (e : MemoryArea) (d : AmdDescriptor) (address whole : Nat) (rest : List MemReply),
    let lo := d.chip.base + (address - d.chip.base) / d.chip.sectorSize * d.chip.sectorSize
    let setup : List MemEvent :=
      [MemEvent.wrote d.u1 (rep d.chip d.numbers.unlock1Val), .wrote d.u2 (rep d.chip d.numbers.unlock2Val),
       .wrote d.u1 (rep d.chip d.numbers.cmdErase), .wrote d.u1 (rep d.chip d.numbers.unlock1Val),
       .wrote d.u2 (rep d.chip d.numbers.unlock2Val)]
    let ended := fun (evs : List MemEvent) (p : PendingErase) =>
      ((s.performed evs).withArea e.beginAddr (fun a => (a.withErased false).withPending p)).conclude
        (.flash { count := 0, status := .ok })
    let failed := fun (evs : List MemEvent) (i : Instr) => ∀ j f, j < evs.length →
      s.memScript = answersOf (evs.take j) ++ .fault f :: rest →
      exec i s = .next (((s.cutOff (evs.take j)).withArea e.beginAddr (fun a => a.flagged true true)).conclude
        (.flash { count := 0, status := .access f }))
    s.partitioned = true → areaOf s.registry address = some e → e.binding = .amd d → d.pendingErase = .none →
    (let evs := setup ++ [MemEvent.wrote lo (rep d.chip d.numbers.cmdEraseSector)]
     let t := ended evs (.sector lo (lo + d.chip.sectorSize - 1))
     callsAllowed evs = true →
      (s.memScript = answersOf evs ++ rest → exec (.amdEraseSector address) s = .next t ∧ exec (.eraseArea address 0) s = .next t) ∧
      failed evs (.amdEraseSector address) ∧ failed evs (.eraseArea address 0)) ∧
    (let evs := setup ++ [MemEvent.wrote d.u1 (rep d.chip d.numbers.cmdEraseAll)]
     let t := ended evs .whole
     callsAllowed evs = true →
      (areaOf s.registry s.areaSel = some e →
        (s.memScript = answersOf evs ++ rest → exec .amdEraseAll s = .next t) ∧ failed evs .amdEraseAll) ∧
      (whole ≠ 0 →
        (s.memScript = answersOf evs ++ rest → exec (.eraseArea address whole) s = .next t) ∧ failed evs (.eraseArea address whole)))

/-- R249, R250, R253, R269, R275, R401: AMD.ERASE_WAIT, and ERASE_WAIT of the host on such an area: nothing to do when no erase is pending; otherwise the
pending erase is cleared, the toggle poll runs at the range's first cell, and after `OK` the whole range is verified. `ERASED` is set when that ends with `OK`
and the erase was the whole chip's; another status, or an access that fails, is returned and sets `ERROR`. That `areaSel` names the area is the model's
choice: notes/assumptions/3.md. That a failed access is no event of the trace is the model's choice: notes/assumptions/12.md. That lane 0, the first
rechecked, lies at the lowest address is R68 against N17 and D35: notes/assumptions/25.md. -/
def Obligations.AmdEraseWaitVerifies : Prop :=
  ∀ (s : State) (e : MemoryArea) (d : AmdDescriptor) (address : Nat), s.partitioned = true →
    areaOf s.registry address = some e → e.binding = .amd d →
    let answers := fun (t : State) =>
      (areaOf s.registry s.areaSel = some e → exec .amdEraseWait s = .next t) ∧ exec (.eraseWait address) s = .next t
    (d.pendingErase = .none → answers (s.conclude (.flash { count := 0, status := .ok }))) ∧
    (∀ lo hi evs st,
      (d.pendingErase = .sector lo hi ∨
        d.pendingErase = .whole ∧ lo = d.chip.base ∧ hi = d.chip.base + d.chip.size - 1) →
      ((togglePolls d s.params.flashPollBound lo).andThen (verifiesErased d.chip.busWidth lo hi)) evs st →
      callsAllowed evs = true →
      (∀ rest, s.memScript = answersOf evs ++ rest →
        answers (((s.performed evs).withArea e.beginAddr (fun a =>
          if st ≠ .ok then (a.withPending .none).flagged false true
          else if d.pendingErase = .whole then (a.withPending .none).withErased true
          else a.withPending .none)).conclude (.flash { count := 0, status := st }))) ∧
      (∀ j f rest, j < evs.length → s.memScript = answersOf (evs.take j) ++ .fault f :: rest →
        answers (((s.cutOff (evs.take j)).withArea e.beginAddr (fun a => (a.withPending .none).flagged false true)).conclude
          (.flash { count := 0, status := .access f }))))

/-- R244, R246, R250, R253, R291, R293, R296: CFM.PROGRAM: each 4-byte cell of the payload in ascending order is read, and one that differs follows the
command through the backdoor with its two completion loops and the verify read at the array address, up to the first that does not end with `OK`. To the end
it returns the count; a cell that ends badly, or an access that fails, ends it with the payload bytes of the cells before and that status, and sets `ERROR`.
`ERASED` is cleared at the point the command of some cell is about to be written. A byte that the caller did not supply is a free value
(notes/assumptions/9.md). That a failed access is no event of the trace is the model's choice: notes/assumptions/12.md. -/
def Obligations.CfmProgramsItsCells : Prop :=
  ∀ (s : State) (e : MemoryArea) (d : CfmDescriptor) (address n : Nat) (cells : List CellRun),
    let first := address - address % 4
    let evs := cellRunEvents 4 first cells
    let ended := fun (t : State) (cleared failed : Bool) (count : Nat) (status : FlashStatus) =>
      exec (.cfmProgram address n) s = .next
        ((t.withArea e.beginAddr (fun a => a.flagged cleared failed)).conclude (.flash { count, status }))
    s.partitioned = true → areaOf s.registry address = some e → e.binding = .cfm d → 0 < n →
    address + n ≤ e.endAddr + 1 →
    cellRuns 4 address n s.dataByte (cfmCell d s.params.flashPollBound) cells → callsAllowed evs = true →
    (∀ rest, (∀ r ∈ cells, r.status = .ok) → address + n ≤ first + cells.length * 4 → s.memScript = answersOf evs ++ rest →
      ended (s.performed evs) (anyChanged cells) false n .ok) ∧
    (∀ before last, cells = before ++ [last] →
      let count := max address (first + before.length * 4) - address
      (∀ rest, last.status ≠ .ok → s.memScript = answersOf evs ++ rest →
        ended (s.performed evs) (anyChanged cells) true count last.status) ∧
      (∀ j f rest, j ≤ last.step.length →
        let made := cellRunEvents 4 first before ++ (last.events (first + before.length * 4)).take j
        s.memScript = answersOf made ++ .fault f :: rest →
        ended (s.cutOff made) (anyChanged before || decide (1 ≤ j)) true count (.access f)))

/-- R249, R250, R253, R254, R291, R296, R297, R298: CFM.ERASE_SECTOR and CFM.ERASE_ALL, and ERASE_AREA of the host on such an area: `ERASED` cleared, the
command at the first address of the range with its two completion loops, and after `OK` the verify of every cell. A whole erase that ends with `OK` sets
`ERASED`, a sector erase leaves it clear; another status, or an access that fails, is returned and sets `ERROR`. That `areaSel` names the area of ERASE_ALL is
the model's choice: notes/assumptions/3.md. That a failed access is no event of the trace is the model's choice: notes/assumptions/12.md. -/
def Obligations.CfmEraseVerifies : Prop :=
  ∀ (s : State) (e : MemoryArea) (d : CfmDescriptor) (address whole : Nat),
    let erase := fun (lo hi : Nat) (code : Byte) =>
      (cfmCommandRun d s.params.flashPollBound lo [0xFF, 0xFF, 0xFF, 0xFF] code).andThen (verifiesErased 4 lo hi)
    let answers := fun (i : Instr) (lo hi : Nat) (code : Byte) (erased : Bool) => ∀ evs st, erase lo hi code evs st →
      callsAllowed evs = true →
      (∀ rest, s.memScript = answersOf evs ++ rest →
        exec i s = .next (((s.performed evs).withArea e.beginAddr (fun a =>
          if st = .ok then a.withErased erased else a.flagged true true)).conclude (.flash { count := 0, status := st }))) ∧
      (∀ j f rest, j < evs.length → s.memScript = answersOf (evs.take j) ++ .fault f :: rest →
        exec i s = .next (((s.cutOff (evs.take j)).withArea e.beginAddr (fun a => a.flagged true true)).conclude
          (.flash { count := 0, status := .access f })))
    s.partitioned = true → areaOf s.registry address = some e → e.binding = .cfm d →
    (let lo := d.chip.base + (address - d.chip.base) / d.chip.sectorSize * d.chip.sectorSize
     answers (.cfmEraseSector address) lo (lo + d.chip.sectorSize - 1) d.numbers.cmdPageErase false ∧
     answers (.eraseArea address 0) lo (lo + d.chip.sectorSize - 1) d.numbers.cmdPageErase false) ∧
    (let lo := d.chip.base
     let hi := d.chip.base + d.chip.size - 1
     (areaOf s.registry s.areaSel = some e → answers .cfmEraseAll lo hi d.numbers.cmdMassErase true) ∧
     (whole ≠ 0 → answers (.eraseArea address whole) lo hi d.numbers.cmdMassErase true))

/-- R250, R291, R296, R300: CFM.BLANK_CHECK, and BLANK_CHECK of the host on such an area: the command on the whole array with its two completion loops; after
`OK` one more status read: with `BLANK` set the flag is cleared and the status is `OK`, with it clear the status is `BLANK_FAIL`. A status other than `OK`, or
an access that fails, is returned and sets `ERROR`; no other flag changes. That a failed access is no event of the trace is the model's choice:
notes/assumptions/12.md. -/
def Obligations.CfmBlankCheck : Prop :=
  ∀ (s : State) (e : MemoryArea) (d : CfmDescriptor) (address : Nat) (evs : List MemEvent) (st : FlashStatus),
    let answers := fun (t : State) => exec (.cfmBlankCheck address) s = .next t ∧ exec (.blankCheck address) s = .next t
    s.partitioned = true → areaOf s.registry address = some e → e.binding = .cfm d →
    ((cfmCommandRun d s.params.flashPollBound d.chip.base [0xFF, 0xFF, 0xFF, 0xFF] d.numbers.cmdBlankCheck).andThen
      (cfmReadsBlank d)) evs st →
    callsAllowed evs = true →
    (∀ rest, s.memScript = answersOf evs ++ rest →
      answers (((s.performed evs).withArea e.beginAddr (fun a => a.flagged false (decide (st ≠ .ok)))).conclude
        (.flash { count := 0, status := st }))) ∧
    (∀ j f rest, j < evs.length → s.memScript = answersOf (evs.take j) ++ .fault f :: rest →
      answers (((s.cutOff (evs.take j)).withArea e.beginAddr (fun a => a.flagged false true)).conclude
        (.flash { count := 0, status := .access f })))

/-- R244, R246, R250, R253, R314 to R318: INTEL.PROGRAM: chunk after chunk, each read and merged whole; one of which some cell differs has its sector
unlocked, once in the call, and is programmed by the single-word command or by a burst, up to the first that does not end with `OK`; then the array-read
command. To the end it returns the count; a chunk that ends badly, or an access that fails, ends it with the payload bytes of the chunks before and that
status, and sets `ERROR`; that an access failed inside a chunk of several cells counts none of that chunk's bytes is the model's choice
(notes/assumptions/36.md); for a failed closing command, which the spec leaves open, these are the bytes before the last chunk (notes/assumptions/23.md).
`ERASED` is cleared once the sector of such a chunk is unlocked. The chunk of at least one cell is notes/assumptions/24.md; a byte that the caller did not
supply is a free value (notes/assumptions/9.md), and so is the count word of a burst of 257 or more cells on 8-bit lanes, where `m - 1` does not fit the lane
(notes/assumptions/10.md). That a failed access is no event of the trace is the model's choice: notes/assumptions/12.md. -/
def Obligations.IntelProgramsAChunk : Prop :=
  ∀ (s : State) (e : MemoryArea) (d : IntelDescriptor) (address n : Nat) (chunks : List ChunkRun),
    let w := d.chip.busWidth
    let first := address - address % w
    let evs := chunkRunEvents w first chunks
    let ended := fun (t : State) (cleared failed : Bool) (count : Nat) (status : FlashStatus) =>
      exec (.intelProgram address n) s = .next
        ((t.withArea e.beginAddr (fun a => a.flagged cleared failed)).conclude (.flash { count, status }))
    s.partitioned = true → areaOf s.registry address = some e → e.binding = .intel d → 0 < n →
    address + n ≤ e.endAddr + 1 → 0 < w →
    chunkRuns d s.params.flashPollBound address n s.dataByte first [] chunks →
    callsAllowed (evs ++ [intelReadArrayEvent d]) = true →
    (∀ rest, (∀ r ∈ chunks, r.status = .ok) → address + n ≤ chunksEnd w first chunks →
      s.memScript = answersOf (evs ++ [intelReadArrayEvent d]) ++ rest →
      ended (s.performed (evs ++ [intelReadArrayEvent d])) (anyProgrammed chunks) false n .ok) ∧
    (∀ before last, chunks = before ++ [last] →
      let c := chunksEnd w first before
      let count := max address c - address
      (∀ rest, last.status ≠ .ok → s.memScript = answersOf evs ++ rest →
        ended (s.performed evs) (anyProgrammed chunks) true count last.status) ∧
      (∀ j f rest, j < (last.events w c).length →
        let made := chunkRunEvents w first before ++ (last.events w c).take j
        s.memScript = answersOf made ++ .fault f :: rest →
        ended (s.cutOff made) (anyProgrammed before || decide (last.curs.length + last.unlock.length ≤ j)) true count (.access f)) ∧
      (∀ f rest, (∀ r ∈ chunks, r.status = .ok) → address + n ≤ chunksEnd w first chunks →
        s.memScript = answersOf evs ++ .fault f :: rest →
        ended (s.cutOff evs) (anyProgrammed chunks) true count (.access f)))

/-- R249, R250, R253, R314, R315, R320: INTEL.ERASE_SECTOR, and ERASE_AREA of the host on such an area: `ERASED` cleared, unlock, the erase command, the
status poll, and after `OK` back to array-read mode and the verify of every cell. R321: INTEL.ERASE_ALL does so for every sector in turn, until one fails, and
after the last sets `ERASED`. A status other than `OK`, or an access that fails, is returned and sets `ERROR`. That `areaSel` names the area of ERASE_ALL is
the model's choice: notes/assumptions/3.md. That a failed access is no event of the trace is the model's choice: notes/assumptions/12.md. -/
def Obligations.IntelEraseVerifies : Prop :=
  ∀ (s : State) (e : MemoryArea) (d : IntelDescriptor) (address whole lo hi : Nat),
    let bound := s.params.flashPollBound
    let answers := fun (i : Instr) (erase : Conduct) (erased : Bool) => ∀ evs st, erase evs st → callsAllowed evs = true →
      (∀ rest, s.memScript = answersOf evs ++ rest →
        exec i s = .next (((s.performed evs).withArea e.beginAddr (fun a =>
          if st = .ok then a.withErased erased else a.flagged true true)).conclude (.flash { count := 0, status := st }))) ∧
      (∀ j f rest, j < evs.length → s.memScript = answersOf (evs.take j) ++ .fault f :: rest →
        exec i s = .next (((s.cutOff (evs.take j)).withArea e.beginAddr (fun a => a.flagged true true)).conclude
          (.flash { count := 0, status := .access f })))
    s.partitioned = true → areaOf s.registry address = some e → e.binding = .intel d →
    (d.sectorRange address = some (lo, hi) →
      answers (.intelEraseSector address) (intelSectorErase d bound (lo, hi)) false ∧
      answers (.eraseArea address 0) (intelSectorErase d bound (lo, hi)) false) ∧
    ((∀ r ∈ d.sectors, d.sectorRange r.1 = some r) →
      (areaOf s.registry s.areaSel = some e → answers .intelEraseAll (intelSectorErases d bound d.sectors) true) ∧
      (whole ≠ 0 → answers (.eraseArea address whole) (intelSectorErases d bound d.sectors) true))

/-- R246 (with R244): AMD.PROGRAM, with no erase pending, and CFM.PROGRAM of bytes that the cells already hold: one read for each cell, no write, and the whole count. (INTEL.PROGRAM, which closes with
its array-read command, is IntelProgramsAChunk with every chunk skipped.) A byte that the caller did not supply is a free value (notes/assumptions/9.md). -/
def Obligations.ProgramIsIdempotent : Prop :=
  ∀ (s : State) (e : MemoryArea) (address n w : Nat) (cells : List BusWord) (rest : List MemReply),
    let c := address - address % w
    let evs : List MemEvent := cells.mapIdx (fun i v => MemEvent.read (c + i * w) v)
    let t := (s.performed evs).conclude (.flash { count := n, status := .ok })
    s.partitioned = true → areaOf s.registry address = some e → address + n ≤ e.endAddr + 1 → 0 < n → 0 < w →
    cells.length = (address % w + n + (w - 1)) / w → (∀ v ∈ cells, v.length = w) →
    (∀ k, k < n → ∀ v, cells[(address + k - c) / w]? = some v → v[(address + k - c) % w]? = some (s.dataByte k)) →
    callsAllowed evs = true → s.memScript = answersOf evs ++ rest →
    (∀ d, e.binding = .amd d → d.chip.busWidth = w → d.pendingErase = .none → exec (.amdProgram address n) s = .next t) ∧
    (∀ d, e.binding = .cfm d → w = 4 → exec (.cfmProgram address n) s = .next t)

/-- R270, R275, R278: on an AMD area with an erase pending, AMD.PROGRAM, AMD.ERASE_SECTOR and AMD.ERASE_ALL, and ERASE_AREA of the host, first wait as ERASE_WAIT does. After `OK` they do what they do on
the state the wait leaves, in which no erase is pending; another status ends them there with that status, and nothing of their own is done. That `areaSel` names the area of ERASE_ALL is the
model's choice: notes/assumptions/3.md. That a program of no byte waits too (R252 against D49) is notes/assumptions/35.md. -/
def Obligations.AmdWaitsForAPendingErase : Prop :=
  ∀ (s t : State) (e : MemoryArea) (d : AmdDescriptor) (address n whole : Nat) (r : FlashResult), s.partitioned = true →
    areaOf s.registry address = some e → e.binding = .amd d → d.pendingErase ≠ .none →
    exec (.eraseWait address) s = .next t → t.result = some (.flash r) →
    let waited := { t with opsDone := s.opsDone, result := s.result }
    let does := fun (i : Instr) =>
      (r.status = .ok → exec i s = exec i waited) ∧ (r.status ≠ .ok → exec i s = .next t)
    (∃ e', areaOf t.registry address = some e' ∧ e'.binding = .amd { d with pendingErase := .none }) ∧
    (address + n ≤ e.endAddr + 1 → does (.amdProgram address n)) ∧ does (.amdEraseSector address) ∧
    (areaOf s.registry s.areaSel = some e → does .amdEraseAll) ∧ does (.eraseArea address whole)
end

