-- ==== Sys2Proof/Laws/State.lean ====
section
/-! SUPPORT. One lemma per field per update of the state, true by `rfl`: a later proof never unfolds a record update. -/

namespace Sys2Proof.Laws

open Sys2Proof Sys2Proof.Machine

/-! ### `State.wroteCtrl` (R11, R24) -/

@[simp] theorem wroteCtrl_params (s : State) (p : Byte) : (s.wroteCtrl p).params = s.params := rfl
@[simp] theorem wroteCtrl_owned (s : State) (p : Byte) : (s.wroteCtrl p).owned = s.owned := rfl
@[simp] theorem wroteCtrl_session (s : State) (p : Byte) : (s.wroteCtrl p).session = s.session.map (fun x => { x with shadow := p }) := rfl
@[simp] theorem wroteCtrl_lines (s : State) (p : Byte) : (s.wroteCtrl p).lines = p := rfl
@[simp] theorem wroteCtrl_work (s : State) (p : Byte) : (s.wroteCtrl p).work = s.work := rfl
@[simp] theorem wroteCtrl_registry (s : State) (p : Byte) : (s.wroteCtrl p).registry = s.registry := rfl
@[simp] theorem wroteCtrl_lineTrace (s : State) (p : Byte) : (s.wroteCtrl p).lineTrace = s.lineTrace ++ [.wrote p] := rfl
@[simp] theorem wroteCtrl_memTrace (s : State) (p : Byte) : (s.wroteCtrl p).memTrace = s.memTrace := rfl
@[simp] theorem wroteCtrl_memory (s : State) (p : Byte) : (s.wroteCtrl p).memory = s.memory := rfl
@[simp] theorem wroteCtrl_statScript (s : State) (p : Byte) : (s.wroteCtrl p).statScript = s.statScript := rfl
@[simp] theorem wroteCtrl_memScript (s : State) (p : Byte) : (s.wroteCtrl p).memScript = s.memScript := rfl
@[simp] theorem wroteCtrl_memCalls (s : State) (p : Byte) : (s.wroteCtrl p).memCalls = s.memCalls := rfl
@[simp] theorem wroteCtrl_requests (s : State) (p : Byte) : (s.wroteCtrl p).requests = s.requests := rfl
@[simp] theorem wroteCtrl_buffer (s : State) (p : Byte) : (s.wroteCtrl p).buffer = s.buffer := rfl
@[simp] theorem wroteCtrl_areaSel (s : State) (p : Byte) : (s.wroteCtrl p).areaSel = s.areaSel := rfl
@[simp] theorem wroteCtrl_opsDone (s : State) (p : Byte) : (s.wroteCtrl p).opsDone = s.opsDone := rfl
@[simp] theorem wroteCtrl_result (s : State) (p : Byte) : (s.wroteCtrl p).result = s.result := rfl

/-! ### `State.readStat` (R11) -/

@[simp] theorem readStat_params (s : State) : (s.readStat).params = s.params := rfl
@[simp] theorem readStat_owned (s : State) : (s.readStat).owned = s.owned := rfl
@[simp] theorem readStat_session (s : State) : (s.readStat).session = s.session := rfl
@[simp] theorem readStat_lines (s : State) : (s.readStat).lines = s.lines := rfl
@[simp] theorem readStat_work (s : State) : (s.readStat).work = s.work := rfl
@[simp] theorem readStat_registry (s : State) : (s.readStat).registry = s.registry := rfl
@[simp] theorem readStat_lineTrace (s : State) : (s.readStat).lineTrace = s.lineTrace ++ [.read s.nextStat] := rfl
@[simp] theorem readStat_memTrace (s : State) : (s.readStat).memTrace = s.memTrace := rfl
@[simp] theorem readStat_memory (s : State) : (s.readStat).memory = s.memory := rfl
@[simp] theorem readStat_statScript (s : State) : (s.readStat).statScript = s.statScript.tail := rfl
@[simp] theorem readStat_memScript (s : State) : (s.readStat).memScript = s.memScript := rfl
@[simp] theorem readStat_memCalls (s : State) : (s.readStat).memCalls = s.memCalls := rfl
@[simp] theorem readStat_requests (s : State) : (s.readStat).requests = s.requests := rfl
@[simp] theorem readStat_buffer (s : State) : (s.readStat).buffer = s.buffer := rfl
@[simp] theorem readStat_areaSel (s : State) : (s.readStat).areaSel = s.areaSel := rfl
@[simp] theorem readStat_opsDone (s : State) : (s.readStat).opsDone = s.opsDone := rfl
@[simp] theorem readStat_result (s : State) : (s.readStat).result = s.result := rfl

/-! ### `State.tookReply` (R66) -/

@[simp] theorem tookReply_params (s : State) : (s.tookReply).params = s.params := rfl
@[simp] theorem tookReply_owned (s : State) : (s.tookReply).owned = s.owned := rfl
@[simp] theorem tookReply_session (s : State) : (s.tookReply).session = s.session := rfl
@[simp] theorem tookReply_lines (s : State) : (s.tookReply).lines = s.lines := rfl
@[simp] theorem tookReply_work (s : State) : (s.tookReply).work = s.work := rfl
@[simp] theorem tookReply_registry (s : State) : (s.tookReply).registry = s.registry := rfl
@[simp] theorem tookReply_lineTrace (s : State) : (s.tookReply).lineTrace = s.lineTrace := rfl
@[simp] theorem tookReply_memTrace (s : State) : (s.tookReply).memTrace = s.memTrace := rfl
@[simp] theorem tookReply_memory (s : State) : (s.tookReply).memory = s.memory := rfl
@[simp] theorem tookReply_statScript (s : State) : (s.tookReply).statScript = s.statScript := rfl
@[simp] theorem tookReply_memScript (s : State) : (s.tookReply).memScript = s.memScript.tail := rfl
@[simp] theorem tookReply_memCalls (s : State) : (s.tookReply).memCalls = s.memCalls + 1 := rfl
@[simp] theorem tookReply_requests (s : State) : (s.tookReply).requests = s.requests := rfl
@[simp] theorem tookReply_buffer (s : State) : (s.tookReply).buffer = s.buffer := rfl
@[simp] theorem tookReply_areaSel (s : State) : (s.tookReply).areaSel = s.areaSel := rfl
@[simp] theorem tookReply_opsDone (s : State) : (s.tookReply).opsDone = s.opsDone := rfl
@[simp] theorem tookReply_result (s : State) : (s.tookReply).result = s.result := rfl

/-! ### `State.didRead` (R11) -/

@[simp] theorem didRead_params (s : State) (a : Nat) (v : BusWord) : (s.didRead a v).params = s.params := rfl
@[simp] theorem didRead_owned (s : State) (a : Nat) (v : BusWord) : (s.didRead a v).owned = s.owned := rfl
@[simp] theorem didRead_session (s : State) (a : Nat) (v : BusWord) : (s.didRead a v).session = s.session := rfl
@[simp] theorem didRead_lines (s : State) (a : Nat) (v : BusWord) : (s.didRead a v).lines = s.lines := rfl
@[simp] theorem didRead_work (s : State) (a : Nat) (v : BusWord) : (s.didRead a v).work = s.work := rfl
@[simp] theorem didRead_registry (s : State) (a : Nat) (v : BusWord) : (s.didRead a v).registry = s.registry := rfl
@[simp] theorem didRead_lineTrace (s : State) (a : Nat) (v : BusWord) : (s.didRead a v).lineTrace = s.lineTrace := rfl
@[simp] theorem didRead_memTrace (s : State) (a : Nat) (v : BusWord) : (s.didRead a v).memTrace = s.memTrace ++ [.read a v] := rfl
@[simp] theorem didRead_memory (s : State) (a : Nat) (v : BusWord) : (s.didRead a v).memory = s.memory := rfl
@[simp] theorem didRead_statScript (s : State) (a : Nat) (v : BusWord) : (s.didRead a v).statScript = s.statScript := rfl
@[simp] theorem didRead_memScript (s : State) (a : Nat) (v : BusWord) : (s.didRead a v).memScript = s.memScript := rfl
@[simp] theorem didRead_memCalls (s : State) (a : Nat) (v : BusWord) : (s.didRead a v).memCalls = s.memCalls := rfl
@[simp] theorem didRead_requests (s : State) (a : Nat) (v : BusWord) : (s.didRead a v).requests = s.requests := rfl
@[simp] theorem didRead_buffer (s : State) (a : Nat) (v : BusWord) : (s.didRead a v).buffer = s.buffer := rfl
@[simp] theorem didRead_areaSel (s : State) (a : Nat) (v : BusWord) : (s.didRead a v).areaSel = s.areaSel := rfl
@[simp] theorem didRead_opsDone (s : State) (a : Nat) (v : BusWord) : (s.didRead a v).opsDone = s.opsDone := rfl
@[simp] theorem didRead_result (s : State) (a : Nat) (v : BusWord) : (s.didRead a v).result = s.result := rfl

/-! ### `State.didWrite` (R11, R66) -/

@[simp] theorem didWrite_params (s : State) (a : Nat) (v : BusWord) : (s.didWrite a v).params = s.params := rfl
@[simp] theorem didWrite_owned (s : State) (a : Nat) (v : BusWord) : (s.didWrite a v).owned = s.owned := rfl
@[simp] theorem didWrite_session (s : State) (a : Nat) (v : BusWord) : (s.didWrite a v).session = s.session := rfl
@[simp] theorem didWrite_lines (s : State) (a : Nat) (v : BusWord) : (s.didWrite a v).lines = s.lines := rfl
@[simp] theorem didWrite_work (s : State) (a : Nat) (v : BusWord) : (s.didWrite a v).work = s.work := rfl
@[simp] theorem didWrite_registry (s : State) (a : Nat) (v : BusWord) : (s.didWrite a v).registry = s.registry := rfl
@[simp] theorem didWrite_lineTrace (s : State) (a : Nat) (v : BusWord) : (s.didWrite a v).lineTrace = s.lineTrace := rfl
@[simp] theorem didWrite_memTrace (s : State) (a : Nat) (v : BusWord) : (s.didWrite a v).memTrace = s.memTrace ++ [.wrote a v] := rfl
@[simp] theorem didWrite_memory (s : State) (a : Nat) (v : BusWord) : (s.didWrite a v).memory = s.memory.storeAll a v := rfl
@[simp] theorem didWrite_statScript (s : State) (a : Nat) (v : BusWord) : (s.didWrite a v).statScript = s.statScript := rfl
@[simp] theorem didWrite_memScript (s : State) (a : Nat) (v : BusWord) : (s.didWrite a v).memScript = s.memScript := rfl
@[simp] theorem didWrite_memCalls (s : State) (a : Nat) (v : BusWord) : (s.didWrite a v).memCalls = s.memCalls := rfl
@[simp] theorem didWrite_requests (s : State) (a : Nat) (v : BusWord) : (s.didWrite a v).requests = s.requests := rfl
@[simp] theorem didWrite_buffer (s : State) (a : Nat) (v : BusWord) : (s.didWrite a v).buffer = s.buffer := rfl
@[simp] theorem didWrite_areaSel (s : State) (a : Nat) (v : BusWord) : (s.didWrite a v).areaSel = s.areaSel := rfl
@[simp] theorem didWrite_opsDone (s : State) (a : Nat) (v : BusWord) : (s.didWrite a v).opsDone = s.opsDone := rfl
@[simp] theorem didWrite_result (s : State) (a : Nat) (v : BusWord) : (s.didWrite a v).result = s.result := rfl

/-! ### `State.withWork` (R21) -/

@[simp] theorem withWork_params (s : State) (f : WorkRegs → WorkRegs) : (s.withWork f).params = s.params := rfl
@[simp] theorem withWork_owned (s : State) (f : WorkRegs → WorkRegs) : (s.withWork f).owned = s.owned := rfl
@[simp] theorem withWork_session (s : State) (f : WorkRegs → WorkRegs) : (s.withWork f).session = s.session := rfl
@[simp] theorem withWork_lines (s : State) (f : WorkRegs → WorkRegs) : (s.withWork f).lines = s.lines := rfl
@[simp] theorem withWork_work (s : State) (f : WorkRegs → WorkRegs) : (s.withWork f).work = f s.work := rfl
@[simp] theorem withWork_registry (s : State) (f : WorkRegs → WorkRegs) : (s.withWork f).registry = s.registry := rfl
@[simp] theorem withWork_lineTrace (s : State) (f : WorkRegs → WorkRegs) : (s.withWork f).lineTrace = s.lineTrace := rfl
@[simp] theorem withWork_memTrace (s : State) (f : WorkRegs → WorkRegs) : (s.withWork f).memTrace = s.memTrace := rfl
@[simp] theorem withWork_memory (s : State) (f : WorkRegs → WorkRegs) : (s.withWork f).memory = s.memory := rfl
@[simp] theorem withWork_statScript (s : State) (f : WorkRegs → WorkRegs) : (s.withWork f).statScript = s.statScript := rfl
@[simp] theorem withWork_memScript (s : State) (f : WorkRegs → WorkRegs) : (s.withWork f).memScript = s.memScript := rfl
@[simp] theorem withWork_memCalls (s : State) (f : WorkRegs → WorkRegs) : (s.withWork f).memCalls = s.memCalls := rfl
@[simp] theorem withWork_requests (s : State) (f : WorkRegs → WorkRegs) : (s.withWork f).requests = s.requests := rfl
@[simp] theorem withWork_buffer (s : State) (f : WorkRegs → WorkRegs) : (s.withWork f).buffer = s.buffer := rfl
@[simp] theorem withWork_areaSel (s : State) (f : WorkRegs → WorkRegs) : (s.withWork f).areaSel = s.areaSel := rfl
@[simp] theorem withWork_opsDone (s : State) (f : WorkRegs → WorkRegs) : (s.withWork f).opsDone = s.opsDone := rfl
@[simp] theorem withWork_result (s : State) (f : WorkRegs → WorkRegs) : (s.withWork f).result = s.result := rfl

/-! ### `State.withSession` (R23) -/

@[simp] theorem withSession_params (s : State) (f : Session → Session) : (s.withSession f).params = s.params := rfl
@[simp] theorem withSession_owned (s : State) (f : Session → Session) : (s.withSession f).owned = s.owned := rfl
@[simp] theorem withSession_session (s : State) (f : Session → Session) : (s.withSession f).session = s.session.map f := rfl
@[simp] theorem withSession_lines (s : State) (f : Session → Session) : (s.withSession f).lines = s.lines := rfl
@[simp] theorem withSession_work (s : State) (f : Session → Session) : (s.withSession f).work = s.work := rfl
@[simp] theorem withSession_registry (s : State) (f : Session → Session) : (s.withSession f).registry = s.registry := rfl
@[simp] theorem withSession_lineTrace (s : State) (f : Session → Session) : (s.withSession f).lineTrace = s.lineTrace := rfl
@[simp] theorem withSession_memTrace (s : State) (f : Session → Session) : (s.withSession f).memTrace = s.memTrace := rfl
@[simp] theorem withSession_memory (s : State) (f : Session → Session) : (s.withSession f).memory = s.memory := rfl
@[simp] theorem withSession_statScript (s : State) (f : Session → Session) : (s.withSession f).statScript = s.statScript := rfl
@[simp] theorem withSession_memScript (s : State) (f : Session → Session) : (s.withSession f).memScript = s.memScript := rfl
@[simp] theorem withSession_memCalls (s : State) (f : Session → Session) : (s.withSession f).memCalls = s.memCalls := rfl
@[simp] theorem withSession_requests (s : State) (f : Session → Session) : (s.withSession f).requests = s.requests := rfl
@[simp] theorem withSession_buffer (s : State) (f : Session → Session) : (s.withSession f).buffer = s.buffer := rfl
@[simp] theorem withSession_areaSel (s : State) (f : Session → Session) : (s.withSession f).areaSel = s.areaSel := rfl
@[simp] theorem withSession_opsDone (s : State) (f : Session → Session) : (s.withSession f).opsDone = s.opsDone := rfl
@[simp] theorem withSession_result (s : State) (f : Session → Session) : (s.withSession f).result = s.result := rfl

/-! ### `State.withArea` (R35) -/

@[simp] theorem withArea_params (s : State) (b : Nat) (f : MemoryArea → MemoryArea) : (s.withArea b f).params = s.params := rfl
@[simp] theorem withArea_owned (s : State) (b : Nat) (f : MemoryArea → MemoryArea) : (s.withArea b f).owned = s.owned := rfl
@[simp] theorem withArea_session (s : State) (b : Nat) (f : MemoryArea → MemoryArea) : (s.withArea b f).session = s.session := rfl
@[simp] theorem withArea_lines (s : State) (b : Nat) (f : MemoryArea → MemoryArea) : (s.withArea b f).lines = s.lines := rfl
@[simp] theorem withArea_work (s : State) (b : Nat) (f : MemoryArea → MemoryArea) : (s.withArea b f).work = s.work := rfl
@[simp] theorem withArea_registry (s : State) (b : Nat) (f : MemoryArea → MemoryArea) : (s.withArea b f).registry = s.registry.map (fun a => if a.beginAddr = b then f a else a) := rfl
@[simp] theorem withArea_lineTrace (s : State) (b : Nat) (f : MemoryArea → MemoryArea) : (s.withArea b f).lineTrace = s.lineTrace := rfl
@[simp] theorem withArea_memTrace (s : State) (b : Nat) (f : MemoryArea → MemoryArea) : (s.withArea b f).memTrace = s.memTrace := rfl
@[simp] theorem withArea_memory (s : State) (b : Nat) (f : MemoryArea → MemoryArea) : (s.withArea b f).memory = s.memory := rfl
@[simp] theorem withArea_statScript (s : State) (b : Nat) (f : MemoryArea → MemoryArea) : (s.withArea b f).statScript = s.statScript := rfl
@[simp] theorem withArea_memScript (s : State) (b : Nat) (f : MemoryArea → MemoryArea) : (s.withArea b f).memScript = s.memScript := rfl
@[simp] theorem withArea_memCalls (s : State) (b : Nat) (f : MemoryArea → MemoryArea) : (s.withArea b f).memCalls = s.memCalls := rfl
@[simp] theorem withArea_requests (s : State) (b : Nat) (f : MemoryArea → MemoryArea) : (s.withArea b f).requests = s.requests := rfl
@[simp] theorem withArea_buffer (s : State) (b : Nat) (f : MemoryArea → MemoryArea) : (s.withArea b f).buffer = s.buffer := rfl
@[simp] theorem withArea_areaSel (s : State) (b : Nat) (f : MemoryArea → MemoryArea) : (s.withArea b f).areaSel = s.areaSel := rfl
@[simp] theorem withArea_opsDone (s : State) (b : Nat) (f : MemoryArea → MemoryArea) : (s.withArea b f).opsDone = s.opsDone := rfl
@[simp] theorem withArea_result (s : State) (b : Nat) (f : MemoryArea → MemoryArea) : (s.withArea b f).result = s.result := rfl

/-! ### `State.conclude` (R22) -/

@[simp] theorem conclude_params (s : State) (r : OpResult) : (s.conclude r).params = s.params := rfl
@[simp] theorem conclude_owned (s : State) (r : OpResult) : (s.conclude r).owned = s.owned := rfl
@[simp] theorem conclude_session (s : State) (r : OpResult) : (s.conclude r).session = s.session := rfl
@[simp] theorem conclude_lines (s : State) (r : OpResult) : (s.conclude r).lines = s.lines := rfl
@[simp] theorem conclude_work (s : State) (r : OpResult) : (s.conclude r).work = WorkRegs.rest := rfl
@[simp] theorem conclude_registry (s : State) (r : OpResult) : (s.conclude r).registry = s.registry := rfl
@[simp] theorem conclude_lineTrace (s : State) (r : OpResult) : (s.conclude r).lineTrace = s.lineTrace := rfl
@[simp] theorem conclude_memTrace (s : State) (r : OpResult) : (s.conclude r).memTrace = s.memTrace := rfl
@[simp] theorem conclude_memory (s : State) (r : OpResult) : (s.conclude r).memory = s.memory := rfl
@[simp] theorem conclude_statScript (s : State) (r : OpResult) : (s.conclude r).statScript = s.statScript := rfl
@[simp] theorem conclude_memScript (s : State) (r : OpResult) : (s.conclude r).memScript = s.memScript := rfl
@[simp] theorem conclude_memCalls (s : State) (r : OpResult) : (s.conclude r).memCalls = s.memCalls := rfl
@[simp] theorem conclude_requests (s : State) (r : OpResult) : (s.conclude r).requests = s.requests := rfl
@[simp] theorem conclude_buffer (s : State) (r : OpResult) : (s.conclude r).buffer = s.buffer := rfl
@[simp] theorem conclude_areaSel (s : State) (r : OpResult) : (s.conclude r).areaSel = s.areaSel := rfl
@[simp] theorem conclude_opsDone (s : State) (r : OpResult) : (s.conclude r).opsDone = s.opsDone + 1 := rfl
@[simp] theorem conclude_result (s : State) (r : OpResult) : (s.conclude r).result = some r := rfl

/-! ### `State.takeFault` (R352) -/

@[simp] theorem takeFault_params (s : State) (f : FaultKind) : (s.takeFault f).params = s.params := rfl
@[simp] theorem takeFault_owned (s : State) (f : FaultKind) : (s.takeFault f).owned = s.owned := rfl
@[simp] theorem takeFault_session (s : State) (f : FaultKind) : (s.takeFault f).session = s.session := rfl
@[simp] theorem takeFault_lines (s : State) (f : FaultKind) : (s.takeFault f).lines = s.lines := rfl
@[simp] theorem takeFault_work (s : State) (f : FaultKind) : (s.takeFault f).work = WorkRegs.rest := rfl
@[simp] theorem takeFault_registry (s : State) (f : FaultKind) : (s.takeFault f).registry = s.registry := rfl
@[simp] theorem takeFault_lineTrace (s : State) (f : FaultKind) : (s.takeFault f).lineTrace = s.lineTrace := rfl
@[simp] theorem takeFault_memTrace (s : State) (f : FaultKind) : (s.takeFault f).memTrace = s.memTrace := rfl
@[simp] theorem takeFault_memory (s : State) (f : FaultKind) : (s.takeFault f).memory = s.memory := rfl
@[simp] theorem takeFault_statScript (s : State) (f : FaultKind) : (s.takeFault f).statScript = s.statScript := rfl
@[simp] theorem takeFault_memScript (s : State) (f : FaultKind) : (s.takeFault f).memScript = s.memScript := rfl
@[simp] theorem takeFault_memCalls (s : State) (f : FaultKind) : (s.takeFault f).memCalls = s.memCalls := rfl
@[simp] theorem takeFault_requests (s : State) (f : FaultKind) : (s.takeFault f).requests = s.requests := rfl
@[simp] theorem takeFault_buffer (s : State) (f : FaultKind) : (s.takeFault f).buffer = s.buffer := rfl
@[simp] theorem takeFault_areaSel (s : State) (f : FaultKind) : (s.takeFault f).areaSel = s.areaSel := rfl
@[simp] theorem takeFault_opsDone (s : State) (f : FaultKind) : (s.takeFault f).opsDone = s.opsDone + 1 := rfl
@[simp] theorem takeFault_result (s : State) (f : FaultKind) : (s.takeFault f).result = some (.fault f) := rfl

/-! ### `State.accept` (R99) -/

@[simp] theorem accept_params (s : State) (r : Request) (rest : List Request) : (s.accept r rest).params = s.params := rfl
@[simp] theorem accept_owned (s : State) (r : Request) (rest : List Request) : (s.accept r rest).owned = s.owned := rfl
@[simp] theorem accept_session (s : State) (r : Request) (rest : List Request) : (s.accept r rest).session = s.session := rfl
@[simp] theorem accept_lines (s : State) (r : Request) (rest : List Request) : (s.accept r rest).lines = s.lines := rfl
@[simp] theorem accept_work (s : State) (r : Request) (rest : List Request) : (s.accept r rest).work = s.work := rfl
@[simp] theorem accept_registry (s : State) (r : Request) (rest : List Request) : (s.accept r rest).registry = s.registry := rfl
@[simp] theorem accept_lineTrace (s : State) (r : Request) (rest : List Request) : (s.accept r rest).lineTrace = s.lineTrace := rfl
@[simp] theorem accept_memTrace (s : State) (r : Request) (rest : List Request) : (s.accept r rest).memTrace = s.memTrace := rfl
@[simp] theorem accept_memory (s : State) (r : Request) (rest : List Request) : (s.accept r rest).memory = s.memory := rfl
@[simp] theorem accept_statScript (s : State) (r : Request) (rest : List Request) : (s.accept r rest).statScript = s.statScript := rfl
@[simp] theorem accept_memScript (s : State) (r : Request) (rest : List Request) : (s.accept r rest).memScript = s.memScript := rfl
@[simp] theorem accept_memCalls (s : State) (r : Request) (rest : List Request) : (s.accept r rest).memCalls = s.memCalls := rfl
@[simp] theorem accept_requests (s : State) (r : Request) (rest : List Request) : (s.accept r rest).requests = rest := rfl
@[simp] theorem accept_buffer (s : State) (r : Request) (rest : List Request) : (s.accept r rest).buffer = r.data := rfl
@[simp] theorem accept_opsDone (s : State) (r : Request) (rest : List Request) : (s.accept r rest).opsDone = s.opsDone := rfl
@[simp] theorem accept_result (s : State) (r : Request) (rest : List Request) : (s.accept r rest).result = s.result := rfl

/-! ### `State.delayed` (R11): by whether the delay is zero -/

@[simp] theorem delayed_params (s : State) (k : Nat) : (s.delayed k).params = s.params := by
  unfold State.delayed; split <;> rfl
@[simp] theorem delayed_owned (s : State) (k : Nat) : (s.delayed k).owned = s.owned := by
  unfold State.delayed; split <;> rfl
@[simp] theorem delayed_session (s : State) (k : Nat) : (s.delayed k).session = s.session := by
  unfold State.delayed; split <;> rfl
@[simp] theorem delayed_lines (s : State) (k : Nat) : (s.delayed k).lines = s.lines := by
  unfold State.delayed; split <;> rfl
@[simp] theorem delayed_work (s : State) (k : Nat) : (s.delayed k).work = s.work := by
  unfold State.delayed; split <;> rfl
@[simp] theorem delayed_registry (s : State) (k : Nat) : (s.delayed k).registry = s.registry := by
  unfold State.delayed; split <;> rfl
@[simp] theorem delayed_lineTrace (s : State) (k : Nat) :
    (s.delayed k).lineTrace = s.lineTrace ++ (if k = 0 then [] else [.delay k]) := by
  unfold State.delayed; split <;> simp
@[simp] theorem delayed_memTrace (s : State) (k : Nat) : (s.delayed k).memTrace = s.memTrace := by
  unfold State.delayed; split <;> rfl
@[simp] theorem delayed_memory (s : State) (k : Nat) : (s.delayed k).memory = s.memory := by
  unfold State.delayed; split <;> rfl
@[simp] theorem delayed_statScript (s : State) (k : Nat) : (s.delayed k).statScript = s.statScript := by
  unfold State.delayed; split <;> rfl
@[simp] theorem delayed_memScript (s : State) (k : Nat) : (s.delayed k).memScript = s.memScript := by
  unfold State.delayed; split <;> rfl
@[simp] theorem delayed_memCalls (s : State) (k : Nat) : (s.delayed k).memCalls = s.memCalls := by
  unfold State.delayed; split <;> rfl
@[simp] theorem delayed_requests (s : State) (k : Nat) : (s.delayed k).requests = s.requests := by
  unfold State.delayed; split <;> rfl
@[simp] theorem delayed_buffer (s : State) (k : Nat) : (s.delayed k).buffer = s.buffer := by
  unfold State.delayed; split <;> rfl
@[simp] theorem delayed_areaSel (s : State) (k : Nat) : (s.delayed k).areaSel = s.areaSel := by
  unfold State.delayed; split <;> rfl
@[simp] theorem delayed_opsDone (s : State) (k : Nat) : (s.delayed k).opsDone = s.opsDone := by
  unfold State.delayed; split <;> rfl
@[simp] theorem delayed_result (s : State) (k : Nat) : (s.delayed k).result = s.result := by
  unfold State.delayed; split <;> rfl

/-- `Delay(0)` appends no event and changes nothing (R11, R406). -/
@[simp] theorem delayed_zero (s : State) : s.delayed 0 = s := rfl

/-- A delay of at least one tick appends its event and nothing else (R11). -/
theorem delayed_pos (s : State) (k : Nat) (h : k ≠ 0) :
    s.delayed k = { s with lineTrace := s.lineTrace ++ [.delay k] } := by
  simp [State.delayed, h]

/-- The next answer of `ReadSTAT` while the script lasts (R66). -/
@[simp] theorem nextStat_cons (s : State) (v : Byte) (rest : List Byte) (h : s.statScript = v :: rest) :
    s.nextStat = v := by
  simp [State.nextStat, h]

/-- The next answer of the memory primitive while the script lasts (R66). -/
@[simp] theorem nextReply_cons (s : State) (c : MemCall) (r : MemReply) (rest : List MemReply)
    (h : s.memScript = r :: rest) : s.nextReply c = r := by
  simp [State.nextReply, h]

/-! ### The working registers change nothing else and are lost at the end (R21, R22) -/

@[simp] theorem withWork_withWork (s : State) (f g : WorkRegs → WorkRegs) :
    (s.withWork f).withWork g = s.withWork (fun w => g (f w)) := rfl

@[simp] theorem wroteCtrl_withWork (s : State) (f : WorkRegs → WorkRegs) (p : Byte) :
    (s.withWork f).wroteCtrl p = (s.wroteCtrl p).withWork f := rfl

@[simp] theorem readStat_withWork (s : State) (f : WorkRegs → WorkRegs) :
    (s.withWork f).readStat = s.readStat.withWork f := rfl

@[simp] theorem nextStat_withWork (s : State) (f : WorkRegs → WorkRegs) : (s.withWork f).nextStat = s.nextStat := rfl

@[simp] theorem nextReply_withWork (s : State) (f : WorkRegs → WorkRegs) (c : MemCall) :
    (s.withWork f).nextReply c = s.nextReply c := rfl

@[simp] theorem delayed_withWork (s : State) (f : WorkRegs → WorkRegs) (k : Nat) :
    (s.withWork f).delayed k = (s.delayed k).withWork f := by
  unfold State.delayed; split <;> rfl

@[simp] theorem tookReply_withWork (s : State) (f : WorkRegs → WorkRegs) :
    (s.withWork f).tookReply = s.tookReply.withWork f := rfl

@[simp] theorem didRead_withWork (s : State) (f : WorkRegs → WorkRegs) (a : Nat) (v : BusWord) :
    (s.withWork f).didRead a v = (s.didRead a v).withWork f := rfl

@[simp] theorem didWrite_withWork (s : State) (f : WorkRegs → WorkRegs) (a : Nat) (v : BusWord) :
    (s.withWork f).didWrite a v = (s.didWrite a v).withWork f := rfl

@[simp] theorem withSession_withWork (s : State) (f : WorkRegs → WorkRegs) (g : Session → Session) :
    (s.withWork f).withSession g = (s.withSession g).withWork f := rfl

@[simp] theorem withArea_withWork (s : State) (f : WorkRegs → WorkRegs) (b : Nat) (g : MemoryArea → MemoryArea) :
    (s.withWork f).withArea b g = (s.withArea b g).withWork f := rfl

@[simp] theorem conclude_withWork (s : State) (f : WorkRegs → WorkRegs) (r : OpResult) :
    (s.withWork f).conclude r = s.conclude r := rfl

@[simp] theorem takeFault_withWork (s : State) (f : WorkRegs → WorkRegs) (k : FaultKind) :
    (s.withWork f).takeFault k = s.takeFault k := rfl

/-- Two states with the same fields are the same. -/
@[ext] theorem state_ext {s t : State} (h1 : s.params = t.params) (h2 : s.owned = t.owned) (h3 : s.session = t.session)
    (h4 : s.lines = t.lines) (h5 : s.work = t.work) (h6 : s.registry = t.registry) (h7 : s.lineTrace = t.lineTrace)
    (h8 : s.memTrace = t.memTrace) (h9 : s.memory = t.memory) (h10 : s.statScript = t.statScript)
    (h11 : s.memScript = t.memScript) (h12 : s.memCalls = t.memCalls) (h13 : s.requests = t.requests)
    (h14 : s.buffer = t.buffer) (h15 : s.areaSel = t.areaSel) (h16 : s.opsDone = t.opsDone)
    (h17 : s.result = t.result) : s = t := by
  cases s; cases t; simp_all

/-- The fields of a session with new timing that SPEED leaves alone (R176). -/
@[simp] theorem withSpeed_fields (x : Session) (p : Params) (base : Nat) :
    (x.withSpeed p base).variant = x.variant ∧ (x.withSpeed p base).caps = x.caps ∧
      (x.withSpeed p base).shadow = x.shadow ∧ (x.withSpeed p base).resetExtraDelay = x.resetExtraDelay ∧
      (x.withSpeed p base).sense = x.sense ∧ (x.withSpeed p base).debugLevel = x.debugLevel ∧
      (x.withSpeed p base).baseDelay = base := ⟨rfl, rfl, rfl, rfl, rfl, rfl, rfl⟩

/-- The fields of an initialised session that INIT leaves alone (R164). -/
@[simp] theorem initialised_fields (x : Session) (p : Params) :
    (x.initialised p).variant = x.variant ∧ (x.initialised p).caps = x.caps ∧
      (x.initialised p).shadow = x.shadow := ⟨rfl, rfl, rfl⟩

end Sys2Proof.Laws
end

