-- ==== Sys2Proof/Laws/Op.lean ====
section
/-! SUPPORT. How a computation of the sequencer runs: the laws of its sequence, and one lemma per primitive and per accessor that says
everything it can do. Later proofs rewrite with these and unfold none of them. -/

namespace Sys2Proof.Laws

open Sys2Proof Sys2Proof.Machine

variable {α β : Type}

/-! ### Sequencing -/

@[simp] theorem run_pure (a : α) (s : State) : (pure a : Op α) s = .ok a s := rfl

/-- `m` then `f`: what `m` did stays done when it ends early (R352). -/
theorem run_bind (m : Op α) (f : α → Op β) (s : State) :
    (m >>= f) s = match m s with
      | .ok a t => f a t
      | .error e t => .error e t := by
  change EStateM.bind m f s = _
  unfold EStateM.bind
  cases m s <;> rfl

/-- A function of what `m` returns. -/
theorem run_map (f : α → β) (m : Op α) (s : State) :
    (f <$> m) s = match m s with
      | .ok a t => .ok (f a) t
      | .error e t => .error e t := by
  change EStateM.map f m s = _
  unfold EStateM.map
  cases m s <;> rfl

@[simp] theorem run_bind_ok {m : Op α} {f : α → Op β} {s t : State} {a : α} (h : m s = .ok a t) :
    (m >>= f) s = f a t := by
  rw [run_bind, h]

@[simp] theorem run_bind_error {m : Op α} {f : α → Op β} {s t : State} {e : Exit} (h : m s = .error e t) :
    (m >>= f) s = .error e t := by
  rw [run_bind, h]

@[simp] theorem run_get (s : State) : (get : Op State) s = .ok s s := rfl

@[simp] theorem run_set (s t : State) : (set t : Op PUnit) s = .ok ⟨⟩ t := rfl

@[simp] theorem run_modify (f : State → State) (s : State) : (modify f : Op PUnit) s = .ok ⟨⟩ (f s) := rfl

@[simp] theorem run_raise (f : FaultKind) (s : State) : (raise f : Op α) s = .error (.fault f) s := rfl

@[simp] theorem run_abort (f : ProtoFault) (s : State) : (abort f : Op α) s = .error (.access f) s := rfl

@[simp] theorem run_ite (c : Prop) [Decidable c] (m n : Op α) (s : State) :
    (if c then m else n) s = if c then m s else n s := by
  split <;> rfl

/-- A sequence that ended well passed through its first part. -/
theorem bind_ok_inv {m : Op α} {f : α → Op β} {s u : State} {b : β} (h : (m >>= f) s = .ok b u) :
    ∃ a t, m s = .ok a t ∧ f a t = .ok b u := by
  rw [run_bind] at h
  split at h
  · exact ⟨_, _, ‹_›, h⟩
  · cases h

/-! ### Ending an operation -/

/-- What a whole operation answers when it returns (R22). -/
@[simp] theorem runOp_ok {m : Op OpResult} {s t : State} {r : OpResult} (h : m s = .ok r t) :
    runOp m s = .next (t.conclude r) := by
  simp [runOp, h]

/-- What a whole operation answers when it raises (R352). -/
@[simp] theorem runOp_fault {m : Op OpResult} {s t : State} {f : FaultKind} (h : m s = .error (.fault f) t) :
    runOp m s = .next (t.takeFault f) := by
  simp [runOp, h]

/-- A whole operation always answers a next state (R355). -/
theorem runOp_next (m : Op OpResult) (s : State) : ∃ t, runOp m s = .next t := ⟨_, rfl⟩

/-! ### The line port -/

@[simp] theorem run_writeCtrl (p : Byte) (s : State) : writeCtrl p s = .ok () (s.wroteCtrl p) := rfl

@[simp] theorem run_readStat (s : State) : readStat s = .ok s.nextStat s.readStat := rfl

@[simp] theorem run_delay (k : Nat) (s : State) : delay k s = .ok () (s.delayed k) := rfl

/-! ### Working registers -/

@[simp] theorem run_setCnt (k : Nat) (s : State) : setCnt k s = .ok () (s.withWork (fun w => { w with cnt := k })) := rfl

@[simp] theorem run_setPoll (k : Nat) (s : State) :
    setPoll k s = .ok () (s.withWork (fun w => { w with poll := k })) := rfl

@[simp] theorem run_setAcc (v : Word32) (s : State) :
    setAcc v s = .ok () (s.withWork (fun w => { w with acc := v })) := rfl

@[simp] theorem run_setDbit (d : Bool) (s : State) :
    setDbit d s = .ok () (s.withWork (fun w => { w with dbit := d })) := rfl

@[simp] theorem run_setSt (b : BitVec 4) (s : State) :
    setSt b s = .ok () (s.withWork (fun w => { w with st := b })) := rfl

@[simp] theorem run_getAcc (s : State) : getAcc s = .ok s.work.acc s := rfl

/-! ### The session -/

@[simp] theorem run_openedSession {s : State} {x : Session} (h : s.session = some x) :
    openedSession s = .ok x s := by
  simp [openedSession, h]

@[simp] theorem run_openedSession_none {s : State} (h : s.session = none) :
    openedSession s = .error (.fault .notOpen) s := by
  simp [openedSession, h]

@[simp] theorem run_currentParams {s : State} {x : Session} (h : s.session = some x) :
    currentParams s = .ok (variantParams s.params x.variant) s := by
  simp [currentParams, run_bind, run_map, h]

@[simp] theorem run_writeKept {s : State} {x : Session} (pattern : Byte) (h : s.session = some x) :
    writeKept pattern s =
      .ok () (s.wroteCtrl (keepLed (variantParams s.params x.variant).encoding x.shadow pattern)) := by
  simp [writeKept, run_bind, h]

@[simp] theorem run_useCap {s : State} {x : Session} {present : Caps → Bool} (h : s.session = some x) :
    useCap present s = if present x.caps then .ok () s else .error (.fault .illegalOperation) s := by
  simp [useCap, run_bind, h]

/-- Without a session a capability call is `NOT_OPEN` (R162). -/
@[simp] theorem run_useCap_none {s : State} {present : Caps → Bool} (h : s.session = none) :
    useCap present s = .error (.fault .notOpen) s := by
  simp [useCap, run_bind, h]

@[simp] theorem run_updateSession (f : Session → Session) (s : State) :
    updateSession f s = .ok () (s.withSession f) := rfl

/-! ### The registry -/

@[simp] theorem run_owningArea {s : State} {a : Nat} {m : MemoryArea} (h : areaOf s.registry a = some m) :
    owningArea a s = .ok m s := by
  simp [owningArea, h]

@[simp] theorem run_owningArea_none {s : State} {a : Nat} (h : areaOf s.registry a = none) :
    owningArea a s = .error (.fault .illegalOperation) s := by
  simp [owningArea, h]

@[simp] theorem run_updateArea (b : Nat) (f : MemoryArea → MemoryArea) (s : State) :
    updateArea b f s = .ok () (s.withArea b f) := rfl

/-! ### The memory primitive -/

/-- A completed read, of `n` bytes (R11, R64). -/
theorem run_memRead_done {s : State} {a n : Nat} {v : BusWord} {rest : List MemReply} (hc : callAllowed a n = true)
    (hs : s.memScript = .done v :: rest) :
    memRead a n s = .ok (.ok (fitBytes n v)) (s.tookReply.didRead a (fitBytes n v)) := by
  simp [memRead, hc, State.nextReply, hs]

/-- A failed read. -/
theorem run_memRead_fault {s : State} {a n : Nat} {f : ProtoFault} {rest : List MemReply} (hc : callAllowed a n = true)
    (hs : s.memScript = .fault f :: rest) : memRead a n s = .ok (.error f) s.tookReply := by
  simp [memRead, hc, State.nextReply, hs]

/-- A completed write (R11, R64). -/
theorem run_memWrite_done {s : State} {a : Nat} {v w : BusWord} {rest : List MemReply}
    (hc : callAllowed a v.length = true) (hs : s.memScript = .done w :: rest) :
    memWrite a v s = .ok (.ok ()) (s.tookReply.didWrite a v) := by
  simp [memWrite, hc, State.nextReply, hs]

/-- A failed write. -/
theorem run_memWrite_fault {s : State} {a : Nat} {v : BusWord} {f : ProtoFault} {rest : List MemReply}
    (hc : callAllowed a v.length = true) (hs : s.memScript = .fault f :: rest) :
    memWrite a v s = .ok (.error f) s.tookReply := by
  simp [memWrite, hc, State.nextReply, hs]

/-- A call that is not allowed is refused before it is made (R71, R78). -/
theorem run_memRead_refused {s : State} {a n : Nat} (hc : callAllowed a n = false) :
    memRead a n s = .error (.fault .illegalOperation) s := by
  simp [memRead, hc]

/-- A call that is not allowed is refused before it is made (R71, R78). -/
theorem run_memWrite_refused {s : State} {a : Nat} {v : BusWord} (hc : callAllowed a v.length = false) :
    memWrite a v s = .error (.fault .illegalOperation) s := by
  simp [memWrite, hc]

/-- An answer of the right length is taken as it is. -/
@[simp] theorem fitBytes_self (n : Nat) (v : BusWord) (h : v.length = n) : fitBytes n v = v := by
  subst h; simp [fitBytes]

/-- The aborting read, completed (R250). -/
theorem run_rd {s : State} {a n : Nat} {v : BusWord} {rest : List MemReply} (hc : callAllowed a n = true)
    (hn : v.length = n) (hs : s.memScript = .done v :: rest) : rd a n s = .ok v (s.tookReply.didRead a v) := by
  simp [rd, run_bind, run_memRead_done hc hs, hn]

/-- The aborting read, failed (R250). -/
theorem run_rd_fault {s : State} {a n : Nat} {f : ProtoFault} {rest : List MemReply} (hc : callAllowed a n = true)
    (hs : s.memScript = .fault f :: rest) : rd a n s = .error (.access f) s.tookReply := by
  simp [rd, run_bind, run_memRead_fault hc hs]

/-- The aborting write, completed (R250). -/
theorem run_wr {s : State} {a : Nat} {v w : BusWord} {rest : List MemReply} (hc : callAllowed a v.length = true)
    (hs : s.memScript = .done w :: rest) : wr a v s = .ok () (s.tookReply.didWrite a v) := by
  simp [wr, run_bind, run_memWrite_done hc hs]

/-- The aborting write, failed (R250). -/
theorem run_wr_fault {s : State} {a : Nat} {v : BusWord} {f : ProtoFault} {rest : List MemReply}
    (hc : callAllowed a v.length = true) (hs : s.memScript = .fault f :: rest) :
    wr a v s = .error (.access f) s.tookReply := by
  simp [wr, run_bind, run_memWrite_fault hc hs]

end Sys2Proof.Laws
end

