-- ==== Sys2Proof/Laws/Blind.lean ====
section
/-! SUPPORT. The operations on target memory read neither the working registers nor the caller's fields (data buffer, count of operations, last
outcome): run on a state that differs there they do the same, and they leave the caller's fields as they are. -/

namespace Sys2Proof.Laws

open Sys2Proof Sys2Proof.Machine

variable {α β : Type}

/-- A state with other working registers and other caller's fields. -/
def dressed (s : State) (w : WorkRegs) (b : List Byte) (o : Nat) (r : Option OpResult) : State :=
  { s with work := w, buffer := b, opsDone := o, result := r }

theorem dressed_self (s : State) : dressed s s.work s.buffer s.opsDone s.result = s := rfl

@[simp] theorem dressed_dressed (s : State) (w w' : WorkRegs) (b b' : List Byte) (o o' : Nat) (r r' : Option OpResult) :
    dressed (dressed s w b o r) w' b' o' r' = dressed s w' b' o' r' := rfl

/-- The same outcome of a computation, on dressed states. -/
def dressedResult (x : EStateM.Result Exit State α) (w : WorkRegs) (b : List Byte) (o : Nat) (r : Option OpResult) :
    EStateM.Result Exit State α :=
  match x with
  | .ok a t => .ok a (dressed t w b o r)
  | .error e t => .error e (dressed t w b o r)

/-- `m` does not see the working registers and the caller's fields. -/
def Blind (m : Op α) : Prop :=
  ∀ s w b o r, ∃ w', m (dressed s w b o r) = dressedResult (m s) w' b o r

theorem blind_pure (a : α) : Blind (pure a : Op α) := fun _ w _ _ _ => ⟨w, rfl⟩

theorem blind_raise (f : FaultKind) : Blind (raise f : Op α) := fun _ w _ _ _ => ⟨w, rfl⟩

theorem blind_abort (f : ProtoFault) : Blind (abort f : Op α) := fun _ w _ _ _ => ⟨w, rfl⟩

theorem blind_bind {m : Op α} {k : α → Op β} (h1 : Blind m) (h2 : ∀ a, Blind (k a)) : Blind (m >>= k) := by
  intro s w b o r
  obtain ⟨w1, hw1⟩ := h1 s w b o r
  rw [run_bind, run_bind, hw1]
  cases m s with
  | ok a t => exact h2 a t w1 b o r
  | error e t => exact ⟨w1, rfl⟩

/-- Reading the state is blind when what follows uses only the parameters. -/
theorem blind_params {k : Params → Op β} (h : ∀ p, Blind (k p)) : Blind (do let s ← get; k s.params) := by
  intro s w b o r
  rw [run_bind, run_bind]
  exact h s.params s w b o r

theorem blind_setPoll (k : Nat) : Blind (setPoll k) := fun _ w _ _ _ => ⟨{ w with poll := k }, rfl⟩

theorem blind_updateArea (b : Nat) (f : MemoryArea → MemoryArea) : Blind (updateArea b f) := fun _ w _ _ _ => ⟨w, rfl⟩

theorem blind_owningArea (a : Nat) : Blind (owningArea a) := by
  intro s w b o r
  refine ⟨w, ?_⟩
  change (match areaOf s.registry a with
    | some m => EStateM.Result.ok m (dressed s w b o r)
    | none => .error (.fault .illegalOperation) (dressed s w b o r)) =
    dressedResult (match areaOf s.registry a with
    | some m => EStateM.Result.ok m s
    | none => .error (.fault .illegalOperation) s) w b o r
  cases areaOf s.registry a <;> rfl

theorem nextReply_dressed (s : State) (w : WorkRegs) (b : List Byte) (o : Nat) (r : Option OpResult) (c : MemCall) :
    (dressed s w b o r).nextReply c = s.nextReply c := rfl

theorem blind_memRead (a n : Nat) : Blind (memRead a n) := by
  intro s w b o r
  refine ⟨w, ?_⟩
  simp only [memRead, nextReply_dressed]
  split
  · split <;> rfl
  · rfl

theorem blind_memWrite (a : Nat) (v : BusWord) : Blind (memWrite a v) := by
  intro s w b o r
  refine ⟨w, ?_⟩
  simp only [memWrite, nextReply_dressed]
  split
  · split <;> rfl
  · rfl

theorem blind_rd (a n : Nat) : Blind (rd a n) :=
  blind_bind (blind_memRead a n) (fun x => by cases x <;> first | exact blind_abort _ | exact blind_pure _)

theorem blind_wr (a : Nat) (v : BusWord) : Blind (wr a v) :=
  blind_bind (blind_memWrite a v) (fun x => by cases x <;> first | exact blind_abort _ | exact blind_pure _)

theorem blind_wrAll (ws : List (Nat × BusWord)) : Blind (wrAll ws) := by
  induction ws with
  | nil => exact blind_pure ()
  | cons w ws ih => exact blind_bind (blind_wr _ _) (fun _ => ih)

theorem blind_ite {c : Prop} [Decidable c] {m n : Op α} (hm : Blind m) (hn : Blind n) : Blind (if c then m else n) := by
  split <;> assumption

/-- A failed access turned into a value. -/
theorem blind_orAccess {m : Op FlashResult} (h : Blind m) : Blind (orAccess m) := by
  intro s w b o r
  obtain ⟨w', hw⟩ := h s w b o r
  refine ⟨w', ?_⟩
  simp only [orAccess, hw]
  cases m s with
  | ok a t => rfl
  | error e t => cases e <;> rfl

theorem blind_orAccessStatus {m : Op FlashStatus} (h : Blind m) : Blind (orAccessStatus m) := by
  intro s w b o r
  obtain ⟨w', hw⟩ := h s w b o r
  refine ⟨w', ?_⟩
  simp only [orAccessStatus, hw]
  cases m s with
  | ok a t => rfl
  | error e t => cases e <;> rfl

theorem blind_orAccessChunk {m : Op (FlashStatus × Nat × List Nat)} (h : Blind m) : Blind (orAccessChunk m) := by
  intro s w b o r
  obtain ⟨w', hw⟩ := h s w b o r
  refine ⟨w', ?_⟩
  simp only [orAccessChunk, hw]
  cases m s with
  | ok a t => rfl
  | error e t => cases e <;> rfl

theorem blind_familyOp {m : Op FlashResult} (b : Nat) (h : Blind m) : Blind (familyOp b m) :=
  blind_bind (blind_orAccess h) (fun _ => blind_bind (blind_updateArea _ _) (fun _ => blind_pure _))

theorem blind_verifyErased (lo hi w : Nat) : Blind (verifyErased lo hi w) := by
  have : ∀ n c, Blind (verifyCells w n c) := by
    intro n
    induction n with
    | zero => intro c; exact blind_pure _
    | succ n ih => intro c; exact blind_bind (blind_rd _ _) (fun _ => blind_ite (ih _) (blind_pure _))
  exact this _ _

theorem blind_cellLoop {w : Nat} {pc : Nat → BusWord → Op FlashStatus} (h : ∀ c want, Blind (pc c want)) (addr n : Nat)
    (data : Nat → Byte) : ∀ k done c, Blind (cellLoop w pc addr n data k done c) := by
  intro k
  induction k with
  | zero => intro done c; exact blind_pure _
  | succ k ih =>
    intro done c
    refine blind_ite (blind_bind (blind_orAccessStatus (blind_bind (blind_rd _ _) (fun _ => ?_))) (fun _ => blind_ite (ih _ _) (blind_pure _)))
      (blind_pure _)
    exact blind_ite (blind_pure _) (h _ _)

/-! ### AMD -/

theorem blind_amdDescriptor (b : Nat) : Blind (amdDescriptor b) :=
  blind_bind (blind_owningArea b) (fun a => by cases a.binding <;> first | exact blind_pure _ | exact blind_raise _)

theorem blind_togglePoll (d : AmdDescriptor) (c : Nat) : Blind (togglePoll d c) := by
  have lanes : ∀ prev cur ls busy, Blind (toggleLanes d c prev cur ls busy) := by
    intro prev cur ls
    induction ls with
    | nil => intro busy; exact blind_pure _
    | cons l ls ih =>
      intro busy
      exact blind_ite (ih _) (blind_ite (blind_bind (blind_rd _ _) (fun _ => blind_bind (blind_rd _ _) (fun _ =>
        blind_ite (ih _) (blind_pure _)))) (ih _))
  have reset : ∀ st : FlashStatus, Blind (do amdReset d; pure st) := fun st => blind_bind (blind_wr _ _) (fun _ => blind_pure _)
  have loop : ∀ k prev, Blind (toggleLoop d c k prev) := by
    intro k
    induction k with
    | zero => intro prev; exact reset _
    | succ k ih =>
      intro prev
      refine blind_bind (blind_setPoll _) (fun _ => blind_bind (blind_rd _ _) (fun cur => blind_bind (lanes _ _ _ _) (fun x => ?_)))
      cases x with
      | none => exact reset _
      | some y => cases y <;> first | exact blind_pure _ | exact ih _
  exact blind_bind (blind_rd _ _) (fun prev => blind_params (k := fun p => toggleLoop d c p.flashPollBound prev) (fun p => loop _ _))

theorem blind_amdEraseWaitOp (b : Nat) : Blind (amdEraseWaitOp b) := by
  refine blind_familyOp b (blind_bind (blind_amdDescriptor b) (fun d => ?_))
  cases d.pendingRange with
  | none => exact blind_pure _
  | some x =>
    refine blind_bind (blind_updateArea _ _) (fun _ => blind_bind (blind_togglePoll d _) (fun st => blind_ite (blind_pure _) ?_))
    refine blind_bind (blind_verifyErased _ _ _) (fun st => blind_ite (blind_pure _) ?_)
    by_cases h : d.pendingErase = .whole
    · simp only [h, if_true]; exact blind_bind (blind_updateArea _ _) (fun _ => blind_pure _)
    · simp only [h, if_false]; exact blind_pure _

theorem blind_amdPrepare {m : Op FlashResult} (b : Nat) (h : Blind m) : Blind (amdPrepare b m) :=
  blind_bind (blind_amdDescriptor b) (fun _ => blind_ite h (blind_bind (blind_amdEraseWaitOp b) (fun _ => blind_ite h (blind_pure _))))

theorem blind_amdProgramCells (b : Nat) (addr n : Nat) (data : Nat → Byte) : Blind (do
    let d ← amdDescriptor b
    programCells d.chip.busWidth (amdProgramCell b d) addr n data) :=
  blind_bind (blind_amdDescriptor b) (fun d => blind_cellLoop (fun c want =>
    blind_bind (blind_wrAll _) (fun _ => blind_bind (blind_updateArea _ _) (fun _ => blind_bind (blind_togglePoll d c) (fun st =>
      blind_ite (blind_pure _) (blind_bind (blind_rd _ _) (fun _ => blind_pure _)))))) _ _ _ _ _ _)

theorem blind_amdProgramOp (b addr n : Nat) (data : Nat → Byte) : Blind (amdProgramOp b addr n data) :=
  blind_familyOp b (blind_amdPrepare b (blind_amdProgramCells b addr n data))

theorem blind_amdStartErase (b : Nat) (ws : List (Nat × BusWord)) (p : PendingErase) : Blind (amdStartErase b ws p) :=
  blind_bind (blind_updateArea _ _) (fun _ => blind_bind (blind_wrAll _) (fun _ => blind_bind (blind_updateArea _ _) (fun _ =>
    blind_bind (blind_updateArea _ _) (fun _ => blind_pure _))))

/-! ### CFM -/

theorem blind_cfmDescriptor (b : Nat) : Blind (cfmDescriptor b) :=
  blind_bind (blind_owningArea b) (fun a => by cases a.binding <;> first | exact blind_pure _ | exact blind_raise _)

theorem blind_cfmCommand (d : CfmDescriptor) (a : Nat) (v : BusWord) (code : Byte) : Blind (cfmCommand d a v code) := by
  have poll : ∀ awaited k, Blind (cfmPoll d awaited k) := by
    intro awaited k
    induction k with
    | zero => exact blind_pure _
    | succ k ih =>
      exact blind_bind (blind_setPoll _) (fun _ => blind_bind (blind_rd _ _) (fun _ => blind_ite (blind_pure _) (blind_ite (blind_pure _) ih)))
  exact blind_bind (blind_wrAll _) (fun _ => blind_params (k := fun p => do
    let st ← cfmPoll d d.numbers.cbeif p.flashPollBound
    if st ≠ .ok then pure st else cfmPoll d d.numbers.ccif p.flashPollBound) (fun p =>
      blind_bind (poll _ _) (fun _ => blind_ite (blind_pure _) (poll _ _))))

theorem blind_cfmProgramOp (b addr n : Nat) (data : Nat → Byte) : Blind (cfmProgramOp b addr n data) :=
  blind_familyOp b (blind_bind (blind_cfmDescriptor b) (fun d => blind_cellLoop (fun c want =>
    blind_bind (blind_updateArea _ _) (fun _ => blind_bind (blind_cfmCommand d c want _) (fun st =>
      blind_ite (blind_pure _) (blind_bind (blind_rd _ _) (fun _ => blind_pure _))))) _ _ _ _ _ _))

/-! ### INTEL -/

theorem blind_intelDescriptor (b : Nat) : Blind (intelDescriptor b) :=
  blind_bind (blind_owningArea b) (fun a => by cases a.binding <;> first | exact blind_pure _ | exact blind_raise _)

theorem blind_statusPoll (d : IntelDescriptor) (a : Nat) : Blind (statusPoll d a) := by
  have loop : ∀ k, Blind (statusLoop d a k) := by
    intro k
    induction k with
    | zero => exact blind_bind (blind_wr _ _) (fun _ => blind_pure _)
    | succ k ih =>
      exact blind_bind (blind_setPoll _) (fun _ => blind_bind (blind_rd _ _) (fun _ => blind_ite
        (blind_ite (blind_bind (blind_wr _ _) (fun _ => blind_bind (blind_wr _ _) (fun _ => blind_pure _))) (blind_pure _)) ih))
  exact blind_params (k := fun p => statusLoop d a p.flashPollBound) (fun p => loop _)

theorem blind_verifyBurst (w : Nat) (wants : List BusWord) : ∀ c, Blind (verifyBurst w c wants) := by
  induction wants with
  | nil => intro c; exact blind_pure _
  | cons v vs ih => intro c; exact blind_bind (blind_rd _ _) (fun _ => blind_ite (ih _) (blind_pure _))

theorem blind_programChunk (d : IntelDescriptor) (s c : Nat) (wants : List BusWord) : Blind (programChunk d s c wants) := by
  cases wants with
  | nil => exact blind_pure _
  | cons v vs =>
    cases vs with
    | nil =>
      exact blind_bind (blind_wrAll _) (fun _ => blind_bind (blind_statusPoll d c) (fun _ => blind_ite (blind_pure _)
        (blind_bind (blind_wr _ _) (fun _ => blind_bind (blind_rd _ _) (fun _ => blind_pure _)))))
    | cons x xs =>
      exact blind_bind (blind_wr _ _) (fun _ => blind_bind (blind_statusPoll d s) (fun _ => blind_ite (blind_pure _)
        (blind_bind (blind_wr _ _) (fun _ => blind_bind (blind_wrAll _) (fun _ => blind_bind (blind_wr _ _) (fun _ =>
          blind_bind (blind_statusPoll d s) (fun _ => blind_ite (blind_pure _) (blind_bind (blind_wr _ _) (fun _ =>
            blind_verifyBurst _ _ _)))))))))

theorem blind_mergeChunk (w addr n : Nat) (data : Nat → Byte) : ∀ k done c, Blind (mergeChunk w addr n data k done c) := by
  intro k
  induction k with
  | zero => intro done c; exact blind_pure _
  | succ k ih => intro done c; exact blind_bind (blind_rd _ _) (fun _ => blind_bind (ih _ _) (fun _ => blind_pure _))

theorem blind_intelChunk (b : Nat) (d : IntelDescriptor) (addr n : Nat) (data : Nat → Byte) (done c : Nat) (u : List Nat) :
    Blind (intelChunk b d addr n data done c u) := by
  refine blind_bind ?_ (fun r => blind_bind (blind_mergeChunk _ _ _ _ _ _ _) (fun x => ?_))
  · unfold intelSector; cases d.sectorRange c <;> first | exact blind_pure _ | exact blind_raise _
  · refine blind_ite (blind_bind ?_ (fun _ => blind_bind (blind_updateArea _ _) (fun _ => blind_bind (blind_programChunk _ _ _ _)
      (fun _ => blind_pure _)))) (blind_pure _)
    exact blind_ite (blind_pure _) (blind_bind (blind_wrAll _) (fun _ => blind_pure _))

theorem blind_intelProgramOp (b addr n : Nat) (data : Nat → Byte) : Blind (intelProgramOp b addr n data) := by
  have fin : ∀ d before, Blind (intelFinish d before n) := fun d before =>
    blind_bind (blind_orAccessStatus (blind_bind (blind_wr _ _) (fun _ => blind_pure _))) (fun _ => blind_pure _)
  have loop : ∀ d k before done c u, Blind (chunkLoop b d addr n data k before done c u) := by
    intro d k
    induction k with
    | zero => intro before done c u; exact fin d _
    | succ k ih =>
      intro before done c u
      exact blind_ite (blind_bind (blind_orAccessChunk (blind_intelChunk _ _ _ _ _ _ _ _)) (fun _ => blind_ite (ih _ _ _ _) (blind_pure _)))
        (fin d _)
  exact blind_familyOp b (blind_bind (blind_intelDescriptor b) (fun d => blind_ite (blind_pure _) (loop _ _ _ _ _ _)))

/-! ### RAM.WRITE and the delegation of WRITE_MEMORY -/

theorem blind_ramStore (a n : Nat) (data : Nat → Byte) : Blind (ramStore a n data) := by
  have loop : ∀ k done, Blind (ramLoop a n data k done) := by
    intro k
    induction k with
    | zero => intro done; exact blind_pure _
    | succ k ih =>
      intro done
      refine blind_ite (blind_bind (blind_memWrite _ _) (fun x => ?_)) (blind_pure _)
      cases x <;> first | exact blind_pure _ | exact ih _
  exact loop _ _

theorem blind_delegateWrite (a : MemoryArea) (addr n : Nat) (data : Nat → Byte) : Blind (delegateWrite a addr n data) := by
  unfold delegateWrite
  cases a.binding with
  | ram => exact blind_ramStore _ _ _
  | amd d => exact blind_amdProgramOp _ _ _ _
  | cfm d => exact blind_cfmProgramOp _ _ _ _
  | intel d => exact blind_intelProgramOp _ _ _ _

theorem blind_writeLoop (addr n : Nat) (data : Nat → Byte) : ∀ k written st, Blind (writeLoop addr n data k written st) := by
  intro k
  induction k with
  | zero => intro written st; exact blind_pure _
  | succ k ih =>
    intro written st
    exact blind_ite (blind_bind (blind_owningArea _) (fun a => blind_bind (blind_delegateWrite _ _ _ _) (fun r =>
      blind_ite (blind_pure _) (ih _ _)))) (blind_pure _)

/-- A blind operation keeps the caller's fields. -/
theorem blind_keeps {m : Op α} (h : Blind m) {s t : State} {a : α} (hm : m s = .ok a t) :
    t.buffer = s.buffer ∧ t.opsDone = s.opsDone ∧ t.result = s.result := by
  obtain ⟨w, hw⟩ := h s s.work s.buffer s.opsDone s.result
  rw [dressed_self, hm] at hw
  simp only [dressedResult, EStateM.Result.ok.injEq, true_and] at hw
  rw [hw]; exact ⟨rfl, rfl, rfl⟩

end Sys2Proof.Laws
end

