-- ==== Sys2Proof/Laws/Memory.lean ====
section
/-! SUPPORT. The laws of the record of stores: every operation keeps its canonical form, a read after a store gives the byte stored, and a store
leaves every other byte alone. -/

namespace Sys2Proof.Laws

open Sys2Proof Sys2Proof.Machine

theorem memory_read_nil (a : Nat) : Memory.read [] a = none := rfl

/-- A store is read back at its address, and leaves every other address alone. -/
theorem memory_read_store (m : Memory) (a b : Nat) (v : Byte) (hm : m.wf = true) :
    (m.store a v).read b = if b = a then some v else m.read b := by
  induction m with
  | nil => by_cases h : a = b <;> simp [Memory.store, Memory.read, h, eq_comm]
  | cons c rest ih =>
    obtain ⟨k, w⟩ := c
    have hrest : Memory.wf rest = true := by
      cases rest with
      | nil => rfl
      | cons d t => obtain ⟨k', w'⟩ := d; simp only [Memory.wf, Bool.and_eq_true] at hm; exact hm.2
    unfold Memory.store
    split
    · by_cases h : a = b
      · simp [Memory.read, h]
      · simp [Memory.read, h, Ne.symm h]
    · split
      · rename_i h1 h2
        subst h2
        by_cases h : a = b
        · simp [Memory.read, h]
        · simp [Memory.read, h, Ne.symm h]
      · rename_i h1 h2
        by_cases h : k = b
        · subst h
          simp [Memory.read, Ne.symm h2]
        · simp only [Memory.read, h, if_false]
          exact ih hrest

/-- The first address of a record is below every later one. -/
theorem memory_store_head (m : Memory) (a : Nat) (v : Byte) (k : Nat) (w : Byte) (hk : k < a)
    (hm : Memory.wf ((k, w) :: m) = true) : Memory.wf ((k, w) :: m.store a v) = true := by
  induction m generalizing k w with
  | nil => simp [Memory.store, Memory.wf, hk]
  | cons c rest ih =>
    obtain ⟨k', w'⟩ := c
    simp only [Memory.wf, Bool.and_eq_true, decide_eq_true_eq] at hm
    unfold Memory.store
    split
    · rename_i h
      simp [Memory.wf, hk, h, hm.2]
    · split
      · rename_i h1 h2
        subst h2
        cases rest with
        | nil => simp [Memory.wf, hk]
        | cons d t =>
          obtain ⟨k2, w2⟩ := d
          have := hm.2
          simp only [Memory.wf, Bool.and_eq_true, decide_eq_true_eq] at this
          simp [Memory.wf, hk, this.1, this.2]
      · rename_i h1 h2
        have hlt : k' < a := by omega
        have := ih k' w' hlt hm.2
        simp only [Memory.wf, Bool.and_eq_true, decide_eq_true_eq]
        exact ⟨hm.1, this⟩

/-- A store keeps the canonical form. -/
theorem memory_store_wf (m : Memory) (a : Nat) (v : Byte) (hm : m.wf = true) : (m.store a v).wf = true := by
  cases m with
  | nil => rfl
  | cons c rest =>
    obtain ⟨k, w⟩ := c
    unfold Memory.store
    split
    · rename_i h
      simp [Memory.wf, h, hm]
    · split
      · rename_i h1 h2
        subst h2
        cases rest with
        | nil => rfl
        | cons d t =>
          obtain ⟨k2, w2⟩ := d
          simpa [Memory.wf] using hm
      · exact memory_store_head rest a v k w (by omega) hm

/-- Storing a bus word keeps the canonical form. -/
theorem memory_storeAll_wf (v : BusWord) : ∀ (m : Memory) (a : Nat), m.wf = true → (m.storeAll a v).wf = true := by
  induction v with
  | nil => intro m a hm; exact hm
  | cons b rest ih => intro m a hm; exact ih _ _ (memory_store_wf m a b hm)

/-- A bus word is read back byte by byte, most significant byte at the lowest address, and leaves every other byte alone (R68). -/
theorem memory_read_storeAll (v : BusWord) : ∀ (m : Memory) (a b : Nat), m.wf = true →
    (m.storeAll a v).read b = if a ≤ b ∧ b < a + v.length then v[b - a]? else m.read b := by
  induction v with
  | nil =>
    intro m a b _
    have : ¬ (a ≤ b ∧ b < a + 0) := by omega
    simp only [Memory.storeAll, List.length_nil, this, if_false]
  | cons x rest ih =>
    intro m a b hm
    simp only [Memory.storeAll, List.length_cons]
    rw [ih _ _ _ (memory_store_wf m a x hm), memory_read_store m a b x hm]
    by_cases h1 : b = a
    · subst h1; simp
    · by_cases h2 : a + 1 ≤ b ∧ b < a + 1 + rest.length
      · have h3 : a ≤ b ∧ b < a + (rest.length + 1) := by omega
        have h4 : b - a = (b - (a + 1)) + 1 := by omega
        simp [h2, h3, h4]
      · have h3 : ¬ (a ≤ b ∧ b < a + (rest.length + 1)) := by omega
        rw [if_neg h2, if_neg h3, if_neg h1]

/-- Memory right after reset is in canonical form. -/
theorem memory_reset_wf : State.reset.memory.wf = true := rfl

end Sys2Proof.Laws
end

