-- ==== Sys2Proof/Laws/Flash.lean ====
section
/-! SUPPORT. The laws of the flash controllers' shared operations: command sequences, erase verify, area flags, status rows. Each says once what
the operation does when the environment completes its calls. -/

namespace Sys2Proof.Laws

open Sys2Proof Sys2Proof.Machine

/-! ### Completed calls -/

@[simp] theorem performed_nil (s : State) : s.performed [] = s := rfl

@[simp] theorem performed_read (s : State) (a : Nat) (v : BusWord) (evs : List MemEvent) :
    s.performed (.read a v :: evs) = (s.tookReply.didRead a v).performed evs := rfl

@[simp] theorem performed_wrote (s : State) (a : Nat) (v : BusWord) (evs : List MemEvent) :
    s.performed (.wrote a v :: evs) = (s.tookReply.didWrite a v).performed evs := rfl

/-- Calls in sequence. -/
theorem performed_append (evs : List MemEvent) : ∀ (s : State) (more : List MemEvent),
    s.performed (evs ++ more) = (s.performed evs).performed more := by
  induction evs with
  | nil => intro s more; rfl
  | cons e rest ih => intro s more; cases e <;> exact ih _ _

/-- What completed calls change: the trace, the record of stores, the answers used up, the calls counted; and nothing else. -/
theorem performed_eq (evs : List MemEvent) : ∀ s : State, ∃ m : Memory, s.performed evs =
    { s with
      memTrace := s.memTrace ++ evs
      memory := m
      memScript := s.memScript.drop evs.length
      memCalls := s.memCalls + evs.length } := by
  induction evs with
  | nil => intro s; exact ⟨s.memory, by simp⟩
  | cons e rest ih =>
    intro s
    cases e with
    | read a v =>
      obtain ⟨m, hm⟩ := ih (s.tookReply.didRead a v)
      refine ⟨m, ?_⟩
      rw [performed_read, hm]
      apply state_ext <;> simp <;> omega
    | wrote a v =>
      obtain ⟨m, hm⟩ := ih (s.tookReply.didWrite a v)
      refine ⟨m, ?_⟩
      rw [performed_wrote, hm]
      apply state_ext <;> simp <;> omega

@[simp] theorem performed_registry (s : State) (evs : List MemEvent) : (s.performed evs).registry = s.registry := by
  obtain ⟨m, h⟩ := performed_eq evs s; rw [h]

@[simp] theorem performed_params (s : State) (evs : List MemEvent) : (s.performed evs).params = s.params := by
  obtain ⟨m, h⟩ := performed_eq evs s; rw [h]

@[simp] theorem performed_session (s : State) (evs : List MemEvent) : (s.performed evs).session = s.session := by
  obtain ⟨m, h⟩ := performed_eq evs s; rw [h]

@[simp] theorem performed_memTrace (s : State) (evs : List MemEvent) :
    (s.performed evs).memTrace = s.memTrace ++ evs := by
  obtain ⟨m, h⟩ := performed_eq evs s; rw [h]

@[simp] theorem performed_memScript (s : State) (evs : List MemEvent) :
    (s.performed evs).memScript = s.memScript.drop evs.length := by
  obtain ⟨m, h⟩ := performed_eq evs s; rw [h]

@[simp] theorem performed_buffer (s : State) (evs : List MemEvent) : (s.performed evs).buffer = s.buffer := by
  obtain ⟨m, h⟩ := performed_eq evs s; rw [h]

@[simp] theorem performed_areaSel (s : State) (evs : List MemEvent) : (s.performed evs).areaSel = s.areaSel := by
  obtain ⟨m, h⟩ := performed_eq evs s; rw [h]

@[simp] theorem performed_withWork (evs : List MemEvent) : ∀ (s : State) (f : WorkRegs → WorkRegs),
    (s.withWork f).performed evs = (s.performed evs).withWork f := by
  induction evs with
  | nil => intro s f; rfl
  | cons e rest ih => intro s f; cases e <;> simp [ih]

@[simp] theorem performed_withArea (evs : List MemEvent) :
    ∀ (s : State) (b : Nat) (f : MemoryArea → MemoryArea),
      (s.withArea b f).performed evs = (s.performed evs).withArea b f := by
  induction evs with
  | nil => intro s b f; rfl
  | cons e rest ih =>
    intro s b f
    cases e with
    | read a v => exact ih (s.tookReply.didRead a v) b f
    | wrote a v => exact ih (s.tookReply.didWrite a v) b f

@[simp] theorem answersOf_append (evs more : List MemEvent) :
    answersOf (evs ++ more) = answersOf evs ++ answersOf more := by
  simp [answersOf]

@[simp] theorem callsAllowed_append (evs more : List MemEvent) :
    callsAllowed (evs ++ more) = (callsAllowed evs && callsAllowed more) := by
  simp [callsAllowed]

@[simp] theorem answersOf_length (evs : List MemEvent) : (answersOf evs).length = evs.length := by simp [answersOf]

/-! ### Single accesses, in the form of events -/

/-- An aborting read that the environment completes (R250). -/
theorem run_rd_event {s : State} {a n : Nat} {v : BusWord} {rest : List MemReply} (hn : v.length = n)
    (hc : callAllowed a v.length = true) (hs : s.memScript = .done v :: rest) :
    rd a n s = .ok v (s.performed [.read a v]) := by
  subst hn; exact run_rd hc rfl hs

/-- An aborting write that the environment completes (R250). -/
theorem run_wr_event {s : State} {a : Nat} {v w : BusWord} {rest : List MemReply} (hc : callAllowed a v.length = true)
    (hs : s.memScript = .done w :: rest) : wr a v s = .ok () (s.performed [.wrote a v]) := run_wr hc hs

/-! ### Command sequences and erase verify -/

/-- A command sequence that the environment completes: its writes, in order (R261, R311, R404). -/
theorem run_wrAll (ws : List (Nat × BusWord)) : ∀ (s : State) (rest : List MemReply),
    callsAllowed (writesOf ws) = true → s.memScript = answersOf (writesOf ws) ++ rest →
      wrAll ws s = .ok () (s.performed (writesOf ws)) := by
  induction ws with
  | nil => intro s rest _ _; rfl
  | cons w ws ih =>
    intro s rest hc hs
    obtain ⟨a, v⟩ := w
    simp only [writesOf, List.map_cons, callsAllowed, List.all_cons, Bool.and_eq_true] at hc
    have h1 : s.memScript = .done [] :: (answersOf (writesOf ws) ++ rest) := by simpa [writesOf, answersOf] using hs
    rw [wrAll, run_bind, run_wr hc.1 h1]
    simp only
    rw [ih _ rest hc.2 (by simp [h1])]
    rfl

@[simp] theorem allOnes_length (n : Nat) : (allOnes n).length = n := by simp [allOnes]

/-- The erase verify of a range that reads all ones (R253). -/
theorem run_verifyCells (busWidth : Nat) (n : Nat) : ∀ (c : Nat) (s : State) (rest : List MemReply),
    callsAllowed (erasedReads busWidth n c) = true → s.memScript = answersOf (erasedReads busWidth n c) ++ rest →
      verifyCells busWidth n c s = .ok .ok (s.performed (erasedReads busWidth n c)) := by
  induction n with
  | zero => intro c s rest _ _; rfl
  | succ n ih =>
    intro c s rest hc hs
    simp only [erasedReads, callsAllowed, List.all_cons, Bool.and_eq_true] at hc
    have h1 : s.memScript = .done (allOnes busWidth) :: (answersOf (erasedReads busWidth n (c + busWidth)) ++ rest) := by
      simpa [erasedReads, answersOf] using hs
    rw [verifyCells, run_bind, run_rd_event (allOnes_length _) hc.1 h1]
    simp only [if_true]
    rw [ih _ _ rest hc.2 (by simp [h1])]
    rfl

/-- The erase verify of a range that does not read all ones at its first cell (R253). -/
theorem run_verifyCells_mismatch {s : State} {busWidth n c : Nat} {v : BusWord} {rest : List MemReply}
    (hl : v.length = busWidth) (hc : callAllowed c v.length = true) (hv : v ≠ allOnes busWidth)
    (hs : s.memScript = .done v :: rest) :
    verifyCells busWidth (n + 1) c s = .ok .verifyMismatch (s.performed [.read c v]) := by
  rw [verifyCells, run_bind, run_rd_event hl hc hs]
  simp [hv]

/-! ### Flags (R249) -/

/-- A good status changes no flag. -/
@[simp] theorem afterStatus_ok (a : MemoryArea) : a.afterStatus .ok = a := by
  simp [MemoryArea.afterStatus, setsError]

/-- An unimplemented capability changes no flag. -/
@[simp] theorem afterStatus_unimplemented (a : MemoryArea) : a.afterStatus .unimplemented = a := by
  simp [MemoryArea.afterStatus, setsError]

@[simp] theorem withArea_id (s : State) (b : Nat) : s.withArea b (fun a => a) = s := by
  simp [State.withArea]

theorem withErased_begin (a : MemoryArea) (v : Bool) : (a.withErased v).beginAddr = a.beginAddr := rfl

theorem withErased_binding (a : MemoryArea) (v : Bool) : (a.withErased v).binding = a.binding := rfl

theorem withPending_begin (a : MemoryArea) (p : PendingErase) : (a.withPending p).beginAddr = a.beginAddr := by
  unfold MemoryArea.withPending; split <;> rfl

theorem withPending_end (a : MemoryArea) (p : PendingErase) : (a.withPending p).endAddr = a.endAddr := by
  unfold MemoryArea.withPending; split <;> rfl

/-- A family operation that completed (R249, R250). -/
theorem run_familyOp {b : Nat} {m : Op FlashResult} {s t : State} {r : FlashResult} (h : m s = .ok r t) :
    familyOp b m s = .ok r (t.withArea b (fun a => a.afterStatus r.status)) := by
  have ho : orAccess m s = .ok r t := by simp [orAccess, h]
  rw [familyOp, run_bind, ho]
  simp only
  rw [run_bind, run_updateArea]
  rfl

/-- A family operation whose access failed (R250). -/
theorem run_familyOp_access {b : Nat} {m : Op FlashResult} {s t : State} {f : ProtoFault}
    (h : m s = .error (.access f) t) :
    familyOp b m s = .ok (flashDone (.access f)) (t.withArea b (fun a => a.afterStatus (.access f))) := by
  have ho : orAccess m s = .ok (flashDone (.access f)) t := by simp [orAccess, h]
  rw [familyOp, run_bind, ho]
  simp only
  rw [run_bind, run_updateArea]
  rfl

/-- A family operation refused (R163). -/
theorem run_familyOp_fault {b : Nat} {m : Op FlashResult} {s t : State} {f : FaultKind}
    (h : m s = .error (.fault f) t) : familyOp b m s = .error (.fault f) t := by
  have ho : orAccess m s = .error (.fault f) t := by simp [orAccess, h]
  rw [familyOp, run_bind, ho]

/-! ### The partition: who owns an address (R210) -/

/-- In a partition every address from `lo` up has an owner (R210). -/
theorem areaOf_some_of_covers (areas : List MemoryArea) : ∀ (lo a : Nat), coversFrom lo areas = true → lo ≤ a →
    a < addrSpace → ∃ m, areaOf areas a = some m := by
  induction areas with
  | nil =>
    intro lo a h h1 h2
    simp only [coversFrom, beq_iff_eq] at h
    omega
  | cons m rest ih =>
    intro lo a h h1 h2
    simp only [coversFrom, Bool.and_eq_true, beq_iff_eq, decide_eq_true_eq] at h
    obtain ⟨⟨hb, hle⟩, hr⟩ := h
    by_cases hin : m.beginAddr ≤ a ∧ a ≤ m.endAddr
    · exact ⟨m, by simp [areaOf, hin.1, hin.2]⟩
    · obtain ⟨m', hm'⟩ := ih (m.endAddr + 1) a hr (by omega) h2
      refine ⟨m', ?_⟩
      have : ¬ (a ≤ m.endAddr) := by omega
      simp only [areaOf, List.find?_cons, this, decide_false, Bool.and_false, Bool.false_eq_true]
      exact hm'

/-- The owner of an address contains it. -/
theorem areaOf_contains {areas : List MemoryArea} {a : Nat} {m : MemoryArea} (h : areaOf areas a = some m) :
    m ∈ areas ∧ m.beginAddr ≤ a ∧ a ≤ m.endAddr := by
  refine ⟨List.mem_of_find?_eq_some h, ?_⟩
  have := List.find?_some h
  simpa using this

/-- In a partition an area lies at or above the first address covered. -/
theorem covers_ge (areas : List MemoryArea) : ∀ (lo : Nat) (m : MemoryArea), coversFrom lo areas = true → m ∈ areas →
    lo ≤ m.beginAddr ∧ m.beginAddr ≤ m.endAddr := by
  induction areas with
  | nil => intro lo m _ h; cases h
  | cons x rest ih =>
    intro lo m h hm
    simp only [coversFrom, Bool.and_eq_true, beq_iff_eq, decide_eq_true_eq] at h
    obtain ⟨⟨hb, hle⟩, hr⟩ := h
    rcases List.mem_cons.mp hm with rfl | hm
    · omega
    · have := ih _ m hr hm; omega

/-- In a partition an area owns every address it contains (R210). -/
theorem areaOf_unique (areas : List MemoryArea) : ∀ (lo a : Nat) (m : MemoryArea), coversFrom lo areas = true →
    m ∈ areas → m.beginAddr ≤ a → a ≤ m.endAddr → areaOf areas a = some m := by
  induction areas with
  | nil => intro lo a m _ h; cases h
  | cons x rest ih =>
    intro lo a m h hm h1 h2
    have h0 := h
    simp only [coversFrom, Bool.and_eq_true, beq_iff_eq, decide_eq_true_eq] at h
    obtain ⟨⟨hb, hle⟩, hr⟩ := h
    rcases List.mem_cons.mp hm with rfl | hm
    · simp [areaOf, h1, h2]
    · have := covers_ge rest _ m hr hm
      have hn : ¬ (a ≤ x.endAddr) := by omega
      simp only [areaOf, List.find?_cons, hn, decide_false, Bool.and_false, Bool.false_eq_true]
      exact ih _ a m hr hm h1 h2

/-- In a partition the owner of an address owns its own first address. -/
theorem areaOf_begin {areas : List MemoryArea} {a : Nat} {m : MemoryArea} (h : coversFrom 0 areas = true)
    (hm : areaOf areas a = some m) : areaOf areas m.beginAddr = some m := by
  have hc := areaOf_contains hm
  exact areaOf_unique areas 0 _ m h hc.1 le_rfl (covers_ge areas 0 m h hc.1).2

end Sys2Proof.Laws
end

