-- ==== Sys2Proof/Laws/Controllers.lean ====
section
/-! SUPPORT. The laws of the controllers' own loops: the cell loop of `program`, the AMD toggle poll and cell step, the CFM command and cell step. Each says
once what the operation does when the environment completes its calls. -/

namespace Sys2Proof.Laws

open Sys2Proof Sys2Proof.Machine


/-- Two updates of the same area are one. -/
theorem withArea_withArea (s : State) (b : Nat) (f g : MemoryArea → MemoryArea)
    (hf : ∀ a, (f a).beginAddr = a.beginAddr) :
    (s.withArea b f).withArea b g = s.withArea b (fun a => g (f a)) := by
  simp only [State.withArea, List.map_map]
  congr 1
  apply List.map_congr_left
  intro a _
  by_cases h : a.beginAddr = b <;> simp [h, hf]

/-! ### The cell loop of `program` (R244) -/

/-- What a cell at `c` should hold after a program of `n` bytes from `addr` (R244). -/
def wantedCell (w addr n : Nat) (data : Nat → Byte) (c : Nat) (cur : BusWord) : BusWord :=
  mergeCell cur (max addr c - c) (min (addr + n) (c + w) - c) data (max addr c - addr)

/-- The events of one cell, given those of the family's cell step (R244, R246). -/
def cellEvents (w addr n : Nat) (data : Nat → Byte) (change : Nat → BusWord → List MemEvent) (c : Nat)
    (cur : BusWord) : List MemEvent :=
  .read c cur ::
    if wantedCell w addr n data c cur = cur then [] else change c (wantedCell w addr n data c cur)

/-- The flag update of cells from `c` up: `ERASED` is cleared when one of them differed (R249). -/
def cellFlag (changed : Bool) (a : MemoryArea) : MemoryArea := if changed then a.withErased false else a

/-- Whether a cell differs. -/
def cellDiffers (w addr n : Nat) (data : Nat → Byte) (c : Nat) (cur : BusWord) : Bool :=
  decide (wantedCell w addr n data c cur ≠ cur)

/-- A family's cell step that the environment completes. -/
def CellStep (w : Nat) (pc : Nat → BusWord → Op FlashStatus) (b : Nat) (change : Nat → BusWord → List MemEvent) (bound : Nat) : Prop :=
  ∀ (s : State) (c : Nat) (want : BusWord) (rest : List MemReply), want.length = w → s.params.flashPollBound = bound →
    callAllowed c w = true → callsAllowed (change c want) = true → s.memScript = answersOf (change c want) ++ rest →
    ∃ g, pc c want s = .ok .ok (((s.performed (change c want)).withArea b (fun a => a.withErased false)).withWork g)

theorem mergeCell_length (cur : BusWord) (lo hi : Nat) (data : Nat → Byte) (done : Nat) :
    (mergeCell cur lo hi data done).length = cur.length := by simp [mergeCell]

/-- One cell (R244, R246). -/
theorem run_programOneCell {w : Nat} {pc : Nat → BusWord → Op FlashStatus} {b : Nat}
    {change : Nat → BusWord → List MemEvent} {bound : Nat} (step : CellStep w pc b change bound) {s : State} {addr n c : Nat} {data : Nat → Byte}
    {cur : BusWord} {rest : List MemReply} (hl : cur.length = w) (hb : s.params.flashPollBound = bound)
    (hc : callsAllowed (cellEvents w addr n data change c cur) = true)
    (hs : s.memScript = answersOf (cellEvents w addr n data change c cur) ++ rest) :
    ∃ g, orAccessStatus (programOneCell w pc addr n data (max addr c - addr) c) s = .ok .ok
      (((s.performed (cellEvents w addr n data change c cur)).withArea b
        (cellFlag (cellDiffers w addr n data c cur))).withWork g) := by
  suffices h : ∃ g, programOneCell w pc addr n data (max addr c - addr) c s = .ok .ok
      (((s.performed (cellEvents w addr n data change c cur)).withArea b
        (cellFlag (cellDiffers w addr n data c cur))).withWork g) by
    obtain ⟨g, hg⟩ := h
    exact ⟨g, by simp only [orAccessStatus, hg]⟩
  unfold cellEvents cellFlag cellDiffers at *
  generalize hw : wantedCell w addr n data c cur = want at *
  have hwl : want.length = w := by rw [← hw, wantedCell, mergeCell_length, hl]
  simp only [callsAllowed, List.all_cons, Bool.and_eq_true] at hc
  have hs1 : s.memScript = .done cur :: (answersOf (if want = cur then [] else change c want) ++ rest) := by
    rw [hs]; rfl
  rw [programOneCell, run_bind, run_rd_event hl hc.1 hs1]
  change ∃ g, (if wantedCell w addr n data c cur = cur then pure FlashStatus.ok
    else pc c (wantedCell w addr n data c cur)) (s.performed [.read c cur]) = _
  rw [hw]
  by_cases h : want = cur
  · refine ⟨id, ?_⟩
    simp only [h, if_true, run_pure, ne_eq, not_true_eq_false, decide_false, Bool.false_eq_true, if_false, withArea_id]
    rfl
  · simp only [h, if_false] at hc hs1 ⊢
    obtain ⟨g, hg⟩ := step (s.performed [.read c cur]) c want rest hwl (by simpa using hb) (by rw [← hl]; exact hc.1)
      hc.2 (by simp [hs1])
    refine ⟨g, ?_⟩
    rw [hg]
    simp only [ne_eq, h, not_false_eq_true, decide_true, if_true]
    rfl

/-- The cells from number `i` on (R244). -/
theorem run_cellLoop {w : Nat} {pc : Nat → BusWord → Op FlashStatus} {b : Nat}
    {change : Nat → BusWord → List MemEvent} {bound : Nat} (step : CellStep w pc b change bound) {addr n : Nat} {data : Nat → Byte} (hw : 0 < w)
    (hn : 0 < n) (cells : List BusWord) : ∀ (c k : Nat) (s : State) (rest : List MemReply), (∀ v ∈ cells, v.length = w) →
    s.params.flashPollBound = bound → cells.length ≤ k → addr < c + w → addr + n ≤ c + cells.length * w →
    (∀ j, j < cells.length → c + j * w < addr + n) →
    callsAllowed (cells.mapIdx (fun j v => cellEvents w addr n data change (c + j * w) v)).flatten = true →
    s.memScript = answersOf (cells.mapIdx (fun j v => cellEvents w addr n data change (c + j * w) v)).flatten ++ rest →
    ∃ g, cellLoop w pc addr n data k (min (addr + n) (max addr c) - addr) c s =
      .ok { count := n, status := .ok }
        (((s.performed (cells.mapIdx (fun j v => cellEvents w addr n data change (c + j * w) v)).flatten).withArea b
          (cellFlag (cells.mapIdx (fun j v => cellDiffers w addr n data (c + j * w) v)).or)).withWork g) := by
  induction cells with
  | nil =>
    intro c k s rest _ _ _ _ hend _ _ _
    refine ⟨id, ?_⟩
    have : min (addr + n) (max addr c) - addr = n := by simp at hend; omega
    have hf : cellFlag false = fun a => a := rfl
    rw [this]
    cases k <;> simp [cellLoop, State.withWork, hf]
  | cons cur cells ih =>
    intro c k s rest hl hb hk hnear hend hlt hc hs
    obtain ⟨k, rfl⟩ : ∃ k', k = k' + 1 := ⟨k - 1, by simp at hk; omega⟩
    have h0 := hlt 0 (by simp)
    have hshift : ∀ j, c + (j + 1) * w = c + w + j * w := by intro j; ring
    simp only [List.mapIdx_cons, List.flatten_cons, Nat.zero_mul, Nat.add_zero, callsAllowed_append, Bool.and_eq_true,
      answersOf_append, List.append_assoc, hshift] at hc hs h0 ⊢
    have hmin : min (addr + n) (max addr c) - addr = max addr c - addr := by omega
    have hdone : max addr c - addr < n := by omega
    have hnext : max addr c - addr + (min (addr + n) (c + w) - c - (max addr c - c)) =
        min (addr + n) (max addr (c + w)) - addr := by omega
    obtain ⟨g, hg⟩ := run_programOneCell step (hl cur (by simp)) hb hc.1 hs
    rw [hmin, cellLoop]
    simp only [hdone, if_true]
    rw [run_bind, hg]
    simp only [if_true, hnext]
    obtain ⟨g', hg'⟩ := ih (c + w) k (((s.performed (cellEvents w addr n data change c cur)).withArea b
        (cellFlag (cellDiffers w addr n data c cur))).withWork g) rest (fun v h => hl v (by simp [h])) (by simpa using hb) (by simp at hk; omega) (by omega)
      (by rw [List.length_cons, hshift] at hend; exact hend)
      (fun j hj => by have := hlt (j + 1) (by simpa using hj); rwa [hshift] at this) hc.2 (by simp [hs])
    rw [hg']
    refine ⟨fun w => g' (g w), ?_⟩
    rw [performed_withWork, performed_withArea, ← performed_append, withArea_withWork, withWork_withWork,
      withArea_withArea _ _ _ _ (by intro a; unfold cellFlag; split <;> rfl)]
    congr 3
    funext a
    rw [List.or_cons]
    cases cellDiffers w addr n data c cur <;> cases (cells.mapIdx (fun j v => cellDiffers w addr n data (c + w + j * w) v)).or <;> rfl

/-- Whether no cell differs, in the words of the statements. -/
theorem or_cellDiffers (w addr n : Nat) (data : Nat → Byte) (cells : List BusWord) : ∀ c : Nat,
    ((cells.mapIdx (fun j v => cellDiffers w addr n data (c + j * w) v)).or = false ↔
      cells.mapIdx (fun j v => wantedCell w addr n data (c + j * w) v) = cells) := by
  induction cells with
  | nil => intro c; simp
  | cons v cells ih =>
    intro c
    have hshift : ∀ j, c + (j + 1) * w = c + w + j * w := by intro j; ring
    simp only [List.mapIdx_cons, List.or_cons, Bool.or_eq_false_iff, List.cons.injEq, Nat.zero_mul, Nat.add_zero, hshift, ih]
    simp [cellDiffers]

/-- The whole payload, from the cell that holds its first byte (R244). -/
theorem run_programCells {w : Nat} {pc : Nat → BusWord → Op FlashStatus} {b : Nat}
    {change : Nat → BusWord → List MemEvent} {bound : Nat} (step : CellStep w pc b change bound) {addr n : Nat}
    {data : Nat → Byte} {cells : List BusWord} {s : State} {rest : List MemReply} (hw : 0 < w) (hn : 0 < n)
    (hlen : cells.length = (addr % w + n + (w - 1)) / w) (hl : ∀ v ∈ cells, v.length = w)
    (hb : s.params.flashPollBound = bound)
    (hc : callsAllowed (cells.mapIdx (fun j v =>
      cellEvents w addr n data change (addr - addr % w + j * w) v)).flatten = true)
    (hs : s.memScript = answersOf (cells.mapIdx (fun j v =>
      cellEvents w addr n data change (addr - addr % w + j * w) v)).flatten ++ rest) :
    ∃ g, programCells w pc addr n data s = .ok { count := n, status := .ok }
      (((s.performed (cells.mapIdx (fun j v =>
        cellEvents w addr n data change (addr - addr % w + j * w) v)).flatten).withArea b (fun a =>
          if cells.mapIdx (fun j v => wantedCell w addr n data (addr - addr % w + j * w) v) = cells then a
          else a.withErased false)).withWork g) := by
  have hmod : addr % w < w := Nat.mod_lt _ hw
  have hmod2 : addr % w ≤ addr := Nat.mod_le _ _
  have hup : addr % w + n ≤ cells.length * w := by
    have h1 := Nat.div_add_mod (addr % w + n + (w - 1)) w
    have h2 := Nat.mod_lt (addr % w + n + (w - 1)) hw
    rw [hlen, Nat.mul_comm]; omega
  have hdown : cells.length * w ≤ addr % w + n + (w - 1) := by rw [hlen]; exact Nat.div_mul_le_self _ _
  have hlt : ∀ j, j < cells.length → j * w < addr % w + n := by
    intro j hj
    have h1 : (j + 1) * w ≤ cells.length * w := Nat.mul_le_mul_right _ hj
    rw [Nat.add_mul] at h1; omega
  have hfuel : cells.length ≤ n := by
    by_contra hcon
    have := hlt n (by omega)
    have h1 : n ≤ n * w := Nat.le_mul_of_pos_right _ hw
    obtain ⟨m, rfl⟩ : ∃ m, n = m + 1 := ⟨n - 1, by omega⟩
    have h2 : (m + 1) * w = m * w + w := by ring
    have h3 : m ≤ m * w := Nat.le_mul_of_pos_right _ hw
    omega
  obtain ⟨g, hg⟩ := run_cellLoop step (addr := addr) (data := data) hw hn cells (addr - addr % w) n s rest hl hb hfuel
    (by omega) (by omega) (fun j hj => by have := hlt j hj; omega) hc hs
  have hin : min (addr + n) (max addr (addr - addr % w)) - addr = 0 := by omega
  rw [hin] at hg
  refine ⟨g, ?_⟩
  rw [programCells, hg]
  congr 3
  funext a
  unfold cellFlag
  have := or_cellDiffers w addr n data cells (addr - addr % w)
  cases h : (cells.mapIdx (fun j v => cellDiffers w addr n data (addr - addr % w + j * w) v)).or with
  | false => simp [this.mp h]
  | true =>
    have : ¬ cells.mapIdx (fun j v => wantedCell w addr n data (addr - addr % w + j * w) v) = cells := by
      intro he; rw [this.mpr he] at h; cases h
    simp [this]

/-! ### The AMD cell step (R268, R269) -/

theorem toggleLanes_same (d : AmdDescriptor) (c : Nat) (v : BusWord) (ls : List Nat) (busy : Bool) (s : State) :
    toggleLanes d c v v ls busy s = .ok (some busy) s := by
  induction ls generalizing busy with
  | nil => rfl
  | cons l ls ih => simp [toggleLanes, ih]

/-- The toggle poll of a chip that is done: two reads that agree (R269). -/
theorem run_togglePoll {d : AmdDescriptor} {c : Nat} {v : BusWord} {s : State} {rest : List MemReply}
    (hb : 0 < s.params.flashPollBound) (hl : v.length = d.chip.busWidth) (hc : callAllowed c v.length = true)
    (hs : s.memScript = .done v :: .done v :: rest) :
    ∃ g, togglePoll d c s = .ok .ok ((s.performed [.read c v, .read c v]).withWork g) := by
  obtain ⟨k, hk⟩ : ∃ k, s.params.flashPollBound = k + 1 := ⟨_, (Nat.succ_pred_eq_of_pos hb).symm⟩
  rw [togglePoll, run_bind, run_rd_event hl hc hs]
  simp only
  rw [run_bind, run_get]
  simp only [performed_params, hk]
  rw [toggleLoop, run_bind, run_setPoll]
  simp only
  rw [run_bind, run_rd_event (v := v) (rest := rest) hl hc (by simp [hs])]
  simp only
  rw [run_bind, toggleLanes_same]
  simp only [run_pure]
  refine ⟨fun w => { w with poll := k + 1 }, ?_⟩
  simp only [performed_withWork]
  rfl

/-- The events of an AMD cell that differs (R268, R269). -/
def amdCellChange (d : AmdDescriptor) (c : Nat) (want : BusWord) : List MemEvent :=
  writesOf (amdProgramCmd d c want) ++ [.read c want, .read c want, .read c want]

theorem amd_cellStep (b : Nat) (d : AmdDescriptor) (bound : Nat) (hb : 0 < bound) :
    CellStep d.chip.busWidth (amdProgramCell b d) b (amdCellChange d) bound := by
  intro s c want rest hl hsb hca hc hs
  rw [← hl] at hca
  rw [amdCellChange, callsAllowed_append, Bool.and_eq_true] at hc
  have hs' : s.memScript = answersOf (writesOf (amdProgramCmd d c want)) ++ (.done want :: .done want :: .done want :: rest) := by
    simp [hs, amdCellChange, answersOf]
  rw [amdProgramCell, run_bind, run_wrAll _ s _ hc.1 hs']
  simp only
  rw [run_bind, markErased, run_updateArea]
  simp only
  obtain ⟨g, hg⟩ := run_togglePoll (d := d) (c := c) (v := want) (rest := .done want :: rest)
    (s := (s.performed (writesOf (amdProgramCmd d c want))).withArea b (fun a => a.withErased false))
    (by simpa [hsb] using hb) hl hca (by simp [hs'])
  rw [run_bind, hg]
  simp only [ne_eq, not_true_eq_false, if_false]
  rw [run_bind, run_rd_event (v := want) (rest := rest) hl hca (by simp [hs'])]
  simp only [if_true, run_pure]
  refine ⟨g, ?_⟩
  simp only [performed_withWork, performed_withArea]
  simp only [amdCellChange, performed_append, performed_read, performed_nil]

/-! ### The CFM command (R291, R293) -/

theorem run_cfmPoll {d : CfmDescriptor} {awaited st : Byte} {k : Nat} {s : State} {rest : List MemReply}
    (hf : st &&& d.faultMask = 0) (ha : st &&& awaited ≠ 0) (hc : callAllowed d.ust 1 = true)
    (hs : s.memScript = .done [st] :: rest) :
    ∃ g, cfmPoll d awaited (k + 1) s = .ok .ok ((s.performed [.read d.ust [st]]).withWork g) := by
  rw [cfmPoll, run_bind, run_setPoll]
  simp only
  rw [run_bind, run_rd_event (v := [st]) (n := 1) (rest := rest) rfl hc (by simp [hs])]
  refine ⟨fun w => { w with poll := k + 1 }, ?_⟩
  have hl1 : laneHas [st] d.faultMask = false := by simp [laneHas, hf]
  have hl2 : laneHas [st] awaited = true := by simpa [laneHas] using ha
  simp only [hl1, hl2, Bool.false_eq_true, if_false, if_true, run_pure, performed_withWork]

/-- The events of a CFM command (R291). -/
def cfmCommandEvents (d : CfmDescriptor) (a : Nat) (v : BusWord) (code st1 st2 : Byte) : List MemEvent :=
  writesOf (cfmCommandWrites d a v code) ++ [.read d.ust [st1], .read d.ust [st2]]

/-- A CFM command that the module completes: "command buffer empty", then "command complete" (R291). -/
theorem run_cfmCommand {d : CfmDescriptor} {a : Nat} {v : BusWord} {code st1 st2 : Byte} {s : State}
    {rest : List MemReply} (hb : 0 < s.params.flashPollBound) (hf1 : st1 &&& d.faultMask = 0)
    (h1 : st1 &&& d.numbers.cbeif ≠ 0) (hf2 : st2 &&& d.faultMask = 0) (h2 : st2 &&& d.numbers.ccif ≠ 0)
    (hc : callsAllowed (cfmCommandEvents d a v code st1 st2) = true)
    (hs : s.memScript = answersOf (cfmCommandEvents d a v code st1 st2) ++ rest) :
    ∃ g, cfmCommand d a v code s = .ok .ok ((s.performed (cfmCommandEvents d a v code st1 st2)).withWork g) := by
  rw [cfmCommandEvents, callsAllowed_append, Bool.and_eq_true] at hc
  have hcu : callAllowed d.ust 1 = true := by
    have := hc.2; simp only [callsAllowed, List.all_cons, Bool.and_eq_true] at this; exact this.1
  have hs' : s.memScript = answersOf (writesOf (cfmCommandWrites d a v code)) ++ (.done [st1] :: .done [st2] :: rest) := by
    simp [hs, cfmCommandEvents, answersOf]
  obtain ⟨k, hk⟩ : ∃ k, s.params.flashPollBound = k + 1 := ⟨_, (Nat.succ_pred_eq_of_pos hb).symm⟩
  rw [cfmCommand, run_bind, run_wrAll _ s _ hc.1 hs']
  simp only
  rw [run_bind, run_get]
  simp only [performed_params, hk]
  obtain ⟨g1, hg1⟩ := run_cfmPoll (k := k) (rest := .done [st2] :: rest) (s := s.performed (writesOf (cfmCommandWrites d a v code)))
    hf1 h1 hcu (by simp [hs'])
  rw [run_bind, hg1]
  simp only [ne_eq, not_true_eq_false, if_false]
  obtain ⟨g2, hg2⟩ := run_cfmPoll (k := k) (rest := rest)
    (s := ((s.performed (writesOf (cfmCommandWrites d a v code))).performed [.read d.ust [st1]]).withWork g1)
    hf2 h2 hcu (by simp [hs'])
  rw [hg2]
  refine ⟨fun w => g2 (g1 w), ?_⟩
  simp only [performed_withWork, withWork_withWork]
  simp only [cfmCommandEvents, performed_append, performed_read, performed_nil]

/-- The events of a CFM cell that differs (R293). -/
def cfmCellChange (d : CfmDescriptor) (st1 st2 : Byte) (c : Nat) (want : BusWord) : List MemEvent :=
  cfmCommandEvents d c want d.numbers.cmdProgram st1 st2 ++ [.read c want]

theorem cfm_cellStep (b : Nat) (d : CfmDescriptor) (st1 st2 : Byte) (bound : Nat) (hb : 0 < bound)
    (hf1 : st1 &&& d.faultMask = 0) (h1 : st1 &&& d.numbers.cbeif ≠ 0) (hf2 : st2 &&& d.faultMask = 0)
    (h2 : st2 &&& d.numbers.ccif ≠ 0) : CellStep 4 (cfmProgramCell b d) b (cfmCellChange d st1 st2) bound := by
  intro s c want rest hl hsb hca hc hs
  rw [← hl] at hca
  rw [cfmCellChange, callsAllowed_append, Bool.and_eq_true] at hc
  rw [cfmProgramCell, run_bind, markErased, run_updateArea]
  simp only
  obtain ⟨g, hg⟩ := run_cfmCommand (s := s.withArea b (fun a => a.withErased false)) (rest := .done want :: rest)
    (by simpa [hsb] using hb) hf1 h1 hf2 h2 hc.1 (by simp [hs, cfmCellChange, answersOf])
  rw [run_bind, hg]
  simp only [ne_eq, not_true_eq_false, if_false]
  rw [run_bind, run_rd_event (v := want) (rest := rest) hl hca (by simp [hs, cfmCellChange, answersOf])]
  simp only [if_true, run_pure]
  refine ⟨g, ?_⟩
  simp only [performed_withWork, performed_withArea, cfmCellChange, performed_append]
/-! ### The INTEL status poll, chunk and burst (R315 to R318) -/

/-- The status poll of a chip that is ready without error: one read (R315). -/
theorem run_statusPoll {d : IntelDescriptor} {a : Nat} {st : BusWord} {s : State} {rest : List MemReply}
    (hb : 0 < s.params.flashPollBound) (hl : st.length = d.chip.busWidth)
    (hr : (lanes d.chip.busWidth d.chip.chipWidth st).all (fun l => laneHas l d.numbers.readyMask) = true)
    (he : (lanes d.chip.busWidth d.chip.chipWidth st).any (fun l => laneHas l d.numbers.errorMask) = false)
    (hc : callAllowed a st.length = true) (hs : s.memScript = .done st :: rest) :
    ∃ g, statusPoll d a s = .ok .ok ((s.performed [.read a st]).withWork g) := by
  obtain ⟨k, hk⟩ : ∃ k, s.params.flashPollBound = k + 1 := ⟨_, (Nat.succ_pred_eq_of_pos hb).symm⟩
  rw [statusPoll, run_bind, run_get]
  simp only [hk]
  rw [statusLoop, run_bind, run_setPoll]
  simp only
  rw [run_bind, run_rd_event (v := st) (rest := rest) hl hc (by simp [hs])]
  simp only [hr, he, if_true, Bool.false_eq_true, if_false, run_pure]
  exact ⟨fun w => { w with poll := k + 1 }, by simp only [performed_withWork]⟩

/-- The command to go back to array-read mode (R311). -/
theorem run_intelReadArray {d : IntelDescriptor} {s : State} {w : BusWord} {rest : List MemReply}
    (hc : callAllowed d.chip.base (rep d.chip d.numbers.cmdReadArray).length = true)
    (hs : s.memScript = .done w :: rest) :
    intelReadArray d s = .ok () (s.performed [.wrote d.chip.base (rep d.chip d.numbers.cmdReadArray)]) :=
  run_wr_event hc hs

/-- Reads and merges of a chunk from the cell at `c` (R316). -/
theorem run_mergeChunk {w addr n : Nat} {data : Nat → Byte} (cells : List BusWord) :
    ∀ (c : Nat) (s : State) (rest : List MemReply), (∀ v ∈ cells, v.length = w) → 0 < w → addr < c + w →
    (∀ j, j < cells.length → c + j * w < addr + n) →
    callsAllowed (cells.mapIdx (fun j v => MemEvent.read (c + j * w) v)) = true →
    s.memScript = answersOf (cells.mapIdx (fun j v => MemEvent.read (c + j * w) v)) ++ rest →
    mergeChunk w addr n data cells.length (max addr c - addr) c s =
      .ok ((cells.mapIdx (fun j v => cellDiffers w addr n data (c + j * w) v)).or,
          cells.mapIdx (fun j v => wantedCell w addr n data (c + j * w) v))
        (s.performed (cells.mapIdx (fun j v => MemEvent.read (c + j * w) v))) := by
  induction cells with
  | nil => intros; rfl
  | cons cur cells ih =>
    intro c s rest hl hw hnear hlt hc hs
    have hshift : ∀ j, c + (j + 1) * w = c + w + j * w := by intro j; ring
    have h0 := hlt 0 (by simp)
    simp only [List.mapIdx_cons, Nat.zero_mul, Nat.add_zero, hshift, callsAllowed, List.all_cons, Bool.and_eq_true] at hc h0 ⊢
    have hs1 : s.memScript = .done cur :: (answersOf (cells.mapIdx (fun j v => MemEvent.read (c + w + j * w) v)) ++ rest) := by
      rw [hs]; simp only [List.mapIdx_cons, Nat.zero_mul, Nat.add_zero, hshift]; rfl
    rw [List.length_cons, mergeChunk, run_bind, run_rd_event (hl cur (by simp)) hc.1 hs1]
    by_cases hlast : cells = []
    · subst hlast
      simp only [List.length_nil, List.mapIdx_nil, mergeChunk]
      simp only [run_bind, run_pure, List.or_cons, List.or_nil]
      rfl
    · have h1 := hlt 1 (by cases cells with
        | nil => exact absurd rfl hlast
        | cons a b => simp)
      have hnext : max addr c - addr + (min (addr + n) (c + w) - c - (max addr c - c)) = max addr (c + w) - addr := by
        simp only [Nat.one_mul] at h1; omega
      simp only [hnext]
      rw [run_bind, ih (c + w) _ rest (fun v h => hl v (by simp [h])) hw (by omega)
        (fun j hj => by have := hlt (j + 1) (by simpa using hj); rwa [hshift] at this) hc.2 (by simp [hs1])]
      simp only [run_pure, List.or_cons]
      rfl

/-- The data writes of a burst (R317). -/
theorem writesOf_burst (w : Nat) (vs : List BusWord) : ∀ c : Nat,
    writesOf (burstWrites w c vs) = vs.mapIdx (fun j v => MemEvent.wrote (c + j * w) v) := by
  induction vs with
  | nil => intro c; rfl
  | cons v vs ih =>
    intro c
    have hshift : ∀ j, c + (j + 1) * w = c + w + j * w := by intro j; ring
    simp only [List.mapIdx_cons, hshift, ← ih, Nat.zero_mul, Nat.add_zero]
    rfl

/-- The verify reads of a burst whose cells hold what they should (R317). -/
theorem run_verifyBurst (w : Nat) (vs : List BusWord) : ∀ (c : Nat) (s : State) (rest : List MemReply),
    (∀ v ∈ vs, v.length = w) → callsAllowed (vs.mapIdx (fun j v => MemEvent.read (c + j * w) v)) = true →
    s.memScript = answersOf (vs.mapIdx (fun j v => MemEvent.read (c + j * w) v)) ++ rest →
    verifyBurst w c vs s = .ok .ok (s.performed (vs.mapIdx (fun j v => MemEvent.read (c + j * w) v))) := by
  induction vs with
  | nil => intros; rfl
  | cons v vs ih =>
    intro c s rest hl hc hs
    have hshift : ∀ j, c + (j + 1) * w = c + w + j * w := by intro j; ring
    simp only [List.mapIdx_cons, Nat.zero_mul, Nat.add_zero, hshift, callsAllowed, List.all_cons, Bool.and_eq_true] at hc ⊢
    have hs1 : s.memScript = .done v :: (answersOf (vs.mapIdx (fun j v => MemEvent.read (c + w + j * w) v)) ++ rest) := by
      rw [hs]; simp only [List.mapIdx_cons, Nat.zero_mul, Nat.add_zero, hshift]; rfl
    rw [verifyBurst, run_bind, run_rd_event (hl v (by simp)) hc.1 hs1]
    simp only [if_true]
    rw [ih (c + w) _ rest (fun x h => hl x (by simp [h])) hc.2 (by simp [hs1])]
    rfl

end Sys2Proof.Laws
end

