-- ==== Sys2Proof/Laws/Engine.lean ====
section
/-! SUPPORT. The laws of the engine: the kept LED bit, the shift register, and one lemma per shared operation of Machine/Engine.lean that says what
it does. -/

namespace Sys2Proof.Laws

open Sys2Proof Sys2Proof.Machine

/-! ### The kept LED bit (R96) -/

/-- Masking distributes over setting. -/
theorem or_and_mask (a b m : Byte) : (a ||| b) &&& m = (a &&& m) ||| (b &&& m) := by
  ext i
  simp only [BitVec.getElem_and, BitVec.getElem_or]
  cases a[i] <;> cases b[i] <;> cases m[i] <;> rfl

/-- A pattern written with the LED bit kept keeps it for the next pattern too. -/
theorem keepLed_keepLed (enc : Encoding) (sh a b : Byte) (h : a &&& ledBit = 0) :
    keepLed enc (keepLed enc sh a) b = keepLed enc sh b := by
  cases enc
  · simp [keepLed, keptLed]
  · have : (a ||| sh &&& ledBit) &&& ledBit = sh &&& ledBit := by
      rw [or_and_mask, h, BitVec.and_assoc, BitVec.and_self]
      simp
    simp [keepLed, keptLed, this]

theorem dsi_ledClear (d : Bool) : dsi d &&& ledBit = 0 := by cases d <;> decide

theorem clk_ledClear (c : Bool) : clk c &&& ledBit = 0 := by cases c <;> decide

/-- A bit pattern leaves the LED bit alone when the idle pattern does (R97). -/
theorem pBit_ledClear (idle : Byte) (d c : Bool) (h : idle &&& ledBit = 0) : pBit idle d c &&& ledBit = 0 := by
  unfold pBit
  rw [or_and_mask, or_and_mask, h, dsi_ledClear, clk_ledClear]
  decide

/-- The idle pattern of every variant leaves the LED bit alone. -/
theorem idle_ledClear {p : Params} (h : patternsSound p = true) (v : Variant) :
    (variantParams p v).patterns.idle &&& ledBit = 0 := by
  cases v <;> simp_all [patternsSound, ledClear, variantParams]

/-! ### The shift register (R91, R133, R150) -/

/-- The recorded bits shifted into an accumulator, first sampled first. -/
def shiftAll (acc : Word32) (bits : List Bool) : Word32 := bits.foldl shiftIn acc

theorem shiftIn_getLsbD (acc : Word32) (b : Bool) (j : Nat) (h : j + 1 < 32) :
    (shiftIn acc b).getLsbD (j + 1) = acc.getLsbD j := by
  unfold shiftIn
  cases b <;> simp [BitVec.getLsbD_or, BitVec.getLsbD_shiftLeft, BitVec.getLsbD_one] <;> omega

theorem shiftIn_toNat (acc : Word32) (b : Bool) :
    (shiftIn acc b).toNat = (acc.toNat * 2 + (if b then 1 else 0)) % 2 ^ 32 := by
  unfold shiftIn
  cases b
  · simp [BitVec.toNat_shiftLeft, Nat.shiftLeft_eq]
  · have h : (acc <<< 1) ||| (1#32) = (acc <<< 1) + 1#32 := by
      rw [← BitVec.add_eq_or_of_and_eq_zero]
      ext i
      simp
      omega
    simp only [if_true]
    change ((acc <<< 1) ||| (1#32)).toNat = _
    rw [h]
    simp [BitVec.toNat_add, BitVec.toNat_shiftLeft, Nat.shiftLeft_eq]

/-- The accumulator after a number of samples, as a number (R151). -/
theorem shiftAll_toNat (bits : List Bool) : ∀ acc : Word32,
    (shiftAll acc bits).toNat =
      (acc.toNat * 2 ^ bits.length + bits.foldl (fun v b => 2 * v + (if b then 1 else 0)) 0) % 2 ^ 32 := by
  have key : ∀ (l : List Bool) (k : Nat),
      l.foldl (fun v b => 2 * v + (if b then 1 else 0)) k
        = k * 2 ^ l.length + l.foldl (fun v b => 2 * v + (if b then 1 else 0)) 0 := by
    intro l
    induction l with
    | nil => intro k; simp
    | cons b l ih =>
      intro k
      simp only [List.foldl_cons, List.length_cons]
      rw [ih (2 * k + _), ih (2 * 0 + _), Nat.pow_succ]
      ring
  induction bits with
  | nil => intro acc; simp [shiftAll]; omega
  | cons b l ih =>
    intro acc
    have : shiftAll acc (b :: l) = shiftAll (shiftIn acc b) l := rfl
    rw [this, ih, shiftIn_toNat]
    simp only [List.foldl_cons, List.length_cons]
    rw [key l (2 * 0 + _)]
    have e : acc.toNat * 2 ^ (l.length + 1) + ((2 * 0 + if b then 1 else 0) * 2 ^ l.length
          + l.foldl (fun v b => 2 * v + (if b then 1 else 0)) 0)
        = (acc.toNat * 2 + if b then 1 else 0) * 2 ^ l.length
          + l.foldl (fun v b => 2 * v + (if b then 1 else 0)) 0 := by rw [Nat.pow_succ]; ring
    rw [e, Nat.add_mod, Nat.mul_mod, Nat.mod_mod, ← Nat.mul_mod, ← Nat.add_mod]

/-- The bits of the accumulator above the samples are those it held, moved up (R91). -/
theorem shiftAll_getLsbD (bits : List Bool) : ∀ (acc : Word32) (j : Nat), j + bits.length < 32 →
    (shiftAll acc bits).getLsbD (j + bits.length) = acc.getLsbD j := by
  induction bits with
  | nil => intro acc j _; rfl
  | cons b l ih =>
    intro acc j h
    have e : shiftAll acc (b :: l) = shiftAll (shiftIn acc b) l := rfl
    have hl : j + 1 + l.length < 32 := by simp only [List.length_cons] at h; omega
    have : j + (b :: l).length = j + 1 + l.length := by simp only [List.length_cons]; omega
    rw [e, this, ih _ _ hl, shiftIn_getLsbD]
    omega

/-- The bit presented after `i` samples is bit `i` of the command frame (R91). -/
theorem presentedBit_shiftAll (cmd : Word16) (bits : List Bool) (h : bits.length ≤ 16) :
    presentedBit (shiftAll (startAcc cmd) bits) = commandBit cmd bits.length := by
  unfold presentedBit commandBit
  have h2 : 31 = 31 - bits.length + bits.length := by omega
  rw [h2, shiftAll_getLsbD _ _ _ (by omega)]
  unfold startAcc headerOffset
  simp [BitVec.getLsbD_shiftLeft, BitVec.getLsbD_setWidth]
  have : 31 - bits.length - 15 = 16 - bits.length := by omega
  rw [this]
  have h1 : ¬ (31 - bits.length < 15) := by omega
  have h2 : 16 - bits.length < 32 := by omega
  have h3 : 31 - bits.length < 32 := by omega
  simp [h1, h2, h3]

/-- The result of an exchange is the accumulator after its samples (R134, R151). -/
theorem shiftAll_exchangeResult (cmd : Word16) (samples : List Byte) :
    shiftAll (startAcc cmd) (samples.map recordedBit) = exchangeResult cmd samples := by
  apply BitVec.eq_of_toNat_eq
  rw [shiftAll_toNat]
  have hs : (startAcc cmd).toNat = cmd.toNat * 2 ^ 15 := by
    unfold startAcc headerOffset
    have := cmd.isLt
    simp only [BitVec.toNat_shiftLeft, BitVec.toNat_setWidth, Nat.shiftLeft_eq]
    omega
  have hf : ∀ (l : List Byte) (k : Nat),
      (l.map recordedBit).foldl (fun v b => 2 * v + (if b then 1 else 0)) k
        = l.foldl (fun v s => 2 * v + (if recordedBit s then 1 else 0)) k := by
    intro l k
    rw [List.foldl_map]
  rw [hs, hf]
  unfold exchangeResult sampledValue
  simp only [BitVec.toNat_ofNat, List.length_map]
  omega


/-! ### The status decoder and stopping (R170, R200) -/

/-- One status sample, decoded afresh (R200). -/
theorem run_readStatus {s : State} {x : Session} (h : s.session = some x) (hc : x.caps.getStatus = true) :
    readStatus s = .ok (decodeStatus x.sense s.nextStat)
      (s.readStat.withWork (fun w => { w with st := decodeStatus x.sense s.nextStat })) := by
  simp [readStatus, run_bind, run_map, h, hc]

/-- The status test that finds the target unavailable (R131, R203). -/
theorem run_checkAvailable_fault {s : State} {x : Session} {f : ProtoFault} (h : s.session = some x)
    (hc : x.caps.getStatus = true) (hf : unavailableFault (decodeStatus x.sense s.nextStat) = some f) :
    ∃ g, checkAvailable s = .error (.fault (.proto f)) (s.readStat.withWork g) :=
  ⟨fun w => { w with st := decodeStatus x.sense s.nextStat }, by
    simp [checkAvailable, run_bind, run_readStatus h hc, hf]⟩

/-- The status test that finds the target available (R131, R203). -/
theorem run_checkAvailable {s : State} {x : Session} (h : s.session = some x) (hc : x.caps.getStatus = true)
    (hf : unavailableFault (decodeStatus x.sense s.nextStat) = none) :
    ∃ g, checkAvailable s = .ok (decodeStatus x.sense s.nextStat) (s.readStat.withWork g) :=
  ⟨fun w => { w with st := decodeStatus x.sense s.nextStat }, by
    simp [checkAvailable, run_bind, run_readStatus h hc, hf]⟩

/-- Stopping a target that is frozen already: one sample and one write (R170, R181). -/
theorem run_stopTarget_frozen {s : State} {x : Session} (h : s.session = some x) (hc : x.caps.getStatus = true)
    (hs : x.caps.stopChip = true) (hf : targetStopped (decodeStatus x.sense s.nextStat) = true) :
    ∃ g, stopTarget s = .ok ()
      ((s.readStat.wroteCtrl (keepLed (variantParams s.params x.variant).encoding x.shadow
        (variantParams s.params x.variant).patterns.idle)).withWork g) := by
  refine ⟨fun w => { w with st := decodeStatus x.sense s.nextStat }, ?_⟩
  simp only [stopTarget, run_bind, run_useCap h, hs, if_true, run_currentParams h, run_readStatus h hc, hf]
  rw [run_writeKept _ (x := x) (by simpa using h)]
  simp

/-- The events of a freeze poll: a delay and a sample each time (R170). -/
def pollEvents (x : Session) (polls : List Byte) : List LineEvent :=
  polls.flatMap (fun p => delayEvents x.minDelay ++ [LineEvent.read p])

/-- The poll of a target, with more polls left than samples that show no freeze: it comes to the last sample (R170). -/
theorem run_pollFreeze_running {x : Session} (hc : x.caps.getStatus = true) (k : Nat) (polls : List Byte) :
    ∀ (s : State) (rest : List Byte), s.session = some x → s.statScript = polls ++ rest →
      (polls.all (runningSample x)) = true →
      ∃ g, pollFreeze (polls.length + k) s = pollFreeze k
        (({ s with lineTrace := s.lineTrace ++ pollEvents x polls, statScript := rest }).withWork g) := by
  induction polls with
  | nil =>
    intro s rest h hs _
    refine ⟨id, ?_⟩
    simp only [List.nil_append] at hs
    simp [pollEvents, State.withWork, ← hs]
  | cons p ps ih =>
    intro s rest h hs hr
    simp only [List.all_cons, Bool.and_eq_true] at hr
    have hstop : targetStopped (decodeStatus x.sense p) = false := by simpa [runningSample] using hr.1
    obtain ⟨g, hg⟩ := ih (((s.delayed x.minDelay).readStat).withWork
        (fun w => { w with poll := ps.length + k + 1, st := decodeStatus x.sense p })) rest (by simpa using h)
        (by simp [hs]) hr.2
    refine ⟨fun w => g { w with poll := ps.length + k + 1, st := decodeStatus x.sense p }, ?_⟩
    have hn : (s.delayed x.minDelay).nextStat = p := nextStat_cons _ p (ps ++ rest) (by simp [hs])
    have hlen : (p :: ps).length + k = ps.length + k + 1 := by simp only [List.length_cons]; omega
    rw [hlen, pollFreeze, run_bind, run_setPoll]
    simp only
    rw [run_bind, run_openedSession (x := x) (by simpa using h)]
    simp only
    rw [run_bind, run_delay]
    simp only
    rw [run_bind, run_readStatus (x := x) (by simpa using h) hc]
    simp only [delayed_withWork, nextStat_withWork, hn, hstop, readStat_withWork, withWork_withWork, Bool.false_eq_true,
      if_false]
    rw [hg]
    congr 1
    apply state_ext <;> simp [hn, pollEvents, delayEvents, State.withWork]

/-- The poll that sees the freeze (R170). -/
theorem run_pollFreeze_stopped {s : State} {x : Session} {p : Byte} {rest : List Byte} (k : Nat) (h : s.session = some x)
    (hc : x.caps.getStatus = true) (hs : s.statScript = p :: rest) (hp : runningSample x p = false) :
    ∃ g, pollFreeze (k + 1) s = .ok true
        (({ s with lineTrace := s.lineTrace ++ pollEvents x [p], statScript := rest }).withWork g) := by
  have hstop : targetStopped (decodeStatus x.sense p) = true := by simpa [runningSample] using hp
  refine ⟨fun w => { w with poll := k + 1, st := decodeStatus x.sense p }, ?_⟩
  have hn : (s.delayed x.minDelay).nextStat = p := nextStat_cons _ p rest (by simp [hs])
  rw [pollFreeze, run_bind, run_setPoll]
  simp only
  rw [run_bind, run_openedSession (x := x) (by simpa using h)]
  simp only
  rw [run_bind, run_delay]
  simp only
  rw [run_bind, run_readStatus (x := x) (by simpa using h) hc]
  simp only [delayed_withWork, nextStat_withWork, hn, hstop, readStat_withWork, withWork_withWork, if_true, run_pure]
  congr 1
  apply state_ext <;> simp [hn, hs, pollEvents, delayEvents, State.withWork]

/-- The poll that runs out (R170). -/
theorem run_pollFreeze_never {s : State} {x : Session} (polls rest : List Byte) (h : s.session = some x)
    (hc : x.caps.getStatus = true) (hs : s.statScript = polls ++ rest) (hr : polls.all (runningSample x) = true) :
    ∃ g, pollFreeze polls.length s = .ok false
        (({ s with lineTrace := s.lineTrace ++ pollEvents x polls, statScript := rest }).withWork g) := by
  obtain ⟨g, hg⟩ := run_pollFreeze_running hc 0 polls s rest h hs hr
  exact ⟨g, hg⟩

/-! ### The serial exchange (R130 to R134) -/

theorem run_bitDelay (x : Session) (k : Nat) (s : State) :
    bitDelay x k s = .ok () { s with lineTrace := s.lineTrace ++ bitDelayEvents x k } := by
  unfold bitDelay bitDelayEvents
  split
  · simp
  · simp only [run_delay]
    congr 1
    apply state_ext <;> simp [delayEvents]

/-- One bit of the loop (R133), `x` being the session whose LED bit is kept and `sh` the shadow at the start of the bit. -/
theorem run_clockOneBit {s : State} {x : Session} {sh : Byte} {smp : Byte} {rest : List Byte} {cmd : Word16} {i : Nat}
    (h : s.session = some { x with shadow := sh })
    (hled : ∀ q, keepLed (variantParams s.params x.variant).encoding sh q
      = keepLed (variantParams s.params x.variant).encoding x.shadow q)
    (hidle : (variantParams s.params x.variant).patterns.idle &&& ledBit = 0)
    (hacc : presentedBit s.work.acc = commandBit cmd i) (hs : s.statScript = smp :: rest) :
    clockOneBit s = .ok ()
      (({ s with
          lines := bitPattern (variantParams s.params x.variant) x cmd i false
          session := some { x with shadow := bitPattern (variantParams s.params x.variant) x cmd i false }
          lineTrace := s.lineTrace ++ bitEvents (variantParams s.params x.variant) x cmd i smp
          statScript := rest }).withWork
        (fun w => { w with dbit := commandBit cmd i, acc := shiftIn s.work.acc (recordedBit smp) })) := by
  set v := variantParams s.params x.variant with hv
  have hb : ∀ c d : Bool, keepLed v.encoding (bitPattern v x cmd i c) (pBit v.patterns.idle (commandBit cmd i) d)
      = bitPattern v x cmd i d := by
    intro c d
    exact keepLed_keepLed _ _ _ _ (pBit_ledClear _ _ _ hidle)
  have hfirst : keepLed v.encoding sh (pBit v.patterns.idle (commandBit cmd i) false) = bitPattern v x cmd i false :=
    hled _
  rw [clockOneBit, run_bind, run_openedSession h]
  simp only
  rw [run_bind, run_currentParams h]
  simp only
  rw [run_bind, run_getAcc]
  simp only [hacc]
  rw [run_bind, run_setDbit]
  simp only
  rw [run_bind, run_writeKept _ (x := { x with shadow := sh }) (by simpa using h)]
  simp only [withWork_params, wroteCtrl_withWork, ← hv, hfirst]
  rw [run_bind, run_writeKept _ (x := { x with shadow := bitPattern v x cmd i false }) (by simp [h])]
  simp only [withWork_params, wroteCtrl_params, wroteCtrl_withWork, ← hv, hb]
  rw [run_bind, run_bitDelay]
  simp only
  rw [run_bind, run_readStat]
  simp only
  rw [run_bind, run_setAcc]
  simp only
  rw [run_bind, run_writeKept _ (x := { x with shadow := bitPattern v x cmd i true }) (by simp [h])]
  simp only [withWork_params, readStat_params, wroteCtrl_params, wroteCtrl_withWork, ← hv, hb]
  rw [run_bitDelay]
  congr 1
  apply state_ext <;> simp [h, hs, bitEvents, bitDelayEvents, State.withWork, State.nextStat]

/-- The pattern on the lines after `k` iterations from iteration `i` on (R134). -/
def lastPattern (v : VariantParams) (x : Session) (cmd : Word16) (i k : Nat) (before : Byte) : Byte :=
  if k = 0 then before else bitPattern v x cmd (i + k - 1) false

/-- The bit loop over the samples from iteration `bits.length` on (R130). -/
theorem run_bitLoop {x : Session} {cmd : Word16} {p : Params} {enc : Encoding}
    (hidle : (variantParams p x.variant).patterns.idle &&& ledBit = 0) (henc : (variantParams p x.variant).encoding = enc)
    (l : List Byte) :
    ∀ (s : State) (sh : Byte) (bits : List Bool) (rest : List Byte), s.params = p →
      s.session = some { x with shadow := sh } → (∀ q, keepLed enc sh q = keepLed enc x.shadow q) →
      s.work.acc = shiftAll (startAcc cmd) bits → bits.length + l.length ≤ 17 → s.statScript = l ++ rest →
      ∃ g, bitLoop l.length s = .ok ()
        (({ s with
            lines := lastPattern (variantParams p x.variant) x cmd bits.length l.length s.lines
            session := some { x with
              shadow := lastPattern (variantParams p x.variant) x cmd bits.length l.length sh }
            lineTrace := s.lineTrace ++
              (l.mapIdx (fun j smp => bitEvents (variantParams p x.variant) x cmd (bits.length + j) smp)).flatten
            statScript := rest }).withWork g) ∧
        (g s.work).acc = shiftAll (startAcc cmd) (bits ++ l.map recordedBit) := by
  induction l with
  | nil =>
    intro s sh bits rest hp h hled hacc hlen hs
    refine ⟨id, ?_, ?_⟩
    · simp only [List.nil_append] at hs
      rw [List.length_nil, bitLoop, run_pure]
      congr 1
      apply state_ext <;> simp [State.withWork, ← hs, h, lastPattern]
    · simpa using hacc
  | cons smp l ih =>
    intro s sh bits rest hp h hled hacc hlen hs
    subst hp
    have hlen' : bits.length ≤ 16 := by simp only [List.length_cons] at hlen; omega
    have hpb : presentedBit s.work.acc = commandBit cmd bits.length := by
      rw [hacc]; exact presentedBit_shiftAll cmd bits hlen'
    have hone := run_clockOneBit (i := bits.length) (rest := l ++ rest) h (by rw [henc]; exact hled) hidle hpb hs
    obtain ⟨g, hg, hgacc⟩ := ih
      ((({ s with
          lines := bitPattern (variantParams s.params x.variant) x cmd bits.length false
          session := some { x with shadow := bitPattern (variantParams s.params x.variant) x cmd bits.length false }
          lineTrace := s.lineTrace ++ bitEvents (variantParams s.params x.variant) x cmd bits.length smp
          statScript := l ++ rest } : State).withWork
        (fun w => { w with dbit := commandBit cmd bits.length, acc := shiftIn s.work.acc (recordedBit smp) })).withWork
          (fun w => { w with cnt := l.length }))
      (bitPattern (variantParams s.params x.variant) x cmd bits.length false) (bits ++ [recordedBit smp]) rest rfl rfl
      (by
        intro q
        rw [← henc]
        exact keepLed_keepLed _ _ _ _ (pBit_ledClear _ _ _ hidle))
      (by simp [State.withWork, hacc, shiftAll, List.foldl_append])
      (by simp only [List.length_append, List.length_cons, List.length_nil] at *; omega) rfl
    refine ⟨fun w =>
      g { w with dbit := commandBit cmd bits.length, acc := shiftIn s.work.acc (recordedBit smp), cnt := l.length },
      ?_, ?_⟩
    · rw [List.length_cons, bitLoop, run_bind, hone]
      simp only
      rw [run_bind, run_setCnt]
      simp only
      rw [hg]
      congr 1
      have hmap : (fun (j : Nat) (sm : Byte) => bitEvents (variantParams s.params x.variant) x cmd (bits.length + 1 + j) sm)
          = (fun (j : Nat) (sm : Byte) => bitEvents (variantParams s.params x.variant) x cmd (bits.length + (j + 1)) sm) := by
        funext j sm; congr 1; omega
      have hlast : ∀ z, lastPattern (variantParams s.params x.variant) x cmd (bits.length + 1) l.length
            (bitPattern (variantParams s.params x.variant) x cmd bits.length false)
          = lastPattern (variantParams s.params x.variant) x cmd bits.length (l.length + 1) z := by
        intro z
        unfold lastPattern
        cases l with
        | nil => simp
        | cons a t => simp; congr 1; omega
      apply state_ext
      case h3 => simp [State.withWork, hlast sh]
      all_goals simp [State.withWork, List.mapIdx_cons, hmap, hlast s.lines]
    · simpa [State.withWork] using hgacc

/-- The settle poll, over the reads it makes (R132). -/
theorem run_settleLoop (reads : List Byte) :
    ∀ (k : Nat) (s : State) (rest : List Byte), s.statScript = reads ++ rest →
      (reads.length = k ∧ reads.all statDso = true) ∨
        (reads.length ≤ k ∧ reads.dropLast.all statDso = true ∧ reads.getLast?.map statDso = some false) →
      ∃ g, settleLoop k s = .ok ()
        (({ s with lineTrace := s.lineTrace ++ reads.map LineEvent.read, statScript := rest }).withWork g) ∧
        ∀ w, (g w).acc = w.acc := by
  induction reads with
  | nil =>
    intro k s rest hs hr
    simp only [List.nil_append] at hs
    rcases hr with ⟨hk, _⟩ | ⟨_, _, hl⟩
    · simp only [List.length_nil] at hk
      subst hk
      refine ⟨id, ?_, fun _ => rfl⟩
      rw [settleLoop, run_pure]
      congr 1
      apply state_ext <;> simp [State.withWork, ← hs]
    · simp at hl
  | cons r rs ih =>
    intro k s rest hs hr
    have hk : ∃ k', k = k' + 1 := by
      rcases hr with ⟨hk, _⟩ | ⟨hk, _, _⟩
      · exact ⟨rs.length, by simpa using hk.symm⟩
      · exact ⟨k - 1, by simp only [List.length_cons] at hk; omega⟩
    obtain ⟨k', rfl⟩ := hk
    have hn : s.nextStat = r := nextStat_cons s r (rs ++ rest) (by simp [hs])
    have hstep : settleLoop (k' + 1) s = (if statDso r then settleLoop k' else pure ())
        ((s.withWork (fun w => { w with poll := k' + 1 })).readStat) := by
      rw [settleLoop, run_bind, run_setPoll]
      simp only
      rw [run_bind, run_readStat]
      simp only [nextStat_withWork, hn]
    rw [hstep]
    cases hb : statDso r with
    | false =>
      have hnil : rs = [] := by
        rcases hr with ⟨_, ha⟩ | ⟨_, ha, _⟩
        · simp [hb] at ha
        · cases rs with
          | nil => rfl
          | cons a t => simp [List.dropLast, hb] at ha
      subst hnil
      refine ⟨fun w => { w with poll := k' + 1 }, ?_, fun _ => rfl⟩
      simp only [Bool.false_eq_true, if_false, run_pure]
      congr 1
      apply state_ext <;> simp [hs, hn]
    | true =>
      simp only [if_true]
      obtain ⟨g, hg, hga⟩ := ih k' ((s.withWork (fun w => { w with poll := k' + 1 })).readStat) rest (by simp [hs]) (by
        rcases hr with ⟨hk, ha⟩ | ⟨hk, ha, hl⟩
        · left
          refine ⟨by simpa using hk, ?_⟩
          simp only [List.all_cons, Bool.and_eq_true] at ha
          exact ha.2
        · right
          cases rs with
          | nil => simp [hb] at hl
          | cons a t =>
            refine ⟨by simp only [List.length_cons] at hk ⊢; omega, ?_, ?_⟩
            · rw [List.dropLast_cons_of_ne_nil (by simp)] at ha
              simp only [List.all_cons, Bool.and_eq_true] at ha
              exact ha.2
            · rw [List.getLast?_cons_cons] at hl
              exact hl)
      refine ⟨fun w => g { w with poll := k' + 1 }, ?_, fun w => by simp [hga]⟩
      rw [hg]
      congr 1
      apply state_ext <;> simp [hn]

/-- The exchange after its preconditions (R130): start of the accumulator, settle poll, bit loop. -/
def clockedFrame (cmd : Word16) (delayBits : Nat) : Op Word32 := do
  setAcc (startAcc cmd)
  setCnt (accBits - headerOffset - delayBits)
  settlePoll cmd delayBits
  bitLoop (accBits - headerOffset - delayBits)
  getAcc

theorem serialExchange_eq (cmd : Word16) (delayBits : Nat) : serialExchange cmd delayBits = (do
    useCap Caps.serialClock
    if delayBits > 16 then raise .illegalOperation
    else do
      exchangePreconditions
      clockedFrame cmd delayBits) := rfl

/-- The exchange after its preconditions: its result by the sampling law, and the state it leaves (R130, R132 to R134, R151). -/
theorem run_clockedFrame {s : State} {x : Session} {e : Exchange} {delayBits : Nat} {rest : List Byte}
    (h : s.session = some x) (hp : patternsSound s.params = true) (hd : delayBits ≤ 16)
    (hset : settleReads (x.fast && settleBefore s.params e.cmd delayBits) e.settle = true)
    (hlen : e.samples.length = 17 - delayBits) (hs : s.statScript = e.settle ++ e.samples ++ rest) :
    ∃ g, clockedFrame e.cmd delayBits s = .ok (exchangeResult e.cmd e.samples)
      (({ s with
          lines := bitPattern (variantParams s.params x.variant) x e.cmd (e.samples.length - 1) false
          session := some { x with
            shadow := bitPattern (variantParams s.params x.variant) x e.cmd (e.samples.length - 1) false }
          lineTrace := s.lineTrace ++ e.settle.map LineEvent.read ++
            (e.samples.mapIdx (bitEvents (variantParams s.params x.variant) x e.cmd)).flatten
          statScript := rest } : State).withWork g) := by
  rw [clockedFrame, run_bind, run_setAcc]
  simp only
  rw [run_bind, run_setCnt]
  simp only [withWork_withWork]
  have hk : accBits - headerOffset - delayBits = e.samples.length := by
    rw [hlen]; unfold accBits headerOffset; omega
  rw [hk]
  have hsettle : ∀ f : WorkRegs → WorkRegs, ∃ g : WorkRegs → WorkRegs, settlePoll e.cmd delayBits (s.withWork f) =
      .ok () (({ s with
        lineTrace := s.lineTrace ++ e.settle.map LineEvent.read
        statScript := e.samples ++ rest } : State).withWork g) ∧ ∀ w, (g w).acc = (f w).acc := by
    intro f
    have hss : s.statScript = e.settle ++ (e.samples ++ rest) := by simp [hs]
    have hrun : settlePoll e.cmd delayBits (s.withWork f) =
        (if x.fast && settleBefore s.params e.cmd delayBits then settleLoop settlePolls else pure ()) (s.withWork f) := by
      rw [settlePoll, run_bind, run_openedSession (x := x) (by simpa using h)]
      simp only
      rw [run_bind, run_get]
      rfl
    rw [hrun]
    cases hpoll : x.fast && settleBefore s.params e.cmd delayBits with
    | false =>
      simp only [settleReads, hpoll, Bool.false_eq_true, if_false, beq_iff_eq] at hset
      refine ⟨f, ?_, fun _ => rfl⟩
      simp only [Bool.false_eq_true, if_false, run_pure]
      congr 1
      apply state_ext <;> simp [hset, hss]
    | true =>
      simp only [settleReads, hpoll, if_true, Bool.or_eq_true, Bool.and_eq_true, beq_iff_eq, decide_eq_true_eq] at hset
      obtain ⟨g, hg, hga⟩ := run_settleLoop e.settle settlePolls (s.withWork f) (e.samples ++ rest) (by simpa using hss)
        (by
          rcases hset with ⟨hl, ha⟩ | ⟨⟨hl, ha⟩, hb⟩
          · exact .inl ⟨hl, ha⟩
          · exact .inr ⟨hl, ha, hb⟩)
      refine ⟨fun w => g (f w), ?_, fun w => hga _⟩
      simp only [if_true]
      rw [hg]
      congr 1
  obtain ⟨g2, hg2, hacc2⟩ := hsettle (fun w => { w with acc := startAcc e.cmd, cnt := e.samples.length })
  rw [run_bind, hg2]
  simp only
  obtain ⟨g3, hg3, hacc3⟩ := run_bitLoop (x := x) (cmd := e.cmd) (p := s.params) (idle_ledClear hp x.variant) rfl e.samples
    (({ s with
        lineTrace := s.lineTrace ++ e.settle.map LineEvent.read
        statScript := e.samples ++ rest } : State).withWork g2) x.shadow [] rest rfl
    (by simpa using h) (fun _ => rfl) (by simp [State.withWork, hacc2, shiftAll]) (by simp; omega) rfl
  rw [run_bind, hg3]
  simp only [run_getAcc]
  refine ⟨fun w => g3 (g2 w), ?_⟩
  have hfin : (g3 (g2 s.work)).acc = exchangeResult e.cmd e.samples := by
    rw [← shiftAll_exchangeResult]
    simpa using hacc3
  have hpos : e.samples.length ≠ 0 := by omega
  simp only [State.withWork] at hfin ⊢
  rw [hfin]
  congr 1
  apply state_ext <;> simp [lastPattern, hpos]

/-- One exchange of a frozen target: its result by the sampling law, and the state it leaves (R130 to R134, R151). -/
theorem run_serialExchange {s : State} {x : Session} {e : Exchange} {delayBits : Nat} {rest : List Byte}
    (h : s.session = some x) (hcaps : x.caps = capsOf x.variant) (hp : patternsSound s.params = true)
    (hd : delayBits ≤ 16) (ha : e.answered s.params x delayBits = true) (hs : s.statScript = e.script ++ rest) :
    ∃ g, serialExchange e.cmd delayBits s = .ok (exchangeResult e.cmd e.samples) ((s.exchanged e).withWork g) := by
  simp only [Exchange.answered, Bool.and_eq_true, beq_iff_eq, frozenSample, Option.isNone_iff_eq_none] at ha
  obtain ⟨⟨⟨hav, hst⟩, hset⟩, hlen⟩ := ha
  have hcs : x.caps.serialClock = true := by rw [hcaps]; rfl
  have hcg : x.caps.getStatus = true := by rw [hcaps]; rfl
  have hn : s.nextStat = e.status := nextStat_cons s _ (e.settle ++ e.samples ++ rest) (by simp [hs, Exchange.script])
  obtain ⟨g1, hg1⟩ := run_checkAvailable h hcg (by rw [hn]; exact hav)
  have hnd : ¬ delayBits > 16 := by omega
  rw [serialExchange_eq, run_bind, run_useCap h, hcs]
  simp only [if_true, hnd, if_false]
  rw [run_bind, exchangePreconditions, run_bind, hg1, hn]
  simp only [hst, if_true, run_pure]
  obtain ⟨g2, hg2⟩ := run_clockedFrame (s := s.readStat.withWork g1) (x := x) (e := e) (delayBits := delayBits) (rest := rest)
    (by simpa using h) (by simpa using hp) hd (by simpa using hset) hlen (by simp [hs, Exchange.script])
  rw [hg2]
  refine ⟨fun w => g2 (g1 w), ?_⟩
  congr 1
  apply state_ext <;> simp [State.exchanged, h, hn, hs, Exchange.events, Exchange.script, State.withWork]

end Sys2Proof.Laws
end

