-- ==== Sys2Proof/Laws/Target.lean ====
section
/-! SUPPORT. The laws of stopping a running target, of the state after an exchange, and of the end of an operation, each said once. -/

namespace Sys2Proof.Laws

open Sys2Proof Sys2Proof.Machine

/-- The working registers do not matter at the end of an operation (R22). -/
theorem runOp_ok_work {m : Op OpResult} {s t : State} {r : OpResult} (h : ∃ g, m s = .ok r (t.withWork g)) :
    runOp m s = .next (t.conclude r) := by
  obtain ⟨g, h⟩ := h
  rw [runOp_ok h, conclude_withWork]

/-- The working registers do not matter at a fault (R352). -/
theorem runOp_fault_work {m : Op OpResult} {s t : State} {f : FaultKind}
    (h : ∃ g, m s = .error (.fault f) (t.withWork g)) : runOp m s = .next (t.takeFault f) := by
  obtain ⟨g, h⟩ := h
  rw [runOp_fault h, takeFault_withWork]

/-! ### Patterns -/

/-- No pattern of a sound parameter choice holds the LED bit (R94, R96). -/
theorem patterns_ledClear {p : Params} (h : patternsSound p = true) (v : Variant) :
    (variantParams p v).patterns.idle &&& ledBit = 0 ∧ (variantParams p v).patterns.arm &&& ledBit = 0 ∧
      (variantParams p v).patterns.run &&& ledBit = 0 ∧ (variantParams p v).patterns.reset &&& ledBit = 0 ∧
      (variantParams p v).patterns.resetArm &&& ledBit = 0 ∧ (variantParams p v).patterns.berr &&& ledBit = 0 := by
  unfold patternsSound ledClear at h
  simp at h
  cases v <;> simp [variantParams, h]

/-! ### Stopping (R170) -/

/-- Stopping once the stop is armed, for the variant's parameters `v` (R170). -/
def armedStop (v : VariantParams) : Op Unit := do
  let y ← openedSession
  let frozen ← pollFreeze y.stopPollBound
  if frozen then writeKept v.patterns.idle
  else if v.forceBerr then do
    writeKept v.patterns.berr
    delay y.minDelay
    writeKept v.patterns.arm
    let frozen ← pollFreeze y.stopPollBound
    if frozen then writeKept v.patterns.idle else raise (.proto .response)
  else raise (.proto .response)

/-- Stopping a running target begins with one sample and the armed pattern (R170). -/
theorem run_stopTarget_running {s : State} {x : Session} {first : Byte} {rest : List Byte} {v : VariantParams}
    (hx : s.session = some x) (hc : x.caps = capsOf x.variant) (hv : v = variantParams s.params x.variant)
    (hf : runningSample x first = true) (hs : s.statScript = first :: rest) :
    ∃ g, stopTarget s =
      armedStop v ((s.readStat.wroteCtrl (keepLed v.encoding x.shadow v.patterns.arm)).withWork g) := by
  subst hv
  refine ⟨fun w => { w with st := decodeStatus x.sense first }, ?_⟩
  have hn : s.nextStat = first := nextStat_cons _ _ _ hs
  have hr : targetStopped (decodeStatus x.sense first) = false := by simpa [runningSample] using hf
  rw [stopTarget, run_bind, run_useCap hx]
  simp only [hc, capsOf, if_true]
  rw [run_bind, run_currentParams hx]
  simp only
  rw [run_bind, run_readStatus hx (by simp [hc, capsOf])]
  simp only [hn, hr, Bool.false_eq_true, if_false]
  rw [run_bind, run_writeKept (x := x) _ (by simpa using hx)]
  simp [armedStop]

/-- A running target that freezes at a poll within the bound (R170, R171). -/
theorem run_stopTarget_poll {s : State} {x : Session} {first last : Byte} {polls rest : List Byte} {v : VariantParams}
    (hx : s.session = some x) (hc : x.caps = capsOf x.variant) (hp : patternsSound s.params = true)
    (hv : v = variantParams s.params x.variant) (hf : runningSample x first = true)
    (hps : polls.all (runningSample x) = true) (hl : runningSample x last = false)
    (hlen : polls.length < x.stopPollBound) (hs : s.statScript = first :: (polls ++ last :: rest)) :
    ∃ g, stopTarget s = .ok () (({ s with
        lines := keepLed v.encoding x.shadow v.patterns.idle
        session := some { x with shadow := keepLed v.encoding x.shadow v.patterns.idle }
        statScript := rest
        lineTrace := s.lineTrace ++ [LineEvent.read first, .wrote (keepLed v.encoding x.shadow v.patterns.arm)] ++
          (polls ++ [last]).flatMap (fun p => delayEvents x.minDelay ++ [LineEvent.read p]) ++
          [LineEvent.wrote (keepLed v.encoding x.shadow v.patterns.idle)] } : State).withWork g) := by
  obtain ⟨_, ka, _, _, _, _⟩ := patterns_ledClear hp x.variant
  obtain ⟨g, hg⟩ := run_stopTarget_running hx hc hv hf hs
  rw [← hv] at ka
  have e2 := fun b => keepLed_keepLed v.encoding x.shadow _ b ka
  have hn : s.nextStat = first := nextStat_cons _ _ _ hs
  rw [hg]
  generalize keepLed v.encoding x.shadow v.patterns.arm = a at *
  have h1 : ((s.readStat.wroteCtrl a).withWork g).session = some { x with shadow := a } := by simp [hx]
  rw [armedStop, run_bind, run_openedSession h1]
  simp only
  obtain ⟨k, hk⟩ : ∃ k, x.stopPollBound = polls.length + (k + 1) := ⟨x.stopPollBound - polls.length - 1, by omega⟩
  obtain ⟨g2, hg2⟩ := run_pollFreeze_running (x := { x with shadow := a }) (by rw [hc]; rfl) (k + 1) polls _
    (last :: rest) h1 (by simp [hs]) hps
  rw [run_bind, hk, hg2]
  generalize hu : (State.withWork _ g2) = u
  have hus : u.session = some { x with shadow := a } := by rw [← hu]; simpa using h1
  have hup : u.params = s.params := by rw [← hu]; rfl
  obtain ⟨g3, hg3⟩ := run_pollFreeze_stopped (x := { x with shadow := a }) (p := last) (rest := rest) (s := u) k hus
    (by rw [hc]; rfl) (by rw [← hu]; rfl) hl
  rw [hg3]
  simp only [if_true]
  refine ⟨fun w => g3 (g2 (g w)), ?_⟩
  rw [run_writeKept (x := { x with shadow := a }) _ (by simpa using hus)]
  congr 1
  subst hu
  apply state_ext <;> simp [hx, State.withWork, hn, pollEvents, ← hv, e2, hk]

/-- A running target that never freezes, with and without the forced bus error (R170, R171). -/
theorem run_stopTarget_never {s : State} {x : Session} {first : Byte} {polls again rest : List Byte}
    {v : VariantParams} {a : Byte} (hx : s.session = some x) (hc : x.caps = capsOf x.variant)
    (hp : patternsSound s.params = true) (hv : v = variantParams s.params x.variant)
    (hA : a = keepLed v.encoding x.shadow v.patterns.arm) (hf : runningSample x first = true)
    (hps : polls.all (runningSample x) = true) (hag : again.all (runningSample x) = true)
    (hlen : polls.length = x.stopPollBound) (hs : s.statScript = first :: (polls ++ again ++ rest))
    (hcase : v.forceBerr = false ∧ again = [] ∨ v.forceBerr = true ∧ again.length = x.stopPollBound) :
    ∃ g, stopTarget s = .error (.fault (.proto .response)) (({ s with
        lines := a, session := some { x with shadow := a }, statScript := rest
        lineTrace := s.lineTrace ++ [LineEvent.read first, .wrote a] ++
          polls.flatMap (fun p => delayEvents x.minDelay ++ [LineEvent.read p]) ++
          if v.forceBerr then
            [LineEvent.wrote (keepLed v.encoding x.shadow v.patterns.berr)] ++ delayEvents x.minDelay ++
              [LineEvent.wrote a] ++ again.flatMap (fun p => delayEvents x.minDelay ++ [LineEvent.read p])
          else [] } : State).withWork g) := by
  obtain ⟨_, ka, _, _, _, kb⟩ := patterns_ledClear hp x.variant
  have hsb : x.caps.getStatus = true := by rw [hc]; rfl
  have hn : s.nextStat = first := nextStat_cons _ _ _ hs
  obtain ⟨g, hg⟩ := run_stopTarget_running hx hc hv hf hs
  rw [← hv] at ka kb
  rw [hg, ← hA]
  have e2 := fun b => keepLed_keepLed v.encoding x.shadow _ b ka
  have e3 := fun b => keepLed_keepLed v.encoding x.shadow _ b kb
  rw [← hA] at e2
  have h1 : ((s.readStat.wroteCtrl a).withWork g).session = some { x with shadow := a } := by simp [hx]
  rw [armedStop, run_bind, run_openedSession h1]
  simp only
  obtain ⟨g2, hg2⟩ := run_pollFreeze_never (x := { x with shadow := a }) polls (again ++ rest) h1 hsb (by simp [hs]) hps
  rw [hlen] at hg2
  rw [run_bind, hg2]
  simp only [Bool.false_eq_true, if_false]
  rcases hcase with ⟨hb, rfl⟩ | ⟨hb, hl2⟩
  · simp only [hb, Bool.false_eq_true, if_false, run_raise]
    refine ⟨fun w => g2 (g w), ?_⟩
    congr 1
    apply state_ext <;> simp [hx, State.withWork, hn, pollEvents]
  · simp only [hb, if_true]
    rw [run_bind, run_writeKept (x := { x with shadow := a }) _ (by simpa using h1)]
    simp only [withWork_params, wroteCtrl_params, readStat_params, ← hv, e2]
    rw [run_bind, run_delay]
    simp only
    rw [run_bind, run_writeKept (x := { x with shadow := keepLed v.encoding x.shadow v.patterns.berr }) _
      (by simp [hx])]
    simp only [delayed_params, withWork_params, wroteCtrl_params, ← hv, e3, ← hA]
    rw [run_bind]
    generalize hu : (State.wroteCtrl (State.delayed _ _) a) = u
    have hus : u.session = some { x with shadow := a } := by rw [← hu]; simp [hx]
    obtain ⟨g3, hg3⟩ := run_pollFreeze_never (s := u) (x := { x with shadow := a }) again rest hus hsb
      (by rw [← hu]; simp) hag
    rw [hl2] at hg3
    rw [hg3]
    simp only [Bool.false_eq_true, if_false, run_raise]
    refine ⟨fun w => g3 (g2 (g w)), ?_⟩
    congr 1
    subst hu
    apply state_ext <;> simp [hx, State.withWork, hn, pollEvents, delayEvents]

/-! ### The state after an exchange (R130 to R134) -/

@[simp] theorem exchanged_params (s : State) (e : Exchange) : (s.exchanged e).params = s.params := by
  unfold State.exchanged; split <;> rfl

@[simp] theorem exchanged_buffer (s : State) (e : Exchange) : (s.exchanged e).buffer = s.buffer := by
  unfold State.exchanged; split <;> rfl

@[simp] theorem exchanged_opsDone (s : State) (e : Exchange) : (s.exchanged e).opsDone = s.opsDone := by
  unfold State.exchanged; split <;> rfl

/-- An exchange changes no field of the session but the shadow. -/
theorem exchanged_session {s : State} {x : Session} (h : s.session = some x) (e : Exchange) :
    (s.exchanged e).session = some { x with
      shadow := bitPattern (variantParams s.params x.variant) x e.cmd (e.samples.length - 1) false } := by
  unfold State.exchanged; rw [h]

theorem exchanged_statScript {s : State} {x : Session} (h : s.session = some x) (e : Exchange) :
    (s.exchanged e).statScript = s.statScript.drop e.script.length := by
  unfold State.exchanged; rw [h]

theorem exchanged_withWork (s : State) (g : WorkRegs → WorkRegs) (e : Exchange) :
    (s.withWork g).exchanged e = (s.exchanged e).withWork g := by
  unfold State.exchanged; simp only [withWork_session, withWork_params]; split <;> rfl

/-- Whether an exchange is answered does not depend on the shadow. -/
theorem answered_shadow (e : Exchange) (p : Params) (x : Session) (shadow : Byte) (delayBits : Nat) :
    e.answered p { x with shadow := shadow } delayBits = e.answered p x delayBits := rfl

/-! ### Descriptors (R35, R240) -/

/-- The descriptor of an AMD area, through the area's own first address. -/
theorem run_amdDescriptor {s : State} {e : MemoryArea} {d : AmdDescriptor} {a : Nat} (hp : s.partitioned = true)
    (h : areaOf s.registry a = some e) (hb : e.binding = .amd d) : amdDescriptor e.beginAddr s = .ok d s := by
  rw [amdDescriptor, run_bind, run_owningArea (areaOf_begin hp h)]
  simp [hb]

/-- The descriptor of a CFM area, through the area's own first address. -/
theorem run_cfmDescriptor {s : State} {e : MemoryArea} {d : CfmDescriptor} {a : Nat} (hp : s.partitioned = true)
    (h : areaOf s.registry a = some e) (hb : e.binding = .cfm d) : cfmDescriptor e.beginAddr s = .ok d s := by
  rw [cfmDescriptor, run_bind, run_owningArea (areaOf_begin hp h)]
  simp [hb]

/-- The descriptor of an INTEL area, through the area's own first address. -/
theorem run_intelDescriptor {s : State} {e : MemoryArea} {d : IntelDescriptor} {a : Nat} (hp : s.partitioned = true)
    (h : areaOf s.registry a = some e) (hb : e.binding = .intel d) : intelDescriptor e.beginAddr s = .ok d s := by
  rw [intelDescriptor, run_bind, run_owningArea (areaOf_begin hp h)]
  simp [hb]

/-- With no erase pending `prepare` goes on at once (R270). -/
theorem run_amdPrepare {s : State} {e : MemoryArea} {d : AmdDescriptor} {a : Nat} (hp : s.partitioned = true)
    (h : areaOf s.registry a = some e) (hb : e.binding = .amd d) (hn : d.pendingErase = .none) (m : Op FlashResult) :
    amdPrepare e.beginAddr m s = m s := by
  rw [amdPrepare, run_bind, run_amdDescriptor hp h hb]
  simp [hn]

end Sys2Proof.Laws
end

