-- ==== Sys2Proof/Laws/Conduct.lean ====
section
/-! SUPPORT. How the flash controllers' parts run when the environment answers as a conduct says, and when one call of it fails. `Plays m evs a` says
once both: with every call answered `m` makes the calls `evs` and returns `a`; with one of them failed it ends there. The laws compose. -/

namespace Sys2Proof.Laws

open Sys2Proof Sys2Proof.Machine

variable {α β : Type}

/-! ### Calls cut off -/

@[simp] theorem cutOff_params (s : State) (evs : List MemEvent) : (s.cutOff evs).params = s.params := by simp [State.cutOff]

@[simp] theorem cutOff_registry (s : State) (evs : List MemEvent) : (s.cutOff evs).registry = s.registry := by
  simp [State.cutOff]

@[simp] theorem cutOff_withWork (s : State) (evs : List MemEvent) (g : WorkRegs → WorkRegs) :
    (s.withWork g).cutOff evs = (s.cutOff evs).withWork g := by
  simp only [State.cutOff, performed_withWork]; rfl

@[simp] theorem cutOff_withArea (s : State) (evs : List MemEvent) (b : Nat) (f : MemoryArea → MemoryArea) :
    (s.withArea b f).cutOff evs = (s.cutOff evs).withArea b f := by
  simp only [State.cutOff, performed_withArea]; rfl

theorem cutOff_append (s : State) (evs more : List MemEvent) : s.cutOff (evs ++ more) = (s.performed evs).cutOff more := by
  simp [State.cutOff, performed_append]

/-! ### Playing a list of calls -/

/-- `m` makes the calls `evs` and returns `a` when the environment completes them, and ends at the first that fails (R250); beside them it changes
working registers only. -/
def Plays (bound : Nat) (m : Op α) (evs : List MemEvent) (a : α) : Prop :=
  ∀ s : State, s.params.flashPollBound = bound →
    (∀ rest, s.memScript = answersOf evs ++ rest → ∃ g, m s = .ok a ((s.performed evs).withWork g)) ∧
    (∀ j f rest, j < evs.length → s.memScript = answersOf (evs.take j) ++ .fault f :: rest →
      ∃ g, m s = .error (.access f) ((s.cutOff (evs.take j)).withWork g))

theorem withWork_id (s : State) : s.withWork id = s := rfl

theorem plays_pure (bound : Nat) (a : α) : Plays bound (pure a : Op α) [] a :=
  fun s _ => ⟨fun _ _ => ⟨id, rfl⟩, fun _ _ _ h => absurd h (by simp)⟩

theorem plays_bind {bound : Nat} {m : Op α} {k : α → Op β} {e1 e2 : List MemEvent} {a : α} {b : β}
    (h1 : Plays bound m e1 a) (h2 : Plays bound (k a) e2 b) : Plays bound (m >>= k) (e1 ++ e2) b := by
  intro s hb
  obtain ⟨ok1, cut1⟩ := h1 s hb
  have go : ∀ more, s.memScript = answersOf e1 ++ more → ∃ g, m s = .ok a ((s.performed e1).withWork g) ∧
      ((s.performed e1).withWork g).memScript = more ∧ ((s.performed e1).withWork g).params.flashPollBound = bound := by
    intro more h
    obtain ⟨g, hg⟩ := ok1 more h
    have hm : ((s.performed e1).withWork g).memScript = more := by
      rw [withWork_memScript, performed_memScript, h, ← answersOf_length e1, List.drop_left]
    exact ⟨g, hg, hm, by simpa using hb⟩
  constructor
  · intro rest hs
    obtain ⟨g, hg, hm, hp⟩ := go (answersOf e2 ++ rest) (by simpa using hs)
    obtain ⟨g', hg'⟩ := (h2 _ hp).1 rest hm
    refine ⟨fun w => g' (g w), ?_⟩
    rw [run_bind, hg]
    simp only
    rw [hg', performed_withWork, ← performed_append, withWork_withWork]
  · intro j f rest hj hs
    by_cases hlt : j < e1.length
    · rw [List.take_append_of_le_length (by omega)] at hs ⊢
      obtain ⟨g, hg⟩ := cut1 j f rest hlt hs
      exact ⟨g, by rw [run_bind, hg]⟩
    · have htake : (e1 ++ e2).take j = e1 ++ e2.take (j - e1.length) := by
        rw [List.take_append, List.take_of_length_le (by omega)]
      rw [htake] at hs ⊢
      obtain ⟨g, hg, hm, hp⟩ := go (answersOf (e2.take (j - e1.length)) ++ .fault f :: rest) (by simpa using hs)
      obtain ⟨g', hg'⟩ := (h2 _ hp).2 (j - e1.length) f rest (by simp at hj; omega) hm
      refine ⟨fun w => g' (g w), ?_⟩
      rw [run_bind, hg]
      simp only
      rw [hg', cutOff_withWork, cutOff_append, withWork_withWork]

/-- A part without calls before `k`. -/
theorem plays_bind_nil {bound : Nat} {m : Op α} {k : α → Op β} {evs : List MemEvent} {a : α} {b : β}
    (h1 : Plays bound m [] a) (h2 : Plays bound (k a) evs b) : Plays bound (m >>= k) evs b := plays_bind h1 h2

/-- A part without calls after `m`. -/
theorem plays_then_pure {bound : Nat} {m : Op α} {k : α → Op β} {evs : List MemEvent} {a : α} {b : β}
    (h1 : Plays bound m evs a) (h2 : Plays bound (k a) [] b) : Plays bound (m >>= k) evs b := by
  simpa using plays_bind h1 h2

theorem plays_rd {bound a n : Nat} {v : BusWord} (hl : v.length = n) (hc : callAllowed a v.length = true) :
    Plays bound (rd a n) [.read a v] v := by
  intro s _
  refine ⟨fun rest hs => ⟨id, run_rd_event hl hc hs⟩, fun j f rest hj hs => ⟨id, ?_⟩⟩
  obtain rfl : j = 0 := by simpa using hj
  subst hl
  exact run_rd_fault hc hs

theorem plays_wr {bound a : Nat} {v : BusWord} (hc : callAllowed a v.length = true) :
    Plays bound (wr a v) [.wrote a v] () := by
  intro s _
  refine ⟨fun rest hs => ⟨id, run_wr_event hc hs⟩, fun j f rest hj hs => ⟨id, ?_⟩⟩
  obtain rfl : j = 0 := by simpa using hj
  exact run_wr_fault hc hs

theorem plays_setPoll (bound k : Nat) : Plays bound (setPoll k) [] () :=
  fun s _ => ⟨fun _ _ => ⟨fun w => { w with poll := k }, rfl⟩, fun _ _ _ h => absurd h (by simp)⟩

/-- Reading the poll bound. -/
theorem plays_bound {bound : Nat} {k : Nat → Op α} {evs : List MemEvent} {a : α} (h : Plays bound (k bound) evs a) :
    Plays bound (do let s ← get; k s.params.flashPollBound) evs a := by
  intro s hb
  have := h s hb
  rw [run_bind, run_get]
  simpa only [hb] using this

theorem callsAllowed_cons (e : MemEvent) (evs : List MemEvent) :
    callsAllowed (e :: evs) = (callsAllowed [e] && callsAllowed evs) := by simp [callsAllowed]

theorem callsAllowed_read (a : Nat) (v : BusWord) : callsAllowed [.read a v] = callAllowed a v.length := by
  simp [callsAllowed]

theorem callsAllowed_wrote (a : Nat) (v : BusWord) : callsAllowed [.wrote a v] = callAllowed a v.length := by
  simp [callsAllowed]

theorem plays_wrAll (bound : Nat) (ws : List (Nat × BusWord)) (hc : callsAllowed (writesOf ws) = true) :
    Plays bound (wrAll ws) (writesOf ws) () := by
  induction ws with
  | nil => exact plays_pure bound ()
  | cons w ws ih =>
    rw [writesOf, List.map_cons, callsAllowed_cons, callsAllowed_wrote, Bool.and_eq_true] at hc
    exact plays_bind (plays_wr hc.1) (ih hc.2)

/-! ### Conducts -/

/-- `m` follows a conduct: it plays each of its lists of calls. -/
def Follows (bound : Nat) (m : Op FlashStatus) (C : Conduct) : Prop :=
  ∀ evs st, C evs st → callsAllowed evs = true → Plays bound m evs st

theorem follows_andThen {bound : Nat} {m n : Op FlashStatus} {C D : Conduct} (h1 : Follows bound m C)
    (h2 : Follows bound n D) : Follows bound (do let st ← m; if st ≠ .ok then pure st else n) (C.andThen D) := by
  rintro evs st (⟨a, b, rfl, ha, hb⟩ | ⟨hc, hne⟩) hall
  · rw [callsAllowed_append, Bool.and_eq_true] at hall
    exact plays_bind (h1 a .ok ha hall.1) (by simpa using h2 b st hb hall.2)
  · exact plays_then_pure (h1 evs st hc hall) (by simpa [hne] using plays_pure bound st)

theorem follows_sends {bound : Nat} {ws : List (Nat × BusWord)} {n : Op FlashStatus} {D : Conduct}
    (h : Follows bound n D) : Follows bound (do wrAll ws; n) ((sends ws).andThen D) := by
  rintro evs st (⟨a, b, rfl, ⟨rfl, _⟩, hb⟩ | ⟨⟨_, hst⟩, hne⟩) hall
  · rw [callsAllowed_append, Bool.and_eq_true] at hall
    exact plays_bind (plays_wrAll bound ws hall.1) (h b st hb hall.2)
  · exact absurd hst hne

theorem follows_send {bound a : Nat} {v : BusWord} {n : Op FlashStatus} {D : Conduct} (h : Follows bound n D) :
    Follows bound (do wr a v; n) ((sends [(a, v)]).andThen D) := by
  have : (do wr a v; n) = (do wrAll [(a, v)]; n) := by simp [wrAll]
  rw [this]; exact follows_sends h

/-! ### Verifies (R253) -/

theorem cellReads_nil (w c : Nat) : cellReads w c [] = [] := rfl

theorem cellReads_cons (w c : Nat) (v : BusWord) (vs : List BusWord) :
    cellReads w c (v :: vs) = .read c v :: cellReads w (c + w) vs := by
  have hshift : ∀ j, c + (j + 1) * w = c + w + j * w := by intro j; ring
  simp only [cellReads, List.mapIdx_cons, hshift, Nat.zero_mul, Nat.add_zero]

/-- The verify reads of a burst (R317). -/
theorem follows_verifyBurst (bound w : Nat) (wants : List BusWord) (hw : ∀ v ∈ wants, v.length = w) : ∀ c : Nat,
    Follows bound (verifyBurst w c wants) (verifies w c wants) := by
  induction wants with
  | nil =>
    rintro c evs st (⟨rfl, rfl⟩ | ⟨k, want, bad, h, _⟩) _
    · exact plays_pure bound _
    · simp at h
  | cons v vs ih =>
    have ih := ih (fun x h => hw x (by simp [h]))
    have hv := hw v (by simp)
    rintro c evs st (⟨rfl, rfl⟩ | ⟨k, want, bad, h, hne, hl, rfl, rfl⟩) hall
    · rw [cellReads_cons, callsAllowed_cons, callsAllowed_read, Bool.and_eq_true] at hall
      rw [cellReads_cons]
      exact plays_bind (e1 := [_]) (plays_rd hv hall.1) (by rw [if_pos rfl]; exact ih _ _ _ (.inl ⟨rfl, rfl⟩) hall.2)
    · cases k with
      | zero =>
        simp only [List.getElem?_cons_zero, Option.some.injEq] at h
        subst h
        simp only [List.take_zero, List.nil_append, cellReads_cons, cellReads_nil, callsAllowed_read] at hall ⊢
        exact plays_then_pure (plays_rd hl hall) (by simpa [hne] using plays_pure bound _)
      | succ k =>
        simp only [List.getElem?_cons_succ] at h
        simp only [List.take_succ_cons, List.cons_append, cellReads_cons] at hall ⊢
        rw [callsAllowed_cons, callsAllowed_read, Bool.and_eq_true] at hall
        exact plays_bind (e1 := [_]) (plays_rd hv hall.1) (by
          rw [if_pos rfl]; exact ih (c + w) _ _ (.inr ⟨k, want, bad, h, hne, hl, rfl, rfl⟩) hall.2)

/-- The verify read of one cell (R253). -/
theorem follows_verifyCell (bound w c : Nat) (want : BusWord) (hw : want.length = w) :
    Follows bound (do let v ← rd c w; pure (if v = want then .ok else .verifyMismatch)) (verifies w c [want]) := by
  have h := follows_verifyBurst bound w [want] (by simpa using hw) c
  have he : verifyBurst w c [want] = (do let v ← rd c w; pure (if v = want then .ok else .verifyMismatch)) := by
    simp only [verifyBurst]
    congr 1; funext v; split <;> rfl
  rwa [he] at h

theorem erasedReads_succ (w n c : Nat) : erasedReads w (n + 1) c = .read c (allOnes w) :: erasedReads w n (c + w) := rfl

theorem plays_verifyCells_ok (bound w n : Nat) : ∀ c : Nat, callsAllowed (erasedReads w n c) = true →
    Plays bound (verifyCells w n c) (erasedReads w n c) .ok := by
  induction n with
  | zero => intro c _; exact plays_pure bound _
  | succ n ih =>
    intro c hall
    rw [erasedReads_succ, callsAllowed_cons, callsAllowed_read, Bool.and_eq_true] at hall
    exact plays_bind (plays_rd (allOnes_length w) hall.1) (by simpa using ih _ hall.2)

theorem plays_verifyCells_bad (bound w : Nat) (bad : BusWord) (hne : bad ≠ allOnes w) (hl : bad.length = w) (k : Nat) :
    ∀ n c : Nat, k < n → callsAllowed (erasedReads w k c ++ [.read (c + k * w) bad]) = true →
    Plays bound (verifyCells w n c) (erasedReads w k c ++ [.read (c + k * w) bad]) .verifyMismatch := by
  induction k with
  | zero =>
    intro n c hk hall
    obtain ⟨n, rfl⟩ : ∃ m, n = m + 1 := ⟨n - 1, by omega⟩
    simp only [erasedReads, List.nil_append, Nat.zero_mul, Nat.add_zero, callsAllowed_read] at hall ⊢
    exact plays_then_pure (plays_rd hl hall) (by simpa [hne] using plays_pure bound _)
  | succ k ih =>
    intro n c hk hall
    obtain ⟨n, rfl⟩ : ∃ m, n = m + 1 := ⟨n - 1, by omega⟩
    have hshift : c + (k + 1) * w = c + w + k * w := by ring
    rw [hshift] at hall ⊢
    simp only [erasedReads_succ, List.cons_append] at hall ⊢
    rw [callsAllowed_cons, callsAllowed_read, Bool.and_eq_true] at hall
    exact plays_bind (plays_rd (allOnes_length w) hall.1) (by simpa using ih n (c + w) (by omega) hall.2)

/-- `verifyErased` (R253). -/
theorem follows_verifyErased (bound lo hi w : Nat) : Follows bound (verifyErased lo hi w) (verifiesErased w lo hi) := by
  rintro evs st (⟨rfl, rfl⟩ | ⟨k, bad, hk, hne, hl, rfl, rfl⟩) hall
  · exact plays_verifyCells_ok bound w _ lo hall
  · exact plays_verifyCells_bad bound w bad hne hl k _ lo hk hall

/-! ### The AMD toggle poll (R269) -/

/-- The reads of a list of rechecks. -/
def recheckReads (c : Nat) (xs : List (BusWord × BusWord)) : List MemEvent :=
  xs.flatMap (fun x => [MemEvent.read c x.1, MemEvent.read c x.2])

/-- The lanes of one toggle test and their rechecks (R269). -/
theorem plays_toggleLanes (bound : Nat) (d : AmdDescriptor) (c : Nat) (prev cur : BusWord) (ls : List Nat) :
    ∀ (busy : Bool) (xs : List (BusWord × BusWord)) (stable : Bool),
    rechecksStable d (ls.filter (fun l => lane d.chip.chipWidth prev l != lane d.chip.chipWidth cur l &&
      laneHas (lane d.chip.chipWidth cur l) d.numbers.timeoutMask)) xs = some stable →
    (∀ x ∈ xs, x.1.length = d.chip.busWidth ∧ x.2.length = d.chip.busWidth) →
    callsAllowed (recheckReads c xs) = true →
    Plays bound (toggleLanes d c prev cur ls busy) (recheckReads c xs)
      (if stable then some (busy || ls.any (fun l => lane d.chip.chipWidth prev l != lane d.chip.chipWidth cur l))
       else none) := by
  induction ls with
  | nil =>
    intro busy xs stable h _ _
    cases xs with
    | nil =>
      simp only [List.filter_nil, rechecksStable, Option.some.injEq] at h
      subst h
      simpa [recheckReads, toggleLanes] using plays_pure bound (some busy)
    | cons x xs => simp [rechecksStable] at h
  | cons l ls ih =>
    intro busy xs stable h hl hc
    rw [toggleLanes]
    by_cases h1 : lane d.chip.chipWidth prev l = lane d.chip.chipWidth cur l
    · simp only [List.filter_cons, h1, bne_self_eq_false, Bool.false_and, Bool.false_eq_true, if_false] at h
      simpa [h1] using ih busy xs stable h hl hc
    · have hb : (lane d.chip.chipWidth prev l != lane d.chip.chipWidth cur l) = true := by simpa using h1
      simp only [h1, if_false, List.any_cons, hb, Bool.true_or, Bool.or_true]
      by_cases h2 : laneHas (lane d.chip.chipWidth cur l) d.numbers.timeoutMask = true
      · simp only [List.filter_cons, hb, h2, Bool.and_self, if_true] at h ⊢
        cases xs with
        | nil => simp [rechecksStable] at h
        | cons x xs =>
          obtain ⟨hx1, hx2⟩ := hl x (by simp)
          have hcons : recheckReads c (x :: xs) = [.read c x.1] ++ ([.read c x.2] ++ recheckReads c xs) := rfl
          rw [hcons, callsAllowed_append, callsAllowed_append, Bool.and_eq_true, Bool.and_eq_true, callsAllowed_read,
            callsAllowed_read] at hc
          rw [hcons]
          refine plays_bind (plays_rd hx1 hc.1) (plays_bind (plays_rd hx2 hc.2.1) ?_)
          simp only [rechecksStable] at h
          by_cases h3 : lane d.chip.chipWidth x.1 l = lane d.chip.chipWidth x.2 l
          · simp only [h3, if_true] at h ⊢
            simpa using ih true xs stable h (fun y hy => hl y (by simp [hy])) hc.2.2
          · simp only [h3, if_false] at h ⊢
            cases xs with
            | nil =>
              simp only [List.isEmpty_nil, if_true, Option.some.injEq] at h
              subst h
              simpa [recheckReads] using plays_pure bound (none : Option Bool)
            | cons y ys => simp at h
      · simp only [List.filter_cons, hb, h2, Bool.and_false, Bool.false_eq_true, if_false] at h ⊢
        simpa using ih true xs stable h hl hc

/-- Some lane differs exactly when the words' lanes do (R255). -/
theorem any_lane_ne (d : AmdDescriptor) (prev cur : BusWord) :
    (List.range (laneCount d.chip.busWidth d.chip.chipWidth)).any (fun l =>
      lane d.chip.chipWidth prev l != lane d.chip.chipWidth cur l) =
      !decide (lanes d.chip.busWidth d.chip.chipWidth prev = lanes d.chip.busWidth d.chip.chipWidth cur) := by
  rw [Bool.eq_iff_iff]
  simp [lanes]

/-- A toggle test: its rechecks and whether it is busy, done or stuck (R269). -/
theorem plays_toggleTest {bound : Nat} {d : AmdDescriptor} {c : Nat} {prev : BusWord} {r : ToggleRound} {x : RoundEnd}
    (h : r.ends d prev = some x) (hw : r.wide d.chip.busWidth = true) (hc : callsAllowed (recheckReads c r.rechecks) = true) :
    Plays bound (toggleLanes d c prev r.cur (List.range (laneCount d.chip.busWidth d.chip.chipWidth)) false)
      (recheckReads c r.rechecks)
      (match x with
        | .done => some false
        | .busy => some true
        | .stuck => none) := by
  have hl : ∀ y ∈ r.rechecks, y.1.length = d.chip.busWidth ∧ y.2.length = d.chip.busWidth := by
    simp only [ToggleRound.wide, Bool.and_eq_true, List.all_eq_true, beq_iff_eq] at hw
    exact fun y hy => hw.2 y hy
  unfold ToggleRound.ends at h
  cases hr : rechecksStable d (suspectLanes d prev r.cur) r.rechecks with
  | none => rw [hr] at h; cases h
  | some stable =>
    rw [hr] at h
    have hp := plays_toggleLanes bound d c prev r.cur _ false r.rechecks stable hr hl hc
    rw [any_lane_ne] at hp
    cases stable with
    | false =>
      simp only [Option.some.injEq] at h
      subst h
      simpa using hp
    | true =>
      simp only [Option.some.injEq] at h
      by_cases he : lanes d.chip.busWidth d.chip.chipWidth prev = lanes d.chip.busWidth d.chip.chipWidth r.cur
      · rw [if_pos he] at h; subst h; simpa [he] using hp
      · rw [if_neg he] at h; subst h; simpa [he] using hp

theorem toggleReads_eq (c : Nat) (r : ToggleRound) : r.reads c = .read c r.cur :: recheckReads c r.rechecks := rfl

/-- The reset command that ends a poll without success (R269). -/
def resetAfter (d : AmdDescriptor) (st : FlashStatus) : List MemEvent :=
  if st = .ok then [] else [.wrote d.chip.base (rep d.chip d.numbers.cmdReset)]

theorem plays_toggleLoop (bound : Nat) (d : AmdDescriptor) (c : Nat) (rounds : List ToggleRound) :
    ∀ (k : Nat) (prev : BusWord) (st : FlashStatus), toggleVerdict d k prev rounds = some st →
    rounds.all (ToggleRound.wide d.chip.busWidth) = true →
    callsAllowed (rounds.flatMap (ToggleRound.reads c) ++ resetAfter d st) = true →
    Plays bound (toggleLoop d c k prev) (rounds.flatMap (ToggleRound.reads c) ++ resetAfter d st) st := by
  induction rounds with
  | nil =>
    intro k prev st h _ hall
    cases k with
    | zero =>
      simp only [toggleVerdict, Option.some.injEq] at h
      subst h
      exact plays_then_pure (plays_wr (by simpa [resetAfter, callsAllowed_wrote] using hall)) (plays_pure bound _)
    | succ k => simp [toggleVerdict] at h
  | cons r rounds ih =>
    intro k prev st h hw hall
    cases k with
    | zero => simp [toggleVerdict] at h
    | succ k =>
      simp only [List.all_cons, Bool.and_eq_true] at hw
      have hcur : r.cur.length = d.chip.busWidth := by
        have := hw.1; simp only [ToggleRound.wide, Bool.and_eq_true, beq_iff_eq] at this; exact this.1
      have hcons : (r :: rounds).flatMap (ToggleRound.reads c) ++ resetAfter d st =
          [MemEvent.read c r.cur] ++ (recheckReads c r.rechecks ++ (rounds.flatMap (ToggleRound.reads c) ++ resetAfter d st)) := by
        simp [toggleReads_eq]
      rw [hcons] at hall ⊢
      rw [callsAllowed_append, callsAllowed_append, callsAllowed_read, Bool.and_eq_true, Bool.and_eq_true] at hall
      rw [toggleLoop]
      refine plays_bind_nil (plays_setPoll bound _) (plays_bind (plays_rd hcur hall.1) ?_)
      simp only [toggleVerdict] at h
      cases hx : r.ends d prev with
      | none => rw [hx] at h; cases h
      | some x =>
        rw [hx] at h
        have hp := plays_toggleTest (bound := bound) (c := c) hx hw.1 hall.2.1
        refine plays_bind hp ?_
        cases x with
        | busy => exact ih k r.cur st h hw.2 hall.2.2
        | done =>
          cases rounds with
          | nil =>
            simp only [List.isEmpty_nil, if_true, Option.some.injEq] at h
            subst h
            exact plays_pure bound _
          | cons a b => simp at h
        | stuck =>
          cases rounds with
          | nil =>
            simp only [List.isEmpty_nil, if_true, Option.some.injEq] at h
            subst h
            exact plays_then_pure (plays_wr (by simpa [resetAfter, callsAllowed_wrote] using hall.2.2)) (plays_pure bound _)
          | cons a b => simp at h

/-- `togglePoll` (R269). -/
theorem follows_togglePoll (bound : Nat) (d : AmdDescriptor) (c : Nat) : Follows bound (togglePoll d c) (togglePolls d bound c) := by
  rintro evs st ⟨first, rounds, h, hf, hw, rfl⟩ hall
  rw [List.cons_append, callsAllowed_cons, callsAllowed_read, Bool.and_eq_true] at hall
  exact plays_bind (e1 := [_]) (plays_rd hf hall.1) (plays_bound (k := fun n => toggleLoop d c n first)
    (plays_toggleLoop bound d c rounds bound first st h hw hall.2))

/-! ### The CFM command (R291) -/

theorem plays_cfmPoll (bound : Nat) (d : CfmDescriptor) (awaited : Byte) (reads : List Byte) : ∀ (k : Nat) (st : FlashStatus),
    pollVerdict (fun v => v &&& (d.numbers.pviol ||| d.numbers.accerr) != 0) (fun v => v &&& awaited != 0) k reads = some st →
    callsAllowed (reads.map (fun v => MemEvent.read d.ust [v])) = true →
    Plays bound (cfmPoll d awaited k) (reads.map (fun v => MemEvent.read d.ust [v])) st := by
  have hm : ∀ (v m : Byte), laneHas [v] m = (v &&& m != 0) := fun v m => rfl
  induction reads with
  | nil =>
    intro k st h _
    cases k with
    | zero => simp only [pollVerdict, Option.some.injEq] at h; subst h; exact plays_pure bound _
    | succ k => simp [pollVerdict] at h
  | cons v reads ih =>
    intro k st h hall
    cases k with
    | zero => simp [pollVerdict] at h
    | succ k =>
      rw [List.map_cons, callsAllowed_cons, callsAllowed_read, Bool.and_eq_true] at hall
      rw [cfmPoll]
      refine plays_bind_nil (plays_setPoll bound _) (plays_bind (e1 := [_]) (plays_rd rfl hall.1) ?_)
      simp only [hm, CfmDescriptor.faultMask]
      simp only [pollVerdict] at h
      cases h1 : v &&& (d.numbers.pviol ||| d.numbers.accerr) != 0
      · cases h2 : v &&& awaited != 0
        · simp only [h1, h2, Bool.false_eq_true, if_false] at h ⊢
          exact ih k st h hall.2
        · simp only [h1, h2, Bool.false_eq_true, if_false, if_true] at h ⊢
          cases reads with
          | nil => simp only [List.isEmpty_nil, if_true, Option.some.injEq] at h; subst h; exact plays_pure bound _
          | cons a b => simp at h
      · simp only [h1, if_true] at h ⊢
        cases reads with
        | nil => simp only [List.isEmpty_nil, if_true, Option.some.injEq] at h; subst h; exact plays_pure bound _
        | cons a b => simp at h

theorem follows_cfmPoll (bound : Nat) (d : CfmDescriptor) (awaited : Byte) :
    Follows bound (cfmPoll d awaited bound) (cfmAwaits d bound awaited) := by
  rintro evs st ⟨reads, h, rfl⟩ hall
  exact plays_cfmPoll bound d awaited reads bound st h hall

/-- `cfmCommand` (R291, R296). -/
theorem follows_cfmCommand (bound : Nat) (d : CfmDescriptor) (a : Nat) (v : BusWord) (code : Byte) :
    Follows bound (cfmCommand d a v code) (cfmCommandRun d bound a v code) := by
  refine follows_sends (n := do
    let s ← get
    let st ← cfmPoll d d.numbers.cbeif s.params.flashPollBound
    if st ≠ .ok then pure st else cfmPoll d d.numbers.ccif s.params.flashPollBound) ?_
  intro evs st h hall
  exact plays_bound (k := fun n => do
    let st ← cfmPoll d d.numbers.cbeif n
    if st ≠ .ok then pure st else cfmPoll d d.numbers.ccif n)
    (follows_andThen (follows_cfmPoll bound d _) (follows_cfmPoll bound d _) evs st h hall)

/-! ### The INTEL status poll, cell and burst (R315, R317, R318) -/

/-- The commands after a status poll (R315). -/
def afterStatusPoll (d : IntelDescriptor) : FlashStatus → List MemEvent
  | .deviceFault => [.wrote d.chip.base (rep d.chip d.numbers.cmdClearStatus), intelReadArrayEvent d]
  | .pollTimeout => [intelReadArrayEvent d]
  | _ => []

theorem plays_statusLoop (bound : Nat) (d : IntelDescriptor) (a : Nat) (reads : List BusWord) : ∀ (k : Nat) (st : FlashStatus),
    pollVerdict (fun v => (lanes d.chip.busWidth d.chip.chipWidth v).all (fun l => laneHas l d.numbers.readyMask) &&
        (lanes d.chip.busWidth d.chip.chipWidth v).any (fun l => laneHas l d.numbers.errorMask))
      (fun v => (lanes d.chip.busWidth d.chip.chipWidth v).all (fun l => laneHas l d.numbers.readyMask)) k reads = some st →
    (∀ v ∈ reads, v.length = d.chip.busWidth) →
    callsAllowed (reads.map (fun v => MemEvent.read a v) ++ afterStatusPoll d st) = true →
    Plays bound (statusLoop d a k) (reads.map (fun v => MemEvent.read a v) ++ afterStatusPoll d st) st := by
  induction reads with
  | nil =>
    intro k st h _ hall
    cases k with
    | zero =>
      simp only [pollVerdict, Option.some.injEq] at h
      subst h
      exact plays_then_pure (plays_wr (by simpa [afterStatusPoll, intelReadArrayEvent, callsAllowed_wrote] using hall)) (plays_pure bound _)
    | succ k => simp [pollVerdict] at h
  | cons v reads ih =>
    intro k st h hl hall
    cases k with
    | zero => simp [pollVerdict] at h
    | succ k =>
      rw [List.map_cons, List.cons_append, callsAllowed_cons, callsAllowed_read, Bool.and_eq_true] at hall
      rw [statusLoop]
      refine plays_bind_nil (plays_setPoll bound _) (plays_bind (e1 := [_]) (plays_rd (hl v (by simp)) hall.1) ?_)
      simp only [pollVerdict] at h
      cases hr : (lanes d.chip.busWidth d.chip.chipWidth v).all (fun l => laneHas l d.numbers.readyMask)
      · simp only [hr, Bool.false_and, Bool.false_eq_true, if_false] at h ⊢
        exact ih k st h (fun x hx => hl x (by simp [hx])) hall.2
      · cases he : (lanes d.chip.busWidth d.chip.chipWidth v).any (fun l => laneHas l d.numbers.errorMask)
        · simp only [hr, he, Bool.and_false, Bool.false_eq_true, if_false, if_true] at h ⊢
          cases reads with
          | nil => simp only [List.isEmpty_nil, if_true, Option.some.injEq] at h; subst h; exact plays_pure bound _
          | cons x y => simp at h
        · simp only [hr, he, Bool.and_self, if_true] at h ⊢
          cases reads with
          | nil =>
            simp only [List.isEmpty_nil, if_true, Option.some.injEq] at h
            subst h
            have h2 := hall.2
            simp only [List.map_nil, List.nil_append, afterStatusPoll, intelReadArrayEvent] at h2 ⊢
            rw [callsAllowed_cons, callsAllowed_wrote, callsAllowed_wrote, Bool.and_eq_true] at h2
            exact plays_bind (e1 := [_]) (plays_wr h2.1) (plays_then_pure (plays_wr h2.2) (plays_pure bound _))
          | cons x y => simp at h

/-- `statusPoll` (R315). -/
theorem follows_statusPoll (bound : Nat) (d : IntelDescriptor) (a : Nat) :
    Follows bound (statusPoll d a) (statusPolls d bound a) := by
  rintro evs st ⟨reads, h, hl, rfl⟩ hall
  exact plays_bound (k := fun n => statusLoop d a n) (plays_statusLoop bound d a reads bound st h hl hall)

/-- `programCell@INTEL` (R318). -/
theorem follows_intelProgramCell (bound : Nat) (d : IntelDescriptor) (c : Nat) (want : BusWord)
    (hw : want.length = d.chip.busWidth) : Follows bound (intelProgramCell d c want) (intelCell d bound c want) :=
  follows_sends (follows_andThen (follows_statusPoll bound d c)
    (follows_send (follows_verifyCell bound d.chip.busWidth c want hw)))

theorem burstWrites_eq (w : Nat) (vs : List BusWord) : ∀ c : Nat,
    burstWrites w c vs = vs.mapIdx (fun i v => (c + i * w, v)) := by
  induction vs with
  | nil => intro c; rfl
  | cons v vs ih =>
    intro c
    have hshift : ∀ j, c + (j + 1) * w = c + w + j * w := by intro j; ring
    simp only [burstWrites, List.mapIdx_cons, hshift, ← ih, Nat.zero_mul, Nat.add_zero]

theorem run_wrAll_append (ws more : List (Nat × BusWord)) : wrAll (ws ++ more) = (do wrAll ws; wrAll more) := by
  induction ws with
  | nil => rfl
  | cons w ws ih => simp [wrAll, ih]

/-- `bufferProgram` (R317). -/
theorem follows_bufferProgram (bound : Nat) (d : IntelDescriptor) (s c : Nat) (wants : List BusWord)
    (hw : ∀ v ∈ wants, v.length = d.chip.busWidth) :
    Follows bound (bufferProgram d s c wants) (intelBurst d bound s c wants) := by
  have h := follows_send (bound := bound) (a := s) (v := rep d.chip d.numbers.cmdBufferProgram)
    (follows_andThen (follows_statusPoll bound d s)
    (follows_sends (ws := (s, replicateLanes d.chip.busWidth d.chip.chipWidth (wants.length - 1)) ::
      (wants.mapIdx (fun i v => (c + i * d.chip.busWidth, v)) ++ [(s, rep d.chip d.numbers.cmdConfirm)]))
    (follows_andThen (follows_statusPoll bound d s)
    (follows_send (a := d.chip.base) (v := rep d.chip d.numbers.cmdReadArray)
      (follows_verifyBurst bound d.chip.busWidth wants hw c)))))
  rw [← burstWrites_eq] at h
  simpa only [bufferProgram, wrAll, run_wrAll_append, bind_assoc, intelReadArray, pure_bind, intelBurst, bind_pure_unit, ← burstWrites_eq] using h

/-- One sector's erase commands, poll and verify (R320). -/
theorem follows_intelSectorErase (bound : Nat) (d : IntelDescriptor) (r : Nat × Nat) :
    Follows bound (do
      wrAll (intelUnlock d r.1)
      wrAll (intelEraseCmd d r.1)
      let st ← statusPoll d r.1
      if st ≠ .ok then pure st
      else do
        intelReadArray d
        verifyErased r.1 r.2 d.chip.busWidth) (intelSectorErase d bound r) := by
  have h := follows_sends (ws := intelUnlock d r.1 ++ intelEraseCmd d r.1) (follows_andThen (follows_statusPoll bound d r.1)
    (follows_send (a := d.chip.base) (v := rep d.chip d.numbers.cmdReadArray)
      (follows_verifyErased bound r.1 r.2 d.chip.busWidth)))
  simp only [run_wrAll_append, bind_assoc] at h
  exact h

end Sys2Proof.Laws
end

