-- ==== Sys2Proof/Laws/Program.lean ====
section
/-! SUPPORT. How the cell loop and the chunk loop of `program` run when the environment answers as a list of cell or chunk runs says, to the end, to a bad
status, or to a failed access. -/

namespace Sys2Proof.Laws

open Sys2Proof Sys2Proof.Machine

variable {α β : Type}

/-! ### Clearing `ERASED` among the calls (R249 (a)) -/

/-- As `Plays`, with `ERASED` of the area at `b` cleared once `k` calls have completed. -/
def PlaysMarked (bound b k : Nat) (m : Op α) (evs : List MemEvent) (a : α) : Prop :=
  ∀ s : State, s.params.flashPollBound = bound →
    (∀ rest, s.memScript = answersOf evs ++ rest →
      ∃ g, m s = .ok a (((s.performed evs).withArea b (cellFlag true)).withWork g)) ∧
    (∀ j f rest, j < evs.length → s.memScript = answersOf (evs.take j) ++ .fault f :: rest →
      ∃ g, m s = .error (.access f) (((s.cutOff (evs.take j)).withArea b (cellFlag (decide (k ≤ j)))).withWork g))

theorem cellFlag_false : cellFlag false = fun a => a := rfl

theorem marked_first {bound b : Nat} {n : Op α} {evs : List MemEvent} {a : α} (h : Plays bound n evs a) :
    PlaysMarked bound b 0 (do markErased b false; n) evs a := by
  intro s hb
  obtain ⟨ok, cut⟩ := h (s.withArea b (cellFlag true)) (by simpa using hb)
  refine ⟨fun rest hs => ?_, fun j f rest hj hs => ?_⟩
  · obtain ⟨g, hg⟩ := ok rest hs
    refine ⟨g, ?_⟩
    rw [run_bind, markErased, run_updateArea]
    rw [performed_withArea] at hg
    exact hg
  · obtain ⟨g, hg⟩ := cut j f rest hj hs
    refine ⟨g, ?_⟩
    rw [run_bind, markErased, run_updateArea]
    rw [cutOff_withArea] at hg
    rw [decide_eq_true (Nat.zero_le j)]
    exact hg

theorem plays_then_marked {bound b k : Nat} {m : Op α} {n : α → Op β} {e1 e2 : List MemEvent} {x : α} {a : β}
    (h1 : Plays bound m e1 x) (h2 : PlaysMarked bound b k (n x) e2 a) :
    PlaysMarked bound b (e1.length + k) (m >>= n) (e1 ++ e2) a := by
  intro s hb
  obtain ⟨ok1, cut1⟩ := h1 s hb
  have go : ∀ more, s.memScript = answersOf e1 ++ more → ∃ g, m s = .ok x ((s.performed e1).withWork g) ∧
      ((s.performed e1).withWork g).memScript = more ∧ ((s.performed e1).withWork g).params.flashPollBound = bound := by
    intro more h
    obtain ⟨g, hg⟩ := ok1 more h
    have hm : ((s.performed e1).withWork g).memScript = more := by
      rw [withWork_memScript, performed_memScript, h, ← answersOf_length e1, List.drop_left]
    exact ⟨g, hg, hm, by simpa using hb⟩
  constructor
  · intro rest hs
    obtain ⟨g, hg, hm, hp⟩ := go (answersOf e2 ++ rest) (by simpa using hs)
    obtain ⟨g', hg'⟩ := (h2 _ hp).1 rest hm
    refine ⟨fun w => g' (g w), ?_⟩
    rw [run_bind, hg]
    simp only
    rw [hg', performed_withWork, ← performed_append, withArea_withWork, withWork_withWork]
  · intro j f rest hj hs
    by_cases hlt : j < e1.length
    · rw [List.take_append_of_le_length (by omega)] at hs ⊢
      obtain ⟨g, hg⟩ := cut1 j f rest hlt hs
      refine ⟨g, ?_⟩
      have : ¬ e1.length + k ≤ j := by omega
      rw [run_bind, hg]
      simp only [this, decide_false, cellFlag_false, withArea_id]
    · have htake : (e1 ++ e2).take j = e1 ++ e2.take (j - e1.length) := by
        rw [List.take_append, List.take_of_length_le (by omega)]
      rw [htake] at hs ⊢
      obtain ⟨g, hg, hm, hp⟩ := go (answersOf (e2.take (j - e1.length)) ++ .fault f :: rest) (by simpa using hs)
      obtain ⟨g', hg'⟩ := (h2 _ hp).2 (j - e1.length) f rest (by simp at hj; omega) hm
      refine ⟨fun w => g' (g w), ?_⟩
      have : decide (k ≤ j - e1.length) = decide (e1.length + k ≤ j) := by
        rw [decide_eq_decide]; omega
      rw [run_bind, hg]
      simp only
      rw [hg', cutOff_withWork, ← cutOff_append, withArea_withWork, withWork_withWork, this]

theorem marked_map {bound b k : Nat} {m : Op α} {evs : List MemEvent} {a : α} (h : PlaysMarked bound b k m evs a)
    (f : α → β) : PlaysMarked bound b k (do let x ← m; pure (f x)) evs (f a) := by
  intro s hb
  obtain ⟨ok, cut⟩ := h s hb
  refine ⟨fun rest hs => ?_, fun j e rest hj hs => ?_⟩
  · obtain ⟨g, hg⟩ := ok rest hs
    exact ⟨g, by rw [run_bind, hg]; rfl⟩
  · obtain ⟨g, hg⟩ := cut j e rest hj hs
    exact ⟨g, by rw [run_bind, hg]⟩

/-! ### One cell (R244, R246) -/

/-- A family's cell step follows its conduct, and clears `ERASED` once `k` of its calls have completed. -/
def FollowsCell (bound w b k : Nat) (pc : Nat → BusWord → Op FlashStatus) (change : Nat → BusWord → Conduct) : Prop :=
  ∀ c want evs st, want.length = w → change c want evs st → callsAllowed evs = true →
    evs ≠ [] ∧ PlaysMarked bound b k (pc c want) evs st

theorem amd_followsCell (bound b : Nat) (d : AmdDescriptor) :
    FollowsCell bound d.chip.busWidth b 4 (amdProgramCell b d) (amdCell d bound) := by
  rintro c want evs st hl (⟨x, y, rfl, ⟨rfl, _⟩, hy⟩ | ⟨⟨_, hst⟩, hne⟩) hall
  · rw [callsAllowed_append, Bool.and_eq_true] at hall
    have hn := follows_andThen (follows_togglePoll bound d c) (follows_verifyCell bound d.chip.busWidth c want hl) y st hy hall.2
    have hm := plays_then_marked (b := b) (n := fun _ => (do
      markErased b false
      let st ← togglePoll d c
      if st ≠ .ok then pure st
      else do
        let v ← rd c d.chip.busWidth
        pure (if v = want then .ok else .verifyMismatch))) (plays_wrAll bound _ hall.1) (marked_first hn)
    exact ⟨by simp [writesOf], hm⟩
  · exact absurd hst hne

theorem cfm_followsCell (bound b : Nat) (d : CfmDescriptor) :
    FollowsCell bound 4 b 0 (cfmProgramCell b d) (cfmCell d bound) := by
  intro c want evs st hl h hall
  refine ⟨?_, marked_first (follows_andThen (follows_cfmCommand bound d c want _) (follows_verifyCell bound 4 c want hl) evs st h hall)⟩
  rcases h with ⟨x, y, rfl, (⟨a, b', rfl, ⟨rfl, _⟩, _⟩ | ⟨⟨_, _⟩, h⟩), _⟩ | ⟨(⟨a, b', rfl, ⟨rfl, _⟩, _⟩ | ⟨⟨rfl, _⟩, h⟩), _⟩
  · simp [writesOf]
  · exact absurd rfl h
  · simp [writesOf]
  · simp [writesOf]

/-- A cell merged with the payload (R244), in the words of the statements. -/
theorem mergeCell_wantedAt {w addr n c : Nat} {data : Nat → Byte} {cur : BusWord} (hl : cur.length = w) (h2 : c < addr + n) :
    mergeCell cur (max addr c - c) (min (addr + n) (c + w) - c) data (max addr c - addr) =
      wantedAt w addr n data c cur := by
  unfold mergeCell wantedAt
  apply List.ext_getElem
  · simp
  · intro i hi _
    simp only [List.length_mapIdx] at hi
    simp only [List.getElem_mapIdx]
    by_cases h : addr ≤ c + i ∧ c + i < addr + n ∧ i < w
    · rw [if_pos h, if_pos (by omega)]
      congr 1; omega
    · rw [if_neg h, if_neg (by omega)]

theorem wantedAt_length (w addr n c : Nat) (data : Nat → Byte) (cur : BusWord) :
    (wantedAt w addr n data c cur).length = cur.length := by simp [wantedAt]

/-- One cell of a run: to its status, and to a failed access (R244, R250). -/
theorem run_cell {bound w b k : Nat} {pc : Nat → BusWord → Op FlashStatus} {change : Nat → BusWord → Conduct}
    (step : FollowsCell bound w b k pc change) {addr n c : Nat} {data : Nat → Byte} {r : CellRun} {s : State}
    (hb : s.params.flashPollBound = bound) (hl : r.cur.length = w) (h2 : c < addr + n)
    (hr : if wantedAt w addr n data c r.cur = r.cur then r.step = [] ∧ r.status = .ok
      else change c (wantedAt w addr n data c r.cur) r.step r.status)
    (hc : callsAllowed (r.events c) = true) :
    (∀ rest, s.memScript = answersOf (r.events c) ++ rest →
      ∃ g, orAccessStatus (programOneCell w pc addr n data (max addr c - addr) c) s = .ok r.status
        (((s.performed (r.events c)).withArea b (cellFlag (!r.step.isEmpty))).withWork g)) ∧
    (∀ j f rest, j < (r.events c).length → s.memScript = answersOf ((r.events c).take j) ++ .fault f :: rest →
      ∃ g, orAccessStatus (programOneCell w pc addr n data (max addr c - addr) c) s = .ok (.access f)
        (((s.cutOff ((r.events c).take j)).withArea b (cellFlag (decide (k + 1 ≤ j)))).withWork g)) := by
  rw [CellRun.events, callsAllowed_cons, callsAllowed_read, Bool.and_eq_true] at hc
  have hmerge := mergeCell_wantedAt (data := data) hl h2
  have hread := plays_rd (bound := bound) hl hc.1
  by_cases hw : wantedAt w addr n data c r.cur = r.cur
  · rw [if_pos hw] at hr
    have hp : Plays bound (programOneCell w pc addr n data (max addr c - addr) c) [.read c r.cur] FlashStatus.ok :=
      plays_then_pure hread (by simpa only [hmerge, hw, if_true] using plays_pure bound _)
    obtain ⟨ok, cut⟩ := hp s hb
    simp only [CellRun.events, hr.1, hr.2, List.isEmpty_nil, Bool.not_true, cellFlag_false, withArea_id]
    refine ⟨fun rest hs => ?_, fun j f rest hj hs => ?_⟩
    · obtain ⟨g, hg⟩ := ok rest hs
      exact ⟨g, by simp only [orAccessStatus, hg]⟩
    · obtain ⟨g, hg⟩ := cut j f rest hj hs
      have : ¬ k + 1 ≤ j := by simp at hj; omega
      exact ⟨g, by simp only [orAccessStatus, hg, this, decide_false, cellFlag_false, withArea_id]⟩
  · rw [if_neg hw] at hr
    obtain ⟨hne, hm⟩ := step c _ r.step r.status (by rw [wantedAt_length, hl]) hr hc.2
    have hp : PlaysMarked bound b (1 + k) (programOneCell w pc addr n data (max addr c - addr) c)
        ([.read c r.cur] ++ r.step) r.status :=
      plays_then_marked hread (by simpa only [hmerge, hw, if_false] using hm)
    obtain ⟨ok, cut⟩ := hp s hb
    have he : r.step.isEmpty = false := by simpa using hne
    simp only [CellRun.events, he, Bool.not_false]
    refine ⟨fun rest hs => ?_, fun j f rest hj hs => ?_⟩
    · obtain ⟨g, hg⟩ := ok rest hs
      exact ⟨g, by simp only [orAccessStatus, hg]; rfl⟩
    · obtain ⟨g, hg⟩ := cut j f rest hj hs
      exact ⟨g, by simp only [orAccessStatus, hg, Nat.add_comm k 1]; rfl⟩

/-! ### The cell loop (R244) -/

theorem cellFlag_begin (x : Bool) (a : MemoryArea) : (cellFlag x a).beginAddr = a.beginAddr := by
  unfold cellFlag; split <;> rfl

theorem cellFlag_cellFlag (x y : Bool) (a : MemoryArea) : cellFlag y (cellFlag x a) = cellFlag (x || y) a := by
  cases x <;> cases y <;> rfl

theorem cellRunEvents_cons (w c : Nat) (r : CellRun) (cells : List CellRun) :
    cellRunEvents w c (r :: cells) = r.events c ++ cellRunEvents w (c + w) cells := by
  have hshift : ∀ j, c + (j + 1) * w = c + w + j * w := by intro j; ring
  simp only [cellRunEvents, List.mapIdx_cons, List.flatten_cons, hshift, Nat.zero_mul, Nat.add_zero]

theorem cellRunEvents_append (w : Nat) (more cells : List CellRun) : ∀ c : Nat,
    cellRunEvents w c (cells ++ more) = cellRunEvents w c cells ++ cellRunEvents w (c + cells.length * w) more := by
  induction cells with
  | nil => intro c; simp [cellRunEvents]
  | cons r cells ih =>
    intro c
    have : c + (cells.length + 1) * w = c + w + cells.length * w := by ring
    rw [List.cons_append, cellRunEvents_cons, ih, cellRunEvents_cons, List.append_assoc, List.length_cons, this]

/-- What a run asks of the cell at `c` (R244, R246). -/
def cellAllowed (w addr n : Nat) (data : Nat → Byte) (change : Nat → BusWord → Conduct) (c : Nat) (r : CellRun) : Prop :=
  r.cur.length = w ∧ c < addr + n ∧
    if wantedAt w addr n data c r.cur = r.cur then r.step = [] ∧ r.status = .ok
    else change c (wantedAt w addr n data c r.cur) r.step r.status

/-- Cells that all end with `OK`: the loop goes on after them (R244). -/
theorem run_cellPrefix {bound w b k : Nat} {pc : Nat → BusWord → Op FlashStatus} {change : Nat → BusWord → Conduct}
    (step : FollowsCell bound w b k pc change) {addr n : Nat} {data : Nat → Byte} (hw : 0 < w) (hn : 0 < n)
    (cells : List CellRun) :
    ∀ (c m : Nat) (s : State) (rest : List MemReply), s.params.flashPollBound = bound → addr < c + w →
    (∀ i r, cells[i]? = some r → cellAllowed w addr n data change (c + i * w) r ∧ r.status = .ok) →
    callsAllowed (cellRunEvents w c cells) = true → s.memScript = answersOf (cellRunEvents w c cells) ++ rest →
    ∃ g, cellLoop w pc addr n data (cells.length + m) (min (addr + n) (max addr c) - addr) c s =
      cellLoop w pc addr n data m (min (addr + n) (max addr (c + cells.length * w)) - addr) (c + cells.length * w)
        (((s.performed (cellRunEvents w c cells)).withArea b (cellFlag (anyChanged cells))).withWork g) := by
  induction cells with
  | nil =>
    intro c m s rest _ _ _ _ _
    refine ⟨id, ?_⟩
    simp [cellRunEvents, anyChanged, cellFlag_false, withWork_id]
  | cons r cells ih =>
    intro c m s rest hb hnear hcells hc hs
    obtain ⟨⟨hl, hlt, hr⟩, hst⟩ := hcells 0 r rfl
    simp only [Nat.zero_mul, Nat.add_zero] at hlt hr
    rw [cellRunEvents_cons, callsAllowed_append, Bool.and_eq_true] at hc
    rw [cellRunEvents_cons, answersOf_append, List.append_assoc] at hs
    obtain ⟨g, hg⟩ := (run_cell step hb hl hlt hr hc.1).1 _ hs
    have hmin : min (addr + n) (max addr c) - addr = max addr c - addr := by omega
    have hdone : max addr c - addr < n := by omega
    have hnext : max addr c - addr + (min (addr + n) (c + w) - c - (max addr c - c)) =
        min (addr + n) (max addr (c + w)) - addr := by omega
    have hshift : ∀ j, c + (j + 1) * w = c + w + j * w := by intro j; ring
    generalize hs' : (State.withWork _ g) = s' at hg
    have hscript : s'.memScript = answersOf (cellRunEvents w (c + w) cells) ++ rest := by
      rw [← hs', withWork_memScript, withArea_memScript, performed_memScript, hs, ← answersOf_length, List.drop_left]
    have hb' : s'.params.flashPollBound = bound := by rw [← hs']; simpa using hb
    obtain ⟨g', hg'⟩ := ih (c + w) m s' rest hb' (by omega)
      (fun i x hx => by have := hcells (i + 1) x (by simpa using hx); rwa [hshift] at this) hc.2 hscript
    refine ⟨fun x => g' (g x), ?_⟩
    rw [List.length_cons, Nat.add_right_comm, cellLoop, hmin]
    simp only [hdone, if_true]
    rw [run_bind, hg]
    simp only [hst, if_true, hnext, hshift]
    rw [hg', ← hs', performed_withWork, performed_withArea, ← performed_append, ← cellRunEvents_cons, withArea_withWork, withWork_withWork,
      withArea_withArea _ _ _ _ (cellFlag_begin _)]
    congr 3
    funext a
    rw [cellFlag_cellFlag]
    rfl

/-- A payload's number of cells is at most its number of bytes. -/
theorem cells_le {w addr n L : Nat} (hw : 0 < w) (hn : 0 < n) (h : ∀ i, i < L → addr - addr % w + i * w < addr + n) : L ≤ n := by
  by_contra hcon
  have h1 := h n (by omega)
  have hmod : addr % w < w := Nat.mod_lt _ hw
  have hle : addr % w ≤ addr := Nat.mod_le _ _
  obtain ⟨m, rfl⟩ : ∃ m, n = m + 1 := ⟨n - 1, by omega⟩
  have h2 : (m + 1) * w = m * w + w := by ring
  have h3 : m ≤ m * w := Nat.le_mul_of_pos_right _ hw
  omega

/-- A program of cells (R244): to the end, to a bad status (R253), and to a failed access (R250). -/
theorem run_cellRuns {bound w b k : Nat} {pc : Nat → BusWord → Op FlashStatus} {change : Nat → BusWord → Conduct}
    (step : FollowsCell bound w b k pc change) {addr n : Nat} {data : Nat → Byte} (hw : 0 < w) (hn : 0 < n)
    {cells : List CellRun} {s : State} (hb : s.params.flashPollBound = bound) (hcells : cellRuns w addr n data change cells)
    (hc : callsAllowed (cellRunEvents w (addr - addr % w) cells) = true) :
    (∀ rest, (∀ r ∈ cells, r.status = .ok) → addr + n ≤ addr - addr % w + cells.length * w →
      s.memScript = answersOf (cellRunEvents w (addr - addr % w) cells) ++ rest →
      ∃ g, programCells w pc addr n data s = .ok { count := n, status := .ok }
        (((s.performed (cellRunEvents w (addr - addr % w) cells)).withArea b (cellFlag (anyChanged cells))).withWork g)) ∧
    (∀ before last rest, cells = before ++ [last] → last.status ≠ .ok →
      s.memScript = answersOf (cellRunEvents w (addr - addr % w) cells) ++ rest →
      ∃ g, programCells w pc addr n data s =
        .ok { count := max addr (addr - addr % w + before.length * w) - addr, status := last.status }
        (((s.performed (cellRunEvents w (addr - addr % w) cells)).withArea b (cellFlag (anyChanged cells))).withWork g)) ∧
    (∀ before last j f rest, cells = before ++ [last] → j ≤ last.step.length →
      let evs := cellRunEvents w (addr - addr % w) before ++
        (last.events (addr - addr % w + before.length * w)).take j
      s.memScript = answersOf evs ++ .fault f :: rest →
      ∃ g, programCells w pc addr n data s =
        .ok { count := max addr (addr - addr % w + before.length * w) - addr, status := .access f }
        (((s.cutOff evs).withArea b (cellFlag (anyChanged before || decide (k + 1 ≤ j)))).withWork g)) := by
  have hmod : addr % w < w := Nat.mod_lt _ hw
  have hle : addr % w ≤ addr := Nat.mod_le _ _
  have h0 : min (addr + n) (max addr (addr - addr % w)) - addr = 0 := by omega
  have hlen : cells.length ≤ n := cells_le hw hn (fun i hi =>
    (hcells i _ (List.getElem?_eq_getElem hi)).2.1)
  have hall : ∀ i r, cells[i]? = some r → cellAllowed w addr n data change (addr - addr % w + i * w) r := by
    intro i r h; obtain ⟨h1, h2, _, h3⟩ := hcells i r h; exact ⟨h1, h2, h3⟩
  -- the cells before the last, when the run has a last cell
  have hlast : ∀ before last, cells = before ++ [last] → ∀ more,
      s.memScript = answersOf (cellRunEvents w (addr - addr % w) before) ++ more →
      ∃ s' g m, s' = ((s.performed (cellRunEvents w (addr - addr % w) before)).withArea b (cellFlag (anyChanged before))).withWork g ∧
        s'.memScript = more ∧ s'.params.flashPollBound = bound ∧
        (∀ i r, cells[i]? = some r → i < before.length → r.status = .ok) ∧
        programCells w pc addr n data s = cellLoop w pc addr n data (m + 1)
          (max addr (addr - addr % w + before.length * w) - addr) (addr - addr % w + before.length * w) s' ∧
        addr < addr - addr % w + before.length * w + w ∧
        callsAllowed (last.events (addr - addr % w + before.length * w)) = true ∧
        cellAllowed w addr n data change (addr - addr % w + before.length * w) last := by
    rintro before last rfl more hs
    simp only [List.length_append, List.length_cons, List.length_nil, Nat.zero_add] at hlen
    have hst : ∀ i r, (before ++ [last])[i]? = some r → i < before.length → r.status = .ok := by
      intro i r h hi; exact (hcells i r h).2.2.1 (by simp; omega)
    rw [cellRunEvents_append, callsAllowed_append, Bool.and_eq_true] at hc
    have hat : cellAllowed w addr n data change (addr - addr % w + before.length * w) last :=
      hall before.length last (by simp)
    obtain ⟨m, hm⟩ : ∃ m, n = before.length + (m + 1) := ⟨n - before.length - 1, by omega⟩
    obtain ⟨g, hg⟩ := run_cellPrefix step (addr := addr) (n := n) (data := data) hw hn before (addr - addr % w) (m + 1) s more hb (by omega)
      (fun i r h => ⟨hall i r (by rw [List.getElem?_append_left (by
          rcases List.getElem?_eq_some_iff.mp h with ⟨h, _⟩; exact h)]; exact h),
        hst i r (by rw [List.getElem?_append_left (by
          rcases List.getElem?_eq_some_iff.mp h with ⟨h, _⟩; exact h)]; exact h) (by
          rcases List.getElem?_eq_some_iff.mp h with ⟨h, _⟩; exact h)⟩) hc.1 hs
    refine ⟨_, g, m, rfl, ?_, ?_, hst, ?_, ?_, ?_, hat⟩
    · rw [withWork_memScript, withArea_memScript, performed_memScript, hs, ← answersOf_length, List.drop_left]
    · simpa using hb
    · have hin : min (addr + n) (max addr (addr - addr % w + before.length * w)) - addr =
          max addr (addr - addr % w + before.length * w) - addr := by have := hat.2.1; omega
      rw [programCells, ← hin, ← hg, ← hm, h0]
    · have : 0 ≤ before.length * w := Nat.zero_le _
      omega
    · simpa [cellRunEvents] using hc.2
  refine ⟨fun rest hok hend hs => ?_, fun before last rest hcell hbad hs => ?_, ?_⟩
  · obtain ⟨m, hm⟩ : ∃ m, n = cells.length + m := ⟨n - cells.length, by omega⟩
    obtain ⟨g, hg⟩ := run_cellPrefix step (addr := addr) (n := n) (data := data) hw hn cells (addr - addr % w) m s rest hb (by omega)
      (fun i r h => ⟨hall i r h, hok r (List.mem_of_getElem? h)⟩) hc hs
    refine ⟨g, ?_⟩
    have hfin : min (addr + n) (max addr (addr - addr % w + cells.length * w)) - addr = n := by omega
    rw [h0, hfin, ← hm] at hg
    rw [programCells, hg]
    cases m <;> simp [cellLoop]
  · have hs' := hs
    rw [hcell, cellRunEvents_append, answersOf_append, List.append_assoc] at hs'
    obtain ⟨s', g, m, hs1, hscript, hb', _, hrun, hnear, hcl, hl, hlt, hr⟩ := hlast before last hcell _ hs'
    have hev : cellRunEvents w (addr - addr % w + before.length * w) [last] =
        last.events (addr - addr % w + before.length * w) := by simp [cellRunEvents]
    rw [hev] at hscript
    obtain ⟨g', hg'⟩ := (run_cell step hb' hl hlt hr hcl).1 rest hscript
    refine ⟨fun x => g' (g x), ?_⟩
    have hdone : max addr (addr - addr % w + before.length * w) - addr < n := by omega
    rw [hrun, cellLoop]
    simp only [hdone, if_true]
    rw [run_bind, hg']
    simp only [hbad, if_false, run_pure]
    rw [hs1, performed_withWork, performed_withArea, ← performed_append, ← hev, ← cellRunEvents_append, ← hcell,
      withArea_withWork, withWork_withWork, withArea_withArea _ _ _ _ (cellFlag_begin _)]
    congr 3
    funext a
    rw [cellFlag_cellFlag, hcell]
    simp [anyChanged]
  · intro before last j f rest hcell hj evs hs
    obtain ⟨s', g, m, hs1, hscript, hb', _, hrun, hnear, hcl, hl, hlt, hr⟩ := hlast before last hcell
      (answersOf ((last.events (addr - addr % w + before.length * w)).take j) ++ .fault f :: rest)
      (by rw [hs]; simp [evs])
    obtain ⟨g', hg'⟩ := (run_cell step hb' hl hlt hr hcl).2 j f rest (by simp [CellRun.events]; omega) hscript
    refine ⟨fun x => g' (g x), ?_⟩
    have hdone : max addr (addr - addr % w + before.length * w) - addr < n := by omega
    rw [hrun, cellLoop]
    simp only [hdone, if_true]
    rw [run_bind, hg']
    simp only [reduceCtorEq, if_false, run_pure]
    rw [hs1, cutOff_withWork, cutOff_withArea, ← cutOff_append, withArea_withWork, withWork_withWork,
      withArea_withArea _ _ _ _ (cellFlag_begin _)]
    congr 3
    funext a
    rw [cellFlag_cellFlag]

/-! ### One chunk (R314, R316) -/

/-- The number of cells of a chunk, in the words of the statements. -/
theorem chunkCells_eq {d : IntelDescriptor} {addr n c hi m : Nat} (hw : 0 < d.chip.busWidth) (hc : c % d.chip.busWidth = 0)
    (h : chunkLength d addr n c hi m) : chunkCells d addr n c hi = m := by
  unfold chunkLength at h
  unfold chunkCells
  by_cases hb : d.bufBytes = 0
  · simp only [hb, if_true] at h ⊢; exact h.symm
  · simp only [hb, if_false] at h ⊢
    obtain ⟨h1, hfit, hno⟩ := h
    generalize hB : d.chip.base + ((c - d.chip.base) / d.bufBytes + 1) * d.bufBytes = B at *
    generalize hWd : d.chip.busWidth = w at *
    obtain ⟨q, hq⟩ : ∃ q, c = q * w := ⟨c / w, by rw [Nat.div_mul_cancel (Nat.dvd_of_mod_eq_zero hc)]⟩
    -- the payload boundary, by the cell
    have hpay : ∀ k, 1 ≤ k → (c + (k - 1) * w < addr + n ↔ c + k * w ≤ (addr + n + (w - 1)) / w * w) := by
      intro k hk
      obtain ⟨k, rfl⟩ : ∃ k', k = k' + 1 := ⟨k - 1, by omega⟩
      have e1 : c + (k + 1) * w = (q + k + 1) * w := by rw [hq]; ring
      have e2 : c + (k + 1 - 1) * w = (q + k) * w := by rw [hq, Nat.add_sub_cancel]; ring
      have e3 : (q + k + 1) * w = (q + k) * w + w := by ring
      rw [e1, e2, Nat.mul_le_mul_right_iff hw, Nat.le_div_iff_mul_le hw]
      omega
    have hiff : ∀ k, 1 ≤ k → (chunkFits d addr n c hi k ↔
        c + k * w ≤ min ((addr + n + (w - 1)) / w * w) (min B (hi + 1))) := by
      intro k hk
      unfold chunkFits
      rw [hWd, hB, hpay k hk]
      omega
    rw [hiff (m + 1) (by omega)] at hno
    generalize min ((addr + n + (w - 1)) / w * w) (min B (hi + 1)) = X at *
    have e4 : (m + 1) * w = m * w + w := by ring
    have hup : (X - c) / w < m + 1 := by
      rw [Nat.div_lt_iff_lt_mul hw]; omega
    by_cases hm : m = 1
    · omega
    · have := (hiff m h1).mp (hfit (by omega))
      have hlow : m ≤ (X - c) / w := by rw [Nat.le_div_iff_mul_le hw]; omega
      omega

/-- Reads and merges of a chunk (R316). -/
theorem plays_mergeChunk {bound w addr n : Nat} {data : Nat → Byte} (cells : List BusWord) : ∀ c : Nat,
    (∀ v ∈ cells, v.length = w) → 0 < w → addr < c + w → (∀ j, j < cells.length → c + j * w < addr + n) →
    callsAllowed (cellReads w c cells) = true →
    Plays bound (mergeChunk w addr n data cells.length (max addr c - addr) c) (cellReads w c cells)
      (decide (cells.mapIdx (fun j v => wantedAt w addr n data (c + j * w) v) ≠ cells),
        cells.mapIdx (fun j v => wantedAt w addr n data (c + j * w) v)) := by
  induction cells with
  | nil => intro c _ _ _ _ _; simpa [mergeChunk, cellReads_nil] using plays_pure bound ((false, []) : Bool × List BusWord)
  | cons cur cells ih =>
    intro c hl hw hnear hlt hc
    have hshift : ∀ j, c + (j + 1) * w = c + w + j * w := by intro j; ring
    have h0 := hlt 0 (by simp)
    simp only [Nat.zero_mul, Nat.add_zero] at h0
    rw [cellReads_cons, callsAllowed_cons, callsAllowed_read, Bool.and_eq_true] at hc
    rw [cellReads_cons, List.length_cons, mergeChunk]
    have hcur := hl cur (by simp)
    refine plays_bind (e1 := [_]) (plays_rd hcur hc.1) ?_
    simp only [mergeCell_wantedAt (data := data) hcur h0, List.mapIdx_cons, hshift, Nat.zero_mul, Nat.add_zero]
    have fin : ∀ x : Bool × List BusWord, x = (decide (cells.mapIdx (fun j v => wantedAt w addr n data (c + w + j * w) v) ≠ cells),
          cells.mapIdx (fun j v => wantedAt w addr n data (c + w + j * w) v)) →
        Plays bound (pure (decide (wantedAt w addr n data c cur ≠ cur) || x.1, wantedAt w addr n data c cur :: x.2) :
          Op (Bool × List BusWord)) [] (decide (wantedAt w addr n data c cur ::
            cells.mapIdx (fun j v => wantedAt w addr n data (c + w + j * w) v) ≠ cur :: cells),
            wantedAt w addr n data c cur :: cells.mapIdx (fun j v => wantedAt w addr n data (c + w + j * w) v)) := by
      rintro x rfl
      have : decide (wantedAt w addr n data c cur :: cells.mapIdx (fun j v => wantedAt w addr n data (c + w + j * w) v) ≠ cur :: cells) =
          (decide (wantedAt w addr n data c cur ≠ cur) ||
            decide (cells.mapIdx (fun j v => wantedAt w addr n data (c + w + j * w) v) ≠ cells)) := by
        rw [Bool.eq_iff_iff]; simp only [decide_eq_true_eq, Bool.or_eq_true, ne_eq, List.cons.injEq]; tauto
      rw [this]; exact plays_pure bound _
    by_cases hlast : cells = []
    · subst hlast
      refine plays_bind_nil (a := (false, [])) (by simpa [mergeChunk] using plays_pure bound _) ?_
      simpa using fin (false, []) (by simp)
    · have h1 := hlt 1 (by
        obtain ⟨x, y, rfl⟩ := List.exists_cons_of_ne_nil hlast; simp)
      have hnext : max addr c - addr + (min (addr + n) (c + w) - c - (max addr c - c)) = max addr (c + w) - addr := by
        simp only [Nat.one_mul] at h1; omega
      rw [hnext]
      exact plays_then_pure (ih (c + w) (fun v h => hl v (by simp [h])) hw (by omega)
        (fun j hj => by have := hlt (j + 1) (by simpa using hj); rwa [hshift] at this) hc.2) (fin _ rfl)

theorem plays_unlockOnce {bound s : Nat} {d : IntelDescriptor} {unlocked : List Nat}
    (hc : callsAllowed (writesOf (intelUnlock d s)) = true ∨ s ∈ unlocked) :
    Plays bound (unlockOnce d s unlocked) (if s ∈ unlocked then [] else writesOf (intelUnlock d s))
      (if s ∈ unlocked then unlocked else s :: unlocked) := by
  unfold unlockOnce
  by_cases h : s ∈ unlocked
  · simpa [h] using plays_pure bound unlocked
  · have h' : unlocked.contains s = false := by simpa using h
    simp only [h, h', if_false, Bool.false_eq_true]
    exact plays_then_pure (plays_wrAll bound _ (hc.resolve_right h)) (plays_pure bound _)

theorem intelCell_ne {d : IntelDescriptor} {bound c : Nat} {want : BusWord} {evs : List MemEvent} {st : FlashStatus}
    (h : intelCell d bound c want evs st) : evs ≠ [] := by
  rcases h with ⟨x, y, rfl, ⟨rfl, _⟩, _⟩ | ⟨⟨rfl, _⟩, _⟩ <;> simp [writesOf]

theorem intelBurst_ne {d : IntelDescriptor} {bound s c : Nat} {wants : List BusWord} {evs : List MemEvent} {st : FlashStatus}
    (h : intelBurst d bound s c wants evs st) : evs ≠ [] := by
  rcases h with ⟨x, y, rfl, ⟨rfl, _⟩, _⟩ | ⟨⟨rfl, _⟩, _⟩ <;> simp [writesOf]

/-- What a run asks of the chunk at `c`, with the sectors unlocked before it (R314, R316). -/
def chunkAllowed (d : IntelDescriptor) (bound addr n : Nat) (data : Nat → Byte) (c : Nat) (unlocked : List Nat) (r : ChunkRun)
    (lo hi : Nat) : Prop :=
  d.sectorRange c = some (lo, hi) ∧ c < addr + n ∧ chunkLength d addr n c hi r.curs.length ∧
    (∀ cur ∈ r.curs, cur.length = d.chip.busWidth) ∧
    let wants := r.curs.mapIdx (fun i cur => wantedAt d.chip.busWidth addr n data (c + i * d.chip.busWidth) cur)
    if wants = r.curs then r.unlock = [] ∧ r.step = [] ∧ r.status = .ok
    else
      r.unlock = (if lo ∈ unlocked then [] else writesOf (intelUnlock d lo)) ∧
      (if r.curs.length = 1 then intelCell d bound c (wants.headD []) r.step r.status
       else intelBurst d bound lo c wants r.step r.status)

/-- The sectors unlocked after a chunk. -/
def unlockedAfter (unlocked : List Nat) (lo : Nat) (r : ChunkRun) : List Nat :=
  if r.step.isEmpty || unlocked.contains lo then unlocked else lo :: unlocked

theorem chunk_payload {d : IntelDescriptor} {addr n c hi m : Nat} (h : chunkLength d addr n c hi m) (hc : c < addr + n) :
    1 ≤ m ∧ ∀ j, j < m → c + j * d.chip.busWidth < addr + n := by
  unfold chunkLength at h
  by_cases hb : d.bufBytes = 0
  · rw [if_pos hb] at h; subst h; exact ⟨by omega, fun j hj => by obtain rfl : j = 0 := by omega
                                                                  simpa using hc⟩
  · rw [if_neg hb] at h
    refine ⟨h.1, fun j hj => ?_⟩
    by_cases hm : m = 1
    · obtain rfl : j = 0 := by omega
      simpa using hc
    · have := (h.2.1 (by have := h.1; omega)).1
      have hle : j * d.chip.busWidth ≤ (m - 1) * d.chip.busWidth := Nat.mul_le_mul_right _ (by omega)
      omega

/-- One chunk of a run: to its status, and to a failed access (R314, R316, R250). -/
theorem run_chunk {bound b : Nat} {d : IntelDescriptor} {addr n c lo hi : Nat} {data : Nat → Byte} {unlocked : List Nat}
    {r : ChunkRun} {s : State} (hw : 0 < d.chip.busWidth) (hcw : c % d.chip.busWidth = 0)
    (hnear : addr < c + d.chip.busWidth) (hb : s.params.flashPollBound = bound)
    (hr : chunkAllowed d bound addr n data c unlocked r lo hi) (hc : callsAllowed (r.events d.chip.busWidth c) = true) :
    (∀ rest, s.memScript = answersOf (r.events d.chip.busWidth c) ++ rest →
      ∃ g, orAccessChunk (intelChunk b d addr n data (max addr c - addr) c unlocked) s =
        .ok (r.status, r.curs.length, unlockedAfter unlocked lo r)
        (((s.performed (r.events d.chip.busWidth c)).withArea b (cellFlag (!r.step.isEmpty))).withWork g)) ∧
    (∀ j f rest, j < (r.events d.chip.busWidth c).length →
      s.memScript = answersOf ((r.events d.chip.busWidth c).take j) ++ .fault f :: rest →
      ∃ g, orAccessChunk (intelChunk b d addr n data (max addr c - addr) c unlocked) s = .ok (.access f, 0, [])
        (((s.cutOff ((r.events d.chip.busWidth c).take j)).withArea b
          (cellFlag (decide (r.curs.length + r.unlock.length ≤ j)))).withWork g)) := by
  obtain ⟨hsec, hlt, hlen, hl, hr⟩ := hr
  obtain ⟨hm1, hpay⟩ := chunk_payload hlen hlt
  have hsector : intelSector d c = pure (lo, hi) := by simp [intelSector, hsec]
  have hev : r.events d.chip.busWidth c = cellReads d.chip.busWidth c r.curs ++ (r.unlock ++ r.step) := by
    simp [ChunkRun.events]
  have hrl : (cellReads d.chip.busWidth c r.curs).length = r.curs.length := by simp [cellReads]
  rw [hev] at hc ⊢
  rw [callsAllowed_append, callsAllowed_append, Bool.and_eq_true, Bool.and_eq_true] at hc
  have hmerge := plays_mergeChunk (bound := bound) (data := data) r.curs c hl hw hnear hpay hc.1
  generalize hwants : r.curs.mapIdx (fun i cur => wantedAt d.chip.busWidth addr n data (c + i * d.chip.busWidth) cur) = wants at *
  have hwl : wants.length = r.curs.length := by rw [← hwants]; simp
  have hww : ∀ v ∈ wants, v.length = d.chip.busWidth := by
    rw [← hwants]
    intro v hv
    obtain ⟨i, hi, rfl⟩ := List.mem_mapIdx.mp hv
    rw [wantedAt_length]; exact hl _ (List.getElem_mem hi)
  have hchunk : intelChunk b d addr n data (max addr c - addr) c unlocked = (do
      let x ← mergeChunk d.chip.busWidth addr n data r.curs.length (max addr c - addr) c
      if x.1 then do
        let u ← unlockOnce d lo unlocked
        markErased b false
        let st ← programChunk d lo c x.2
        pure (st, r.curs.length, u)
      else pure (.ok, r.curs.length, unlocked)) := by
    simp only [intelChunk, hsector, pure_bind, chunkCells_eq hw hcw hlen]
  by_cases hsame : wants = r.curs
  · rw [if_pos hsame] at hr
    obtain ⟨hu, hstep, hst⟩ := hr
    have hp : Plays bound (intelChunk b d addr n data (max addr c - addr) c unlocked)
        (cellReads d.chip.busWidth c r.curs) (.ok, r.curs.length, unlocked) := by
      rw [hchunk]
      exact plays_then_pure hmerge (by simpa [hsame] using plays_pure bound _)
    obtain ⟨ok, cut⟩ := hp s hb
    simp only [hu, hstep, hst, List.append_nil, List.isEmpty_nil, Bool.not_true, cellFlag_false, withArea_id, unlockedAfter,
      Bool.true_or, if_true]
    refine ⟨fun rest hs => ?_, fun j f rest hj hs => ?_⟩
    · obtain ⟨g, hg⟩ := ok rest hs
      exact ⟨g, by simp only [orAccessChunk, hg]⟩
    · obtain ⟨g, hg⟩ := cut j f rest hj hs
      have : ¬ r.curs.length + List.length ([] : List MemEvent) ≤ j := by rw [hrl] at hj; simp only [List.length_nil]; omega
      exact ⟨g, by simp only [orAccessChunk, hg, this, decide_false, cellFlag_false, withArea_id]⟩
  · rw [if_neg hsame] at hr
    obtain ⟨hu, hprog⟩ := hr
    have hprogram : r.step ≠ [] ∧ Plays bound (programChunk d lo c wants) r.step r.status := by
      by_cases h1 : r.curs.length = 1
      · rw [if_pos h1] at hprog
        obtain ⟨v, hv⟩ := List.length_eq_one_iff.mp (hwl.trans h1)
        subst hv
        exact ⟨intelCell_ne hprog, follows_intelProgramCell bound d c v (hww v (by simp)) _ _ hprog hc.2.2⟩
      · rw [if_neg h1] at hprog
        refine ⟨intelBurst_ne hprog, ?_⟩
        obtain ⟨v, x, rest, hv⟩ : ∃ v x rest, wants = v :: x :: rest := by
          cases wants with
          | nil => simp at hwl; omega
          | cons v l =>
            cases l with
            | nil => simp at hwl; omega
            | cons x rest => exact ⟨v, x, rest, rfl⟩
        subst hv
        exact follows_bufferProgram bound d lo c _ hww _ _ hprog hc.2.2
    have hcu : callsAllowed (writesOf (intelUnlock d lo)) = true ∨ lo ∈ unlocked := by
      by_cases h : lo ∈ unlocked
      · exact .inr h
      · rw [if_neg h] at hu; rw [hu] at hc; exact .inl hc.2.1
    have hun := plays_unlockOnce (bound := bound) hcu
    rw [← hu] at hun
    have he : r.step.isEmpty = false := by simpa using hprogram.1
    have hua : unlockedAfter unlocked lo r = if lo ∈ unlocked then unlocked else lo :: unlocked := by
      simp [unlockedAfter, he]
    have hp : PlaysMarked bound b ((cellReads d.chip.busWidth c r.curs).length + (r.unlock.length + 0))
        (intelChunk b d addr n data (max addr c - addr) c unlocked)
        (cellReads d.chip.busWidth c r.curs ++ (r.unlock ++ r.step)) (r.status, r.curs.length, unlockedAfter unlocked lo r) := by
      rw [hchunk, hua]
      refine plays_then_marked hmerge ?_
      simp only [hsame, ne_eq, not_false_eq_true, decide_true, if_true]
      refine plays_then_marked hun ?_
      exact marked_first (plays_then_pure hprogram.2 (plays_pure bound _))
    obtain ⟨ok, cut⟩ := hp s hb
    rw [hrl] at cut
    simp only [he, Bool.not_false]
    refine ⟨fun rest hs => ?_, fun j f rest hj hs => ?_⟩
    · obtain ⟨g, hg⟩ := ok rest hs
      exact ⟨g, by simp only [orAccessChunk, hg]⟩
    · obtain ⟨g, hg⟩ := cut j f rest hj hs
      exact ⟨g, by simp only [orAccessChunk, hg]; rfl⟩

/-! ### The chunk loop (R316) -/

theorem chunkRuns_cons {d : IntelDescriptor} {bound addr n : Nat} {data : Nat → Byte} {c : Nat} {unlocked : List Nat}
    {r : ChunkRun} {rest : List ChunkRun} (h : chunkRuns d bound addr n data c unlocked (r :: rest)) :
    ∃ lo hi, chunkAllowed d bound addr n data c unlocked r lo hi ∧ (rest ≠ [] → r.status = .ok) ∧
      chunkRuns d bound addr n data (c + r.curs.length * d.chip.busWidth) (unlockedAfter unlocked lo r) rest := by
  simp only [chunkRuns] at h
  obtain ⟨lo, hi, hsec, hlt, hlen, hl, hst, h⟩ := h
  by_cases hw : r.curs.mapIdx (fun i cur => wantedAt d.chip.busWidth addr n data (c + i * d.chip.busWidth) cur) = r.curs
  · rw [if_pos hw] at h
    obtain ⟨hu, hs, ho, hrest⟩ := h
    refine ⟨lo, hi, ⟨hsec, hlt, hlen, hl, ?_⟩, hst, ?_⟩
    · simp only [hw, if_true]; exact ⟨hu, hs, ho⟩
    · simpa [unlockedAfter, hs] using hrest
  · rw [if_neg hw] at h
    obtain ⟨hu, hp, hrest⟩ := h
    have hne : r.step.isEmpty = false := by
      split at hp
      · simpa using intelCell_ne hp
      · simpa using intelBurst_ne hp
    refine ⟨lo, hi, ⟨hsec, hlt, hlen, hl, ?_⟩, hst, ?_⟩
    · simp only [hw, if_false]; exact ⟨hu, hp⟩
    · have : ∀ l, chunkRuns d bound addr n data (c + r.curs.length * d.chip.busWidth) (lo :: unlocked) l →
          chunkRuns d bound addr n data (c + r.curs.length * d.chip.busWidth) (unlockedAfter unlocked lo r) l := by
        intro l hl
        unfold unlockedAfter
        by_cases hin : unlocked.contains lo = true
        · simp only [hin, Bool.or_true, if_true]
          exact chunkRuns_congr hl (by intro x; simp at hin; simp; rintro rfl; exact hin)
        · have hin' : lo ∉ unlocked := by simpa using hin
          simpa [hne, hin'] using hl
      exact this _ hrest
where
  /-- Only which sectors are unlocked matters. -/
  chunkRuns_congr {d : IntelDescriptor} {bound addr n : Nat} {data : Nat → Byte} {l : List ChunkRun} :
      ∀ {c : Nat} {u v : List Nat}, chunkRuns d bound addr n data c u l → (∀ x, x ∈ u ↔ x ∈ v) →
        chunkRuns d bound addr n data c v l := by
    induction l with
    | nil => intro c u v _ _; trivial
    | cons r l ih =>
      intro c u v h huv
      simp only [chunkRuns] at h ⊢
      obtain ⟨lo, hi, h1, h2, h3, h4, h5, h6⟩ := h
      refine ⟨lo, hi, h1, h2, h3, h4, h5, ?_⟩
      split
      · rename_i hw
        rw [if_pos hw] at h6
        exact ⟨h6.1, h6.2.1, h6.2.2.1, ih h6.2.2.2 huv⟩
      · rename_i hw
        rw [if_neg hw] at h6
        refine ⟨?_, h6.2.1, ih h6.2.2 (by intro x; simp [huv])⟩
        have := huv lo
        by_cases hin : lo ∈ u
        · rw [h6.1, if_pos hin, if_pos (this.mp hin)]
        · rw [h6.1, if_neg hin, if_neg (fun h => hin (this.mpr h))]

theorem chunksEnd_append (w : Nat) (l m : List ChunkRun) : ∀ c : Nat, chunksEnd w c (l ++ m) = chunksEnd w (chunksEnd w c l) m := by
  induction l with
  | nil => intro c; rfl
  | cons r l ih => intro c; exact ih _

theorem chunkRunEvents_append (w : Nat) (l m : List ChunkRun) : ∀ c : Nat,
    chunkRunEvents w c (l ++ m) = chunkRunEvents w c l ++ chunkRunEvents w (chunksEnd w c l) m := by
  induction l with
  | nil => intro c; rfl
  | cons r l ih => intro c; simp only [List.cons_append, chunkRunEvents, chunksEnd, ih, List.append_assoc]

/-- The payload bytes before an address. -/
def doneBefore (addr n c : Nat) : Nat := min (addr + n) (max addr c) - addr

/-- Chunks that all end with `OK`: the loop goes on after them, and remembers where the last of them began (R316). -/
theorem run_chunkPrefix {bound b : Nat} {d : IntelDescriptor} {addr n : Nat} {data : Nat → Byte} (hw : 0 < d.chip.busWidth)
    (hn : 0 < n) (chunks : List ChunkRun) : ∀ (c before m : Nat) (unlocked : List Nat) (more : List ChunkRun) (s : State)
    (rest : List MemReply), s.params.flashPollBound = bound → c % d.chip.busWidth = 0 → addr < c + d.chip.busWidth →
    chunkRuns d bound addr n data c unlocked (chunks ++ more) → (∀ r ∈ chunks, r.status = .ok) →
    callsAllowed (chunkRunEvents d.chip.busWidth c chunks) = true →
    s.memScript = answersOf (chunkRunEvents d.chip.busWidth c chunks) ++ rest →
    ∃ g u before', chunkRuns d bound addr n data (chunksEnd d.chip.busWidth c chunks) u more ∧
      chunksEnd d.chip.busWidth c chunks % d.chip.busWidth = 0 ∧ c ≤ chunksEnd d.chip.busWidth c chunks ∧
      (chunks = [] → before' = before) ∧
      (∀ pre last, chunks = pre ++ [last] → before' = doneBefore addr n (chunksEnd d.chip.busWidth c pre)) ∧
      chunkLoop b d addr n data (chunks.length + m) before (doneBefore addr n c) c unlocked s =
        chunkLoop b d addr n data m before' (doneBefore addr n (chunksEnd d.chip.busWidth c chunks))
          (chunksEnd d.chip.busWidth c chunks) u
          (((s.performed (chunkRunEvents d.chip.busWidth c chunks)).withArea b (cellFlag (anyProgrammed chunks))).withWork g) := by
  induction chunks with
  | nil =>
    intro c before m unlocked more s rest _ hcw _ hruns _ _ _
    refine ⟨id, unlocked, before, hruns, hcw, le_rfl, fun _ => rfl, fun pre last h => by simp at h, ?_⟩
    simp [chunkRunEvents, chunksEnd, anyProgrammed, cellFlag_false, withWork_id]
  | cons r chunks ih =>
    intro c before m unlocked more s rest hb hcw hnear hruns hok hc hs
    obtain ⟨lo, hi, hr, _, hnext⟩ := chunkRuns_cons hruns
    have hst := hok r (by simp)
    rw [chunkRunEvents, callsAllowed_append, Bool.and_eq_true] at hc
    rw [chunkRunEvents, answersOf_append, List.append_assoc] at hs
    obtain ⟨g, hg⟩ := (run_chunk (b := b) hw hcw hnear hb hr hc.1).1 _ hs
    have hlt := hr.2.1
    have hm1 := (chunk_payload hr.2.2.1 hlt).1
    have hdb : doneBefore addr n c = max addr c - addr := by unfold doneBefore; omega
    have hdone : max addr c - addr < n := by omega
    have hgrow : d.chip.busWidth ≤ r.curs.length * d.chip.busWidth := Nat.le_mul_of_pos_left _ (by omega)
    have hstep : max addr c - addr + (min (addr + n) (c + r.curs.length * d.chip.busWidth) - max addr c) =
        doneBefore addr n (c + r.curs.length * d.chip.busWidth) := by unfold doneBefore; omega
    generalize hs' : (State.withWork _ g) = s' at hg
    have hscript : s'.memScript =
        answersOf (chunkRunEvents d.chip.busWidth (c + r.curs.length * d.chip.busWidth) chunks) ++ rest := by
      rw [← hs', withWork_memScript, withArea_memScript, performed_memScript, hs, ← answersOf_length, List.drop_left]
    have hb' : s'.params.flashPollBound = bound := by rw [← hs']; simpa using hb
    obtain ⟨g', u, before', h1, h2, h3, h4, h5, h6⟩ := ih (c + r.curs.length * d.chip.busWidth) (max addr c - addr) m
      (unlockedAfter unlocked lo r) more s' rest hb' (by rw [Nat.add_mul_mod_self_right]; exact hcw) (by omega)
      hnext (fun x h => hok x (by simp [h])) hc.2 hscript
    refine ⟨fun x => g' (g x), u, before', h1, h2, by simp only [chunksEnd]; omega, fun h => by simp at h, ?_, ?_⟩
    · rintro pre last heq
      cases pre with
      | nil =>
        simp only [List.nil_append, List.cons.injEq] at heq
        rw [h4 heq.2, chunksEnd, hdb]
      | cons p pre =>
        simp only [List.cons_append, List.cons.injEq] at heq
        rw [h5 pre last heq.2, chunksEnd, ← heq.1]
    · rw [List.length_cons, Nat.add_right_comm, chunkLoop, hdb]
      simp only [hdone, if_true]
      rw [run_bind, hg]
      simp only [hst, if_true, hstep, chunksEnd, chunkRunEvents]
      rw [h6, ← hs', performed_withWork, performed_withArea, ← performed_append, withArea_withWork, withWork_withWork,
        withArea_withArea _ _ _ _ (cellFlag_begin _)]
      congr 3
      funext a
      rw [cellFlag_cellFlag]
      rfl

theorem chunks_le {d : IntelDescriptor} {bound addr n : Nat} {data : Nat → Byte} (chunks : List ChunkRun) :
    ∀ (c : Nat) (unlocked : List Nat), chunkRuns d bound addr n data c unlocked chunks →
    ∀ i, i < chunks.length → c + i * d.chip.busWidth < addr + n := by
  induction chunks with
  | nil => intro c u _ i hi; simp at hi
  | cons r chunks ih =>
    intro c u h i hi
    obtain ⟨lo, hi', hr, _, hnext⟩ := chunkRuns_cons h
    cases i with
    | zero => simpa using hr.2.1
    | succ i =>
      have := ih _ _ hnext i (by simpa using hi)
      have hm1 := (chunk_payload hr.2.2.1 hr.2.1).1
      have hgrow : d.chip.busWidth ≤ r.curs.length * d.chip.busWidth := Nat.le_mul_of_pos_left _ (by omega)
      have : c + (i + 1) * d.chip.busWidth = c + d.chip.busWidth + i * d.chip.busWidth := by ring
      omega

/-- The closing command (R316): completed, and failed (R250). -/
theorem run_intelFinish {d : IntelDescriptor} {before n : Nat} {s : State}
    (hc : callsAllowed [intelReadArrayEvent d] = true) :
    (∀ rest, s.memScript = .done [] :: rest → intelFinish d before n s =
      .ok { count := n, status := .ok } (s.performed [intelReadArrayEvent d])) ∧
    (∀ f rest, s.memScript = .fault f :: rest → intelFinish d before n s =
      .ok { count := before, status := .access f } (s.cutOff [])) := by
  rw [intelReadArrayEvent, callsAllowed_wrote] at hc
  refine ⟨fun rest hs => ?_, fun f rest hs => ?_⟩
  · have h := run_wr_event hc hs
    rw [intelFinish, run_bind]
    simp only [orAccessStatus, run_bind, intelReadArray, h, run_pure, if_true]
    rfl
  · have h := run_wr_fault hc hs
    rw [intelFinish, run_bind]
    simp only [orAccessStatus, run_bind, intelReadArray, h, run_pure, reduceCtorEq, if_false]
    rfl

/-- A program of chunks (R316): to the end, to a bad status, to a failed access, and to a failed closing command. -/
theorem run_chunkRuns {bound b : Nat} {d : IntelDescriptor} {addr n : Nat} {data : Nat → Byte} (hw : 0 < d.chip.busWidth)
    (hn : 0 < n) {chunks : List ChunkRun} {s : State} (hb : s.params.flashPollBound = bound)
    (hruns : chunkRuns d bound addr n data (addr - addr % d.chip.busWidth) [] chunks)
    (hc : callsAllowed (chunkRunEvents d.chip.busWidth (addr - addr % d.chip.busWidth) chunks ++ [intelReadArrayEvent d]) = true) :
    let w := d.chip.busWidth
    let first := addr - addr % w
    let run := chunkLoop b d addr n data n 0 0 first []
    (∀ rest, (∀ r ∈ chunks, r.status = .ok) → addr + n ≤ chunksEnd w first chunks →
      s.memScript = answersOf (chunkRunEvents w first chunks ++ [intelReadArrayEvent d]) ++ rest →
      ∃ g, run s = .ok { count := n, status := .ok }
        (((s.performed (chunkRunEvents w first chunks ++ [intelReadArrayEvent d])).withArea b
          (cellFlag (anyProgrammed chunks))).withWork g)) ∧
    (∀ before last rest, chunks = before ++ [last] → last.status ≠ .ok →
      s.memScript = answersOf (chunkRunEvents w first chunks) ++ rest →
      ∃ g, run s = .ok { count := max addr (chunksEnd w first before) - addr, status := last.status }
        (((s.performed (chunkRunEvents w first chunks)).withArea b (cellFlag (anyProgrammed chunks))).withWork g)) ∧
    (∀ before last j f rest, chunks = before ++ [last] → j < (last.events w (chunksEnd w first before)).length →
      s.memScript = answersOf (chunkRunEvents w first before ++ (last.events w (chunksEnd w first before)).take j) ++ .fault f :: rest →
      ∃ g, run s = .ok { count := max addr (chunksEnd w first before) - addr, status := .access f }
        (((s.cutOff (chunkRunEvents w first before ++ (last.events w (chunksEnd w first before)).take j)).withArea b
          (cellFlag (anyProgrammed before || decide (last.curs.length + last.unlock.length ≤ j)))).withWork g)) ∧
    (∀ before last f rest, chunks = before ++ [last] → (∀ r ∈ chunks, r.status = .ok) → addr + n ≤ chunksEnd w first chunks →
      s.memScript = answersOf (chunkRunEvents w first chunks) ++ .fault f :: rest →
      ∃ g, run s = .ok { count := max addr (chunksEnd w first before) - addr, status := .access f }
        (((s.cutOff (chunkRunEvents w first chunks)).withArea b (cellFlag (anyProgrammed chunks))).withWork g)) := by
  intro w first run
  have hmod : addr % w < w := Nat.mod_lt _ hw
  have hle : addr % w ≤ addr := Nat.mod_le _ _
  have hfw : first % w = 0 := Nat.mod_eq_zero_of_dvd (Nat.dvd_sub_mod addr)
  have hfirst : first = addr - addr % w := rfl
  have hd0 : doneBefore addr n first = 0 := by unfold doneBefore; omega
  have hnear0 : addr < first + d.chip.busWidth := by change addr < addr - addr % w + w; omega
  have hlen : chunks.length ≤ n := cells_le hw hn (chunks_le chunks _ _ hruns)
  rw [callsAllowed_append, Bool.and_eq_true] at hc
  have hdone_lt : ∀ c u r rest', chunkRuns d bound addr n data c u (r :: rest') → first ≤ c →
      doneBefore addr n c = max addr c - addr ∧ max addr c - addr < n ∧ addr < c + w := by
    intro c u r rest' h hfc
    obtain ⟨lo, hi, hr, _, _⟩ := chunkRuns_cons h
    have := hr.2.1
    unfold doneBefore; omega
  -- to the end of the chunks
  have hend : ∀ more, (∀ r ∈ chunks, r.status = .ok) → addr + n ≤ chunksEnd w first chunks →
      s.memScript = answersOf (chunkRunEvents w first chunks) ++ more → ∃ g bf m' u,
        (∀ pre last, chunks = pre ++ [last] → bf = doneBefore addr n (chunksEnd w first pre)) ∧
        run s = chunkLoop b d addr n data m' bf n (chunksEnd w first chunks) u
          (((s.performed (chunkRunEvents w first chunks)).withArea b (cellFlag (anyProgrammed chunks))).withWork g) := by
    intro more hok hfin hs
    obtain ⟨m, hm⟩ : ∃ m, n = chunks.length + m := ⟨n - chunks.length, by omega⟩
    obtain ⟨g, u, bf, _, _, _, _, h5, h6⟩ := run_chunkPrefix (b := b) hw hn chunks first 0 m [] [] s more hb hfw hnear0
      (by simpa using hruns) hok hc.1 hs
    have hdn : doneBefore addr n (chunksEnd w first chunks) = n := by unfold doneBefore; omega
    refine ⟨g, bf, m, u, h5, ?_⟩
    rw [hd0, hdn, ← hm] at h6
    exact h6
  have hloop : ∀ m bf c u t, chunkLoop b d addr n data m bf n c u t = intelFinish d bf n t := by
    intro m bf c u t; cases m <;> simp [chunkLoop]
  -- up to the last chunk
  have hlast : ∀ before last, chunks = before ++ [last] → ∀ more,
      s.memScript = answersOf (chunkRunEvents w first before) ++ more → ∃ s' g m u lo hi bf,
        s' = ((s.performed (chunkRunEvents w first before)).withArea b (cellFlag (anyProgrammed before))).withWork g ∧
        s'.memScript = more ∧ s'.params.flashPollBound = bound ∧
        chunkAllowed d bound addr n data (chunksEnd w first before) u last lo hi ∧
        chunksEnd w first before % w = 0 ∧ addr < chunksEnd w first before + w ∧
        max addr (chunksEnd w first before) - addr < n ∧
        run s = chunkLoop b d addr n data (m + 1) bf (max addr (chunksEnd w first before) - addr) (chunksEnd w first before) u s' ∧
        callsAllowed (last.events w (chunksEnd w first before)) = true := by
    rintro before last rfl more hs
    simp only [List.length_append, List.length_cons, List.length_nil, Nat.zero_add] at hlen
    have hok : ∀ r ∈ before, r.status = .ok := by
      have : ∀ (l : List ChunkRun) c u, chunkRuns d bound addr n data c u (l ++ [last]) → ∀ r ∈ l, r.status = .ok := by
        intro l
        induction l with
        | nil => intro c u _ r hr; simp at hr
        | cons x l ih =>
          intro c u h r hr
          obtain ⟨lo, hi, _, hst, hnext⟩ := chunkRuns_cons h
          rcases List.mem_cons.mp hr with rfl | hr
          · exact hst (by simp)
          · exact ih _ _ hnext r hr
      exact this before _ _ hruns
    rw [chunkRunEvents_append, callsAllowed_append, Bool.and_eq_true] at hc
    obtain ⟨m, hm⟩ : ∃ m, n = before.length + (m + 1) := ⟨n - before.length - 1, by omega⟩
    obtain ⟨g, u, bf, h1, h2, h3, _, _, h6⟩ := run_chunkPrefix (b := b) hw hn before first 0 (m + 1) [] [last] s more hb hfw hnear0
      hruns hok hc.1.1 hs
    obtain ⟨k1, k2, k3⟩ := hdone_lt _ _ _ _ h1 h3
    obtain ⟨lo, hi, hr, _, _⟩ := chunkRuns_cons h1
    refine ⟨_, g, m, u, lo, hi, bf, rfl, ?_, ?_, hr, h2, k3, k2, ?_, ?_⟩
    · rw [withWork_memScript, withArea_memScript, performed_memScript, hs, ← answersOf_length, List.drop_left]
    · simpa using hb
    · rw [k1, hd0, ← hm] at h6; exact h6
    · simpa [chunkRunEvents] using hc.1.2
  refine ⟨fun rest hok hfin hs => ?_, fun before last rest heq hbad hs => ?_, fun before last j f rest heq hj hs => ?_,
    fun before last f rest heq hok hfin hs => ?_⟩
  · obtain ⟨g, bf, m', u, _, hrun⟩ := hend (.done [] :: rest) hok hfin (by simpa [answersOf, intelReadArrayEvent] using hs)
    refine ⟨g, ?_⟩
    rw [hrun, hloop]
    rw [(run_intelFinish hc.2).1 rest (by
      rw [withWork_memScript, withArea_memScript, performed_memScript, hs, ← answersOf_length (chunkRunEvents w first chunks),
        answersOf_append, List.append_assoc, List.drop_left]; rfl)]
    rw [performed_withWork, performed_withArea, ← performed_append]
  · have hs' := hs
    rw [heq, chunkRunEvents_append, answersOf_append, List.append_assoc] at hs'
    obtain ⟨s', g, m, u, lo, hi, bf, hs1, hscript, hb', hr, hcw, hnear, hdone, hrun, hcl⟩ := hlast before last heq _ hs'
    have hev : chunkRunEvents w (chunksEnd w first before) [last] = last.events w (chunksEnd w first before) := by
      simp [chunkRunEvents]
    rw [hev] at hscript
    obtain ⟨g', hg'⟩ := (run_chunk (b := b) hw hcw hnear hb' hr hcl).1 rest hscript
    refine ⟨fun x => g' (g x), ?_⟩
    rw [hrun, chunkLoop]
    simp only [hdone, if_true]
    rw [run_bind, hg']
    simp only [hbad, if_false, run_pure]
    rw [hs1, performed_withWork, performed_withArea, ← performed_append, heq, chunkRunEvents_append, hev,
      withArea_withWork, withWork_withWork, withArea_withArea _ _ _ _ (cellFlag_begin _)]
    congr 3
    funext a
    rw [cellFlag_cellFlag]
    simp [anyProgrammed]
  · obtain ⟨s', g, m, u, lo, hi, bf, hs1, hscript, hb', hr, hcw, hnear, hdone, hrun, hcl⟩ := hlast before last heq
      (answersOf ((last.events w (chunksEnd w first before)).take j) ++ .fault f :: rest) (by rw [hs]; simp)
    obtain ⟨g', hg'⟩ := (run_chunk (b := b) hw hcw hnear hb' hr hcl).2 j f rest hj hscript
    refine ⟨fun x => g' (g x), ?_⟩
    rw [hrun, chunkLoop]
    simp only [hdone, if_true]
    rw [run_bind, hg']
    simp only [reduceCtorEq, if_false, run_pure]
    rw [hs1, cutOff_withWork, cutOff_withArea, ← cutOff_append, withArea_withWork, withWork_withWork,
      withArea_withArea _ _ _ _ (cellFlag_begin _)]
    congr 3
    funext a
    rw [cellFlag_cellFlag]
  · obtain ⟨g, bf, m', u, hbf, hrun⟩ := hend (.fault f :: rest) hok hfin hs
    refine ⟨g, ?_⟩
    rw [hrun, hloop]
    rw [(run_intelFinish hc.2).2 f rest (by
      rw [withWork_memScript, withArea_memScript, performed_memScript, hs, ← answersOf_length, List.drop_left])]
    obtain ⟨s', g2, m, u2, lo, hi, bf2, _, _, _, hr, _, _, hdone, _, _⟩ := hlast before last heq
      (answersOf (chunkRunEvents w (chunksEnd w first before) [last]) ++ .fault f :: rest)
      (by rw [hs, heq, chunkRunEvents_append]; simp)
    have : bf = max addr (chunksEnd w first before) - addr := by
      rw [hbf before last heq]; unfold doneBefore; have := hr.2.1; omega
    rw [this, cutOff_withWork, cutOff_withArea, ← cutOff_append, List.append_nil]

end Sys2Proof.Laws
end

