-- ==== Sys2Proof/Laws/Family.lean ====
section
/-! SUPPORT. How a family operation ends on its area (R249, R250), and that no conduct ends with `UNIMPLEMENTED`, so that every status of one but `OK` sets
`ERROR`. -/

namespace Sys2Proof.Laws

open Sys2Proof Sys2Proof.Machine

/-! ### Statuses -/

/-- A conduct that never ends with `UNIMPLEMENTED`. -/
def Conduct.implemented (C : Conduct) : Prop := ∀ evs, ¬ C evs .unimplemented

theorem implemented_sends (ws : List (Nat × BusWord)) : Conduct.implemented (sends ws) := fun _ h => by cases h.2

theorem implemented_andThen {C D : Conduct} (h1 : Conduct.implemented C) (h2 : Conduct.implemented D) :
    Conduct.implemented (C.andThen D) := by
  rintro evs (⟨a, b, _, _, h⟩ | ⟨h, _⟩)
  · exact h2 _ h
  · exact h1 _ h

theorem implemented_verifies (w c : Nat) (wants : List BusWord) : Conduct.implemented (verifies w c wants) := by
  rintro evs (⟨_, h⟩ | ⟨_, _, _, _, _, _, _, h⟩) <;> cases h

theorem implemented_verifiesErased (w lo hi : Nat) : Conduct.implemented (verifiesErased w lo hi) := by
  rintro evs (⟨_, h⟩ | ⟨_, _, _, _, _, _, h⟩) <;> cases h

theorem pollVerdict_implemented {α : Type} (faulty awaited : α → Bool) (l : List α) : ∀ k,
    pollVerdict faulty awaited k l ≠ some .unimplemented := by
  induction l with
  | nil => intro k; cases k <;> simp [pollVerdict]
  | cons v l ih =>
    intro k
    cases k with
    | zero => simp [pollVerdict]
    | succ k =>
      rw [pollVerdict]
      split
      · split <;> simp
      · split
        · split <;> simp
        · exact ih k

theorem toggleVerdict_implemented (d : AmdDescriptor) (l : List ToggleRound) : ∀ k prev,
    toggleVerdict d k prev l ≠ some .unimplemented := by
  induction l with
  | nil => intro k prev; cases k <;> simp [toggleVerdict]
  | cons r l ih =>
    intro k prev
    cases k with
    | zero => simp [toggleVerdict]
    | succ k =>
      rw [toggleVerdict]
      split
      · split <;> simp
      · split <;> simp
      · exact ih _ _
      · simp

theorem implemented_togglePolls (d : AmdDescriptor) (bound c : Nat) : Conduct.implemented (togglePolls d bound c) :=
  fun _ ⟨_, _, h, _⟩ => toggleVerdict_implemented d _ _ _ h

theorem implemented_amdCell (d : AmdDescriptor) (bound c : Nat) (want : BusWord) : Conduct.implemented (amdCell d bound c want) :=
  implemented_andThen (implemented_sends _) (implemented_andThen (implemented_togglePolls _ _ _) (implemented_verifies _ _ _))

theorem implemented_cfmAwaits (d : CfmDescriptor) (bound : Nat) (awaited : Byte) : Conduct.implemented (cfmAwaits d bound awaited) :=
  fun _ ⟨_, h, _⟩ => pollVerdict_implemented _ _ _ _ h

theorem implemented_cfmCommandRun (d : CfmDescriptor) (bound a : Nat) (v : BusWord) (code : Byte) :
    Conduct.implemented (cfmCommandRun d bound a v code) :=
  implemented_andThen (implemented_sends _) (implemented_andThen (implemented_cfmAwaits _ _ _) (implemented_cfmAwaits _ _ _))

theorem implemented_cfmCell (d : CfmDescriptor) (bound c : Nat) (want : BusWord) : Conduct.implemented (cfmCell d bound c want) :=
  implemented_andThen (implemented_cfmCommandRun _ _ _ _ _) (implemented_verifies _ _ _)

theorem implemented_cfmReadsBlank (d : CfmDescriptor) : Conduct.implemented (cfmReadsBlank d) := by
  rintro evs ⟨v, ⟨_, _, h⟩ | ⟨_, _, h⟩⟩ <;> cases h

theorem implemented_statusPolls (d : IntelDescriptor) (bound a : Nat) : Conduct.implemented (statusPolls d bound a) :=
  fun _ ⟨_, h, _⟩ => pollVerdict_implemented _ _ _ _ h

theorem implemented_intelCell (d : IntelDescriptor) (bound c : Nat) (want : BusWord) : Conduct.implemented (intelCell d bound c want) :=
  implemented_andThen (implemented_sends _) (implemented_andThen (implemented_statusPolls _ _ _)
    (implemented_andThen (implemented_sends _) (implemented_verifies _ _ _)))

theorem implemented_intelBurst (d : IntelDescriptor) (bound s c : Nat) (wants : List BusWord) :
    Conduct.implemented (intelBurst d bound s c wants) :=
  implemented_andThen (implemented_sends _) (implemented_andThen (implemented_statusPolls _ _ _)
    (implemented_andThen (implemented_sends _) (implemented_andThen (implemented_statusPolls _ _ _)
      (implemented_andThen (implemented_sends _) (implemented_verifies _ _ _)))))

theorem implemented_intelSectorErase (d : IntelDescriptor) (bound : Nat) (r : Nat × Nat) :
    Conduct.implemented (intelSectorErase d bound r) :=
  implemented_andThen (implemented_sends _) (implemented_andThen (implemented_statusPolls _ _ _)
    (implemented_andThen (implemented_sends _) (implemented_verifiesErased _ _ _)))

theorem cellRuns_implemented {w address n : Nat} {data : Nat → Byte} {change : Nat → BusWord → Conduct} {cells : List CellRun}
    (h : cellRuns w address n data change cells) (hc : ∀ c want, Conduct.implemented (change c want)) :
    ∀ r ∈ cells, r.status ≠ .unimplemented := by
  intro r hr hst
  obtain ⟨i, hi⟩ := List.getElem?_of_mem hr
  obtain ⟨_, _, _, hx⟩ := h i r hi
  split at hx
  · rw [hx.2] at hst; cases hst
  · rw [hst] at hx; exact hc _ _ _ hx

theorem chunkRuns_implemented {d : IntelDescriptor} {bound address n : Nat} {data : Nat → Byte} (chunks : List ChunkRun) :
    ∀ c unlocked, chunkRuns d bound address n data c unlocked chunks → ∀ r ∈ chunks, r.status ≠ .unimplemented := by
  induction chunks with
  | nil => intro c u _ r hr; cases hr
  | cons x chunks ih =>
    intro c u h r hr
    obtain ⟨lo, hi, _, _, _, _, _, hx⟩ := h
    dsimp only at hx
    split at hx
    · rcases List.mem_cons.mp hr with rfl | hr
      · rw [hx.2.2.1]; decide
      · exact ih _ _ hx.2.2.2 r hr
    · rcases List.mem_cons.mp hr with rfl | hr
      · intro hst
        have h2 := hx.2.1
        split at h2
        · rw [hst] at h2; exact implemented_intelCell _ _ _ _ _ h2
        · rw [hst] at h2; exact implemented_intelBurst _ _ _ _ _ _ h2
      · exact ih _ _ hx.2.2 r hr

/-! ### Flags (R249) -/

theorem setsError_bad {st : FlashStatus} (h1 : st ≠ .ok) (h2 : st ≠ .unimplemented) : setsError st = true := by
  simp [setsError, h1, h2]

theorem afterStatus_cellFlag (c : Bool) (st : FlashStatus) (a : MemoryArea) :
    (cellFlag c a).afterStatus st = a.flagged c (setsError st) := by
  cases c <;> simp [cellFlag, MemoryArea.flagged, MemoryArea.afterStatus, MemoryArea.withErased]

theorem afterStatus_begin (a : MemoryArea) (st : FlashStatus) : (a.afterStatus st).beginAddr = a.beginAddr := rfl

/-- A family operation that ran to its end (R249). -/
theorem run_family_ok {b : Nat} {m : Op FlashResult} {s t : State} {r : FlashResult} {f : MemoryArea → MemoryArea}
    (hf : ∀ a, (f a).beginAddr = a.beginAddr) (h : ∃ g, m s = .ok r ((t.withArea b f).withWork g)) :
    ∃ g, familyOp b m s = .ok r ((t.withArea b (fun a => (f a).afterStatus r.status)).withWork g) := by
  obtain ⟨g, h⟩ := h
  exact ⟨g, by rw [run_familyOp h, withArea_withWork, withArea_withArea _ _ _ _ hf]⟩

/-- A family operation cut off by a failed access (R249, R250). -/
theorem run_family_cut {b : Nat} {m : Op FlashResult} {s t : State} {e : ProtoFault} {f : MemoryArea → MemoryArea}
    (hf : ∀ a, (f a).beginAddr = a.beginAddr) (h : ∃ g, m s = .error (.access e) ((t.withArea b f).withWork g)) :
    ∃ g, familyOp b m s = .ok (flashDone (.access e)) ((t.withArea b (fun a => (f a).afterStatus (.access e))).withWork g) := by
  obtain ⟨g, h⟩ := h
  exact ⟨g, by rw [run_familyOp_access h, withArea_withWork, withArea_withArea _ _ _ _ hf]⟩

end Sys2Proof.Laws
end

