-- ==== Sys2Proof/Laws/Path.lean ====
section
/-! SUPPORT. What an operation on target memory can do, said once: it is a chain of completed and failed accesses, updates of working registers and updates
of area flags and pending erases (R65, R249, R250, R260). An invariant of such operations is an induction over the chain. -/

namespace Sys2Proof.Laws

open Sys2Proof Sys2Proof.Machine

variable {α β : Type}

/-- One effect of an operation on target memory. -/
inductive MemEffect : State → State → Prop where
  | work (s : State) (g : WorkRegs → WorkRegs) : MemEffect s (s.withWork g)
  | failed (s : State) : MemEffect s s.tookReply
  | read (s : State) (a : Nat) (v : BusWord) (h : callAllowed a v.length = true) : MemEffect s (s.tookReply.didRead a v)
  | wrote (s : State) (a : Nat) (v : BusWord) (h : callAllowed a v.length = true) : MemEffect s (s.tookReply.didWrite a v)
  | erased (s : State) (b : Nat) (x : Bool) : MemEffect s (s.withArea b (fun a => a.withErased x))
  | pending (s : State) (b : Nat) (p : PendingErase) : MemEffect s (s.withArea b (fun a => a.withPending p))
  | status (s : State) (b : Nat) (st : FlashStatus) : MemEffect s (s.withArea b (fun a => a.afterStatus st))

/-- A chain of effects. -/
abbrev MemPath : State → State → Prop := Relation.ReflTransGen MemEffect

/-- Wherever `m` ends, a chain of effects leads there. -/
def Travels (m : Op α) : Prop :=
  ∀ s, match m s with
    | .ok _ t => MemPath s t
    | .error _ t => MemPath s t

theorem travels_ok {m : Op α} (h : Travels m) {s t : State} {a : α} (hm : m s = .ok a t) : MemPath s t := by
  have := h s; rwa [hm] at this

theorem travels_error {m : Op α} (h : Travels m) {s t : State} {e : Exit} (hm : m s = .error e t) : MemPath s t := by
  have := h s; rwa [hm] at this

theorem travels_pure (a : α) : Travels (pure a : Op α) := fun _ => .refl

theorem travels_raise (f : FaultKind) : Travels (raise f : Op α) := fun _ => .refl

theorem travels_abort (f : ProtoFault) : Travels (abort f : Op α) := fun _ => .refl

theorem travels_bind {m : Op α} {k : α → Op β} (h1 : Travels m) (h2 : ∀ a, Travels (k a)) : Travels (m >>= k) := by
  intro s
  rw [run_bind]
  have := h1 s
  cases hm : m s with
  | ok a t =>
    rw [hm] at this
    simp only
    have h := h2 a t
    cases hk : k a t with
    | ok b u => rw [hk] at h; exact Relation.ReflTransGen.trans this h
    | error e u => rw [hk] at h; exact Relation.ReflTransGen.trans this h
  | error e t => rw [hm] at this; exact this

theorem travels_ite {c : Prop} [Decidable c] {m n : Op α} (hm : Travels m) (hn : Travels n) : Travels (if c then m else n) := by
  split <;> assumption

/-- Reading the state before `k`. -/
theorem travels_get {k : State → Op β} (h : ∀ x, Travels (k x)) : Travels (do let s ← get; k s) := by
  intro s; rw [run_bind]; exact h s s

theorem travels_setPoll (k : Nat) : Travels (setPoll k) := fun s => .single (.work s (fun w => { w with poll := k }))

theorem travels_markErased (b : Nat) (x : Bool) : Travels (markErased b x) := fun s => .single (.erased s b x)

theorem travels_pending (b : Nat) (p : PendingErase) : Travels (updateArea b (fun a => a.withPending p)) :=
  fun s => .single (.pending s b p)

theorem travels_status (b : Nat) (st : FlashStatus) : Travels (updateArea b (fun a => a.afterStatus st)) :=
  fun s => .single (.status s b st)

theorem travels_owningArea (a : Nat) : Travels (owningArea a) := by
  intro s; unfold owningArea; cases areaOf s.registry a <;> exact .refl

theorem path_fitBytes_length (n : Nat) (v : BusWord) : (fitBytes n v).length = n := by simp [fitBytes]

theorem travels_memRead (a n : Nat) : Travels (memRead a n) := by
  intro s
  unfold memRead
  by_cases hc : callAllowed a n = true
  · simp only [hc, if_true]
    cases s.nextReply (.read a n) with
    | done v => exact .single (.read s a (fitBytes n v) (by rw [path_fitBytes_length]; exact hc))
    | fault f => exact .single (.failed s)
  · simp only [hc, Bool.false_eq_true, if_false]; exact .refl

theorem travels_memWrite (a : Nat) (v : BusWord) : Travels (memWrite a v) := by
  intro s
  unfold memWrite
  by_cases hc : callAllowed a v.length = true
  · simp only [hc, if_true]
    cases s.nextReply (.write a v) with
    | done _ => exact .single (.wrote s a v hc)
    | fault f => exact .single (.failed s)
  · simp only [hc, Bool.false_eq_true, if_false]; exact .refl

theorem travels_rd (a n : Nat) : Travels (rd a n) :=
  travels_bind (travels_memRead a n) (fun x => by cases x <;> first | exact travels_abort _ | exact travels_pure _)

theorem travels_wr (a : Nat) (v : BusWord) : Travels (wr a v) :=
  travels_bind (travels_memWrite a v) (fun x => by cases x <;> first | exact travels_abort _ | exact travels_pure _)

theorem travels_wrAll (ws : List (Nat × BusWord)) : Travels (wrAll ws) := by
  induction ws with
  | nil => exact travels_pure ()
  | cons w ws ih => exact travels_bind (travels_wr _ _) (fun _ => ih)

theorem travels_orAccess {m : Op FlashResult} (h : Travels m) : Travels (orAccess m) := by
  intro s
  have := h s
  simp only [orAccess]
  cases hm : m s with
  | ok a t => rw [hm] at this; exact this
  | error e t => rw [hm] at this; cases e <;> exact this

theorem travels_orAccessStatus {m : Op FlashStatus} (h : Travels m) : Travels (orAccessStatus m) := by
  intro s
  have := h s
  simp only [orAccessStatus]
  cases hm : m s with
  | ok a t => rw [hm] at this; exact this
  | error e t => rw [hm] at this; cases e <;> exact this

theorem travels_orAccessChunk {m : Op (FlashStatus × Nat × List Nat)} (h : Travels m) : Travels (orAccessChunk m) := by
  intro s
  have := h s
  simp only [orAccessChunk]
  cases hm : m s with
  | ok a t => rw [hm] at this; exact this
  | error e t => rw [hm] at this; cases e <;> exact this

theorem travels_probeOp {m : Op ProbeResult} (h : Travels m) : Travels (probeOp m) := by
  intro s
  have := h s
  simp only [probeOp]
  cases hm : m s with
  | ok a t => rw [hm] at this; exact this
  | error e t => rw [hm] at this; cases e <;> exact this

theorem travels_familyOp {m : Op FlashResult} (b : Nat) (h : Travels m) : Travels (familyOp b m) :=
  travels_bind (travels_orAccess h) (fun r => travels_bind (travels_status b r.status) (fun _ => travels_pure _))

theorem travels_areaOwning (a n : Nat) : Travels (areaOwning a n) :=
  travels_bind (travels_owningArea a) (fun _ => travels_ite (travels_pure _) (travels_raise _))

theorem travels_verifyErased (lo hi w : Nat) : Travels (verifyErased lo hi w) := by
  have : ∀ n c, Travels (verifyCells w n c) := by
    intro n
    induction n with
    | zero => intro c; exact travels_pure _
    | succ n ih => intro c; exact travels_bind (travels_rd _ _) (fun _ => travels_ite (ih _) (travels_pure _))
  exact this _ _

theorem travels_programCells {w : Nat} {pc : Nat → BusWord → Op FlashStatus} (h : ∀ c want, Travels (pc c want)) (addr n : Nat)
    (data : Nat → Byte) : Travels (programCells w pc addr n data) := by
  have : ∀ k done c, Travels (cellLoop w pc addr n data k done c) := by
    intro k
    induction k with
    | zero => intro done c; exact travels_pure _
    | succ k ih =>
      intro done c
      exact travels_ite (travels_bind (travels_orAccessStatus (travels_bind (travels_rd _ _) (fun _ =>
        travels_ite (travels_pure _) (h _ _)))) (fun _ => travels_ite (ih _ _) (travels_pure _))) (travels_pure _)
  exact this _ _ _

theorem travels_probeAttempt {ρ : Type} (addr w c : Nat) (enter : List (Nat × BusWord)) (leave : BusWord) (row : Nat → Nat → Option ρ) :
    Travels (probeAttempt addr w c enter leave row) := by
  have last : ∀ (orig : BusWord) (hit : Option ρ), Travels (do
      wr addr leave
      let back ← rd addr w
      if back ≠ orig then do
        wr addr orig
        pure hit
      else pure hit) := fun orig hit => travels_bind (travels_wr _ _) (fun _ => travels_bind (travels_rd _ _) (fun back =>
    travels_ite (travels_bind (travels_wr _ _) (fun _ => travels_pure _)) (travels_pure _)))
  refine travels_bind (travels_rd _ _) (fun orig => travels_bind (travels_wrAll _) (fun _ => travels_bind (travels_rd _ _) (fun man =>
    travels_bind (travels_rd _ _) (fun dev => ?_))))
  dsimp only
  have guard : ∀ e : ρ, Travels (aliasGuard addr w man e) := fun e =>
    travels_bind (travels_wr _ _) (fun _ => travels_bind (travels_rd _ _) (fun _ => travels_pure _))
  split
  · exact travels_bind (travels_pure (none : Option ρ)) (last orig)
  · exact travels_bind (guard _) (last orig)

/-! ### AMD -/

theorem travels_amdDescriptor (b : Nat) : Travels (amdDescriptor b) :=
  travels_bind (travels_owningArea b) (fun a => by cases a.binding <;> first | exact travels_pure _ | exact travels_raise _)

theorem travels_togglePoll (d : AmdDescriptor) (c : Nat) : Travels (togglePoll d c) := by
  have lanes : ∀ prev cur ls busy, Travels (toggleLanes d c prev cur ls busy) := by
    intro prev cur ls
    induction ls with
    | nil => intro busy; exact travels_pure _
    | cons l ls ih =>
      intro busy
      exact travels_ite (ih _) (travels_ite (travels_bind (travels_rd _ _) (fun _ => travels_bind (travels_rd _ _) (fun _ =>
        travels_ite (ih _) (travels_pure _)))) (ih _))
  have reset : ∀ st : FlashStatus, Travels (do amdReset d; pure st) :=
    fun st => travels_bind (travels_wr _ _) (fun _ => travels_pure _)
  have loop : ∀ k prev, Travels (toggleLoop d c k prev) := by
    intro k
    induction k with
    | zero => intro prev; exact reset _
    | succ k ih =>
      intro prev
      refine travels_bind (travels_setPoll _) (fun _ => travels_bind (travels_rd _ _) (fun cur => travels_bind (lanes _ _ _ _) (fun x => ?_)))
      cases x with
      | none => exact reset _
      | some y => cases y <;> first | exact travels_pure _ | exact ih _
  exact travels_bind (travels_rd _ _) (fun prev => travels_get (fun s => loop _ _))

theorem travels_amdEraseWaitOp (b : Nat) : Travels (amdEraseWaitOp b) := by
  refine travels_familyOp b (travels_bind (travels_amdDescriptor b) (fun d => ?_))
  cases d.pendingRange with
  | none => exact travels_pure _
  | some x =>
    refine travels_bind (travels_pending _ _) (fun _ => travels_bind (travels_togglePoll d _) (fun st => travels_ite (travels_pure _) ?_))
    refine travels_bind (travels_verifyErased _ _ _) (fun st => travels_ite (travels_pure _) ?_)
    by_cases h : d.pendingErase = .whole
    · simp only [h, if_true]; exact travels_bind (travels_markErased _ _) (fun _ => travels_pure _)
    · simp only [h, if_false]; exact travels_pure _

theorem travels_amdPrepare {m : Op FlashResult} (b : Nat) (h : Travels m) : Travels (amdPrepare b m) :=
  travels_bind (travels_amdDescriptor b) (fun _ =>
    travels_ite h (travels_bind (travels_amdEraseWaitOp b) (fun _ => travels_ite h (travels_pure _))))

theorem travels_amdProgramOp (b addr n : Nat) (data : Nat → Byte) : Travels (amdProgramOp b addr n data) :=
  travels_familyOp b (travels_amdPrepare b (travels_bind (travels_amdDescriptor b) (fun d => travels_programCells (fun c want =>
    travels_bind (travels_wrAll _) (fun _ => travels_bind (travels_markErased _ _) (fun _ => travels_bind (travels_togglePoll d c) (fun st =>
      travels_ite (travels_pure _) (travels_bind (travels_rd _ _) (fun _ => travels_pure _)))))) _ _ _)))

theorem travels_amdStartErase (b : Nat) (ws : List (Nat × BusWord)) (p : PendingErase) : Travels (amdStartErase b ws p) :=
  travels_bind (travels_markErased _ _) (fun _ => travels_bind (travels_wrAll _) (fun _ =>
    travels_bind (travels_pending _ _) (fun _ => travels_bind (travels_markErased _ _) (fun _ => travels_pure _))))

theorem travels_amdEraseSectorOp (b addr : Nat) : Travels (amdEraseSectorOp b addr) :=
  travels_familyOp b (travels_amdPrepare b (travels_bind (travels_amdDescriptor b) (fun _ => travels_amdStartErase _ _ _)))

theorem travels_amdEraseAllOp (b : Nat) : Travels (amdEraseAllOp b) :=
  travels_familyOp b (travels_amdPrepare b (travels_bind (travels_amdDescriptor b) (fun _ => travels_amdStartErase _ _ _)))

theorem travels_amdBlankCheckOp (b : Nat) : Travels (amdBlankCheckOp b) :=
  travels_familyOp b (travels_bind (travels_amdDescriptor b) (fun _ => travels_pure _))

theorem travels_amdProbeOp (addr : Nat) : Travels (amdProbeOp addr) := by
  have : ∀ ps, Travels (amdProbePairs addr ps) := by
    intro ps
    induction ps with
    | nil => exact travels_pure _
    | cons p ps ih =>
      refine travels_get (fun s => travels_bind (travels_probeAttempt _ _ _ _ _ _) (fun hit => ?_))
      cases hit <;> first | exact ih | exact travels_pure _
  exact travels_probeOp (this _)

/-! ### CFM -/

theorem travels_cfmDescriptor (b : Nat) : Travels (cfmDescriptor b) :=
  travels_bind (travels_owningArea b) (fun a => by cases a.binding <;> first | exact travels_pure _ | exact travels_raise _)

theorem travels_cfmCommand (d : CfmDescriptor) (a : Nat) (v : BusWord) (code : Byte) : Travels (cfmCommand d a v code) := by
  have poll : ∀ awaited k, Travels (cfmPoll d awaited k) := by
    intro awaited k
    induction k with
    | zero => exact travels_pure _
    | succ k ih =>
      exact travels_bind (travels_setPoll _) (fun _ => travels_bind (travels_rd _ _) (fun _ =>
        travels_ite (travels_pure _) (travels_ite (travels_pure _) ih)))
  exact travels_bind (travels_wrAll _) (fun _ => travels_get (fun s => travels_bind (poll _ _) (fun _ =>
    travels_ite (travels_pure _) (poll _ _))))

theorem travels_cfmProgramOp (b addr n : Nat) (data : Nat → Byte) : Travels (cfmProgramOp b addr n data) :=
  travels_familyOp b (travels_bind (travels_cfmDescriptor b) (fun d => travels_programCells (fun c want =>
    travels_bind (travels_markErased _ _) (fun _ => travels_bind (travels_cfmCommand d c want _) (fun st =>
      travels_ite (travels_pure _) (travels_bind (travels_rd _ _) (fun _ => travels_pure _))))) _ _ _))

theorem travels_cfmErase (d : CfmDescriptor) (lo hi : Nat) (code : Byte) : Travels (cfmErase d lo hi code) :=
  travels_bind (travels_cfmCommand _ _ _ _) (fun _ => travels_ite (travels_pure _) (travels_verifyErased _ _ _))

theorem travels_cfmEraseSectorOp (b addr : Nat) : Travels (cfmEraseSectorOp b addr) :=
  travels_familyOp b (travels_bind (travels_cfmDescriptor b) (fun _ => travels_bind (travels_markErased _ _) (fun _ =>
    travels_bind (travels_cfmErase _ _ _ _) (fun _ => travels_pure _))))

theorem travels_cfmEraseAllOp (b : Nat) : Travels (cfmEraseAllOp b) :=
  travels_familyOp b (travels_bind (travels_cfmDescriptor b) (fun _ => travels_bind (travels_markErased _ _) (fun _ =>
    travels_bind (travels_cfmErase _ _ _ _) (fun st => by
      by_cases h : st = .ok
      · simp only [h, if_true]; exact travels_bind (travels_markErased _ _) (fun _ => travels_pure _)
      · simp only [h, if_false]; exact travels_pure _))))

theorem travels_cfmEraseWaitOp (b : Nat) : Travels (cfmEraseWaitOp b) :=
  travels_familyOp b (travels_bind (travels_cfmDescriptor b) (fun _ => travels_pure _))

theorem travels_cfmBlankCheckOp (b : Nat) : Travels (cfmBlankCheckOp b) :=
  travels_familyOp b (travels_bind (travels_cfmDescriptor b) (fun _ => travels_bind (travels_cfmCommand _ _ _ _) (fun _ =>
    travels_ite (travels_pure _) (travels_bind (travels_rd _ _) (fun _ =>
      travels_ite (travels_bind (travels_wr _ _) (fun _ => travels_pure _)) (travels_pure _))))))

theorem travels_cfmProbeOp (addr : Nat) : Travels (cfmProbeOp addr) := by
  have : ∀ rows, Travels (cfmProbeRows addr rows) := by
    intro rows
    induction rows with
    | nil => exact travels_pure _
    | cons e rows ih =>
      exact travels_get (fun s => travels_bind (travels_rd _ _) (fun _ => travels_ite (travels_pure _) ih))
  exact travels_probeOp (travels_get (fun s => this _))

/-! ### INTEL -/

theorem travels_intelDescriptor (b : Nat) : Travels (intelDescriptor b) :=
  travels_bind (travels_owningArea b) (fun a => by cases a.binding <;> first | exact travels_pure _ | exact travels_raise _)

theorem travels_intelSector (d : IntelDescriptor) (a : Nat) : Travels (intelSector d a) := by
  unfold intelSector; cases d.sectorRange a <;> first | exact travels_pure _ | exact travels_raise _

theorem travels_statusPoll (d : IntelDescriptor) (a : Nat) : Travels (statusPoll d a) := by
  have loop : ∀ k, Travels (statusLoop d a k) := by
    intro k
    induction k with
    | zero => exact travels_bind (travels_wr _ _) (fun _ => travels_pure _)
    | succ k ih =>
      exact travels_bind (travels_setPoll _) (fun _ => travels_bind (travels_rd _ _) (fun _ =>
        travels_ite (travels_ite (travels_bind (travels_wr _ _) (fun _ => travels_bind (travels_wr _ _) (fun _ => travels_pure _)))
          (travels_pure _)) ih))
  exact travels_get (fun s => loop _)

theorem travels_programChunk (d : IntelDescriptor) (s c : Nat) (wants : List BusWord) : Travels (programChunk d s c wants) := by
  have burst : ∀ (l : List BusWord) c, Travels (verifyBurst d.chip.busWidth c l) := by
    intro l
    induction l with
    | nil => intro c; exact travels_pure _
    | cons v vs ih => intro c; exact travels_bind (travels_rd _ _) (fun _ => travels_ite (ih _) (travels_pure _))
  match wants with
  | [] => exact travels_pure _
  | [want] =>
    exact travels_bind (travels_wrAll _) (fun _ => travels_bind (travels_statusPoll _ _) (fun _ => travels_ite (travels_pure _)
      (travels_bind (travels_wr _ _) (fun _ => travels_bind (travels_rd _ _) (fun _ => travels_pure _)))))
  | v :: x :: vs =>
    exact travels_bind (travels_wr _ _) (fun _ => travels_bind (travels_statusPoll _ _) (fun _ => travels_ite (travels_pure _)
      (travels_bind (travels_wr _ _) (fun _ => travels_bind (travels_wrAll _) (fun _ => travels_bind (travels_wr _ _) (fun _ =>
        travels_bind (travels_statusPoll _ _) (fun _ => travels_ite (travels_pure _)
          (travels_bind (travels_wr _ _) (fun _ => burst _ _)))))))))

theorem travels_intelProgramOp (b addr n : Nat) (data : Nat → Byte) : Travels (intelProgramOp b addr n data) := by
  have merge : ∀ w k done c, Travels (mergeChunk w addr n data k done c) := by
    intro w k
    induction k with
    | zero => intro done c; exact travels_pure _
    | succ k ih => intro done c; exact travels_bind (travels_rd _ _) (fun _ => travels_bind (ih _ _) (fun _ => travels_pure _))
  have chunk : ∀ d done c u, Travels (intelChunk b d addr n data done c u) := by
    intro d done c u
    refine travels_bind (travels_intelSector _ _) (fun r => travels_bind (merge _ _ _ _) (fun x => travels_ite (travels_bind ?_ (fun _ =>
      travels_bind (travels_markErased _ _) (fun _ => travels_bind (travels_programChunk _ _ _ _) (fun _ => travels_pure _))))
      (travels_pure _)))
    exact travels_ite (travels_pure _) (travels_bind (travels_wrAll _) (fun _ => travels_pure _))
  have fin : ∀ d before, Travels (intelFinish d before n) := fun d before =>
    travels_bind (travels_orAccessStatus (travels_bind (travels_wr _ _) (fun _ => travels_pure _))) (fun _ => travels_pure _)
  have loop : ∀ d k before done c u, Travels (chunkLoop b d addr n data k before done c u) := by
    intro d k
    induction k with
    | zero => intro before done c u; exact fin _ _
    | succ k ih =>
      intro before done c u
      exact travels_ite (travels_bind (travels_orAccessChunk (chunk _ _ _ _)) (fun x => travels_ite (ih _ _ _ _) (travels_pure _))) (fin _ _)
  exact travels_familyOp b (travels_bind (travels_intelDescriptor b) (fun d => travels_ite (travels_pure _) (loop _ _ _ _ _ _)))

theorem travels_intelEraseSectorOp (b addr : Nat) : Travels (intelEraseSectorOp b addr) :=
  travels_familyOp b (travels_bind (travels_intelDescriptor b) (fun d => travels_bind (travels_intelSector _ _) (fun r =>
    travels_bind (travels_markErased _ _) (fun _ => travels_bind (travels_wrAll _) (fun _ => travels_bind (travels_wrAll _) (fun _ =>
      travels_bind (travels_statusPoll _ _) (fun _ => travels_ite (travels_pure _) (travels_bind (travels_wr _ _) (fun _ =>
        travels_bind (travels_verifyErased _ _ _) (fun _ => travels_pure _))))))))))

theorem travels_intelEraseAllOp (b : Nat) : Travels (intelEraseAllOp b) := by
  have : ∀ l, Travels (intelEraseSectors b l) := by
    intro l
    induction l with
    | nil => exact travels_bind (travels_markErased _ _) (fun _ => travels_pure _)
    | cons r l ih => exact travels_bind (travels_intelEraseSectorOp _ _) (fun _ => travels_ite ih (travels_pure _))
  exact travels_familyOp b (travels_bind (travels_intelDescriptor b) (fun d => this _))

theorem travels_intelEraseWaitOp (b : Nat) : Travels (intelEraseWaitOp b) :=
  travels_familyOp b (travels_bind (travels_intelDescriptor b) (fun _ => travels_pure _))

theorem travels_intelBlankCheckOp (b : Nat) : Travels (intelBlankCheckOp b) :=
  travels_familyOp b (travels_bind (travels_intelDescriptor b) (fun _ => travels_pure _))

theorem travels_intelProbeOp (addr : Nat) : Travels (intelProbeOp addr) := by
  have hit : ∀ d, Travels (intelHit d) := fun d =>
    travels_ite (travels_bind (travels_bind (travels_wr _ _) (fun _ => travels_bind (travels_rd _ _) (fun _ =>
      travels_bind (travels_wr _ _) (fun _ => travels_pure _)))) (fun _ => travels_pure _)) (travels_pure _)
  have : ∀ ps, Travels (intelProbePairs addr ps) := by
    intro ps
    induction ps with
    | nil => exact travels_pure _
    | cons p ps ih =>
      refine travels_get (fun s => travels_bind (travels_probeAttempt _ _ _ _ _ _) (fun x => ?_))
      cases x <;> first | exact ih | exact hit _
  exact travels_probeOp (this _)

/-! ### The registry -/

theorem travels_ramStore (a n : Nat) (data : Nat → Byte) : Travels (ramStore a n data) := by
  have loop : ∀ k done, Travels (ramLoop a n data k done) := by
    intro k
    induction k with
    | zero => intro done; exact travels_pure _
    | succ k ih =>
      intro done
      exact travels_ite (travels_bind (travels_memWrite _ _) (fun x => by cases x <;> first | exact travels_pure _ | exact ih _)) (travels_pure _)
  exact loop _ _

theorem travels_delegateWrite (a : MemoryArea) (addr n : Nat) (data : Nat → Byte) : Travels (delegateWrite a addr n data) := by
  unfold delegateWrite
  cases a.binding with
  | ram => exact travels_ramStore _ _ _
  | amd d => exact travels_amdProgramOp _ _ _ _
  | cfm d => exact travels_cfmProgramOp _ _ _ _
  | intel d => exact travels_intelProgramOp _ _ _ _

theorem travels_writeLoop (addr n : Nat) (data : Nat → Byte) : ∀ k written st, Travels (writeLoop addr n data k written st) := by
  intro k
  induction k with
  | zero => intro written st; exact travels_pure _
  | succ k ih =>
    intro written st
    exact travels_ite (travels_bind (travels_owningArea _) (fun a => travels_bind (travels_delegateWrite _ _ _ _) (fun r =>
      travels_ite (travels_pure _) (ih _ _)))) (travels_pure _)

theorem travels_dispatchOwner (address : Nat) {op : MemoryArea → Option (Op FlashResult)} (h : ∀ a m, op a = some m → Travels m) :
    Travels (dispatchOwner address op) := by
  refine travels_bind (travels_owningArea _) (fun a => ?_)
  cases ho : op a with
  | none => exact travels_pure _
  | some m => exact travels_bind (h a m ho) (fun _ => travels_pure _)

theorem travels_eraseOf (a : MemoryArea) (address : Nat) (whole : Bool) (m : Op FlashResult) (h : eraseOf a address whole = some m) :
    Travels m := by
  unfold eraseOf at h
  cases hb : a.binding <;> rw [hb] at h <;> simp only [Option.some.injEq, reduceCtorEq] at h
  · subst h; exact travels_ite (travels_amdEraseAllOp _) (travels_amdEraseSectorOp _ _)
  · subst h; exact travels_ite (travels_cfmEraseAllOp _) (travels_cfmEraseSectorOp _ _)
  · subst h; exact travels_ite (travels_intelEraseAllOp _) (travels_intelEraseSectorOp _ _)

theorem travels_eraseWaitOf (a : MemoryArea) (m : Op FlashResult) (h : eraseWaitOf a = some m) : Travels m := by
  unfold eraseWaitOf at h
  cases hb : a.binding <;> rw [hb] at h <;> simp only [Option.some.injEq, reduceCtorEq] at h
  · subst h; exact travels_amdEraseWaitOp _
  · subst h; exact travels_cfmEraseWaitOp _
  · subst h; exact travels_intelEraseWaitOp _

theorem travels_blankCheckOf (a : MemoryArea) (m : Op FlashResult) (h : blankCheckOf a = some m) : Travels m := by
  unfold blankCheckOf at h
  cases hb : a.binding <;> rw [hb] at h <;> simp only [Option.some.injEq, reduceCtorEq] at h
  · subst h; exact travels_amdBlankCheckOp _
  · subst h; exact travels_cfmBlankCheckOp _
  · subst h; exact travels_intelBlankCheckOp _

theorem travels_probeCandidates (addr : Nat) (families : List Family) : Travels (probeCandidates addr families) := by
  induction families with
  | nil => exact travels_pure _
  | cons f rest ih =>
    have hf : Travels (probeFamily addr f) := by
      cases f
      · exact travels_amdProbeOp _
      · exact travels_cfmProbeOp _
      · exact travels_intelProbeOp _
    refine travels_bind hf (fun r => ?_)
    split
    · exact travels_raise _
    · cases r.binding with
      | none => exact ih
      | some d => exact travels_ite (travels_pure _) ih

/-- An operation that travels ends a chain of effects away, with an outcome. -/
theorem runOp_travels {m : Op OpResult} (h : Travels m) (s : State) :
    ∃ u r, MemPath s u ∧ runOp m s = .next (u.conclude r) := by
  have := h s
  unfold runOp
  cases hm : m s with
  | ok r t => rw [hm] at this; exact ⟨t, r, this, rfl⟩
  | error e t =>
    rw [hm] at this
    cases e with
    | fault f => exact ⟨t, _, this, rfl⟩
    | access f => exact ⟨t, _, this, rfl⟩

/-- Every operation on target memory but REGISTER_AREA ends a chain of effects away (R65). -/
theorem exec_travels {i : Instr} (hi : memoryOperation i = true) (hr : ∀ hint base, i ≠ .registerArea hint base) (s : State) :
    ∃ u r, MemPath s u ∧ exec i s = .next (u.conclude r) := by
  have flash : ∀ {m : Op MemoryArea} {k : MemoryArea → Op FlashResult}, Travels m → (∀ a, Travels (k a)) →
      Travels (do let a ← m; let r ← k a; pure (OpResult.flash r)) :=
    fun h1 h2 => travels_bind h1 (fun _ => travels_bind (h2 _) (fun _ => travels_pure _))
  have probe : ∀ {m : Op ProbeResult}, Travels m → Travels (do let r ← m; pure (OpResult.probe r)) :=
    fun h => travels_bind h (fun _ => travels_pure _)
  cases i <;> simp only [memoryOperation, engineOperation, opensChannel, Bool.not_true, Bool.not_false, Bool.and_self, Bool.false_and,
    Bool.and_false, Bool.false_eq_true] at hi
  case registerArea hint base => exact absurd rfl (hr hint base)
  case writeMemory a n => exact runOp_travels (travels_writeLoop _ _ _ _ _ _) s
  case eraseArea a w => exact runOp_travels (travels_dispatchOwner _ (fun e m h => travels_eraseOf e _ _ m h)) s
  case eraseWait a => exact runOp_travels (travels_dispatchOwner _ travels_eraseWaitOf) s
  case blankCheck a => exact runOp_travels (travels_dispatchOwner _ travels_blankCheckOf) s
  case ramWrite a n => exact runOp_travels (travels_bind (travels_ramStore _ _ _) (fun _ => travels_pure _)) s
  case amdProbe a => exact runOp_travels (probe (travels_amdProbeOp _)) s
  case amdProgram a n => exact runOp_travels (flash (travels_areaOwning _ _) (fun _ => travels_amdProgramOp _ _ _ _)) s
  case amdEraseSector a => exact runOp_travels (flash (travels_owningArea _) (fun _ => travels_amdEraseSectorOp _ _)) s
  case amdEraseAll => exact runOp_travels (flash (travels_owningArea _) (fun _ => travels_amdEraseAllOp _)) s
  case amdEraseWait => exact runOp_travels (flash (travels_owningArea _) (fun _ => travels_amdEraseWaitOp _)) s
  case amdBlankCheck a => exact runOp_travels (flash (travels_owningArea _) (fun _ => travels_amdBlankCheckOp _)) s
  case cfmProbe a => exact runOp_travels (probe (travels_cfmProbeOp _)) s
  case cfmProgram a n => exact runOp_travels (flash (travels_areaOwning _ _) (fun _ => travels_cfmProgramOp _ _ _ _)) s
  case cfmEraseSector a => exact runOp_travels (flash (travels_owningArea _) (fun _ => travels_cfmEraseSectorOp _ _)) s
  case cfmEraseAll => exact runOp_travels (flash (travels_owningArea _) (fun _ => travels_cfmEraseAllOp _)) s
  case cfmEraseWait => exact runOp_travels (flash (travels_owningArea _) (fun _ => travels_cfmEraseWaitOp _)) s
  case cfmBlankCheck a => exact runOp_travels (flash (travels_owningArea _) (fun _ => travels_cfmBlankCheckOp _)) s
  case intelProbe a => exact runOp_travels (probe (travels_intelProbeOp _)) s
  case intelProgram a n => exact runOp_travels (flash (travels_areaOwning _ _) (fun _ => travels_intelProgramOp _ _ _ _)) s
  case intelEraseSector a => exact runOp_travels (flash (travels_owningArea _) (fun _ => travels_intelEraseSectorOp _ _)) s
  case intelEraseAll => exact runOp_travels (flash (travels_owningArea _) (fun _ => travels_intelEraseAllOp _)) s
  case intelEraseWait => exact runOp_travels (flash (travels_owningArea _) (fun _ => travels_intelEraseWaitOp _)) s
  case intelBlankCheck a => exact runOp_travels (flash (travels_owningArea _) (fun _ => travels_intelBlankCheckOp _)) s

end Sys2Proof.Laws
end

