-- ==== Sys2Proof/Laws/Probe.lean ====
section
/-! SUPPORT. The probes (R242, R243): a probe leaves the registry as it is, and a search over width pairs plays the attempts that the environment
answers, up to the first hit or the first access that fails. -/

namespace Sys2Proof.Laws

open Sys2Proof Sys2Proof.Machine

variable {α β ρ : Type}

/-! ### No probe touches the registry (R241) -/

/-- The registry is the same wherever `m` ends. -/
def Quiet (m : Op α) : Prop :=
  ∀ s, match m s with
    | .ok _ t => t.registry = s.registry
    | .error _ t => t.registry = s.registry

theorem quiet_ok {m : Op α} (h : Quiet m) {s t : State} {a : α} (hm : m s = .ok a t) : t.registry = s.registry := by
  have := h s; rwa [hm] at this

theorem quiet_pure (a : α) : Quiet (pure a : Op α) := fun _ => rfl

theorem quiet_raise (f : FaultKind) : Quiet (raise f : Op α) := fun _ => rfl

theorem quiet_abort (f : ProtoFault) : Quiet (abort f : Op α) := fun _ => rfl

theorem quiet_bind {m : Op α} {k : α → Op β} (h1 : Quiet m) (h2 : ∀ a, Quiet (k a)) : Quiet (m >>= k) := by
  intro s
  rw [run_bind]
  have := h1 s
  cases hm : m s with
  | ok a t =>
    rw [hm] at this
    simp only
    have h := h2 a t
    cases hk : k a t with
    | ok b u => rw [hk] at h; exact h.trans this
    | error e u => rw [hk] at h; exact h.trans this
  | error e t => rw [hm] at this; exact this

theorem quiet_ite {c : Prop} [Decidable c] {m n : Op α} (hm : Quiet m) (hn : Quiet n) : Quiet (if c then m else n) := by
  split <;> assumption

theorem quiet_get {k : State → Op β} (h : ∀ x, Quiet (k x)) : Quiet (do let s ← get; k s) := by
  intro s; rw [run_bind]; exact h s s

theorem quiet_rd (a n : Nat) : Quiet (rd a n) := by
  refine quiet_bind (fun s => ?_) (fun x => by cases x <;> first | exact quiet_abort _ | exact quiet_pure _)
  unfold memRead
  by_cases hc : callAllowed a n = true
  · simp only [hc, if_true]; cases s.nextReply (.read a n) <;> rfl
  · simp only [hc, Bool.false_eq_true, if_false]

theorem quiet_wr (a : Nat) (v : BusWord) : Quiet (wr a v) := by
  refine quiet_bind (fun s => ?_) (fun x => by cases x <;> first | exact quiet_abort _ | exact quiet_pure _)
  unfold memWrite
  by_cases hc : callAllowed a v.length = true
  · simp only [hc, if_true]; cases s.nextReply (.write a v) <;> rfl
  · simp only [hc, Bool.false_eq_true, if_false]

theorem quiet_wrAll (ws : List (Nat × BusWord)) : Quiet (wrAll ws) := by
  induction ws with
  | nil => exact quiet_pure ()
  | cons w ws ih => exact quiet_bind (quiet_wr _ _) (fun _ => ih)

theorem quiet_probeOp {m : Op ProbeResult} (h : Quiet m) : Quiet (probeOp m) := by
  intro s
  have := h s
  simp only [probeOp]
  cases hm : m s with
  | ok a t => rw [hm] at this; exact this
  | error e t => rw [hm] at this; cases e <;> exact this

/-- The end of an attempt: back to the array, and the restoring store (R243). -/
def leaveAttempt (addr w : Nat) (leave orig : BusWord) (hit : Option ρ) : Op (Option ρ) := do
  wr addr leave
  let back ← rd addr w
  if back ≠ orig then do
    wr addr orig
    pure hit
  else pure hit

/-- The row the two identifier words name (R243). -/
def namedRow (w c : Nat) (man dev : BusWord) (table : Nat → Nat → Option ρ) : Option ρ :=
  match agreedValue w c man, agreedValue w c dev with
  | some m, some v => table m v
  | none, _ => none
  | some _, none => none

/-- An attempt, in its parts. -/
theorem probeAttempt_eq (addr w c : Nat) (enter : List (Nat × BusWord)) (leave : BusWord) (table : Nat → Nat → Option ρ) :
    probeAttempt addr w c enter leave table = (do
      let orig ← rd addr w
      wrAll enter
      let man ← rd addr w
      let dev ← rd (addr + w) w
      match namedRow w c man dev table with
      | none => leaveAttempt addr w leave orig none
      | some e => do
        let hit ← aliasGuard addr w man e
        leaveAttempt addr w leave orig hit) := by
  unfold probeAttempt namedRow
  congr 1; funext orig; congr 1; funext _; congr 1; funext man; congr 1; funext dev
  dsimp only
  cases agreedValue w c man with
  | none => rfl
  | some m =>
    cases agreedValue w c dev with
    | none => rfl
    | some v => dsimp only; cases table m v <;> rfl

theorem quiet_leaveAttempt (addr w : Nat) (leave orig : BusWord) (hit : Option ρ) : Quiet (leaveAttempt addr w leave orig hit) :=
  quiet_bind (quiet_wr _ _) (fun _ => quiet_bind (quiet_rd _ _) (fun _ =>
    quiet_ite (quiet_bind (quiet_wr _ _) (fun _ => quiet_pure _)) (quiet_pure _)))

theorem quiet_probeAttempt (addr w c : Nat) (enter : List (Nat × BusWord)) (leave : BusWord) (table : Nat → Nat → Option ρ) :
    Quiet (probeAttempt addr w c enter leave table) := by
  rw [probeAttempt_eq]
  refine quiet_bind (quiet_rd _ _) (fun orig => quiet_bind (quiet_wrAll _) (fun _ => quiet_bind (quiet_rd _ _) (fun man =>
    quiet_bind (quiet_rd _ _) (fun dev => ?_))))
  cases namedRow w c man dev table with
  | none => exact quiet_leaveAttempt _ _ _ _ _
  | some e =>
    exact quiet_bind (quiet_bind (quiet_wr _ _) (fun _ => quiet_bind (quiet_rd _ _) (fun _ => quiet_pure _)))
      (fun hit => quiet_leaveAttempt _ _ _ _ _)

theorem quiet_amdProbeOp (addr : Nat) : Quiet (amdProbeOp addr) := by
  have : ∀ ps, Quiet (amdProbePairs addr ps) := by
    intro ps
    induction ps with
    | nil => exact quiet_pure _
    | cons p ps ih =>
      exact quiet_get (fun s => quiet_bind (quiet_probeAttempt _ _ _ _ _ _) (fun x => by cases x <;> first | exact ih | exact quiet_pure _))
  exact quiet_probeOp (this _)

theorem quiet_cfmProbeOp (addr : Nat) : Quiet (cfmProbeOp addr) := by
  have : ∀ rows, Quiet (cfmProbeRows addr rows) := by
    intro rows
    induction rows with
    | nil => exact quiet_pure _
    | cons e rows ih =>
      exact quiet_get (fun s => quiet_bind (quiet_rd _ _) (fun _ => quiet_ite (quiet_pure _) ih))
  exact quiet_probeOp (quiet_get (fun s => this _))

theorem quiet_intelProbeOp (addr : Nat) : Quiet (intelProbeOp addr) := by
  have hit : ∀ d, Quiet (intelHit d) := fun d =>
    quiet_ite (quiet_bind (quiet_bind (quiet_wr _ _) (fun _ => quiet_bind (quiet_rd _ _) (fun _ =>
      quiet_bind (quiet_wr _ _) (fun _ => quiet_pure _)))) (fun _ => quiet_pure _)) (quiet_pure _)
  have : ∀ ps, Quiet (intelProbePairs addr ps) := by
    intro ps
    induction ps with
    | nil => exact quiet_pure _
    | cons p ps ih =>
      exact quiet_get (fun s => quiet_bind (quiet_probeAttempt _ _ _ _ _ _) (fun x => by cases x <;> first | exact ih | exact hit _))
  exact quiet_probeOp (this _)

theorem quiet_probeFamily (addr : Nat) (f : Family) : Quiet (probeFamily addr f) := by
  cases f
  · exact quiet_amdProbeOp _
  · exact quiet_cfmProbeOp _
  · exact quiet_intelProbeOp _

/-- The probes of REGISTER_AREA leave the registry as it is (R212, R214). -/
theorem quiet_probeCandidates (addr : Nat) (families : List Family) : Quiet (probeCandidates addr families) := by
  induction families with
  | nil => exact quiet_pure _
  | cons f rest ih =>
    refine quiet_bind (quiet_probeFamily addr f) (fun r => ?_)
    split
    · exact quiet_raise _
    · cases r.binding with
      | none => exact ih
      | some d => exact quiet_ite (quiet_pure _) ih

/-! ### Attempts (R243) -/

theorem plays_leaveAttempt {bound addr w : Nat} {leave orig back : BusWord} (hit : Option ρ) (hl : back.length = w)
    (hc : callsAllowed ([MemEvent.wrote addr leave, .read addr back] ++ (if back = orig then [] else [.wrote addr orig])) = true) :
    Plays bound (leaveAttempt addr w leave orig hit)
      ([MemEvent.wrote addr leave, .read addr back] ++ (if back = orig then [] else [.wrote addr orig])) hit := by
  simp only [callsAllowed, List.cons_append, List.nil_append, List.all_cons, Bool.and_eq_true] at hc
  refine plays_bind (e1 := [.wrote addr leave]) (plays_wr hc.1) (plays_bind (e1 := [.read addr back]) (plays_rd hl hc.2.1) ?_)
  by_cases h : back = orig
  · simpa [h] using plays_pure bound hit
  · simp only [h, if_false, not_false_iff, if_true, ne_eq, List.all_cons, Bool.and_eq_true] at hc ⊢
    exact plays_then_pure (plays_wr hc.2.2.1) (plays_pure bound hit)

/-- What an attempt does when it is answered, and when one of its accesses fails (R243, R250). -/
theorem plays_probeAttempt {bound addr w c : Nat} {enter : List (Nat × BusWord)} {leave : BusWord} {table : Nat → Nat → Option ρ}
    {t : ProbeTry} (ht : t.sound w c table = true) (hc : callsAllowed (t.events addr w enter leave) = true) :
    Plays bound (probeAttempt addr w c enter leave table) (t.events addr w enter leave) (t.hit w c table) := by
  simp only [ProbeTry.sound, Bool.and_eq_true, beq_iff_eq] at ht
  obtain ⟨⟨⟨⟨⟨ho, hm⟩, hd⟩, hb⟩, hg⟩, hgl⟩ := ht
  have hrow : t.row w c table = namedRow w c t.man t.dev table := by
    unfold ProbeTry.row namedRow
    cases agreedValue w c t.man <;> cases agreedValue w c t.dev <;> rfl
  rw [probeAttempt_eq]
  simp only [ProbeTry.events, List.append_assoc] at hc ⊢
  rw [callsAllowed_append, Bool.and_eq_true, callsAllowed_read] at hc
  refine plays_bind (plays_rd ho hc.1) ?_
  have hc := hc.2
  rw [callsAllowed_append, Bool.and_eq_true] at hc
  refine plays_bind (plays_wrAll bound enter hc.1) ?_
  have hc := hc.2
  rw [callsAllowed_append, Bool.and_eq_true, callsAllowed_cons, callsAllowed_read, callsAllowed_read, Bool.and_eq_true] at hc
  refine plays_bind (e1 := [.read addr t.man]) (plays_rd hm hc.1.1) (plays_bind (e1 := [.read (addr + w) t.dev]) (plays_rd hd hc.1.2) ?_)
  have hc := hc.2
  rw [callsAllowed_append, Bool.and_eq_true] at hc
  rw [← hrow]
  cases hr : t.row w c table with
  | none =>
    have hgn : t.guard = none := by simpa [hr] using hg
    have hhit : t.hit w c table = none := by simp [ProbeTry.hit, hgn, hr]
    rw [hgn, hhit]
    simp only [List.nil_append]
    exact plays_leaveAttempt none hb hc.2
  | some e =>
    obtain ⟨g, hgs⟩ : ∃ g, t.guard = some g := by simpa [hr, Option.isSome_iff_exists] using hg
    rw [hgs] at hgl hc ⊢
    simp only [Option.all_some, beq_iff_eq] at hgl
    have hc1 : callAllowed addr (complement t.man).length = true ∧ callAllowed addr g.length = true := by
      simpa [callsAllowed] using hc.1
    have hhit : t.hit w c table = if g = complement t.man then none else some e := by simp [ProbeTry.hit, hgs, hr]
    rw [hhit]
    refine plays_bind (a := if g = complement t.man then none else some e) ?_ (plays_leaveAttempt _ hb hc.2)
    exact plays_bind (e1 := [.wrote addr (complement t.man)]) (plays_wr hc1.1) (plays_then_pure (plays_rd hgl hc1.2) (plays_pure bound _))

/-! ### The search over width pairs (R242) -/

/-- A search that makes an attempt for each pair in turn, and at a hit goes on with `found`. -/
def Searches (p : Params) (addr : Nat) (enter : Nat → Nat → List (Nat × BusWord)) (leave : Nat → Nat → BusWord)
    (table : Nat → Nat → Nat → Option ρ) (found : Nat → Nat → ρ → Op ProbeResult) (search : List (Nat × Nat) → Op ProbeResult) : Prop :=
  (∀ s, search [] s = .ok noMatch s) ∧
  ∀ (w c : Nat) (rest : List (Nat × Nat)) (s : State), s.params = p →
    search ((w, c) :: rest) s =
      (do
        let hit ← probeAttempt addr w c (enter w c) (leave w c) (table c)
        match hit with
        | some e => found w c e
        | none => search rest) s

/-- What a search does when its attempts are answered, up to a hit or to the last pair, and when one of its accesses fails. -/
theorem run_search {p : Params} {addr : Nat} {enter : Nat → Nat → List (Nat × BusWord)} {leave : Nat → Nat → BusWord}
    {table : Nat → Nat → Nat → Option ρ} {found : Nat → Nat → ρ → Op ProbeResult} {search : List (Nat × Nat) → Op ProbeResult}
    (hs : Searches p addr enter leave table found search) (tries : List ProbeTry) : ∀ (pairs : List (Nat × Nat)) (s : State), s.params = p →
    triesSound table pairs tries = true → callsAllowed (triesEvents addr enter leave pairs tries) = true →
    (∀ rest, tries.length = pairs.length → triesHit table pairs tries = none →
      s.memScript = answersOf (triesEvents addr enter leave pairs tries) ++ rest →
      ∃ g, search pairs s = .ok noMatch ((s.performed (triesEvents addr enter leave pairs tries)).withWork g)) ∧
    (∀ w c e rest, triesHit table pairs tries = some ((w, c), e) →
      s.memScript = answersOf (triesEvents addr enter leave pairs tries) ++ rest →
      ∃ g, search pairs s = found w c e ((s.performed (triesEvents addr enter leave pairs tries)).withWork g)) ∧
    (∀ j f rest, j < (triesEvents addr enter leave pairs tries).length →
      s.memScript = answersOf ((triesEvents addr enter leave pairs tries).take j) ++ .fault f :: rest →
      ∃ g, search pairs s = .error (.access f) ((s.cutOff ((triesEvents addr enter leave pairs tries).take j)).withWork g)) := by
  induction tries with
  | nil =>
    intro pairs s hp _ _
    cases pairs with
    | nil =>
      refine ⟨fun rest _ _ _ => ⟨id, hs.1 s⟩, fun w c e rest h => ?_, fun j f rest h => ?_⟩
      · simp [triesHit] at h
      · simp [triesEvents] at h
    | cons x pairs =>
      refine ⟨fun rest h => ?_, fun w c e rest h => ?_, fun j f rest h => ?_⟩
      · simp at h
      · simp [triesHit] at h
      · simp [triesEvents] at h
  | cons t tries ih =>
    intro pairs s hp hsound hc
    cases pairs with
    | nil => simp [triesSound] at hsound
    | cons x pairs =>
      obtain ⟨w, c⟩ := x
      simp only [triesSound, Bool.and_eq_true] at hsound
      obtain ⟨⟨ht, hlast⟩, hrest⟩ := hsound
      simp only [triesEvents] at hc ⊢
      rw [callsAllowed_append, Bool.and_eq_true] at hc
      obtain ⟨ok, cut⟩ := plays_probeAttempt (bound := p.flashPollBound) ht hc.1 s (by rw [hp])
      have go : ∀ more, s.memScript = answersOf (t.events addr w (enter w c) (leave w c)) ++ more →
          ∃ g, probeAttempt addr w c (enter w c) (leave w c) (table c) s =
              .ok (t.hit w c (table c)) ((s.performed (t.events addr w (enter w c) (leave w c))).withWork g) ∧
            ((s.performed (t.events addr w (enter w c) (leave w c))).withWork g).memScript = more ∧
            ((s.performed (t.events addr w (enter w c) (leave w c))).withWork g).params = p := by
        intro more h
        obtain ⟨g, hg⟩ := ok more h
        refine ⟨g, hg, ?_, by simpa using hp⟩
        rw [withWork_memScript, performed_memScript, h, ← answersOf_length (t.events addr w (enter w c) (leave w c)), List.drop_left]
      refine ⟨fun rest hl hmiss hscr => ?_, fun w' c' e rest hhit hscr => ?_, fun j f rest hj hscr => ?_⟩
      · simp only [triesHit] at hmiss
        cases hh : t.hit w c (table c) with
        | some e => rw [hh] at hmiss; simp at hmiss
        | none =>
          rw [hh] at hmiss
          obtain ⟨g, hg, hm, hpp⟩ := go (answersOf (triesEvents addr enter leave pairs tries) ++ rest) (by simpa using hscr)
          obtain ⟨g', hg'⟩ := (ih pairs _ hpp hrest hc.2).1 rest (by simpa using hl) hmiss hm
          refine ⟨fun v => g' (g v), ?_⟩
          rw [hs.2 w c pairs s hp, run_bind, hg]
          simp only [hh]
          rw [hg', performed_withWork, ← performed_append, withWork_withWork]
      · simp only [triesHit] at hhit
        cases hh : t.hit w c (table c) with
        | some e' =>
          rw [hh] at hhit
          simp only [Option.some.injEq, Prod.mk.injEq] at hhit
          obtain ⟨⟨rfl, rfl⟩, rfl⟩ := hhit
          have hnil : tries = [] := by simpa [hh] using hlast
          subst hnil
          have hev : triesEvents addr enter leave pairs [] = [] := by cases pairs <;> rfl
          rw [hev, List.append_nil] at hscr ⊢
          obtain ⟨g, hg, _, _⟩ := go rest hscr
          refine ⟨g, ?_⟩
          rw [hs.2 w c pairs s hp, run_bind, hg]
          simp only [hh]
        | none =>
          rw [hh] at hhit
          obtain ⟨g, hg, hm, hpp⟩ := go (answersOf (triesEvents addr enter leave pairs tries) ++ rest) (by simpa using hscr)
          obtain ⟨g', hg'⟩ := (ih pairs _ hpp hrest hc.2).2.1 w' c' e rest hhit hm
          refine ⟨fun v => g' (g v), ?_⟩
          rw [hs.2 w c pairs s hp, run_bind, hg]
          simp only [hh]
          rw [hg', performed_withWork, ← performed_append, withWork_withWork]
      · by_cases hlt : j < (t.events addr w (enter w c) (leave w c)).length
        · rw [List.take_append_of_le_length (by omega)] at hscr ⊢
          obtain ⟨g, hg⟩ := cut j f rest hlt hscr
          exact ⟨g, by rw [hs.2 w c pairs s hp, run_bind, hg]⟩
        · have htake : (t.events addr w (enter w c) (leave w c) ++ triesEvents addr enter leave pairs tries).take j =
              t.events addr w (enter w c) (leave w c) ++
                (triesEvents addr enter leave pairs tries).take (j - (t.events addr w (enter w c) (leave w c)).length) := by
            rw [List.take_append, List.take_of_length_le (by omega)]
          rw [htake] at hscr ⊢
          obtain ⟨g, hg, hm, hpp⟩ := go _ (by simpa using hscr)
          cases hh : t.hit w c (table c) with
          | some e =>
            have hnil : tries = [] := by simpa [hh] using hlast
            subst hnil
            have hev : triesEvents addr enter leave pairs [] = [] := by cases pairs <;> rfl
            rw [hev] at hj; simp at hj; omega
          | none =>
            obtain ⟨g', hg'⟩ := (ih pairs _ hpp hrest hc.2).2.2 (j - (t.events addr w (enter w c) (leave w c)).length) f rest
              (by simp at hj; omega) (by simpa using hm)
            refine ⟨fun v => g' (g v), ?_⟩
            rw [hs.2 w c pairs s hp, run_bind, hg]
            simp only [hh]
            rw [hg', cutOff_withWork, cutOff_append, withWork_withWork]

end Sys2Proof.Laws
end

