-- ==== Sys2Proof/Laws/Write.lean ====
section
/-! SUPPORT. WRITE_MEMORY: a delegate reads no byte of the payload beyond its count, and the loop over areas can be started anew at any point. -/

namespace Sys2Proof.Laws

open Sys2Proof Sys2Proof.Machine

/-! ### A program reads only its own payload -/

theorem mergeCell_congr {cur : BusWord} {lo hi done : Nat} {data data' : Nat → Byte}
    (h : ∀ i, lo ≤ i → i < hi → data (done + (i - lo)) = data' (done + (i - lo))) :
    mergeCell cur lo hi data done = mergeCell cur lo hi data' done := by
  unfold mergeCell
  congr 1
  funext i b
  split
  · rename_i hi'; exact h i hi'.1 hi'.2
  · rfl

/-- The bytes merged into the cell at `c` are bytes of the payload (R244). -/
theorem merge_congr {w addr n c : Nat} {cur : BusWord} {data data' : Nat → Byte} (h : ∀ i, i < n → data i = data' i)
    (hnear : addr < c + w) : mergeCell cur (max addr c - c) (min (addr + n) (c + w) - c) data (min (addr + n) (max addr c) - addr) =
      mergeCell cur (max addr c - c) (min (addr + n) (c + w) - c) data' (min (addr + n) (max addr c) - addr) :=
  mergeCell_congr (fun i h1 h2 => h _ (by omega))

theorem rd_zero (a : Nat) (s : State) : rd a 0 s = .error (.fault .illegalOperation) s := by
  have : callAllowed a 0 = false := by simp [callAllowed]
  simp [rd, run_bind, run_memRead_refused this]

/-- With no bytes to a bus word nothing is read. -/
theorem rd_zero_bind {α : Type} (a : Nat) (k k' : BusWord → Op α) : (rd a 0 >>= k) = (rd a 0 >>= k') := by
  funext s; rw [run_bind, run_bind, rd_zero]

theorem cellLoop_congr {w addr n : Nat} {pc : Nat → BusWord → Op FlashStatus} {data data' : Nat → Byte}
    (h : ∀ i, i < n → data i = data' i) (hw : 0 < w) : ∀ k c, addr < c + w →
    cellLoop w pc addr n data k (min (addr + n) (max addr c) - addr) c =
      cellLoop w pc addr n data' k (min (addr + n) (max addr c) - addr) c := by
  intro k
  induction k with
  | zero => intro c _; rfl
  | succ k ih =>
    intro c hnear
    simp only [cellLoop]
    by_cases hd : min (addr + n) (max addr c) - addr < n
    · have hnext : min (addr + n) (max addr c) - addr + (min (addr + n) (c + w) - c - (max addr c - c)) =
          min (addr + n) (max addr (c + w)) - addr := by omega
      simp only [hd, if_true, hnext]
      have hone : programOneCell w pc addr n data (min (addr + n) (max addr c) - addr) c =
          programOneCell w pc addr n data' (min (addr + n) (max addr c) - addr) c := by
        simp only [programOneCell, merge_congr (w := w) h hnear]
      rw [hone, ih (c + w) (by omega)]
    · simp only [hd, if_false]

theorem programCells_congr {w addr n : Nat} {pc : Nat → BusWord → Op FlashStatus} {data data' : Nat → Byte}
    (h : ∀ i, i < n → data i = data' i) : programCells w pc addr n data = programCells w pc addr n data' := by
  unfold programCells
  have hle : addr % w ≤ addr := Nat.mod_le _ _
  rcases Nat.eq_zero_or_pos w with rfl | hw
  · cases n with
    | zero => rfl
    | succ n =>
      simp only [cellLoop, Nat.zero_lt_succ, if_true]
      have : ∀ d, programOneCell 0 pc addr (n + 1) d 0 (addr - addr % 0) = rd (addr - addr % 0) 0 >>= fun _ => pure .ok :=
        fun d => rd_zero_bind _ _ _
      funext s
      rw [this, this, run_bind, run_bind]
      simp only [orAccessStatus, run_bind, rd_zero]
  · have h0 : min (addr + n) (max addr (addr - addr % w)) - addr = 0 := by omega
    have := cellLoop_congr (pc := pc) (addr := addr) h hw n (addr - addr % w) (by have hm : addr % w < w := Nat.mod_lt _ hw; omega)
    rwa [h0] at this

theorem mergeChunk_congr {w addr n : Nat} {data data' : Nat → Byte} (h : ∀ i, i < n → data i = data' i) (hw : 0 < w) :
    ∀ k c, addr < c + w → mergeChunk w addr n data k (min (addr + n) (max addr c) - addr) c =
      mergeChunk w addr n data' k (min (addr + n) (max addr c) - addr) c := by
  intro k
  induction k with
  | zero => intro c _; rfl
  | succ k ih =>
    intro c hnear
    have hnext : min (addr + n) (max addr c) - addr + (min (addr + n) (c + w) - c - (max addr c - c)) =
        min (addr + n) (max addr (c + w)) - addr := by omega
    simp only [mergeChunk, merge_congr (w := w) h hnear, hnext, ih (c + w) (by omega)]

theorem chunkCells_pos (d : IntelDescriptor) (addr n c hi : Nat) : 1 ≤ chunkCells d addr n c hi := by
  unfold chunkCells; split
  · exact le_rfl
  · exact le_max_left _ _

theorem chunkLoop_congr {b addr n : Nat} {d : IntelDescriptor} {data data' : Nat → Byte} (h : ∀ i, i < n → data i = data' i)
    (hw : 0 < d.chip.busWidth) : ∀ k before c u, addr < c + d.chip.busWidth →
    chunkLoop b d addr n data k before (min (addr + n) (max addr c) - addr) c u =
      chunkLoop b d addr n data' k before (min (addr + n) (max addr c) - addr) c u := by
  intro k
  induction k with
  | zero => intro before c u _; rfl
  | succ k ih =>
    intro before c u hnear
    simp only [chunkLoop]
    by_cases hd : min (addr + n) (max addr c) - addr < n
    · simp only [hd, if_true]
      have hone : intelChunk b d addr n data (min (addr + n) (max addr c) - addr) c u =
          intelChunk b d addr n data' (min (addr + n) (max addr c) - addr) c u := by
        simp only [intelChunk, mergeChunk_congr h hw _ c hnear]
      rw [hone]
      funext s
      rw [run_bind, run_bind]
      have hm : ∀ x t, orAccessChunk (intelChunk b d addr n data' (min (addr + n) (max addr c) - addr) c u) s = .ok x t →
          x.1 = .ok → 1 ≤ x.2.1 := by
        intro x t hx hok
        simp only [orAccessChunk] at hx
        split at hx
        · simp only [EStateM.Result.ok.injEq] at hx; rw [← hx.1] at hok; simp at hok
        · rw [intelChunk] at hx
          obtain ⟨r, t1, _, hx⟩ := bind_ok_inv hx
          obtain ⟨y, t2, _, hx⟩ := bind_ok_inv hx
          split at hx
          · obtain ⟨_, t3, _, hx⟩ := bind_ok_inv hx
            obtain ⟨_, t4, _, hx⟩ := bind_ok_inv hx
            obtain ⟨st, t5, _, hx⟩ := bind_ok_inv hx
            simp only [run_pure, EStateM.Result.ok.injEq] at hx
            rw [← hx.1]; exact chunkCells_pos _ _ _ _ _
          · simp only [run_pure, EStateM.Result.ok.injEq] at hx
            rw [← hx.1]; exact chunkCells_pos _ _ _ _ _
      cases hx : orAccessChunk (intelChunk b d addr n data' (min (addr + n) (max addr c) - addr) c u) s with
      | error e t => rfl
      | ok x t =>
        obtain ⟨st, m, u'⟩ := x
        simp only
        by_cases hst : st = .ok
        · have h1 : 1 ≤ m := hm _ _ hx hst
          have hgrow : d.chip.busWidth ≤ m * d.chip.busWidth := Nat.le_mul_of_pos_left _ (by omega)
          have hnext : min (addr + n) (max addr c) - addr + (min (addr + n) (c + m * d.chip.busWidth) - max addr c) =
              min (addr + n) (max addr (c + m * d.chip.busWidth)) - addr := by omega
          simp only [hst, if_true, hnext]
          rw [ih _ _ _ (by omega)]
        · simp only [hst, if_false]
    · simp only [hd, if_false]

theorem intelProgramOp_congr {b addr n : Nat} {data data' : Nat → Byte} (h : ∀ i, i < n → data i = data' i) :
    intelProgramOp b addr n data = intelProgramOp b addr n data' := by
  unfold intelProgramOp
  congr 2
  funext d
  by_cases hn : n = 0
  · simp only [hn, if_true]
  · simp only [hn, if_false]
    have hle : addr % d.chip.busWidth ≤ addr := Nat.mod_le _ _
    rcases Nat.eq_zero_or_pos d.chip.busWidth with hw | hw
    · obtain ⟨n, rfl⟩ : ∃ m, n = m + 1 := ⟨n - 1, by omega⟩
      simp only [chunkLoop, Nat.zero_lt_succ, if_true, hw]
      have hone : intelChunk b d addr (n + 1) data 0 (addr - addr % 0) [] =
          intelChunk b d addr (n + 1) data' 0 (addr - addr % 0) [] := by
        unfold intelChunk
        congr 1
        funext r
        obtain ⟨m, hm⟩ : ∃ m, chunkCells d addr (n + 1) (addr - addr % 0) r.2 = m + 1 :=
          ⟨_, (Nat.succ_pred_eq_of_pos (chunkCells_pos _ _ _ _ _)).symm⟩
        funext s
        simp only [hm, mergeChunk, hw, run_bind, rd_zero]
      rw [hone]
      funext s
      rw [run_bind, run_bind]
      have hbad : ∀ x t, orAccessChunk (intelChunk b d addr (n + 1) data' 0 (addr - addr % 0) []) s = .ok x t → False := by
        intro x t hx
        simp only [orAccessChunk] at hx
        have : intelChunk b d addr (n + 1) data' 0 (addr - addr % 0) [] s = .error (.fault .illegalOperation) s := by
          unfold intelChunk intelSector
          cases hsec : d.sectorRange (addr - addr % 0) with
          | none => simp [run_bind]
          | some r =>
            obtain ⟨m, hm⟩ : ∃ m, chunkCells d addr (n + 1) (addr - addr % 0) r.2 = m + 1 :=
              ⟨_, (Nat.succ_pred_eq_of_pos (chunkCells_pos _ _ _ _ _)).symm⟩
            simp only [run_bind, run_pure, hm, mergeChunk, hw, rd_zero]
        rw [this] at hx; cases hx
      cases hx : orAccessChunk (intelChunk b d addr (n + 1) data' 0 (addr - addr % 0) []) s with
      | error e t => rfl
      | ok x t => exact absurd hx (fun h => hbad _ _ h)
    · have h0 : min (addr + n) (max addr (addr - addr % d.chip.busWidth)) - addr = 0 := by omega
      have := chunkLoop_congr (b := b) (addr := addr) h hw n 0 (addr - addr % d.chip.busWidth) []
        (by have hm : addr % d.chip.busWidth < d.chip.busWidth := Nat.mod_lt _ hw; omega)
      rwa [h0] at this

theorem ramStore_congr {a n : Nat} {data data' : Nat → Byte} (h : ∀ i, i < n → data i = data' i) :
    ramStore a n data = ramStore a n data' := by
  have loop : ∀ k done, ramLoop a n data k done = ramLoop a n data' k done := by
    intro k
    induction k with
    | zero => intro done; rfl
    | succ k ih =>
      intro done
      simp only [ramLoop]
      by_cases hd : done < n
      · have hp : payload data done (ramWidth (a + done) (n - done)) = payload data' done (ramWidth (a + done) (n - done)) := by
          unfold payload
          apply List.map_congr_left
          intro i hi
          have hi := List.mem_range.mp hi
          have : ramWidth (a + done) (n - done) ≤ n - done := by
            unfold ramWidth; split
            · omega
            · split <;> omega
          exact h _ (by omega)
        simp only [hd, if_true, hp, ih]
      · simp only [hd, if_false]
  exact loop _ _

/-- A delegate reads only its own bytes of the payload. -/
theorem delegateWrite_congr {e : MemoryArea} {addr n : Nat} {data data' : Nat → Byte} (h : ∀ i, i < n → data i = data' i) :
    delegateWrite e addr n data = delegateWrite e addr n data' := by
  unfold delegateWrite
  cases e.binding with
  | ram => exact ramStore_congr h
  | amd d => simp only [amdProgramOp, programCells_congr h]
  | cfm d => simp only [cfmProgramOp, programCells_congr h]
  | intel d => exact intelProgramOp_congr h

/-! ### The loop over areas (R220) -/

theorem writeLoop_congr {addr n : Nat} {data data' : Nat → Byte} (h : ∀ i, i < n → data i = data' i) :
    ∀ k written st, writeLoop addr n data k written st = writeLoop addr n data' k written st := by
  intro k
  induction k with
  | zero => intro written st; rfl
  | succ k ih =>
    intro written st
    simp only [writeLoop]
    by_cases hd : written < n ∧ addr + written < addrSpace
    · simp only [hd, and_self, if_true, ih]
      congr 1
      funext e
      rw [delegateWrite_congr (fun i hi => h (written + i) (by omega))]
    · simp only [hd, if_false]

/-- A count raised by the bytes before. -/
def raisedBy (k : Nat) : OpResult → OpResult
  | .written c st => .written (k + c) st
  | r => r

/-- The loop from the byte `k + j` on is the loop of a transfer that begins at byte `k`, from its byte `j` on (R220, R221). -/
theorem writeLoop_shift {addr n k : Nat} {data : Nat → Byte} : ∀ F F' j st, n - k - j ≤ F → n - k - j ≤ F' →
    writeLoop addr n data F (k + j) st =
      (do let r ← writeLoop (addr + k) (n - k) (fun i => data (k + i)) F' j st; pure (raisedBy k r)) := by
  intro F
  induction F with
  | zero =>
    intro F' j st h1 _
    have : ¬ (j < n - k ∧ addr + k + j < addrSpace) := by omega
    cases F' with
    | zero => simp [writeLoop, raisedBy]
    | succ F' => simp only [writeLoop, this, if_false, pure_bind, raisedBy]
  | succ F ih =>
    intro F' j st h1 h2
    by_cases hd : k + j < n ∧ addr + (k + j) < addrSpace
    · obtain ⟨F', rfl⟩ : ∃ m, F' = m + 1 := ⟨F' - 1, by omega⟩
      have hd' : j < n - k ∧ addr + k + j < addrSpace := by omega
      simp only [writeLoop, hd, hd', and_self, if_true, bind_assoc]
      have e1 : addr + (k + j) = addr + k + j := by omega
      have e2 : n - (k + j) = n - k - j := by omega
      rw [e1, e2]
      congr 1
      funext e
      have e3 : (fun i => data (k + j + i)) = (fun i => data (k + (j + i))) := by funext i; rw [Nat.add_assoc]
      rw [e3]
      congr 1
      funext r
      by_cases hc : r.count < min (n - k - j) (e.endAddr - (addr + k + j) + 1)
      · rw [if_pos hc, if_pos hc, Nat.add_assoc]; rfl
      · rw [if_neg hc, if_neg hc, Nat.add_assoc]
        exact ih F' (j + r.count) r.status (by omega) (by omega)
    · have hd' : ¬ (j < n - k ∧ addr + k + j < addrSpace) := by omega
      simp only [writeLoop, hd, if_false]
      cases F' with
      | zero => simp [writeLoop, raisedBy]
      | succ F' => simp only [writeLoop, hd', if_false, pure_bind, raisedBy]

end Sys2Proof.Laws
end

