-- ==== Sys2Proof/Laws/Erase.lean ====
section
/-! SUPPORT. How the erases of the families end on their area (R249, R250, R320, R321), and the wait that comes before an AMD operation with an erase
pending (R270, R275). -/

namespace Sys2Proof.Laws

open Sys2Proof Sys2Proof.Machine

theorem run_areaOwning {s : State} {e : MemoryArea} {address n : Nat} (ha : areaOf s.registry address = some e) (hn : address + n ≤ e.endAddr + 1) :
    areaOwning address n s = .ok e s := by
  rw [areaOwning, run_bind, run_owningArea ha]; simp only [hn, if_true]; rfl

/-- A registry with one area updated. -/
def updated (b : Nat) (f : MemoryArea → MemoryArea) (l : List MemoryArea) : List MemoryArea := l.map (fun a => if a.beginAddr = b then f a else a)

theorem updated_updated (b : Nat) {f g : MemoryArea → MemoryArea} (hf : ∀ a, (f a).beginAddr = a.beginAddr) (l) : updated b g (updated b f l) =
    updated b (fun a => g (f a)) l := by
  unfold updated
  rw [List.map_map]
  apply List.map_congr_left
  intro a _
  simp only [Function.comp]
  by_cases h : a.beginAddr = b
  · simp [h, hf]
  · simp [h]

theorem areaOf_updated {b : Nat} {f : MemoryArea → MemoryArea} (hf : ∀ a, (f a).beginAddr = a.beginAddr ∧ (f a).endAddr = a.endAddr)
    (l : List MemoryArea) (a : Nat) :
    areaOf (updated b f l) a = (areaOf l a).map (fun m => if m.beginAddr = b then f m else m) := by
  induction l with
  | nil => rfl
  | cons x l ih =>
    simp only [areaOf, updated, List.map_cons, List.find?_cons] at ih ⊢
    have e1 : (if x.beginAddr = b then f x else x).beginAddr = x.beginAddr := by split <;> simp [hf]
    have e2 : (if x.beginAddr = b then f x else x).endAddr = x.endAddr := by split <;> simp [hf]
    rw [e1, e2]
    split
    · rfl
    · exact ih

theorem covers_updated {b : Nat} {f : MemoryArea → MemoryArea} (hf : ∀ a, (f a).beginAddr = a.beginAddr ∧ (f a).endAddr = a.endAddr)
    (l : List MemoryArea) : ∀ lo, coversFrom lo (updated b f l) = coversFrom lo l := by
  induction l with
  | nil => intro lo; rfl
  | cons x l ih =>
    intro lo
    have e1 : (if x.beginAddr = b then f x else x).beginAddr = x.beginAddr := by split <;> simp [hf]
    have e2 : (if x.beginAddr = b then f x else x).endAddr = x.endAddr := by split <;> simp [hf]
    simp only [updated, List.map_cons, coversFrom, e1, e2]
    rw [show List.map (fun a => if a.beginAddr = b then f a else a) l = updated b f l from rfl, ih]

theorem familyOp_eq {b : Nat} {m : Op FlashResult} {s : State} : familyOp b m s = 
      match orAccess m s with
      | .ok r t => .ok r (t.withArea b (fun a => a.afterStatus r.status))
      | .error e t => .error e t := by
  rw [familyOp, run_bind]; cases orAccess m s <;> rfl

/-- A host operation on the owner of its address ends as the family operation does (R230 to R232). -/
theorem run_dispatchOwner {s : State} {e : MemoryArea} {address : Nat} {op : MemoryArea → Option (Op FlashResult)} {m : Op FlashResult} {t : State}
    {r : FlashResult}
   (ha : areaOf s.registry address = some e) (ho : op e = some m) (h : ∃ g, m s = .ok r (t.withWork g)) :
   runOp (dispatchOwner address op) s = .next (t.conclude (.flash r)) := by
  apply runOp_ok_work
  obtain ⟨g, h⟩ := h
  refine ⟨g, ?_⟩
  rw [dispatchOwner, run_bind, run_owningArea ha]; simp only [ho]; rw [run_bind, h]; rfl

/-- A family operation on the area that owns its address. -/
theorem run_onOwner {s : State} {e : MemoryArea} {address : Nat} {k : Nat → Op FlashResult} {t : State} {r : FlashResult}
   (ha : areaOf s.registry address = some e) (h : ∃ g, k e.beginAddr s = .ok r (t.withWork g)) :
   runOp (do let a ← owningArea address; let r ← k a.beginAddr; pure (.flash r)) s = .next (t.conclude (.flash r)) := by
  apply runOp_ok_work
  obtain ⟨g, h⟩ := h
  refine ⟨g, ?_⟩
  rw [run_bind, run_owningArea ha]; simp only; rw [run_bind, h]; rfl

/-- A part plays the same after an update of an area. -/
theorem plays_after_update {bound : Nat} {m : Op FlashStatus} {evs : List MemEvent} {st : FlashStatus} (h : Plays bound m evs st) (s : State)
    (b : Nat) (f : MemoryArea → MemoryArea)
   (hb : s.params.flashPollBound = bound) :
   (∀ rest, s.memScript = answersOf evs ++ rest → ∃ g, m (s.withArea b f) = .ok st (((s.performed evs).withArea b f).withWork g)) ∧
   (∀ j x rest, j < evs.length → s.memScript = answersOf (evs.take j) ++ .fault x :: rest → ∃ g, m (s.withArea b f) = .error (.access x)
       (((s.cutOff (evs.take j)).withArea b f).withWork g)) := by
  have := h (s.withArea b f) (by simpa using hb)
  simp only [performed_withArea, cutOff_withArea] at this
  exact this

theorem run_bind_congr {α β : Type} {m : Op α} {k k' : α → Op β} (h : ∀ x, k x = k' x) (s : State) : (m >>= k) s = (m >>= k') s := by rw [funext h]

theorem familyOp_congr {b : Nat} {m m' : Op FlashResult} {s : State} (h : m s = m' s) : familyOp b m s = familyOp b m' s := by
  simp only [familyOp, run_bind, orAccess, h]

/-- A family operation that clears `ERASED`, follows a conduct and may set the flag at its end (R249, R250). -/
theorem run_family_erase {b : Nat} {s : State} {m : Op FlashStatus} {evs : List MemEvent} {st : FlashStatus}
    (hpl : Plays s.params.flashPollBound m evs st) (himp : st ≠ .unimplemented) (erased : Bool)
   {k : Op FlashResult} (hk : ∀ (t : State) g, k ((t.withArea b (fun a => a.withErased false)).withWork g) = .ok (flashDone .ok)
       ((t.withArea b (fun a => a.withErased erased)).withWork g))
   {body : Op FlashResult} (hbody : body s = (do let x ← m; (if x = FlashStatus.ok then k else pure (flashDone x)))
       (s.withArea b (fun a => a.withErased false))) :
   (∀ rest, s.memScript = answersOf evs ++ rest → ∃ g, familyOp b body s = .ok { count := 0, status := st }
       (((s.performed evs).withArea b (fun a => if st = .ok then a.withErased erased else a.flagged true true)).withWork g)) ∧
   (∀ j f rest, j < evs.length → s.memScript = answersOf (evs.take j) ++ .fault f :: rest → ∃ g, familyOp b body s = .ok
       { count := 0, status := .access f } (((s.cutOff (evs.take j)).withArea b (fun a => a.flagged true true)).withWork g)) := by
  obtain ⟨h1, h2⟩ := plays_after_update hpl s b (fun a => a.withErased false) rfl
  constructor
  · intro rest hs
    obtain ⟨g, hg⟩ := h1 rest hs
    by_cases hst : st = .ok
    · subst hst
      have : ∃ g, body s = .ok (flashDone .ok) (((s.performed evs).withArea b (fun a => a.withErased erased)).withWork g) := by
        refine ⟨g, ?_⟩
        rw [hbody, run_bind, hg]; simp only [if_true]
        rw [hk]
      obtain ⟨g, hg⟩ := run_family_ok (f := fun a => a.withErased erased) (fun a => rfl) this
      refine ⟨g, ?_⟩
      rw [hg]; simp [flashDone, MemoryArea.afterStatus, setsError]
    · have : ∃ g, body s = .ok (flashDone st) (((s.performed evs).withArea b (fun a => a.withErased false)).withWork g) := by
        refine ⟨g, ?_⟩
        rw [hbody, run_bind, hg]; simp only [hst, if_false]; rfl
      obtain ⟨g, hg⟩ := run_family_ok (f := fun a => a.withErased false) (fun a => rfl) this
      refine ⟨g, ?_⟩
      rw [hg]; simp [hst, flashDone, MemoryArea.afterStatus, setsError_bad hst himp, MemoryArea.flagged, MemoryArea.withErased]
  · intro j f rest hj hs
    obtain ⟨g, hg⟩ := h2 j f rest hj hs
    have : ∃ g, body s = .error (.access f) (((s.cutOff (evs.take j)).withArea b (fun a => a.withErased false)).withWork g) := by
      refine ⟨g, ?_⟩
      rw [hbody, run_bind, hg]
    obtain ⟨g, hg⟩ := run_family_cut (f := fun a => a.withErased false) (fun a => rfl) this
    refine ⟨g, ?_⟩
    rw [hg]; simp [flashDone, MemoryArea.afterStatus, setsError, MemoryArea.flagged, MemoryArea.withErased]

/-- The end of a blank check, as an operation of its own (R300). -/
def readsBlankBit (d : CfmDescriptor) : Op FlashStatus := do
  let s ← rd d.ust 1
  if laneHas s d.numbers.blank then do
    wr d.ust [d.numbers.blank]
    pure FlashStatus.ok
  else pure .blankFail

/-- A blank check without its flags. -/
def blankBody (d : CfmDescriptor) : Op FlashStatus := do
  let st ← cfmCommand d d.chip.base [0xFF, 0xFF, 0xFF, 0xFF] d.numbers.cmdBlankCheck
  if st ≠ FlashStatus.ok then pure st else readsBlankBit d

theorem follows_readsBlank (bound : Nat) (d : CfmDescriptor) : Follows bound (readsBlankBit d) (cfmReadsBlank d) := by
  have hm : ∀ (v m : Byte), laneHas [v] m = (v &&& m != 0) := fun v m => rfl
  rintro evs st ⟨v, ⟨hv, rfl, rfl⟩ | ⟨hv, rfl, rfl⟩⟩ hall
  · rw [callsAllowed_cons, callsAllowed_read, Bool.and_eq_true, callsAllowed_wrote] at hall
    refine plays_bind (e1 := [_]) (plays_rd rfl hall.1) ?_
    have : (v &&& d.numbers.blank != 0) = true := by simpa using hv
    simp only [hm, this, if_true]
    exact plays_then_pure (plays_wr hall.2) (plays_pure _ _)
  · rw [callsAllowed_read] at hall
    refine plays_bind (e1 := [_]) (e2 := []) (plays_rd rfl hall) ?_
    have : (v &&& d.numbers.blank != 0) = false := by simpa using hv
    simp only [hm, this, Bool.false_eq_true, if_false]
    exact plays_pure _ _

/-- One sector of an INTEL erase without its flags (R320). -/
def intelSectorBody (d : IntelDescriptor) (r : Nat × Nat) : Op FlashStatus := do
      wrAll (intelUnlock d r.1)
      wrAll (intelEraseCmd d r.1)
      let st ← statusPoll d r.1
      if st ≠ .ok then pure st
      else do
        intelReadArray d
        verifyErased r.1 r.2 d.chip.busWidth

/-- INTEL.ERASE_SECTOR follows its conduct. -/
theorem run_intelEraseSectorOp {s : State} {e : MemoryArea} {d : IntelDescriptor} {a : Nat} {r : Nat × Nat} {evs : List MemEvent} {st : FlashStatus}
   (hdesc : intelDescriptor e.beginAddr s = .ok d s) (hr : d.sectorRange a = some r)
   (h : intelSectorErase d s.params.flashPollBound r evs st) (hc : callsAllowed evs = true) :
   (∀ rest, s.memScript = answersOf evs ++ rest → ∃ g, intelEraseSectorOp e.beginAddr a s = .ok { count := 0, status := st }
       (((s.performed evs).withArea e.beginAddr (fun a => if st = .ok then a.withErased false else a.flagged true true)).withWork g)) ∧
   (∀ j f rest, j < evs.length → s.memScript = answersOf (evs.take j) ++ .fault f :: rest → ∃ g, intelEraseSectorOp e.beginAddr a s = .ok
       { count := 0, status := .access f } (((s.cutOff (evs.take j)).withArea e.beginAddr (fun a => a.flagged true true)).withWork g)) := by
  have := run_family_erase (b := e.beginAddr) (s := s) (k := pure (flashDone .ok)) (body := do
    let d ← intelDescriptor e.beginAddr
    let r ← intelSector d a
    markErased e.beginAddr false
    let st ← intelSectorBody d r
    pure (flashDone st)) (follows_intelSectorErase _ d r evs st h hc) (by rintro rfl; exact implemented_intelSectorErase _ _ _ _ h) false
        (fun t g => rfl) (by
      rw [run_bind, hdesc]; simp only
      have : intelSector d a s = .ok r s := by simp [intelSector, hr]
      rw [run_bind, this]; simp only
      rw [run_bind, markErased, run_updateArea]; simp only
      refine run_bind_congr (fun x => ?_) _
      split
      · next h => rw [h]
      · rfl)
  have he : intelEraseSectorOp e.beginAddr a = familyOp e.beginAddr (do
    let d ← intelDescriptor e.beginAddr
    let r ← intelSector d a
    markErased e.beginAddr false
    let st ← intelSectorBody d r
    pure (flashDone st)) := by
    unfold intelEraseSectorOp
    congr 2; funext d; congr 1; funext r; congr 1; funext _
    simp only [intelSectorBody, bind_assoc]
    congr 1; funext _; congr 1; funext _; congr 1; funext x
    by_cases hx : x = .ok
    · subst hx; simp
    · simp [hx]
  rwa [← he] at this

theorem intelDescriptor_ok_iff {s : State} {b : Nat} {d : IntelDescriptor} : intelDescriptor b s = .ok d s ↔ ∃ m, areaOf s.registry b = some m ∧
    m.binding = .intel d := by
  constructor
  · intro h
    rw [intelDescriptor, run_bind] at h
    cases hx : areaOf s.registry b with
    | none => rw [owningArea, hx] at h; cases h
    | some m =>
      rw [run_owningArea hx] at h
      refine ⟨m, rfl, ?_⟩
      cases hbd : m.binding with
      | intel d' => simp only [hbd, run_pure, EStateM.Result.ok.injEq] at h; rw [h.1]
      | ram => simp only [hbd] at h; cases h
      | amd _ => simp only [hbd] at h; cases h
      | cfm _ => simp only [hbd] at h; cases h
  · rintro ⟨m, h1, h2⟩
    rw [intelDescriptor, run_bind, run_owningArea h1]; simp [h2]

theorem intelDescriptor_withArea {s : State} {b : Nat} {d : IntelDescriptor} {f : MemoryArea → MemoryArea}
    (hf : ∀ a, (f a).beginAddr = a.beginAddr ∧ (f a).endAddr = a.endAddr ∧ (f a).binding = a.binding)
   (h : intelDescriptor b s = .ok d s) : intelDescriptor b (s.withArea b f) = .ok d (s.withArea b f) := by
  rw [intelDescriptor_ok_iff] at h ⊢
  obtain ⟨m, h1, h2⟩ := h
  refine ⟨if m.beginAddr = b then f m else m, ?_, ?_⟩
  · rw [show (s.withArea b f).registry = updated b f s.registry from rfl, areaOf_updated (fun a => ⟨(hf a).1, (hf a).2.1⟩), h1]; rfl
  · split
    · rw [(hf m).2.2, h2]
    · exact h2

theorem intelDescriptor_withWork {s : State} {b : Nat} {d : IntelDescriptor} (g : WorkRegs → WorkRegs) (h : intelDescriptor b s = .ok d s) :
    intelDescriptor b (s.withWork g) = .ok d (s.withWork g) := by
  rw [intelDescriptor_ok_iff] at h ⊢; exact h

theorem intelDescriptor_performed {s : State} {b : Nat} {d : IntelDescriptor} (evs) (h : intelDescriptor b s = .ok d s) : intelDescriptor b
    (s.performed evs) = .ok d (s.performed evs) := by
  rw [intelDescriptor_ok_iff] at h ⊢; rwa [performed_registry]

theorem withArea_congr_fun (s : State) (b : Nat) {f g : MemoryArea → MemoryArea} (h : ∀ a, f a = g a) : s.withArea b f = s.withArea b g := by
  rw [funext h]

/-- So does the erase of a list of sectors (R321). -/
theorem run_intelEraseSectors {e : MemoryArea} {d : IntelDescriptor} (l : List (Nat × Nat)) : ∀ (s : State) (evs : List MemEvent) (st : FlashStatus),
   (∀ r ∈ l, d.sectorRange r.1 = some r) → intelDescriptor e.beginAddr s = .ok d s →
   intelSectorErases d s.params.flashPollBound l evs st → callsAllowed evs = true →
   (∀ rest, s.memScript = answersOf evs ++ rest → ∃ g, intelEraseSectors e.beginAddr l s = .ok { count := 0, status := st }
       (((s.performed evs).withArea e.beginAddr (fun a => if st = .ok then a.withErased true else a.flagged true true)).withWork g)) ∧
   (∀ j f rest, j < evs.length → s.memScript = answersOf (evs.take j) ++ .fault f :: rest → ∃ g, intelEraseSectors e.beginAddr l s = .ok
       { count := 0, status := .access f } (((s.cutOff (evs.take j)).withArea e.beginAddr (fun a => a.flagged true true)).withWork g)) := by
  induction l with
  | nil =>
    rintro s evs st _ _ ⟨rfl, rfl⟩ _
    refine ⟨fun rest hs => ⟨id, ?_⟩, fun j f rest hj => absurd hj (by simp [writesOf])⟩
    rw [intelEraseSectors, run_bind, markErased, run_updateArea]; rfl
  | cons r l ih =>
    intro s evs st hrs hd h hc
    have hr := hrs r (by simp)
    rcases h with ⟨a, b, rfl, h1, h2⟩ | ⟨h, hne⟩
    · rw [callsAllowed_append, Bool.and_eq_true] at hc
      obtain ⟨k1, k2⟩ := run_intelEraseSectorOp hd hr h1 hc.1
      have go : ∀ more, s.memScript = answersOf a ++ more → ∃ s' g, s' =
          ((s.performed a).withArea e.beginAddr (fun a => a.withErased false)).withWork g ∧ intelEraseSectors e.beginAddr (r :: l) s =
          intelEraseSectors e.beginAddr l s' ∧ s'.memScript = more ∧ intelDescriptor e.beginAddr s' = .ok d s' ∧ s'.params = s.params := by
        intro more hs
        obtain ⟨g, hg⟩ := k1 more hs
        simp only [if_true] at hg
        refine ⟨_, g, rfl, ?_, ?_, ?_, ?_⟩
        · rw [intelEraseSectors, run_bind, hg]; simp only [if_true]
        · rw [withWork_memScript]
          change (s.performed a).memScript = more
          rw [performed_memScript, hs, ← answersOf_length a, List.drop_left]
        · exact intelDescriptor_withWork g (intelDescriptor_withArea (fun a => ⟨rfl, rfl, rfl⟩) (intelDescriptor_performed _ hd))
        · simp
      have hbb : ∀ (a : MemoryArea), (a.withErased false).withErased true = a.withErased true := fun a => rfl
      have hbf : ∀ (a : MemoryArea), (a.withErased false).flagged true true = a.flagged true true := fun a => by simp
          [MemoryArea.flagged, MemoryArea.withErased]
      constructor
      · intro rest hs
        obtain ⟨s', g, hs', he, hm, hdd, hpp⟩ := go (answersOf b ++ rest) (by simpa using hs)
        obtain ⟨g', hg'⟩ := (ih s' b st (fun x hx => hrs x (by simp [hx])) hdd (by rw [hpp]; exact h2) hc.2).1 rest hm
        refine ⟨fun w => g' (g w), ?_⟩
        rw [he, hg', hs']
        rw [performed_withWork, performed_withArea, ← performed_append, withArea_withWork, withWork_withWork, withArea_withArea _ _
            (fun a => a.withErased false) _ (fun a => rfl)]
        congr 2
        apply withArea_congr_fun
        intro a; split
        · rfl
        · exact hbf a
      · intro j f rest hj hs
        by_cases hlt : j < a.length
        · rw [List.take_append_of_le_length (by omega)] at hs ⊢
          obtain ⟨g, hg⟩ := k2 j f rest hlt hs
          exact ⟨g, by rw [intelEraseSectors, run_bind, hg]; rfl⟩
        · have htake : (a ++ b).take j = a ++ b.take (j - a.length) := by
            rw [List.take_append, List.take_of_length_le (by omega)]
          rw [htake] at hs ⊢
          obtain ⟨s', g, hs', he, hm, hdd, hpp⟩ := go (answersOf (b.take (j - a.length)) ++ .fault f :: rest) (by simpa using hs)
          obtain ⟨g', hg'⟩ := (ih s' b st (fun x hx => hrs x (by simp [hx])) hdd (by rw [hpp]; exact h2) hc.2).2 (j - a.length) f rest
              (by simp at hj; omega) hm
          refine ⟨fun w => g' (g w), ?_⟩
          rw [he, hg', hs']
          rw [cutOff_withWork, cutOff_withArea, ← cutOff_append, withArea_withWork, withWork_withWork, withArea_withArea _ _
              (fun a => a.withErased false) _ (fun a => rfl)]
          congr 2; apply withArea_congr_fun; exact hbf
    · obtain ⟨k1, k2⟩ := run_intelEraseSectorOp hd hr h hc
      constructor
      · intro rest hs
        obtain ⟨g, hg⟩ := k1 rest hs
        refine ⟨g, ?_⟩
        rw [intelEraseSectors, run_bind, hg]; simp only [hne, if_false]; rfl
      · intro j f rest hj hs
        obtain ⟨g, hg⟩ := k2 j f rest hj hs
        exact ⟨g, by rw [intelEraseSectors, run_bind, hg]; rfl⟩

theorem quiet_setPoll (k : Nat) : Quiet (setPoll k) := fun _ => rfl

theorem quiet_togglePoll (d : AmdDescriptor) (c : Nat) : Quiet (togglePoll d c) := by
  have lanes : ∀ prev cur ls busy, Quiet (toggleLanes d c prev cur ls busy) := by
    intro prev cur ls
    induction ls with
    | nil => intro busy; exact quiet_pure _
    | cons l ls ih =>
      intro busy
      exact quiet_ite (ih _) (quiet_ite (quiet_bind (quiet_rd _ _) (fun _ => quiet_bind (quiet_rd _ _) (fun _ =>
        quiet_ite (ih _) (quiet_pure _)))) (ih _))
  have reset : ∀ st : FlashStatus, Quiet (do amdReset d; pure st) := fun st => quiet_bind (quiet_wr _ _) (fun _ => quiet_pure _)
  have loop : ∀ k prev, Quiet (toggleLoop d c k prev) := by
    intro k
    induction k with
    | zero => intro prev; exact reset _
    | succ k ih =>
      intro prev
      refine quiet_bind (quiet_setPoll _) (fun _ => quiet_bind (quiet_rd _ _) (fun cur => quiet_bind (lanes _ _ _ _) (fun x => ?_)))
      cases x with
      | none => exact reset _
      | some y => cases y <;> first | exact quiet_pure _ | exact ih _
  exact quiet_bind (quiet_rd _ _) (fun prev => quiet_get (fun p => loop _ _))

theorem quiet_verifyErased (lo hi w : Nat) : Quiet (verifyErased lo hi w) := by
  have : ∀ n c, Quiet (verifyCells w n c) := by
    intro n
    induction n with
    | zero => intro c; exact quiet_pure _
    | succ n ih => intro c; exact quiet_bind (quiet_rd _ _) (fun _ => quiet_ite (ih _) (quiet_pure _))
  exact this _ _

/-- An area update such as ERASE_WAIT makes: the bounds stay, and no erase is pending. -/
structure Waited (e : MemoryArea) (d : AmdDescriptor) (f : MemoryArea → MemoryArea) : Prop where
  bounds : ∀ a, (f a).beginAddr = a.beginAddr ∧ (f a).endAddr = a.endAddr
  bind : (f e).binding = .amd { d with pendingErase := .none }

theorem waited_pending {e : MemoryArea} {d : AmdDescriptor} (hb : e.binding = .amd d) : Waited e d (fun a => a.withPending .none) :=
  ⟨fun a => ⟨withPending_begin _ _, withPending_end _ _⟩, by simp [MemoryArea.withPending, hb]⟩

theorem waits_body {s : State} {e : MemoryArea} {d : AmdDescriptor} {a0 : Nat} (hp : s.partitioned = true) (ha : areaOf s.registry a0 = some e)
    (hb : e.binding = .amd d) (hpe : d.pendingErase ≠ .none) {x : EStateM.Result Exit State FlashResult}
    (hx : orAccess (do
    let d ← amdDescriptor e.beginAddr
    match d.pendingRange with
    | none => pure (flashDone .ok)
    | some (lo, hi) => amdAwaitErase e.beginAddr d lo hi) s = x) : ∀ r u, x = .ok r u → r = flashDone r.status ∧ ∃ f, Waited e d f ∧ u.registry =
        updated e.beginAddr f s.registry := by
  obtain ⟨lo, hi, hr⟩ : ∃ lo hi, d.pendingRange = some (lo, hi) := by
    unfold AmdDescriptor.pendingRange
    cases h : d.pendingErase with
    | none => exact absurd h hpe
    | sector lo hi => exact ⟨lo, hi, rfl⟩
    | whole => exact ⟨_, _, rfl⟩
  intro r u hxr
  have hrun : (do
    let d ← amdDescriptor e.beginAddr
    match d.pendingRange with
    | none => pure (flashDone .ok)
    | some (lo, hi) => amdAwaitErase e.beginAddr d lo hi : Op FlashResult) s = amdAwaitErase e.beginAddr d lo hi s := by
    rw [run_bind, run_amdDescriptor hp ha hb]; simp only [hr]
  have g0 := waited_pending (e := e) hb
  have key : match amdAwaitErase e.beginAddr d lo hi s with
    | .ok r u => r = flashDone r.status ∧ ∃ f, Waited e d f ∧ u.registry = updated e.beginAddr f s.registry
    | .error _ u => ∃ f, Waited e d f ∧ u.registry = updated e.beginAddr f s.registry := by
    rw [amdAwaitErase, run_bind, run_updateArea]
    simp only
    have hs1 : (s.withArea e.beginAddr (fun a => a.withPending .none)).registry = updated e.beginAddr (fun a => a.withPending .none) s.registry := rfl
    generalize s.withArea e.beginAddr (fun a => a.withPending .none) = s1 at hs1 ⊢
    have q1 := quiet_togglePoll d lo s1
    rw [run_bind]
    cases h1 : togglePoll d lo s1 with
    | error ex u1 => rw [h1] at q1; exact ⟨_, g0, q1.trans hs1⟩
    | ok st u1 =>
      rw [h1] at q1
      simp only
      by_cases hst : st = .ok
      · subst hst
        simp only [ne_eq, not_true_eq_false, if_false]
        have q2 := quiet_verifyErased lo hi d.chip.busWidth u1
        rw [run_bind]
        cases h2 : verifyErased lo hi d.chip.busWidth u1 with
        | error ex u2 => rw [h2] at q2; exact ⟨_, g0, q2.trans (q1.trans hs1)⟩
        | ok st u2 =>
          rw [h2] at q2
          simp only
          by_cases hst : st = .ok
          · subst hst
            simp only [not_true_eq_false, if_false]
            by_cases hw : d.pendingErase = .whole
            · simp only [hw, if_true, markErased, run_bind, run_updateArea, run_pure]
              refine ⟨rfl, fun a => (a.withPending .none).withErased true, ⟨fun a => ⟨withPending_begin _ _, withPending_end _ _⟩, by simp
                  [withErased_binding, MemoryArea.withPending, hb]⟩, ?_⟩
              change updated e.beginAddr (fun a => a.withErased true) u2.registry = _
              rw [q2, q1, hs1, updated_updated _ (fun a => withPending_begin _ _)]
            · simp only [hw, if_false, run_pure]
              exact ⟨rfl, _, g0, q2.trans (q1.trans hs1)⟩
          · simp only [hst, not_false_iff, if_true, run_pure]
            exact ⟨rfl, _, g0, q2.trans (q1.trans hs1)⟩
      · simp only [hst, ne_eq, not_false_iff, if_true, run_pure]
        exact ⟨rfl, _, g0, q1.trans hs1⟩
  rw [← hx] at hxr
  simp only [orAccess, hrun] at hxr
  cases hm : amdAwaitErase e.beginAddr d lo hi s with
  | ok r' u' => rw [hm] at hxr key; simp only [EStateM.Result.ok.injEq] at hxr; obtain ⟨rfl, rfl⟩ := hxr; exact key
  | error ex u' =>
    rw [hm] at hxr key
    cases ex with
    | fault f => simp at hxr
    | access f => simp only [EStateM.Result.ok.injEq] at hxr; obtain ⟨rfl, rfl⟩ := hxr; exact ⟨rfl, key⟩

/-- What an ERASE_WAIT with an erase pending leaves: only its own area updated, no erase pending, and its status already in the flags. -/
theorem amdEraseWaitOp_leaves {s u : State} {e : MemoryArea} {d : AmdDescriptor} {a0 : Nat} {r : FlashResult} (hp : s.partitioned = true)
    (ha : areaOf s.registry a0 = some e) (hb : e.binding = .amd d) (hpe : d.pendingErase ≠ .none)
    (h : amdEraseWaitOp e.beginAddr s = .ok r u) : r = flashDone r.status ∧ (∃ f, Waited e d f ∧ u.registry = updated e.beginAddr f s.registry) ∧
      u.withArea e.beginAddr (fun a => a.afterStatus r.status) = u := by
  rw [amdEraseWaitOp, familyOp] at h
  obtain ⟨r', u1, h1, h2⟩ := bind_ok_inv h
  rw [run_bind, run_updateArea] at h2
  simp only [run_pure, EStateM.Result.ok.injEq] at h2
  obtain ⟨rfl, rfl⟩ := h2
  obtain ⟨hr, f, hf, hu⟩ := waits_body hp ha hb hpe rfl _ _ h1
  refine ⟨hr, ⟨fun a => (f a).afterStatus r'.status, ⟨fun a => hf.bounds a, hf.bind⟩, ?_⟩, ?_⟩
  · change updated e.beginAddr (fun a => a.afterStatus r'.status) u1.registry = _
    rw [hu, updated_updated _ (fun a => (hf.bounds a).1)]
  · rw [withArea_withArea _ _ (fun a => a.afterStatus r'.status) _ (fun a => rfl)]
    congr 1
    funext a
    simp [MemoryArea.afterStatus]

/-- An AMD operation with an erase pending waits first, and goes on only after `OK` (R270). -/
theorem run_amdPrepare_waits {s u : State} {e : MemoryArea} {d : AmdDescriptor} {a0 : Nat} {r : FlashResult} (hp : s.partitioned = true)
    (ha : areaOf s.registry a0 = some e) (hb : e.binding = .amd d) (hpe : d.pendingErase ≠ .none)
    (h : amdEraseWaitOp e.beginAddr s = .ok r u) (m : Op FlashResult) :
    (r.status = .ok → familyOp e.beginAddr (amdPrepare e.beginAddr m) s = familyOp e.beginAddr m u) ∧
        (r.status ≠ .ok → familyOp e.beginAddr (amdPrepare e.beginAddr m) s = .ok r u) := by
  obtain ⟨hr, _, hid⟩ := amdEraseWaitOp_leaves hp ha hb hpe h
  have hprep : amdPrepare e.beginAddr m s = if r.status = .ok then m u else .ok (flashDone r.status) u := by
    rw [amdPrepare, run_bind, run_amdDescriptor hp ha hb]
    simp only [hpe, if_false]
    rw [run_bind, h]
    simp only
    split <;> rfl
  constructor
  · intro hok
    rw [if_pos hok] at hprep
    rw [familyOp_eq, familyOp_eq]
    simp only [orAccess, hprep]
  · intro hne
    rw [if_neg hne] at hprep
    rw [familyOp_eq]
    simp only [orAccess, hprep]
    rw [← hr, hid]

/-- An AMD erase command on an area, alone: the six writes to their end record the erase and clear `ERASED`; a write that fails ends it with `ERASED` clear
and `ERROR` set (R249, R250, R272). -/
theorem run_amdStartErase {s : State} (b : Nat) (ws : List (Nat × BusWord)) (p : PendingErase) (rest : List MemReply)
    (hc : callsAllowed (writesOf ws) = true) :
    (s.memScript = answersOf (writesOf ws) ++ rest → ∃ g, familyOp b (amdStartErase b ws p) s =
      .ok (flashDone .ok) (((s.performed (writesOf ws)).withArea b (fun a => (a.withErased false).withPending p)).withWork g)) ∧
    (∀ j f, j < (writesOf ws).length → s.memScript = answersOf ((writesOf ws).take j) ++ .fault f :: rest →
      ∃ g, familyOp b (amdStartErase b ws p) s = .ok (flashDone (.access f)) (((s.cutOff ((writesOf ws).take j)).withArea b
        (fun a => a.flagged true true)).withWork g)) := by
  let early := fun (a : MemoryArea) => a.withErased false
  have hb : ∀ a, (early a).beginAddr = a.beginAddr := fun _ => rfl
  obtain ⟨h1, h2⟩ := plays_wrAll s.params.flashPollBound ws hc (s.withArea b early) rfl
  constructor
  · intro hs
    obtain ⟨g, hg⟩ := h1 rest hs
    have : ∃ g, amdStartErase b ws p s = .ok (flashDone .ok)
        (((s.performed (writesOf ws)).withArea b (fun a => (a.withErased false).withPending p)).withWork g) := by
      refine ⟨g, ?_⟩
      rw [amdStartErase, run_bind, markErased, run_updateArea]; simp only
      rw [run_bind, hg]; simp only
      rw [run_bind, run_updateArea]; simp only
      rw [run_bind, run_updateArea]; simp only
      rw [performed_withArea, withArea_withWork, withArea_withArea _ _ early _ hb, withArea_withWork,
        withArea_withArea _ _ _ _ (fun a => by rw [withPending_begin]; rfl)]
      show EStateM.Result.ok _ _ = _
      congr 3
      funext a
      cases hbi : a.binding <;> simp [early, MemoryArea.withPending, MemoryArea.withErased, hbi]
    obtain ⟨g, hg⟩ := run_family_ok (fun a => by rw [withPending_begin]; rfl) this
    refine ⟨g, ?_⟩
    rw [hg]
    congr 3
    funext a
    simp [MemoryArea.afterStatus, flashDone, setsError]
  · intro j f hj hs
    obtain ⟨g, hg⟩ := h2 j f rest hj hs
    have : ∃ g, amdStartErase b ws p s = .error (.access f) (((s.cutOff ((writesOf ws).take j)).withArea b early).withWork g) := by
      refine ⟨g, ?_⟩
      rw [amdStartErase, run_bind, markErased, run_updateArea]; simp only
      rw [run_bind, hg]; simp only [cutOff_withArea]
    obtain ⟨g, hg⟩ := run_family_cut (f := early) hb this
    refine ⟨g, ?_⟩
    rw [hg]; congr 3; funext a; simp [early, MemoryArea.afterStatus, MemoryArea.withErased, MemoryArea.flagged, setsError]

theorem blind_amdEraseSectorOp (b addr : Nat) : Blind (amdEraseSectorOp b addr) :=
  blind_familyOp b (blind_amdPrepare b (blind_bind (blind_amdDescriptor b) (fun _ => blind_amdStartErase _ _ _)))

theorem blind_amdEraseAllOp (b : Nat) : Blind (amdEraseAllOp b) :=
  blind_familyOp b (blind_amdPrepare b (blind_bind (blind_amdDescriptor b) (fun _ => blind_amdStartErase _ _ _)))

/-- An operation that reads only what it writes is the same on a state that differs elsewhere. -/
theorem runOp_blind {m : Op OpResult} (h : Blind m) (u v : State) (hv : ∃ w, v = dressed u w u.buffer u.opsDone u.result) : runOp m v = runOp m u :=
    by
  obtain ⟨w, rfl⟩ := hv
  obtain ⟨w1, h1⟩ := h u w u.buffer u.opsDone u.result
  obtain ⟨w0, h0⟩ := h u u.work u.buffer u.opsDone u.result
  rw [dressed_self] at h0
  simp only [runOp, h1]
  cases hm : m u with
  | ok r t =>
    rw [hm] at h0
    simp only [dressedResult, EStateM.Result.ok.injEq, true_and] at h0 ⊢
    congr 1; conv_rhs => rw [h0]
    rfl
  | error x t =>
    rw [hm] at h0
    simp only [dressedResult, EStateM.Result.error.injEq, true_and] at h0 ⊢
    cases x <;> (simp only; congr 1; conv_rhs => rw [h0]
                 rfl)

end Sys2Proof.Laws
end

