-- ==== Sys2Proof/Laws/Kept.lean ====
section
/-! SUPPORT. What no operation on target memory changes of the registry (R38, R249, R260), and what a partition keeps under such changes (R36). -/

namespace Sys2Proof.Laws

open Sys2Proof Sys2Proof.Machine

theorem lookup_mem_pair {α β : Type} [BEq α] [LawfulBEq α] {k : α} {v : β} : ∀ {l : List (α × β)}, l.lookup k = some v → (k, v) ∈ l := by
  intro l
  induction l with
  | nil => simp
  | cons x l ih =>
    obtain ⟨a, b⟩ := x
    simp only [List.lookup]
    split
    · intro h; simp_all
    · intro h; exact List.mem_cons_of_mem _ (ih h)

/-- An area update keeps all that is fixed at registration, and a set `ERROR`. -/
def AreaKept (a b : MemoryArea) : Prop := b.fixed = a.fixed ∧ (a.flags.error = true → b.flags.error = true)

theorem areaKept_map (f : MemoryArea → MemoryArea) (h : ∀ a, AreaKept a (f a)) (b : Nat) (s : State) :
    (s.withArea b f).registry.map MemoryArea.fixed = s.registry.map MemoryArea.fixed ∧
    ∀ (k : Nat) (a c : MemoryArea), s.registry[k]? = some a → (s.withArea b f).registry[k]? = some c → a.flags.error = true → c.flags.error = true :=
        by
  refine ⟨?_, ?_⟩
  · simp only [State.withArea, List.map_map]
    apply List.map_congr_left
    intro a _
    simp only [Function.comp]
    split
    · exact (h a).1
    · rfl
  · intro k a c h1 h2 he
    simp only [State.withArea, List.getElem?_map, h1, Option.map_some, Option.some.injEq] at h2
    subst h2
    split
    · exact (h a).2 he
    · exact he

/-- A registry keeps, area by area, all that is fixed at registration, and every set `ERROR` (R249, R260). -/
def RegistryKept (s t : State) : Prop := t.registry.map MemoryArea.fixed = s.registry.map MemoryArea.fixed ∧
    ∀ (k : Nat) (a c : MemoryArea), s.registry[k]? = some a → t.registry[k]? = some c → a.flags.error = true → c.flags.error = true

theorem registryKept_refl {s t : State} (h : t.registry = s.registry) : RegistryKept s t := by
  refine ⟨by rw [h], fun k a c h1 h2 he => ?_⟩
  rw [h, h1] at h2; cases h2; exact he

theorem registryKept_trans {s t u : State} (h1 : RegistryKept s t) (h2 : RegistryKept t u) : RegistryKept s u := by
  refine ⟨h2.1.trans h1.1, fun k a c ha hc he => ?_⟩
  have hl : t.registry.length = s.registry.length := by
    have := congrArg List.length h1.1; simpa using this
  have hk : k < s.registry.length := (List.getElem?_eq_some_iff.mp ha).1
  have hb : t.registry[k]? = some (t.registry[k]'(by omega)) := List.getElem?_eq_getElem _
  exact h2.2 k _ c hb hc (h1.2 k a _ ha hb he)

theorem withPending_fixed (a : MemoryArea) (p : PendingErase) : (a.withPending p).fixed = a.fixed := by
  unfold MemoryArea.withPending MemoryArea.fixed
  cases hb : a.binding <;> simp_all [Binding.settled]

theorem withPending_flags (a : MemoryArea) (p : PendingErase) : (a.withPending p).flags = a.flags := by
  unfold MemoryArea.withPending
  cases hb : a.binding <;> rfl

theorem registryKept_effect {s t : State} (h : MemEffect s t) : RegistryKept s t := by
  cases h with
  | work => exact registryKept_refl rfl
  | failed => exact registryKept_refl rfl
  | read => exact registryKept_refl rfl
  | wrote => exact registryKept_refl rfl
  | erased b x => exact areaKept_map (fun a => a.withErased x) (fun a => ⟨rfl, fun h => h⟩) _ _
  | pending b p => exact areaKept_map (fun a => a.withPending p) (fun a => ⟨withPending_fixed a p, fun h => by rw [withPending_flags]; exact h⟩) _ _
  | status b st => exact areaKept_map (fun a => a.afterStatus st) (fun a => ⟨rfl, fun h => by simp [MemoryArea.afterStatus, h]⟩) _ _

/-- Whatever an operation on target memory does, it keeps that of the registry. -/
theorem registryKept_path {s t : State} (h : MemPath s t) : RegistryKept s t := by
  induction h with
  | refl => exact registryKept_refl rfl
  | tail _ h ih => exact registryKept_trans ih (registryKept_effect h)

theorem bounds_of_fixed {l m : List MemoryArea} (h : m.map MemoryArea.fixed = l.map MemoryArea.fixed) :
    m.map (fun a => (a.beginAddr, a.endAddr, a.flags.flash, a.flags.auto)) = l.map
        (fun a => (a.beginAddr, a.endAddr, a.flags.flash, a.flags.auto)) := by
  have := congrArg (List.map (fun (x : Nat × Nat × Bool × Bool × Binding) => (x.1, x.2.1, x.2.2.1, x.2.2.2.1))) h
  simpa [List.map_map, Function.comp_def, MemoryArea.fixed] using this

/-- A splice into a RAM area leaves every flash area as it is (R213). -/
theorem mem_splice_of_flash {areas : List MemoryArea} {e new a : MemoryArea} (hc : coversFrom 0 areas = true) (he : e ∈ areas) (ha : a ∈ areas)
    (hb : e.binding = .ram)
    (hn : a.binding ≠ .ram) : a ∈ splice areas e new := by
  unfold splice
  rw [List.mem_flatMap]
  refine ⟨a, ha, ?_⟩
  have : a.beginAddr ≠ e.beginAddr := by
    intro h
    have h1 := areaOf_unique areas 0 e.beginAddr e hc he le_rfl (covers_ge areas 0 e hc he).2
    have h2 := areaOf_unique areas 0 e.beginAddr a hc ha (by omega) (by have := (covers_ge areas 0 a hc ha).2; omega)
    rw [h1] at h2; cases h2; exact hn hb
  simp [this]

/-- A partition depends only on what is fixed at registration. -/
theorem covers_fixed : ∀ (l m : List MemoryArea) (lo : Nat), m.map MemoryArea.fixed = l.map MemoryArea.fixed → coversFrom lo m = coversFrom lo l := by
  intro l
  induction l with
  | nil => intro m lo h; simp at h; subst h; rfl
  | cons x l ih =>
    intro m lo h
    cases m with
    | nil => simp at h
    | cons y m =>
      simp only [List.map_cons, List.cons.injEq] at h
      have h1 : y.beginAddr = x.beginAddr := congrArg (fun z => z.1) h.1
      have h2 : y.endAddr = x.endAddr := congrArg (fun z => z.2.1) h.1
      simp only [coversFrom, h1, h2, ih m _ h.2]

theorem covers_top : ∀ (l : List MemoryArea) (lo : Nat), coversFrom lo l = true → ∀ m ∈ l, m.endAddr < addrSpace := by
  intro l
  induction l with
  | nil => intro lo _ m hm; cases hm
  | cons x l ih =>
    intro lo h m hm
    simp only [coversFrom, Bool.and_eq_true, beq_iff_eq, decide_eq_true_eq] at h
    rcases List.mem_cons.mp hm with rfl | hm
    · cases l with
      | nil => simp only [coversFrom, beq_iff_eq] at h; omega
      | cons y l =>
        have h2 := h.2
        simp only [coversFrom, Bool.and_eq_true, beq_iff_eq, decide_eq_true_eq] at h2
        have := ih _ h.2 y (by simp)
        omega
    · exact ih _ h.2 m hm

theorem areaSel_path {s t : State} (h : MemPath s t) : t.areaSel = s.areaSel := by
  induction h with
  | refl => rfl
  | tail _ h ih => cases h <;> exact ih

end Sys2Proof.Laws
end

