-- ==== Sys2Proof/Laws/Search.lean ====
section
/-! SUPPORT. What the three probes do on the attempts that the environment answers (R264, R292, R312), and the probes of REGISTER_AREA in their order
(R212). -/

namespace Sys2Proof.Laws

open Sys2Proof Sys2Proof.Machine

/-- A probe that ends with a result is that outcome (R241). -/
theorem run_probe_ok {m : Op ProbeResult} {s t : State} {r : ProbeResult} (h : ∃ g, m s = .ok r (t.withWork g)) :
    runOp (do let r ← probeOp m; pure (.probe r)) s = .next (t.conclude (.probe r)) := by
  obtain ⟨g, h⟩ := h
  apply runOp_ok_work
  refine ⟨g, ?_⟩
  rw [run_bind]; simp only [probeOp, h, run_pure]

/-- A probe whose access fails has the status `ACCESS(f)` and no match (R241, R250). -/
theorem run_probe_cut {m : Op ProbeResult} {s t : State} {f : ProtoFault} (h : ∃ g, m s = .error (.access f) (t.withWork g)) :
    runOp (do let r ← probeOp m; pure (.probe r)) s = .next (t.conclude (.probe { size := 0, binding := none, status := .access f })) := by
  obtain ⟨g, h⟩ := h
  apply runOp_ok_work
  refine ⟨g, ?_⟩
  rw [run_bind]; simp only [probeOp, h, run_pure]

/-- AMD.PROBE is a search over the width pairs (R264). -/
theorem amd_searches (p : Params) (addr : Nat) : Searches p addr
    (fun w _c => [(addr + p.amdNumbers.unlock1Addr * w, replicateLanes w _c p.amdNumbers.unlock1Val.toNat),
        (addr + p.amdNumbers.unlock2Addr * w, replicateLanes w _c p.amdNumbers.unlock2Val.toNat),
       (addr + p.amdNumbers.unlock1Addr * w, replicateLanes w _c p.amdNumbers.cmdId.toNat)])
    (fun w c => replicateLanes w c p.amdNumbers.cmdReset.toNat) (amdRow p)
    (fun w c e => pure { size := (amdMatched p addr w c e).chip.size, binding := some (.amd (amdMatched p addr w c e)), status := .ok })
        (amdProbePairs addr) := by
  refine ⟨fun s => rfl, ?_⟩
  rintro w c rest s rfl
  rw [amdProbePairs, run_bind, run_get]
  simp only
  rw [run_bind, run_bind]
  have hx : probeAttempt addr w c (amdIdEnter (amdProbeDescriptor s.params addr w c))
        (rep (amdProbeDescriptor s.params addr w c).chip (amdProbeDescriptor s.params addr w c).numbers.cmdReset)
        (amdRow s.params c) = probeAttempt addr w c
        [(addr + s.params.amdNumbers.unlock1Addr * w, replicateLanes w c (BitVec.toNat s.params.amdNumbers.unlock1Val)),
          (addr + s.params.amdNumbers.unlock2Addr * w,
            replicateLanes w c (BitVec.toNat s.params.amdNumbers.unlock2Val)),
          (addr + s.params.amdNumbers.unlock1Addr * w, replicateLanes w c (BitVec.toNat s.params.amdNumbers.cmdId))]
        (replicateLanes w c (BitVec.toNat s.params.amdNumbers.cmdReset)) (amdRow s.params c) := rfl
  rw [hx]
  cases probeAttempt addr w c
        [(addr + s.params.amdNumbers.unlock1Addr * w, replicateLanes w c (BitVec.toNat s.params.amdNumbers.unlock1Val)),
          (addr + s.params.amdNumbers.unlock2Addr * w,
            replicateLanes w c (BitVec.toNat s.params.amdNumbers.unlock2Val)),
          (addr + s.params.amdNumbers.unlock1Addr * w, replicateLanes w c (BitVec.toNat s.params.amdNumbers.cmdId))]
        (replicateLanes w c (BitVec.toNat s.params.amdNumbers.cmdReset)) (amdRow s.params c) s with
  | ok hit t => cases hit <;> rfl
  | error e t => rfl

/-- INTEL.PROBE is one, with its own commands and what follows a hit (R312). -/
theorem intel_searches (p : Params) (addr : Nat) : Searches p addr
    (fun w c => [(addr, replicateLanes w c p.intelNumbers.cmdReadId.toNat)])
    (fun w c => replicateLanes w c p.intelNumbers.cmdReadArray.toNat) (intelRow p)
    (fun w c e => intelHit (intelMatched p addr w c e)) (intelProbePairs addr) := by
  refine ⟨fun s => rfl, ?_⟩
  rintro w c rest s rfl
  rw [intelProbePairs, run_bind, run_get]
  simp only
  rw [run_bind, run_bind]
  have hx : probeAttempt addr w c
        [(addr,
            rep { base := addr, size := 0, name := "", busWidth := w, chipWidth := c, sectorSize := 0 }
              s.params.intelNumbers.cmdReadId)]
        (rep { base := addr, size := 0, name := "", busWidth := w, chipWidth := c, sectorSize := 0 }
          s.params.intelNumbers.cmdReadArray)
        (intelRow s.params c) = probeAttempt addr w c [(addr, replicateLanes w c (BitVec.toNat s.params.intelNumbers.cmdReadId))]
        (replicateLanes w c (BitVec.toNat s.params.intelNumbers.cmdReadArray)) (intelRow s.params c) := rfl
  rw [hx]
  cases probeAttempt addr w c [(addr, replicateLanes w c (BitVec.toNat s.params.intelNumbers.cmdReadId))]
        (replicateLanes w c (BitVec.toNat s.params.intelNumbers.cmdReadArray)) (intelRow s.params c) s with
  | ok hit t => cases hit <;> rfl
  | error e t => rfl

theorem largestSector_bus (k : Nat) (l : List (Nat × Nat)) : largestSector (busRegions k l) = (l.map (fun r => r.2 * k)).foldl max 0 := by
  simp [largestSector, busRegions, List.foldl_map]

/-- CFM.PROBE row by row: to the end, to the first idle module, to the first read that fails (R292). -/
theorem run_cfmProbeRows (p : Params) (address : Nat) (rows : List CfmRow) : ∀ (status : List Byte) (s : State), s.params = p →
    let n := p.cfmNumbers
    let present := fun (st : Byte) => st &&& n.ccif != 0 && st &&& 0x0B == 0
    let evs := (rows.zip status).map (fun q => MemEvent.read (q.1.regBase + n.ustatOff) [q.2])
    callsAllowed evs = true →
    (∀ rest, status.length = rows.length → status.any present = false → s.memScript = answersOf evs ++ rest →
      cfmProbeRows address rows s = .ok noMatch (s.performed evs)) ∧
    (∀ before st row rest, status = before ++ [st] → before.any present = false → present st = true → rows[before.length]? = some row →
      s.memScript = answersOf evs ++ rest →
      cfmProbeRows address rows s = .ok { size := row.size, binding := some (.cfm (cfmMatched p address row)), status := .ok } (s.performed evs)) ∧
    (∀ row f rest, status.any present = false → rows[status.length]? = some row → callAllowed (row.regBase + n.ustatOff) 1 = true →
      s.memScript = answersOf evs ++ .fault f :: rest →
      cfmProbeRows address rows s = .error (.access f) (s.cutOff evs)) := by
  induction rows with
  | nil =>
    intro status s hp n present evs hc
    refine ⟨fun rest _ _ _ => rfl, fun before st row rest _ _ _ h => by simp at h, fun row f rest _ h => by simp at h⟩
  | cons r rows ih =>
    intro status s hp n present evs hc
    have hpres : ∀ v : Byte, (laneHas [v] n.ccif && !laneHas [v] cfmReservedMask) = present v := by
      intro v; simp [laneHas, cfmReservedMask, present, bne]
    cases status with
    | nil =>
      refine ⟨fun rest h => by simp at h, fun before st row rest h => by simp at h, fun row f rest _ h hca hscr => ?_⟩
      simp only [List.length_nil, List.getElem?_cons_zero, Option.some.injEq] at h
      subst h
      have hev : evs = [] := rfl
      rw [hev] at hscr ⊢
      rw [cfmProbeRows, run_bind, run_get]
      simp only
      rw [run_bind, hp, run_rd_fault hca (by simpa [answersOf] using hscr)]
      rfl
    | cons v status =>
      have hev : evs = .read (r.regBase + n.ustatOff) [v] :: (rows.zip status).map (fun q => MemEvent.read (q.1.regBase + n.ustatOff) [q.2]) := rfl
      rw [hev] at hc ⊢
      rw [callsAllowed_cons, callsAllowed_read, Bool.and_eq_true] at hc
      have step : ∀ more, s.memScript = .done [v] :: more → cfmProbeRows address (r :: rows) s =
          if present v = true then .ok { size := r.size, binding := some (.cfm (cfmMatched p address r)), status := .ok }
              (s.tookReply.didRead (r.regBase + n.ustatOff) [v])
          else cfmProbeRows address rows (s.tookReply.didRead (r.regBase + n.ustatOff) [v]) := by
        intro more hm
        rw [cfmProbeRows, run_bind, run_get]
        simp only
        rw [run_bind, hp, run_rd (n := 1) (v := [v]) (by simpa using hc.1) rfl hm]
        simp only [n] at hpres
        simp only [hpres, run_ite, run_pure, present, n]
      have hnext : ∀ more, s.memScript = .done [v] :: more → (s.tookReply.didRead (r.regBase + n.ustatOff) [v]).memScript = more := by
        intro more hm; simp [State.didRead, State.tookReply, hm]
      obtain ⟨i1, i2, i3⟩ := ih status (s.tookReply.didRead (r.regBase + n.ustatOff) [v]) (by simpa using hp) hc.2
      refine ⟨fun rest hl hn hscr => ?_, fun before st row rest hs hb hst hr hscr => ?_, fun row f rest hn hr hca hscr => ?_⟩
      · have hm : s.memScript = .done [v] :: (answersOf ((rows.zip status).map (fun q => MemEvent.read (q.1.regBase + n.ustatOff) [q.2])) ++ rest) :=
          by simpa [answersOf] using hscr
        simp only [List.any_cons, Bool.or_eq_false_iff] at hn
        rw [step _ hm, hn.1]
        exact i1 rest (by simpa using hl) hn.2 (hnext _ hm)
      · have hm : s.memScript = .done [v] :: (answersOf ((rows.zip status).map (fun q => MemEvent.read (q.1.regBase + n.ustatOff) [q.2])) ++ rest) :=
          by simpa [answersOf] using hscr
        cases before with
        | nil =>
          simp only [List.nil_append, List.cons.injEq] at hs
          obtain ⟨rfl, rfl⟩ := hs
          simp only [List.length_nil, List.getElem?_cons_zero, Option.some.injEq] at hr
          subst hr
          rw [step _ hm, if_pos hst]
          simp [State.performed]
        | cons b before =>
          simp only [List.cons_append, List.cons.injEq] at hs
          obtain ⟨rfl, rfl⟩ := hs
          simp only [List.any_cons, Bool.or_eq_false_iff] at hb
          rw [step _ hm, hb.1]
          exact i2 before st row rest rfl hb.2 hst (by simpa using hr) (hnext _ hm)
      · have hm : s.memScript = .done [v] :: (answersOf ((rows.zip status).map
          (fun q => MemEvent.read (q.1.regBase + n.ustatOff) [q.2])) ++ .fault f :: rest) := by simpa [answersOf] using hscr
        simp only [List.any_cons, Bool.or_eq_false_iff] at hn
        rw [step _ hm, hn.1]
        exact i3 row f rest hn.2 (by simpa using hr) hca (hnext _ hm)

/-- Candidates without a match are passed over (R212). -/
theorem probeCandidates_before (base : Nat) (before : List Family) (rest : List Family) : ∀ (s s1 : State), probeCandidates base before s =
    .ok none s1 →
    probeCandidates base (before ++ rest) s = probeCandidates base rest s1 := by
  induction before with
  | nil => intro s s1 h; cases h; rfl
  | cons f before ih =>
    intro s s1 h
    simp only [List.cons_append, probeCandidates, run_bind] at h ⊢
    cases hf : probeFamily base f s with
    | error e t => rw [hf] at h; cases h
    | ok r t =>
      rw [hf] at h
      simp only at h ⊢
      cases hst : r.status with
      | access e => simp [hst] at h
      | _ =>
        simp only [hst] at h ⊢
        cases hb : r.binding with
        | none => simp only [hb] at h ⊢; exact ih _ _ h
        | some d =>
          simp only [hb] at h ⊢
          by_cases hz : 0 < r.size
          · simp [hz] at h
          · simp only [hz, if_false] at h ⊢; exact ih _ _ h

end Sys2Proof.Laws
end

