-- ==== Sys2Proof/Laws/Serial.lean ====
section
/-! SUPPORT. The operations of the engine read neither the working registers they find nor the caller's fields: an exchange starts its accumulator itself.
So a nested stop or exchange does what the same call of the host would do (R131, R138 (d), R146, R147, R172). -/

namespace Sys2Proof.Laws

open Sys2Proof Sys2Proof.Machine

variable {α β : Type}

/-! ### The engine's parts -/

theorem blind_writeCtrl (p : Byte) : Blind (writeCtrl p) := fun _ w _ _ _ => ⟨w, rfl⟩

theorem blind_readStat : Blind readStat := fun _ w _ _ _ => ⟨w, rfl⟩

theorem delayed_dressed (s : State) (k : Nat) (w : WorkRegs) (b : List Byte) (o : Nat) (r : Option OpResult) :
    (dressed s w b o r).delayed k = dressed (s.delayed k) w b o r := by
  unfold State.delayed; split <;> rfl

theorem blind_delay (k : Nat) : Blind (delay k) := fun s w b o r =>
  ⟨w, by rw [run_delay, run_delay, delayed_dressed]; rfl⟩

theorem blind_setSt (st : BitVec 4) : Blind (setSt st) := fun _ w _ _ _ => ⟨{ w with st := st }, rfl⟩

theorem blind_setCnt (k : Nat) : Blind (setCnt k) := fun _ w _ _ _ => ⟨{ w with cnt := k }, rfl⟩

theorem blind_openedSession : Blind openedSession := by
  intro s w b o r
  refine ⟨w, ?_⟩
  change (match s.session with
    | some x => EStateM.Result.ok x (dressed s w b o r)
    | none => .error (.fault .notOpen) (dressed s w b o r)) =
    dressedResult (match s.session with
    | some x => EStateM.Result.ok x s
    | none => .error (.fault .notOpen) s) w b o r
  cases s.session <;> rfl

theorem blind_currentParams : Blind currentParams :=
  blind_bind blind_openedSession (fun x => blind_params (k := fun p => pure (variantParams p x.variant)) (fun _ => blind_pure _))

theorem blind_writeKept (p : Byte) : Blind (writeKept p) :=
  blind_bind blind_openedSession (fun _ => blind_bind blind_currentParams (fun _ => blind_writeCtrl _))

theorem blind_useCap (present : Caps → Bool) : Blind (useCap present) :=
  blind_bind blind_openedSession (fun _ => blind_ite (blind_pure _) (blind_raise _))

theorem blind_readStatus : Blind readStatus :=
  blind_bind (blind_useCap _) (fun _ => blind_bind blind_openedSession (fun _ => blind_bind blind_readStat (fun _ =>
    blind_bind (blind_setSt _) (fun _ => blind_pure _))))

theorem blind_checkAvailable : Blind checkAvailable := by
  refine blind_bind blind_readStatus (fun st => ?_)
  split <;> first | exact blind_raise _ | exact blind_pure _

theorem blind_pollFreeze : ∀ k, Blind (pollFreeze k) := by
  intro k
  induction k with
  | zero => exact blind_pure _
  | succ k ih =>
    exact blind_bind (blind_setPoll _) (fun _ => blind_bind blind_openedSession (fun _ => blind_bind (blind_delay _) (fun _ =>
      blind_bind blind_readStatus (fun _ => blind_ite (blind_pure _) ih))))

theorem blind_stopTarget : Blind stopTarget :=
  blind_bind (blind_useCap _) (fun _ => blind_bind blind_currentParams (fun _ => blind_bind blind_readStatus (fun _ =>
    blind_ite (blind_writeKept _) (blind_bind (blind_writeKept _) (fun _ => blind_bind blind_openedSession (fun _ =>
      blind_bind (blind_pollFreeze _) (fun _ => blind_ite (blind_writeKept _) (blind_ite
        (blind_bind (blind_writeKept _) (fun _ => blind_bind (blind_delay _) (fun _ => blind_bind (blind_writeKept _) (fun _ =>
          blind_bind (blind_pollFreeze _) (fun _ => blind_ite (blind_writeKept _) (blind_raise _))))))
        (blind_raise _)))))))))

theorem blind_exchangePreconditions : Blind exchangePreconditions :=
  blind_bind blind_checkAvailable (fun _ => blind_ite (blind_pure _) blind_stopTarget)

/-! ### The parts that use the accumulator -/

/-- `m` sees of the working registers only the accumulator, and leaves in it what it leaves on any such state. -/
def AccBlind (m : Op α) : Prop :=
  ∀ s w b o r, w.acc = s.work.acc → ∃ w', m (dressed s w b o r) = dressedResult (m s) w' b o r ∧
    ∀ a t, m s = .ok a t → w'.acc = t.work.acc

theorem accBlind_blind {m : Op α} (h : Blind m) (hk : ∀ s a t, m s = .ok a t → t.work.acc = s.work.acc)
    (hw : ∀ s w b o r a t, m (dressed s w b o r) = .ok a t → t.work.acc = w.acc) : AccBlind m := by
  intro s w b o r hacc
  obtain ⟨w', hw'⟩ := h s w b o r
  refine ⟨w', hw', fun a t hm => ?_⟩
  rw [hm] at hw'
  have := hw s w b o r a _ hw'
  rw [hk s a t hm, ← hacc]
  exact this

theorem accBlind_bind {m : Op α} {k : α → Op β} (h1 : AccBlind m) (h2 : ∀ a, AccBlind (k a)) : AccBlind (m >>= k) := by
  intro s w b o r hacc
  obtain ⟨w1, hw1, h1'⟩ := h1 s w b o r hacc
  rw [run_bind, run_bind, hw1]
  cases hm : m s with
  | ok a t =>
    obtain ⟨w2, hw2, h2'⟩ := h2 a t w1 b o r (h1' a t hm)
    exact ⟨w2, hw2, h2'⟩
  | error e t => exact ⟨w1, rfl, fun _ _ h => by cases h⟩

theorem accBlind_pure (a : α) : AccBlind (pure a : Op α) := by
  intro s w b o r hacc
  refine ⟨w, rfl, fun x t h => ?_⟩
  cases h; exact hacc

theorem accBlind_ite {c : Prop} [Decidable c] {m n : Op α} (hm : AccBlind m) (hn : AccBlind n) : AccBlind (if c then m else n) := by
  split <;> assumption

theorem accBlind_getAcc : AccBlind getAcc := by
  intro s w b o r hacc
  refine ⟨w, ?_, fun x t h => by cases h; exact hacc⟩
  change EStateM.Result.ok w.acc (dressed s w b o r) = EStateM.Result.ok s.work.acc (dressed s w b o r)
  rw [hacc]

theorem accBlind_setAcc (v : Word32) : AccBlind (setAcc v) := by
  intro s w b o r _
  exact ⟨{ w with acc := v }, rfl, fun x t h => by cases h; rfl⟩

theorem accBlind_setCnt (k : Nat) : AccBlind (setCnt k) := by
  intro s w b o r hacc
  exact ⟨{ w with cnt := k }, rfl, fun x t h => by cases h; exact hacc⟩

theorem accBlind_setPoll (k : Nat) : AccBlind (setPoll k) := by
  intro s w b o r hacc
  exact ⟨{ w with poll := k }, rfl, fun x t h => by cases h; exact hacc⟩

theorem accBlind_setDbit (d : Bool) : AccBlind (setDbit d) := by
  intro s w b o r hacc
  exact ⟨{ w with dbit := d }, rfl, fun x t h => by cases h; exact hacc⟩

theorem accBlind_readStat : AccBlind readStat := by
  intro s w b o r hacc
  exact ⟨w, rfl, fun x t h => by cases h; simpa using hacc⟩

theorem accBlind_delay (k : Nat) : AccBlind (delay k) := by
  intro s w b o r hacc
  refine ⟨w, by rw [run_delay, run_delay, delayed_dressed]; rfl, fun x t h => ?_⟩
  rw [run_delay] at h
  cases h
  simpa using hacc

theorem accBlind_writeCtrl (p : Byte) : AccBlind (writeCtrl p) := by
  intro s w b o r hacc
  exact ⟨w, rfl, fun x t h => by cases h; simpa using hacc⟩

theorem accBlind_openedSession : AccBlind openedSession := by
  refine accBlind_blind blind_openedSession (fun s a t h => ?_) (fun s w b o r a t h => ?_)
  · unfold openedSession at h
    split at h
    · cases h; rfl
    · cases h
  · unfold openedSession at h
    split at h
    · cases h; rfl
    · cases h

theorem accBlind_params {k : Params → Op β} (h : ∀ p, AccBlind (k p)) : AccBlind (do let s ← get; k s.params) := by
  intro s w b o r hacc
  rw [run_bind, run_bind]
  exact h s.params s w b o r hacc

theorem accBlind_currentParams : AccBlind currentParams :=
  accBlind_bind accBlind_openedSession (fun x =>
    accBlind_params (k := fun p => pure (variantParams p x.variant)) (fun _ => accBlind_pure _))

theorem accBlind_writeKept (p : Byte) : AccBlind (writeKept p) :=
  accBlind_bind accBlind_openedSession (fun _ => accBlind_bind accBlind_currentParams (fun _ => accBlind_writeCtrl _))

theorem accBlind_bitDelay (x : Session) (k : Nat) : AccBlind (bitDelay x k) := accBlind_ite (accBlind_pure _) (accBlind_delay _)

theorem accBlind_clockOneBit : AccBlind clockOneBit :=
  accBlind_bind accBlind_openedSession (fun _ => accBlind_bind accBlind_currentParams (fun _ => accBlind_bind accBlind_getAcc (fun _ =>
    accBlind_bind (accBlind_setDbit _) (fun _ => accBlind_bind (accBlind_writeKept _) (fun _ => accBlind_bind (accBlind_writeKept _)
      (fun _ => accBlind_bind (accBlind_bitDelay _ _) (fun _ => accBlind_bind accBlind_readStat (fun _ => accBlind_bind
        (accBlind_setAcc _) (fun _ => accBlind_bind (accBlind_writeKept _) (fun _ => accBlind_bitDelay _ _))))))))))

theorem accBlind_bitLoop : ∀ k, AccBlind (bitLoop k) := by
  intro k
  induction k with
  | zero => exact accBlind_pure _
  | succ k ih => exact accBlind_bind accBlind_clockOneBit (fun _ => accBlind_bind (accBlind_setCnt _) (fun _ => ih))

theorem accBlind_settlePoll (cmd : Word16) (delayBits : Nat) : AccBlind (settlePoll cmd delayBits) := by
  have loop : ∀ k, AccBlind (settleLoop k) := by
    intro k
    induction k with
    | zero => exact accBlind_pure _
    | succ k ih => exact accBlind_bind (accBlind_setPoll _) (fun _ => accBlind_bind accBlind_readStat (fun _ => accBlind_ite ih (accBlind_pure _)))
  exact accBlind_bind accBlind_openedSession (fun x =>
    accBlind_params (k := fun p => if x.fast && settleBefore p cmd delayBits then settleLoop settlePolls else pure ())
      (fun _ => accBlind_ite (loop _) (accBlind_pure _)))

/-- The clocked frame starts its accumulator itself. -/
theorem blind_clockedFrame (cmd : Word16) (delayBits : Nat) : Blind (clockedFrame cmd delayBits) := by
  intro s w b o r
  have h := accBlind_bind (accBlind_setCnt (accBits - headerOffset - delayBits)) (fun _ => accBlind_bind (accBlind_settlePoll cmd delayBits)
    (fun _ => accBlind_bind (accBlind_bitLoop (accBits - headerOffset - delayBits)) (fun _ => accBlind_getAcc)))
  obtain ⟨w', hw, _⟩ := h (s.withWork (fun v => { v with acc := startAcc cmd })) { w with acc := startAcc cmd } b o r rfl
  refine ⟨w', ?_⟩
  rw [clockedFrame, run_bind, run_bind, run_setAcc, run_setAcc]
  exact hw

/-- An exchange reads neither the working registers it finds nor the caller's fields. -/
theorem blind_serialExchange (cmd : Word16) (delayBits : Nat) : Blind (serialExchange cmd delayBits) := by
  rw [serialExchange_eq]
  exact blind_bind (blind_useCap _) (fun _ => blind_ite (blind_raise _) (blind_bind blind_exchangePreconditions (fun _ =>
    blind_clockedFrame _ _)))

/-! ### Nested calls -/

/-- On other working registers a blind computation ends the same way. -/
theorem blind_withWork {m : Op α} (h : Blind m) (s : State) (g : WorkRegs → WorkRegs) :
    ∃ g', m (s.withWork g) = match m s with
      | .ok a t => .ok a (t.withWork g')
      | .error e t => .error e (t.withWork g') := by
  obtain ⟨w1, h1⟩ := h s (g s.work) s.buffer s.opsDone s.result
  obtain ⟨w0, h0⟩ := h s s.work s.buffer s.opsDone s.result
  rw [dressed_self] at h0
  refine ⟨fun _ => w1, ?_⟩
  change m (dressed s (g s.work) s.buffer s.opsDone s.result) = _
  rw [h1]
  cases hm : m s with
  | ok a t =>
    rw [hm] at h0
    simp only [dressedResult, EStateM.Result.ok.injEq, true_and] at h0
    simp only [dressedResult]
    congr 1
    conv_rhs => rw [h0]
    rfl
  | error e t =>
    rw [hm] at h0
    simp only [dressedResult, EStateM.Result.error.injEq, true_and] at h0
    simp only [dressedResult]
    congr 1
    conv_rhs => rw [h0]
    rfl

end Sys2Proof.Laws
end

