-- ==== Sys2Proof/Laws/Stream.lean ====
section
/-! SUPPORT. A stop that succeeds after the forced bus error (R170), the ends of nested stops and exchanges (R131, R172), and the streams unit by unit
(R146, R147). -/

namespace Sys2Proof.Laws

open Sys2Proof Sys2Proof.Machine

/-- A stop whose target freezes only at a poll after the forced bus error (R170, R171). -/
theorem run_stopTarget_again {s : State} {x : Session} {first last : Byte} {polls again rest : List Byte}
    {v : VariantParams} {a : Byte} (hx : s.session = some x) (hc : x.caps = capsOf x.variant)
    (hp : patternsSound s.params = true) (hv : v = variantParams s.params x.variant)
    (hA : a = keepLed v.encoding x.shadow v.patterns.arm) (hf : runningSample x first = true)
    (hps : polls.all (runningSample x) = true) (hag : again.all (runningSample x) = true) (hl : runningSample x last = false)
    (hlen : polls.length = x.stopPollBound) (hlen2 : again.length < x.stopPollBound) (hs : s.statScript = first :: (polls ++ again ++ last :: rest))
    (hb : v.forceBerr = true) :
    ∃ g, stopTarget s = .ok () (({ s with
        lines := keepLed v.encoding x.shadow v.patterns.idle, session := some { x with shadow := keepLed v.encoding x.shadow v.patterns.idle },
            statScript := rest
        lineTrace := s.lineTrace ++ [LineEvent.read first, .wrote a] ++
          polls.flatMap (fun p => delayEvents x.minDelay ++ [LineEvent.read p]) ++
            [LineEvent.wrote (keepLed v.encoding x.shadow v.patterns.berr)] ++ delayEvents x.minDelay ++
              [LineEvent.wrote a] ++ (again ++ [last]).flatMap (fun p => delayEvents x.minDelay ++ [LineEvent.read p]) ++
                  [LineEvent.wrote (keepLed v.encoding x.shadow v.patterns.idle)] } : State).withWork g) := by
  obtain ⟨_, ka, _, _, _, kb⟩ := patterns_ledClear hp x.variant
  have hsb : x.caps.getStatus = true := by rw [hc]; rfl
  have hn : s.nextStat = first := nextStat_cons _ _ _ hs
  obtain ⟨g, hg⟩ := run_stopTarget_running hx hc hv hf hs
  rw [← hv] at ka kb
  rw [hg, ← hA]
  have e2 := fun b => keepLed_keepLed v.encoding x.shadow _ b ka
  have e3 := fun b => keepLed_keepLed v.encoding x.shadow _ b kb
  rw [← hA] at e2
  have h1 : ((s.readStat.wroteCtrl a).withWork g).session = some { x with shadow := a } := by simp [hx]
  rw [armedStop, run_bind, run_openedSession h1]
  simp only
  obtain ⟨g2, hg2⟩ := run_pollFreeze_never (x := { x with shadow := a }) polls (again ++ last :: rest) h1 hsb (by simp [hs]) hps
  rw [hlen] at hg2
  rw [run_bind, hg2]
  simp only [Bool.false_eq_true, if_false, hb, if_true]
  rw [run_bind, run_writeKept (x := { x with shadow := a }) _ (by simpa using h1)]
  simp only [withWork_params, wroteCtrl_params, readStat_params, ← hv, e2]
  rw [run_bind, run_delay]
  simp only
  rw [run_bind, run_writeKept (x := { x with shadow := keepLed v.encoding x.shadow v.patterns.berr }) _
    (by simp [hx])]
  simp only [delayed_params, withWork_params, wroteCtrl_params, ← hv, e3, ← hA]
  rw [run_bind]
  generalize hu : (State.wroteCtrl (State.delayed _ _) a) = u
  have hus : u.session = some { x with shadow := a } := by rw [← hu]; simp [hx]
  obtain ⟨k, hk⟩ : ∃ k, x.stopPollBound = again.length + (k + 1) := ⟨x.stopPollBound - again.length - 1, by omega⟩
  obtain ⟨g3, hg3⟩ := run_pollFreeze_running (x := { x with shadow := a }) (by rw [hc]; rfl) (k + 1) again u
    (last :: rest) hus (by rw [← hu]; simp) hag
  rw [hk, hg3]
  generalize hu2 : (State.withWork _ g3) = u2
  have hus2 : u2.session = some { x with shadow := a } := by rw [← hu2]; simpa using hus
  obtain ⟨g4, hg4⟩ := run_pollFreeze_stopped (x := { x with shadow := a }) (p := last) (rest := rest) (s := u2) k hus2
    (by rw [hc]; rfl) (by rw [← hu2]; rfl) hl
  rw [hg4]
  simp only [if_true]
  refine ⟨fun w => g4 (g3 (g2 (g w))), ?_⟩
  rw [run_writeKept (x := { x with shadow := a }) _ (by simpa using hus2)]
  congr 1
  have hup : u2.params = s.params := by rw [← hu2, ← hu]; simp
  subst hu2
  subst hu
  apply state_ext <;> simp [hx, State.withWork, hn, pollEvents, ← hv, e2, delayEvents]
  all_goals exact hk

/-- How STOP_CHIP ends, read from the nested stop. -/
theorem stopChip_ends (s t : State) (h : exec .stopChip s = .next t) :
    (t.result = some .ok → ∃ u, stopTarget s = .ok () u ∧ t = u.conclude .ok) ∧
    (∀ f, t.result = some (.fault f) → ∃ u, (stopTarget s = .error (.fault f) u ∨ ∃ g, f = .proto g ∧ stopTarget s = .error (.access g) u) ∧ t =
        u.takeFault f) := by
  simp only [exec, execStopChip, runOp, run_bind] at h
  cases hm : stopTarget s with
  | ok a u =>
    rw [hm] at h; simp at h; subst h
    refine ⟨fun _ => ⟨u, rfl, rfl⟩, fun f hf => by simp [State.conclude] at hf⟩
  | error e u =>
    rw [hm] at h
    cases e with
    | fault f0 =>
      simp at h; subst h
      refine ⟨fun hf => by simp [State.takeFault, State.conclude] at hf, fun f hf => ?_⟩
      simp [State.takeFault, State.conclude] at hf; subst hf
      exact ⟨u, .inl rfl, rfl⟩
    | access f0 =>
      simp at h; subst h
      refine ⟨fun hf => by simp [State.takeFault, State.conclude] at hf, fun f hf => ?_⟩
      simp [State.takeFault, State.conclude] at hf; subst hf
      exact ⟨u, .inr ⟨f0, rfl, rfl⟩, rfl⟩

/-- A SERIAL_CLOCK that ends in a fault is an exchange that does. -/
theorem serialClock_fault {s t : State} {cmd d} (h : exec (.serialClock cmd d) s = .next t) {f} (hf : t.result = some (.fault f)) :
    ∃ u, (serialExchange cmd d s = .error (.fault f) u ∨ ∃ g, f = .proto g ∧ serialExchange cmd d s = .error (.access g) u) ∧ t = u.takeFault f := by
  simp only [exec, execSerialClock, runOp, run_bind] at h
  cases hm : serialExchange cmd d s with
  | ok a u =>
    rw [hm] at h; simp at h; subst h
    simp [State.conclude] at hf
  | error e u =>
    rw [hm] at h
    cases e with
    | fault f0 =>
      simp at h; subst h
      simp [State.takeFault, State.conclude] at hf; subst hf
      exact ⟨u, .inl rfl, rfl⟩
    | access f0 =>
      simp at h; subst h
      simp [State.takeFault, State.conclude] at hf; subst hf
      exact ⟨u, .inr ⟨f0, rfl, rfl⟩, rfl⟩

/-- The state a part ends in. -/
def endState {α} (r : EStateM.Result Exit State α) : State := match r with | .ok _ t => t | .error _ t => t

/-- A part of the engine keeps the parameters, the variant of the session and the count of operations. -/
def KeepsSession {α} (m : Op α) : Prop := ∀ s, (endState (m s)).params = s.params ∧ (endState (m s)).session.map Session.variant =
    s.session.map Session.variant ∧ (endState (m s)).opsDone = s.opsDone

theorem keeps_pure {α} (a : α) : KeepsSession (pure a : Op α) := fun _ => ⟨rfl, rfl, rfl⟩

theorem keeps_raise {α} (f) : KeepsSession (raise f : Op α) := fun _ => ⟨rfl, rfl, rfl⟩

theorem keeps_bind {α β} {m : Op α} {k : α → Op β} (h1 : KeepsSession m) (h2 : ∀ a, KeepsSession (k a)) : KeepsSession (m >>= k) := by
  intro s
  rw [run_bind]
  have := h1 s
  cases hm : m s with
  | ok a t => rw [hm] at this; simp only [endState] at this; simp only; obtain ⟨x, y, z⟩ := h2 a t; exact
      ⟨x.trans this.1, y.trans this.2.1, z.trans this.2.2⟩
  | error e t => rw [hm] at this; exact this

theorem keeps_ite {α} {c : Prop} [Decidable c] {m n : Op α} (hm : KeepsSession m) (hn : KeepsSession n) : KeepsSession (if c then m else n) := by
  split <;> assumption

theorem keeps_openedSession : KeepsSession openedSession := by intro s; unfold openedSession; split <;> exact ⟨rfl, rfl, rfl⟩

theorem keeps_currentParams : KeepsSession currentParams := keeps_bind keeps_openedSession (fun _ => fun _ => ⟨rfl, rfl, rfl⟩)

theorem keeps_writeCtrl (p) : KeepsSession (writeCtrl p) := by
  intro s
  rw [run_writeCtrl]
  simp only [endState]
  refine ⟨by simp, ?_, by simp⟩
  cases h : s.session <;> simp [h]

theorem keeps_writeKept (p) : KeepsSession (writeKept p) := keeps_bind keeps_openedSession
    (fun _ => keeps_bind keeps_currentParams (fun _ => keeps_writeCtrl _))

theorem keeps_useCap (p) : KeepsSession (useCap p) := keeps_bind keeps_openedSession (fun _ => keeps_ite (keeps_pure _) (keeps_raise _))

theorem keeps_readStat : KeepsSession readStat := by intro s; rw [run_readStat]; simp [endState]

theorem keeps_delay (k) : KeepsSession (delay k) := by intro s; rw [run_delay]; simp [endState]

theorem keeps_setPoll (k) : KeepsSession (setPoll k) := fun _ => ⟨rfl, rfl, rfl⟩

theorem keeps_setSt (k) : KeepsSession (setSt k) := fun _ => ⟨rfl, rfl, rfl⟩

theorem keeps_readStatus : KeepsSession readStatus := keeps_bind (keeps_useCap _)
    (fun _ => keeps_bind keeps_openedSession (fun _ => keeps_bind keeps_readStat (fun _ => keeps_bind (keeps_setSt _) (fun _ => keeps_pure _))))

theorem keeps_pollFreeze : ∀ k, KeepsSession (pollFreeze k) := by
  intro k
  induction k with
  | zero => exact keeps_pure _
  | succ k ih => exact keeps_bind (keeps_setPoll _) (fun _ => keeps_bind keeps_openedSession
      (fun _ => keeps_bind (keeps_delay _) (fun _ => keeps_bind keeps_readStatus (fun _ => keeps_ite (keeps_pure _) ih))))

theorem keeps_stopTarget : KeepsSession stopTarget :=
  keeps_bind (keeps_useCap _) (fun _ => keeps_bind keeps_currentParams (fun _ => keeps_bind keeps_readStatus (fun _ =>
    keeps_ite (keeps_writeKept _) (keeps_bind (keeps_writeKept _) (fun _ => keeps_bind keeps_openedSession (fun _ =>
      keeps_bind (keeps_pollFreeze _) (fun _ => keeps_ite (keeps_writeKept _) (keeps_ite
        (keeps_bind (keeps_writeKept _) (fun _ => keeps_bind (keeps_delay _) (fun _ => keeps_bind (keeps_writeKept _) (fun _ =>
          keeps_bind (keeps_pollFreeze _) (fun _ => keeps_ite (keeps_writeKept _) (keeps_raise _))))))
        (keeps_raise _)))))))))

theorem blind_error {α : Type} {m : Op α} (h : Blind m) (s : State) (g) {e} {u} (hm : m s = .error e u) : ∃ g', m (s.withWork g) = .error e
    (u.withWork g') := by
  obtain ⟨g', h⟩ := blind_withWork h s g; rw [hm] at h; exact ⟨g', h⟩

/-- STREAM_WRITE over the units whose exchanges are answered (R146). -/
theorem run_writeUnits (es : List Exchange) : ∀ (s : State) (x : Session) (i : Nat) (rest : List Byte) (k : Nat), s.session = some x → x.caps =
    capsOf x.variant → patternsSound s.params = true →
    (∀ j e, es[j]? = some e → e.answered s.params x 0 = true ∧ e.cmd = streamUnit (s.dataByte (i + 2*j)) (s.dataByte (i + 2 * j + 1))) →
    s.statScript = es.flatMap Exchange.script ++ rest →
    ∃ g, writeUnits (es.length + k) i s = writeUnits k (i + 2 * es.length) ((es.foldl State.exchanged s).withWork g) := by
  induction es with
  | nil => intro s x i rest k _ _ _ _ _; exact ⟨id, by simp; rfl⟩
  | cons e es ih =>
    intro s x i rest k hx hc hp ha hs
    have h0 := ha 0 e (by simp)
    simp only [Nat.mul_zero, Nat.add_zero] at h0
    obtain ⟨g, hg⟩ := run_serialExchange (e := e) (rest := es.flatMap Exchange.script ++ rest) hx hc hp (by omega) h0.1 (by simpa using hs)
    rw [List.length_cons, show es.length + 1 + k = es.length + k + 1 by omega, writeUnits, run_bind, run_get]
    simp only
    rw [run_bind, ← h0.2]
    have : attempt (serialExchange e.cmd 0) s = .ok (.ok (exchangeResult e.cmd e.samples)) ((s.exchanged e).withWork g) := by
      unfold attempt; rw [hg]
    rw [this]
    simp only
    obtain ⟨g', hg'⟩ := ih ((s.exchanged e).withWork g)
        {x with shadow := bitPattern (variantParams s.params x.variant) x e.cmd (e.samples.length - 1) false} (i + 2) rest k
        (by simpa using exchanged_session hx e) hc (by simpa using hp)
      (by 
        intro j e' hj
        have := ha (j+1) e' (by simpa using hj)
        simp only [withWork_params, exchanged_params, answered_shadow]
        refine ⟨this.1, ?_⟩
        rw [this.2]
        simp only [State.dataByte, State.withWork, exchanged_buffer, exchanged_opsDone]
        congr 2 <;> ring_nf)
      (by simp [exchanged_statScript hx, hs])
    rw [hg']
    refine ⟨fun w => g' (g w), ?_⟩
    simp only [List.foldl_cons]
    have : ∀ (l : List Exchange) (u : State) (g), l.foldl State.exchanged (u.withWork g) = (l.foldl State.exchanged u).withWork g := by
      intro l; induction l with
      | nil => intros; rfl
      | cons a l ih => intros; simp [exchanged_withWork, ih]
    rw [this]
    simp only [withWork_withWork]
    congr 1; omega

/-- Exchanges change no parameter, no data byte and no count. -/
theorem exchanges_keep (es : List Exchange) : ∀ s : State, (es.foldl State.exchanged s).params = s.params ∧ (es.foldl State.exchanged s).buffer =
    s.buffer ∧ (es.foldl State.exchanged s).opsDone = s.opsDone := by
  induction es with
  | nil => intro s; exact ⟨rfl, rfl, rfl⟩
  | cons e es ih => intro s; have := ih (s.exchanged e); simpa using this

theorem streamUnit_eq (a b : Byte) : a.setWidth 16 <<< 8 ||| b.setWidth 16 = streamUnit a b := by
    unfold streamUnit
    apply BitVec.eq_of_getLsbD_eq
    intro i hi
    simp only [BitVec.getLsbD_or, BitVec.getLsbD_shiftLeft, BitVec.getLsbD_setWidth, BitVec.getLsbD_append]
    by_cases h : i < 8
    · simp [h, hi]
    · have hb : b.getLsbD i = false := BitVec.getLsbD_of_ge _ _ (by omega)
      have : i - 8 < 16 := by omega
      simp [h, hi, hb, this]

/-- STREAM_READ over the units that are payloads (R147). -/
theorem run_readUnits (es : List Exchange) : ∀ (s : State) (x : Session) (acc : List Byte) (rest : List Byte) (k : Nat), s.session = some x →
    x.caps = capsOf x.variant → patternsSound s.params = true →
    (∀ e ∈ es, e.cmd = s.params.nopCmd ∧ e.answered s.params x 0 = true ∧ decodeFrame (exchangeResult e.cmd e.samples) = .payload
        (exchangeResult e.cmd e.samples)) →
    s.statScript = es.flatMap Exchange.script ++ rest →
    ∃ g, readUnits (es.length + k) acc s = readUnits k (acc ++ es.flatMap
        (fun e => [(exchangeResult e.cmd e.samples).extractLsb' 8 8, (exchangeResult e.cmd e.samples).extractLsb' 0 8]))
        ((es.foldl State.exchanged s).withWork g) := by
  induction es with
  | nil => intro s x i rest k _ _ _ _ _; exact ⟨id, by simp; rfl⟩
  | cons e es ih =>
    intro s x acc rest k hx hc hp ha hs
    have h0 := ha e (by simp)
    obtain ⟨g, hg⟩ := run_serialExchange (e := e) (rest := es.flatMap Exchange.script ++ rest) hx hc hp (by omega) h0.2.1 (by simpa using hs)
    rw [List.length_cons, show es.length + 1 + k = es.length + k + 1 by omega, readUnits, run_bind, run_get]
    simp only
    rw [run_bind, ← h0.1]
    have : attempt (serialExchange e.cmd 0) s = .ok (.ok (exchangeResult e.cmd e.samples)) ((s.exchanged e).withWork g) := by
      unfold attempt; rw [hg]
    rw [this]
    simp only [h0.2.2]
    obtain ⟨g', hg'⟩ := ih ((s.exchanged e).withWork g)
        {x with shadow := bitPattern (variantParams s.params x.variant) x e.cmd (e.samples.length - 1) false}
        (acc ++ [highByte (exchangeResult e.cmd e.samples), lowByte (exchangeResult e.cmd e.samples)]) rest k
        (by simpa using exchanged_session hx e) hc (by simpa using hp)
      (by intro e' hj; have := ha e' (by simp [hj]); simpa [answered_shadow] using this)
      (by simp [exchanged_statScript hx, hs])
    rw [hg']
    refine ⟨fun w => g' (g w), ?_⟩
    simp only [List.foldl_cons]
    have : ∀ (l : List Exchange) (u : State) (g), l.foldl State.exchanged (u.withWork g) = (l.foldl State.exchanged u).withWork g := by
      intro l; induction l with
      | nil => intros; rfl
      | cons a l ih => intros; simp [exchanged_withWork, ih]
    rw [this]
    simp only [withWork_withWork]
    congr 1
    simp [highByte, lowByte]

end Sys2Proof.Laws
end

