-- ==== Sys2Proof/Laws/Nested.lean ====
section
/-! SUPPORT. How an operation goes on after a part that ended as the same operation of the host would: after an exchange or a list of exchanges
(R140, R146, R147, R172), after the stop at the end of a lifecycle operation (R172, R174, R183), and after the probes of REGISTER_AREA (R212). -/

namespace Sys2Proof.Laws

open Sys2Proof Sys2Proof.Machine

variable {α β : Type}

/-! ### `State.nestedIn` -/

@[simp] theorem nestedIn_params (t s : State) : (t.nestedIn s).params = t.params := rfl
@[simp] theorem nestedIn_owned (t s : State) : (t.nestedIn s).owned = t.owned := rfl
@[simp] theorem nestedIn_session (t s : State) : (t.nestedIn s).session = t.session := rfl
@[simp] theorem nestedIn_lines (t s : State) : (t.nestedIn s).lines = t.lines := rfl
@[simp] theorem nestedIn_work (t s : State) : (t.nestedIn s).work = t.work := rfl
@[simp] theorem nestedIn_registry (t s : State) : (t.nestedIn s).registry = t.registry := rfl
@[simp] theorem nestedIn_lineTrace (t s : State) : (t.nestedIn s).lineTrace = t.lineTrace := rfl
@[simp] theorem nestedIn_memTrace (t s : State) : (t.nestedIn s).memTrace = t.memTrace := rfl
@[simp] theorem nestedIn_memory (t s : State) : (t.nestedIn s).memory = t.memory := rfl
@[simp] theorem nestedIn_statScript (t s : State) : (t.nestedIn s).statScript = t.statScript := rfl
@[simp] theorem nestedIn_memScript (t s : State) : (t.nestedIn s).memScript = t.memScript := rfl
@[simp] theorem nestedIn_memCalls (t s : State) : (t.nestedIn s).memCalls = t.memCalls := rfl
@[simp] theorem nestedIn_requests (t s : State) : (t.nestedIn s).requests = t.requests := rfl
@[simp] theorem nestedIn_buffer (t s : State) : (t.nestedIn s).buffer = t.buffer := rfl
@[simp] theorem nestedIn_areaSel (t s : State) : (t.nestedIn s).areaSel = t.areaSel := rfl
@[simp] theorem nestedIn_opsDone (t s : State) : (t.nestedIn s).opsDone = s.opsDone := rfl
@[simp] theorem nestedIn_result (t s : State) : (t.nestedIn s).result = s.result := rfl

/-- Where a blind part returned from `s`, its caller goes on as from the end of the same operation of the host. -/
theorem nestedIn_conclude {m : Op α} (h : Blind m) {s u : State} {a : α} (hm : m s = .ok a u) (r : OpResult) :
    (u.conclude r).nestedIn s = u.withWork (fun _ => WorkRegs.rest) := by
  obtain ⟨_, h2, h3⟩ := blind_keeps h hm
  apply state_ext <;> simp [State.nestedIn, State.conclude, State.withWork, h2, h3]

/-- What a blind operation leaves is its caller's state but for the result, once the caller ends there too. -/
theorem conclude_nestedIn {m : Op OpResult} (h : Blind m) {s u : State} (hu : runOp m s = .next u) (r : OpResult) :
    (u.nestedIn s).conclude r = { u with result := some r } := by
  have hc : u.work = WorkRegs.rest ∧ u.opsDone = s.opsDone + 1 := by
    obtain ⟨w, hw⟩ := h s s.work s.buffer s.opsDone s.result
    rw [dressed_self] at hw
    simp only [runOp] at hu
    cases hm : m s with
    | ok a t =>
      rw [hm] at hw hu
      simp only [dressedResult, EStateM.Result.ok.injEq, true_and] at hw
      have := congrArg (fun x : State => x.opsDone + 1) hw
      cases hu
      exact ⟨rfl, this⟩
    | error e t =>
      rw [hm] at hw hu
      simp only [dressedResult, EStateM.Result.error.injEq, true_and] at hw
      have := congrArg (fun x : State => x.opsDone + 1) hw
      cases e <;> (cases hu; exact ⟨rfl, this⟩)
  apply state_ext <;> simp [State.conclude, hc.1, hc.2]

/-! ### Parts of the engine -/

theorem keeps_get {k : State → Op β} (h : ∀ s, KeepsSession (k s)) : KeepsSession (do let s ← get; k s) := by
  intro s; rw [run_bind]; exact h s s

theorem keeps_setAcc (v : Word32) : KeepsSession (setAcc v) := fun _ => ⟨rfl, rfl, rfl⟩

theorem keeps_setCnt (k : Nat) : KeepsSession (setCnt k) := fun _ => ⟨rfl, rfl, rfl⟩

theorem keeps_setDbit (d : Bool) : KeepsSession (setDbit d) := fun _ => ⟨rfl, rfl, rfl⟩

theorem keeps_getAcc : KeepsSession getAcc := fun _ => ⟨rfl, rfl, rfl⟩

theorem keeps_bitDelay (x : Session) (k : Nat) : KeepsSession (bitDelay x k) := keeps_ite (keeps_pure _) (keeps_delay _)

theorem keeps_clockOneBit : KeepsSession clockOneBit :=
  keeps_bind keeps_openedSession (fun _ => keeps_bind keeps_currentParams (fun _ => keeps_bind keeps_getAcc (fun _ =>
    keeps_bind (keeps_setDbit _) (fun _ => keeps_bind (keeps_writeKept _) (fun _ => keeps_bind (keeps_writeKept _) (fun _ =>
      keeps_bind (keeps_bitDelay _ _) (fun _ => keeps_bind keeps_readStat (fun _ => keeps_bind (keeps_setAcc _) (fun _ =>
        keeps_bind (keeps_writeKept _) (fun _ => keeps_bitDelay _ _))))))))))

theorem keeps_bitLoop : ∀ k, KeepsSession (bitLoop k)
  | 0 => keeps_pure _
  | k + 1 => keeps_bind keeps_clockOneBit (fun _ => keeps_bind (keeps_setCnt _) (fun _ => keeps_bitLoop k))

theorem keeps_settleLoop : ∀ k, KeepsSession (settleLoop k)
  | 0 => keeps_pure _
  | k + 1 => keeps_bind (keeps_setPoll _) (fun _ => keeps_bind keeps_readStat (fun _ => keeps_ite (keeps_settleLoop k) (keeps_pure _)))

theorem keeps_checkAvailable : KeepsSession checkAvailable := by
  refine keeps_bind keeps_readStatus (fun st => ?_)
  split <;> first | exact keeps_raise _ | exact keeps_pure _

theorem keeps_serialExchange (cmd : Word16) (delayBits : Nat) : KeepsSession (serialExchange cmd delayBits) :=
  keeps_bind (keeps_useCap _) (fun _ => keeps_ite (keeps_raise _) (keeps_bind
    (keeps_bind keeps_checkAvailable (fun _ => keeps_ite (keeps_pure _) keeps_stopTarget)) (fun _ =>
      keeps_bind (keeps_setAcc _) (fun _ => keeps_bind (keeps_setCnt _) (fun _ => keeps_bind
        (keeps_bind keeps_openedSession (fun _ => keeps_get (fun _ => keeps_ite (keeps_settleLoop _) (keeps_pure _)))) (fun _ =>
          keeps_bind (keeps_bitLoop _) (fun _ => keeps_getAcc)))))))

theorem blind_nopFrames : ∀ k, Blind (nopFrames k)
  | 0 => blind_pure _
  | k + 1 => blind_params (k := fun p => do let _ ← serialExchange p.nopCmd 0; nopFrames k)
      (fun _ => blind_bind (blind_serialExchange _ _) (fun _ => blind_nopFrames k))

theorem blind_idlePulses : ∀ k, Blind (idlePulses k)
  | 0 => blind_raise _
  | k + 1 => blind_bind (blind_setPoll _) (fun _ => blind_params (k := fun p => do
      let v ← serialExchange p.nopCmd 16
      let q ← currentParams
      if recordedLevel (v.getLsbD 0) = q.dsoIdle then pure () else idlePulses k)
      (fun _ => blind_bind (blind_serialExchange _ _) (fun _ => blind_bind blind_currentParams (fun _ =>
        blind_ite (blind_pure _) (blind_idlePulses k)))))

theorem blind_resynchronizeTarget : Blind resynchronizeTarget :=
  blind_bind (blind_useCap _) (fun _ => blind_bind (blind_nopFrames _) (fun _ => blind_idlePulses _))

/-! ### After an exchange -/

/-- A SERIAL_CLOCK that returned a frame is an exchange that does, on any working registers, and its caller goes on after it. -/
theorem serialClock_frame {s u : State} {cmd : Word16} {d : Nat} {v : Word32} (h : exec (.serialClock cmd d) s = .next u)
    (hv : u.result = some (.frame v)) (g0 : WorkRegs → WorkRegs) :
    ∃ g, serialExchange cmd d (s.withWork g0) = .ok v ((u.nestedIn s).withWork g) := by
  simp only [exec, execSerialClock, runOp, run_bind] at h
  cases hm : serialExchange cmd d s with
  | error e w =>
    rw [hm] at h
    cases e <;> (simp at h; subst h; simp [State.takeFault, State.conclude] at hv)
  | ok a w =>
    rw [hm] at h
    simp only [run_pure, Host.Outcome.next.injEq] at h
    subst h
    simp only [conclude_result, Option.some.injEq, OpResult.frame.injEq] at hv
    subst hv
    obtain ⟨g, hg⟩ := blind_withWork (blind_serialExchange cmd d) s g0
    rw [hm] at hg
    refine ⟨fun _ => g w.work, ?_⟩
    rw [hg, nestedIn_conclude (blind_serialExchange cmd d) hm]
    rfl

/-- A SERIAL_CLOCK that ended in a fault is an exchange that does, on any working registers: its caller ends with the same fault there. -/
theorem serialClock_ends {s t : State} {cmd : Word16} {d : Nat} {f : FaultKind} (h : exec (.serialClock cmd d) s = .next t)
    (hf : t.result = some (.fault f)) (g0 : WorkRegs → WorkRegs) :
    ∃ x u, serialExchange cmd d (s.withWork g0) = .error x u ∧ t = u.takeFault f ∧ (x = .fault f ∨ ∃ p, f = .proto p ∧ x = .access p) := by
  obtain ⟨u, hu, rfl⟩ := serialClock_fault h hf
  rcases hu with hu | ⟨p, rfl, hu⟩
  · obtain ⟨g, hg⟩ := blind_error (blind_serialExchange cmd d) s g0 hu
    exact ⟨_, _, hg, rfl, .inl rfl⟩
  · obtain ⟨g, hg⟩ := blind_error (blind_serialExchange cmd d) s g0 hu
    exact ⟨_, _, hg, rfl, .inr ⟨p, rfl, rfl⟩⟩

/-- A list of exchanges that is cut in two. -/
theorem clocksTo_append (l m : List Clocked) : ∀ s t, clocksTo s (l ++ m) t ↔ ∃ u, clocksTo s l u ∧ clocksTo u m t := by
  induction l with
  | nil => intro s t; simp [clocksTo]
  | cons c l ih =>
    intro s t
    simp only [List.cons_append, clocksTo, ih]
    constructor
    · rintro ⟨u, h1, h2, w, h3, h4⟩; exact ⟨w, ⟨u, h1, h2, h3⟩, h4⟩
    · rintro ⟨w, ⟨u, h1, h2, h3⟩, h4⟩; exact ⟨u, h1, h2, w, h3, h4⟩

/-- Exchanges change no parameter, not the variant of the session, no data byte, and neither the count of operations nor the last result. -/
theorem clocksTo_keep (l : List Clocked) : ∀ s t, clocksTo s l t → t.params = s.params ∧
    t.session.map Session.variant = s.session.map Session.variant ∧ t.buffer = s.buffer ∧ t.opsDone = s.opsDone ∧ t.result = s.result := by
  induction l with
  | nil => rintro s t rfl; exact ⟨rfl, rfl, rfl, rfl, rfl⟩
  | cons c l ih =>
    rintro s t ⟨u, h1, h2, h3⟩
    obtain ⟨g, hg⟩ := serialClock_frame h1 h2 id
    have hk := keeps_serialExchange c.cmd c.delayBits (s.withWork id)
    have hb := blind_keeps (blind_serialExchange _ _) hg
    rw [hg] at hk
    obtain ⟨a1, a2, a3, a4, a5⟩ := ih _ _ h3
    exact ⟨a1.trans hk.1, a2.trans hk.2.1, a3.trans hb.1, a4, a5⟩

/-- NOP frames over a list of exchanges (R140). -/
theorem run_nopFrames (l : List Clocked) (k : Nat) : ∀ (s t : State) (g0 : WorkRegs → WorkRegs),
    (∀ c ∈ l, c.cmd = s.params.nopCmd ∧ c.delayBits = 0) → clocksTo s l t →
    ∃ g, nopFrames (l.length + k) (s.withWork g0) = nopFrames k (t.withWork g) := by
  induction l with
  | nil => rintro s t g0 _ rfl; exact ⟨g0, by simp⟩
  | cons c l ih =>
    rintro s t g0 hl ⟨u, h1, h2, h3⟩
    obtain ⟨hc, hd⟩ := hl c (by simp)
    obtain ⟨g, hg⟩ := serialClock_frame h1 h2 g0
    have hp := (clocksTo_keep [c] s (u.nestedIn s) ⟨u, h1, h2, rfl⟩).1
    obtain ⟨g', hg'⟩ := ih _ t g (fun c' h => by rw [hp]; exact hl c' (by simp [h])) h3
    refine ⟨g', ?_⟩
    rw [List.length_cons, show l.length + 1 + k = l.length + k + 1 by omega, nopFrames, run_bind, run_get]
    simp only [withWork_params]
    rw [run_bind, ← hc, ← hd, hg]
    exact hg'

/-- Pulses that do not show the idle level, over a list of exchanges (R140). -/
theorem run_idlePulses (l : List Clocked) (k : Nat) {x : Session} : ∀ (s t : State) (g0 : WorkRegs → WorkRegs),
    s.session.map Session.variant = some x.variant →
    (∀ c ∈ l, c.cmd = s.params.nopCmd ∧ c.delayBits = 16) →
    (∀ c ∈ l, ¬ recordedLevel (c.frame.getLsbD 0) = (variantParams s.params x.variant).dsoIdle) → clocksTo s l t →
    ∃ g, idlePulses (l.length + k) (s.withWork g0) = idlePulses k (t.withWork g) := by
  induction l with
  | nil => rintro s t g0 _ _ _ rfl; exact ⟨g0, by simp⟩
  | cons c l ih =>
    rintro s t g0 hx hl hi ⟨u, h1, h2, h3⟩
    obtain ⟨hc, hd⟩ := hl c (by simp)
    obtain ⟨g, hg⟩ := serialClock_frame h1 h2 (fun w => { g0 w with poll := l.length + k + 1 })
    obtain ⟨hp, hv, _⟩ := clocksTo_keep [c] s (u.nestedIn s) ⟨u, h1, h2, rfl⟩
    obtain ⟨g', hg'⟩ := ih _ t g (hv.trans hx) (fun c' h => by rw [hp]; exact hl c' (by simp [h]))
      (fun c' h => by rw [hp]; exact hi c' (by simp [h])) h3
    refine ⟨g', ?_⟩
    obtain ⟨y, hy, hyv⟩ := Option.map_eq_some_iff.mp (hv.trans hx)
    rw [List.length_cons, show l.length + 1 + k = l.length + k + 1 by omega, idlePulses, run_bind, run_setPoll]
    simp only [withWork_withWork]
    rw [run_bind, run_get]
    simp only [withWork_params]
    rw [run_bind, ← hc, ← hd, hg]
    simp only
    have hi0 := hi c (by simp)
    rw [run_bind, run_currentParams (x := y) (by simpa using hy)]
    simp only [withWork_params, hyv, hp, hi0, if_false]
    exact hg'

/-- The units of STREAM_WRITE over a list of exchanges (R146). -/
theorem clocked_writeUnits (l : List Clocked) (k : Nat) : ∀ (s t : State) (i : Nat) (g0 : WorkRegs → WorkRegs),
    (∀ j c, l[j]? = some c → c.cmd = streamUnit (s.dataByte (i + 2 * j)) (s.dataByte (i + 2 * j + 1)) ∧ c.delayBits = 0) → clocksTo s l t →
    ∃ g, writeUnits (l.length + k) i (s.withWork g0) = writeUnits k (i + 2 * l.length) (t.withWork g) := by
  induction l with
  | nil => rintro s t i g0 _ rfl; exact ⟨g0, by simp⟩
  | cons c l ih =>
    rintro s t i g0 hl ⟨u, h1, h2, h3⟩
    obtain ⟨hc, hd⟩ := hl 0 c (by simp)
    simp only [Nat.mul_zero, Nat.add_zero] at hc
    obtain ⟨g, hg⟩ := serialClock_frame h1 h2 g0
    obtain ⟨_, _, hb, ho, _⟩ := clocksTo_keep [c] s (u.nestedIn s) ⟨u, h1, h2, rfl⟩
    have hdata : ∀ j, (u.nestedIn s).dataByte j = s.dataByte j := by intro j; simp only [State.dataByte, hb, ho]
    obtain ⟨g', hg'⟩ := ih _ t (i + 2) g (fun j c' hj => by
      have := hl (j + 1) c' (by simpa using hj)
      rw [hdata, hdata, this.1]
      exact ⟨by congr 2 <;> ring_nf, this.2⟩) h3
    refine ⟨g', ?_⟩
    rw [List.length_cons, show l.length + 1 + k = l.length + k + 1 by omega, writeUnits, run_bind, run_get]
    simp only
    have hw : ∀ j, (s.withWork g0).dataByte j = s.dataByte j := fun _ => rfl
    have : attempt (serialExchange (streamUnit ((s.withWork g0).dataByte i) ((s.withWork g0).dataByte (i + 1))) 0) (s.withWork g0) =
        .ok (.ok c.frame) ((u.nestedIn s).withWork g) := by
      rw [hw, hw, ← hc, ← hd]; unfold attempt; rw [hg]
    rw [run_bind, this]
    simp only
    rw [hg']
    congr 1; omega

/-- The units of STREAM_READ over a list of exchanges whose frames are payloads (R147). -/
theorem clocked_readUnits (l : List Clocked) (k : Nat) : ∀ (s t : State) (acc : List Byte) (g0 : WorkRegs → WorkRegs),
    (∀ c ∈ l, c.cmd = s.params.nopCmd ∧ c.delayBits = 0 ∧ decodeFrame c.frame = .payload c.frame) → clocksTo s l t →
    ∃ g, readUnits (l.length + k) acc (s.withWork g0) =
      readUnits k (acc ++ l.flatMap (fun c => [c.frame.extractLsb' 8 8, c.frame.extractLsb' 0 8])) (t.withWork g) := by
  induction l with
  | nil => rintro s t acc g0 _ rfl; exact ⟨g0, by simp⟩
  | cons c l ih =>
    rintro s t acc g0 hl ⟨u, h1, h2, h3⟩
    obtain ⟨hc, hd, hf⟩ := hl c (by simp)
    obtain ⟨g, hg⟩ := serialClock_frame h1 h2 g0
    have hp := (clocksTo_keep [c] s (u.nestedIn s) ⟨u, h1, h2, rfl⟩).1
    obtain ⟨g', hg'⟩ := ih _ t (acc ++ [highByte c.frame, lowByte c.frame]) g (fun c' h => by rw [hp]; exact hl c' (by simp [h])) h3
    refine ⟨g', ?_⟩
    rw [List.length_cons, show l.length + 1 + k = l.length + k + 1 by omega, readUnits, run_bind, run_get]
    simp only [withWork_params]
    have : attempt (serialExchange s.params.nopCmd 0) (s.withWork g0) = .ok (.ok c.frame) ((u.nestedIn s).withWork g) := by
      rw [← hc, ← hd]; unfold attempt; rw [hg]
    rw [run_bind, this]
    simp only [hf]
    rw [hg']
    simp [highByte, lowByte]

/-! ### A frozen target's exchanges -/

theorem exchanged_result (s : State) (e : Exchange) : (s.exchanged e).result = s.result := by
  unfold State.exchanged; split <;> rfl

/-- SERIAL_CLOCK of a frozen target that answers (R151). -/
theorem exec_serialClock_answered {s : State} {x : Session} {e : Exchange} {d : Nat} {rest : List Byte} (hx : s.session = some x)
    (hc : x.caps = capsOf x.variant) (hp : patternsSound s.params = true) (hd : d ≤ 16) (ha : e.answered s.params x d = true)
    (hs : s.statScript = e.script ++ rest) :
    exec (.serialClock e.cmd d) s = .next ((s.exchanged e).conclude (.frame (exchangeResult e.cmd e.samples))) := by
  obtain ⟨g, hg⟩ := run_serialExchange hx hc hp hd ha hs
  simp only [exec, execSerialClock]
  rw [runOp_ok (by rw [run_bind, hg]; rfl), conclude_withWork]

/-- The exchanges of a frozen target that answers them are a list of exchanges. -/
theorem clocksTo_exchanged (d : Exchange → Nat) (es : List Exchange) : ∀ (s : State) (x : Session) (rest : List Byte) (g0 : WorkRegs → WorkRegs),
    s.session = some x → x.caps = capsOf x.variant → patternsSound s.params = true →
    (∀ e ∈ es, d e ≤ 16 ∧ e.answered s.params x (d e) = true) → s.statScript = es.flatMap Exchange.script ++ rest →
    ∃ g, clocksTo (s.withWork g0) (es.map (fun e => { cmd := e.cmd, delayBits := d e, frame := exchangeResult e.cmd e.samples }))
      ((es.foldl State.exchanged s).withWork g) := by
  induction es with
  | nil => intro s x rest g0 _ _ _ _ _; exact ⟨g0, rfl⟩
  | cons e es ih =>
    intro s x rest g0 hx hc hp ha hs
    obtain ⟨hd, he⟩ := ha e (by simp)
    have h := exec_serialClock_answered (s := s.withWork g0) (x := x) (e := e) (rest := es.flatMap Exchange.script ++ rest) (by simpa using hx) hc
      (by simpa using hp) hd (by simpa using he) (by simpa using hs)
    obtain ⟨g, hg⟩ := ih (s.exchanged e) _ rest (fun _ => WorkRegs.rest) (exchanged_session hx e) hc (by simpa using hp)
      (by intro e' h'; simpa [answered_shadow] using ha e' (by simp [h'])) (by simp [exchanged_statScript hx, hs])
    refine ⟨g, _, h, rfl, ?_⟩
    rw [exchanged_withWork, conclude_withWork]
    have : ((s.exchanged e).conclude (.frame (exchangeResult e.cmd e.samples))).nestedIn (s.withWork g0) =
        (s.exchanged e).withWork (fun _ => WorkRegs.rest) := by
      apply state_ext <;> simp [State.nestedIn, State.conclude, State.withWork, exchanged_result]
    rw [this]
    exact hg

/-- SERIAL_CLOCK does not read the working registers it finds. -/
theorem exec_serialClock_withWork (cmd : Word16) (d : Nat) (s : State) (g : WorkRegs → WorkRegs) :
    exec (.serialClock cmd d) (s.withWork g) = exec (.serialClock cmd d) s := by
  simp only [exec, execSerialClock]
  exact runOp_blind (blind_bind (blind_serialExchange _ _) (fun _ => blind_pure _)) s (s.withWork g) ⟨g s.work, rfl⟩

/-! ### The stop at the end -/

/-- The end of STEP_CHIP and of RESTART_CHIP, run from `m`. -/
theorem runOp_endsStopping {m : State} {x : Session} (hx : m.session.map Session.variant = some x.variant) (g0 : WorkRegs → WorkRegs)
    (asks : VariantParams → Bool) (o : Host.Outcome State Fault Refusal)
    (ho : o = runOp (do stopTarget; let v ← currentParams; (if asks v then resynchronizeTarget else pure ()); pure .ok) (m.withWork g0)) :
    endsStopping o (asks (variantParams m.params x.variant)) m := by
  intro t ht
  have hends := stopChip_ends _ _ ht
  have hk := keeps_stopTarget m
  cases hm : stopTarget m with
  | error e u =>
    obtain ⟨g, hg⟩ := blind_error blind_stopTarget m g0 hm
    simp only [exec, execStopChip, runOp, run_bind, hm] at ht
    refine ⟨fun _ => ?_, fun hok => ?_⟩
    · rw [ho]; simp only [runOp, run_bind, hg]
      rw [← ht]; cases e <;> rfl
    · obtain ⟨w, hw, _⟩ := hends.1 hok
      rw [hm] at hw; cases hw
  | ok a u =>
    obtain ⟨g, hg⟩ := blind_withWork blind_stopTarget m g0
    simp only [exec, execStopChip, runOp, run_bind, hm, run_pure, Host.Outcome.next.injEq] at ht
    rw [hm] at hg hk
    simp only [endState] at hk
    obtain ⟨y, hy, hyv⟩ := Option.map_eq_some_iff.mp (hk.2.1.trans hx)
    have hcp : currentParams (u.withWork g) = .ok (variantParams m.params x.variant) (u.withWork g) := by
      rw [run_currentParams (x := y) (by simpa using hy)]; simp [hk.1, hyv]
    refine ⟨fun h => ?_, fun hok hr => ?_⟩
    · have hr : asks (variantParams m.params x.variant) = false := by
        rcases h with h | h
        · exact absurd (by rw [← ht]; rfl) h
        · exact h
      rw [ho]
      simp only [runOp, run_bind, hg, hcp, hr, Bool.false_eq_true, if_false, run_pure]
      rw [← ht]; rfl
    · rw [ho, ← ht, nestedIn_conclude blind_stopTarget hm]
      have hb : Blind (do resynchronizeTarget; pure .ok : Op OpResult) := blind_bind blind_resynchronizeTarget (fun _ => blind_pure _)
      have h2 := runOp_blind hb u (u.withWork g) ⟨g u.work, rfl⟩
      have h3 := runOp_blind hb u (u.withWork (fun _ => WorkRegs.rest)) ⟨WorkRegs.rest, rfl⟩
      simp only [exec, execResynchronize]
      rw [h3, ← h2]
      simp only [runOp, run_bind, hg, hcp, hr, if_true]

/-! ### The probes of REGISTER_AREA -/

theorem blind_probeOp {m : Op ProbeResult} (h : Blind m) : Blind (probeOp m) := by
  intro s w b o r
  obtain ⟨w', hw⟩ := h s w b o r
  refine ⟨w', ?_⟩
  simp only [probeOp, hw]
  cases m s with
  | ok a t => rfl
  | error e t => cases e <;> rfl

theorem blind_probeAttempt {ρ : Type} (addr w c : Nat) (enter : List (Nat × BusWord)) (leave : BusWord) (table : Nat → Nat → Option ρ) :
    Blind (probeAttempt addr w c enter leave table) := by
  have hl : ∀ (orig : BusWord) (hit : Option ρ), Blind (leaveAttempt addr w leave orig hit) := fun orig hit =>
    blind_bind (blind_wr _ _) (fun _ => blind_bind (blind_rd _ _) (fun _ =>
      blind_ite (blind_bind (blind_wr _ _) (fun _ => blind_pure _)) (blind_pure _)))
  rw [probeAttempt_eq]
  refine blind_bind (blind_rd _ _) (fun orig => blind_bind (blind_wrAll _) (fun _ => blind_bind (blind_rd _ _) (fun man =>
    blind_bind (blind_rd _ _) (fun dev => ?_))))
  cases namedRow w c man dev table with
  | none => exact hl _ _
  | some e =>
    exact blind_bind (blind_bind (blind_wr _ _) (fun _ => blind_bind (blind_rd _ _) (fun _ => blind_pure _))) (fun hit => hl _ _)

/-- The probes read neither the working registers nor the caller's fields. -/
theorem blind_probeFamily (addr : Nat) (f : Family) : Blind (probeFamily addr f) := by
  cases f with
  | amd =>
    have : ∀ ps, Blind (amdProbePairs addr ps) := by
      intro ps
      induction ps with
      | nil => exact blind_pure _
      | cons p ps ih =>
        exact blind_params (k := fun q => do
          let d := amdProbeDescriptor q addr p.1 p.2
          let hit ← probeAttempt addr p.1 p.2 (amdIdEnter d) (rep d.chip d.numbers.cmdReset) (amdRow q p.2)
          match hit with
          | some e => pure { size := (amdMatched q addr p.1 p.2 e).chip.size, binding := some (.amd (amdMatched q addr p.1 p.2 e)), status := .ok }
          | none => amdProbePairs addr ps) (fun q => blind_bind (blind_probeAttempt _ _ _ _ _ _) (fun x => by
            cases x <;> first | exact ih | exact blind_pure _))
    exact blind_probeOp (this _)
  | cfm =>
    have : ∀ rows, Blind (cfmProbeRows addr rows) := by
      intro rows
      induction rows with
      | nil => exact blind_pure _
      | cons e rows ih =>
        exact blind_params (k := fun q => do
          let v ← rd (e.regBase + q.cfmNumbers.ustatOff) 1
          if laneHas v q.cfmNumbers.ccif && !laneHas v cfmReservedMask then
            pure { size := e.size, binding := some (.cfm (cfmMatched q addr e)), status := .ok }
          else cfmProbeRows addr rows) (fun q => blind_bind (blind_rd _ _) (fun _ => blind_ite (blind_pure _) ih))
    exact blind_probeOp (blind_params (k := fun q => cfmProbeRows addr (sortBy CfmRow.size (q.cfmTable.filter (fun e => e.arrayBase == addr))))
      (fun q => this _))
  | intel =>
    have hit : ∀ d, Blind (intelHit d) := fun d => blind_ite (blind_bind (blind_bind (blind_wr _ _) (fun _ => blind_bind (blind_rd _ _)
      (fun _ => blind_bind (blind_wr _ _) (fun _ => blind_pure _)))) (fun _ => blind_pure _)) (blind_pure _)
    have : ∀ ps, Blind (intelProbePairs addr ps) := by
      intro ps
      induction ps with
      | nil => exact blind_pure _
      | cons p ps ih =>
        exact blind_params (k := fun q => do
          let chip : ChipCommon := { base := addr, size := 0, name := "", busWidth := p.1, chipWidth := p.2, sectorSize := 0 }
          let h ← probeAttempt addr p.1 p.2 [(addr, rep chip q.intelNumbers.cmdReadId)]
            (rep chip q.intelNumbers.cmdReadArray) (intelRow q p.2)
          match h with
          | some e => intelHit (intelMatched q addr p.1 p.2 e)
          | none => intelProbePairs addr ps) (fun q => blind_bind (blind_probeAttempt _ _ _ _ _ _) (fun x => by
            cases x <;> first | exact ih | exact hit _))
    exact blind_probeOp (this _)

/-- A computation whose results all meet a condition. -/
def Returns (m : Op α) (good : α → Prop) : Prop := ∀ s a t, m s = .ok a t → good a

theorem returns_pure {a : α} {good : α → Prop} (h : good a) : Returns (pure a : Op α) good := by
  intro s b t hm; cases hm; exact h

theorem returns_bind {m : Op α} {k : α → Op β} {good : β → Prop} (h : ∀ a, Returns (k a) good) : Returns (m >>= k) good := by
  intro s b t hm
  obtain ⟨a, u, _, h2⟩ := bind_ok_inv hm
  exact h a u b t h2

theorem returns_ite {c : Prop} [Decidable c] {m n : Op α} {good : α → Prop} (hm : Returns m good) (hn : Returns n good) :
    Returns (if c then m else n) good := by
  split <;> assumption

/-- A probe of nonzero size has a descriptor (R241). -/
theorem probeFamily_binds (addr : Nat) (f : Family) : Returns (probeFamily addr f) (fun r => 0 < r.size → ∃ d, r.binding = some d) := by
  have none' : ∀ st, (fun r : ProbeResult => 0 < r.size → ∃ d, r.binding = some d) { size := 0, binding := none, status := st } := by
    intro st h; exact absurd h (by simp)
  have some' : ∀ n d st, (fun r : ProbeResult => 0 < r.size → ∃ d, r.binding = some d) { size := n, binding := some d, status := st } :=
    fun _ d _ _ => ⟨d, rfl⟩
  have wrap : ∀ m, Returns m (fun r => 0 < r.size → ∃ d, r.binding = some d) →
      Returns (probeOp m) (fun r => 0 < r.size → ∃ d, r.binding = some d) := by
    intro m hm s a t h
    simp only [probeOp] at h
    cases hms : m s with
    | ok b u => rw [hms] at h; cases h; exact hm s _ _ hms
    | error e u =>
      rw [hms] at h
      cases e with
      | fault _ => cases h
      | access p => cases h; exact none' _
  cases f with
  | amd =>
    have : ∀ ps, Returns (amdProbePairs addr ps) (fun r => 0 < r.size → ∃ d, r.binding = some d) := by
      intro ps
      induction ps with
      | nil => exact returns_pure (none' _)
      | cons p ps ih =>
        exact returns_bind (fun s => returns_bind (fun x => by cases x <;> first | exact ih | exact returns_pure (some' _ _ _)))
    exact wrap _ (this _)
  | cfm =>
    have : ∀ rows, Returns (cfmProbeRows addr rows) (fun r => 0 < r.size → ∃ d, r.binding = some d) := by
      intro rows
      induction rows with
      | nil => exact returns_pure (none' _)
      | cons e rows ih =>
        exact returns_bind (fun s => returns_bind (fun x => returns_ite (returns_pure (some' _ _ _)) ih))
    exact wrap _ (returns_bind (fun _ => this _))
  | intel =>
    have hit : ∀ d, Returns (intelHit d) (fun r => 0 < r.size → ∃ d, r.binding = some d) := fun d =>
      returns_ite (returns_bind (fun _ => returns_pure (some' _ _ _))) (returns_pure (some' _ _ _))
    have : ∀ ps, Returns (intelProbePairs addr ps) (fun r => 0 < r.size → ∃ d, r.binding = some d) := by
      intro ps
      induction ps with
      | nil => exact returns_pure (none' _)
      | cons p ps ih =>
        exact returns_bind (fun s => returns_bind (fun x => by cases x <;> first | exact ih | exact hit _))
    exact wrap _ (this _)

/-- The PROBE of a family is its probe (R100, R241). -/
theorem exec_probeInstr (base : Nat) (f : Family) (s : State) : exec (probeInstr base f) s = runOp (do
    let r ← probeFamily base f
    pure (.probe r)) s := by
  cases f <;> rfl

/-- A PROBE that ended with a result is a probe that does, on any working registers, and its caller goes on after it. -/
theorem probe_result {s u : State} {base : Nat} {f : Family} {r : ProbeResult} (h : exec (probeInstr base f) s = .next u)
    (hr : u.result = some (.probe r)) (g0 : WorkRegs → WorkRegs) :
    ∃ g, probeFamily base f (s.withWork g0) = .ok r ((u.nestedIn s).withWork g) := by
  rw [exec_probeInstr] at h
  simp only [runOp, run_bind] at h
  cases hm : probeFamily base f s with
  | error e w =>
    rw [hm] at h
    cases e <;> (simp at h; subst h; simp [State.takeFault, State.conclude] at hr)
  | ok a w =>
    rw [hm] at h
    simp only [run_pure, Host.Outcome.next.injEq] at h
    subst h
    simp only [conclude_result, Option.some.injEq, OpResult.probe.injEq] at hr
    subst hr
    obtain ⟨g, hg⟩ := blind_withWork (blind_probeFamily base f) s g0
    rw [hm] at hg
    refine ⟨fun _ => g w.work, ?_⟩
    rw [hg, nestedIn_conclude (blind_probeFamily base f) hm]
    rfl

/-- A PROBE that ended in a fault is a probe that does. -/
theorem probe_ends {s u : State} {base : Nat} {fam : Family} {f : FaultKind} (h : exec (probeInstr base fam) s = .next u)
    (hf : u.result = some (.fault f)) (g0 : WorkRegs → WorkRegs) :
    ∃ x w, probeFamily base fam (s.withWork g0) = .error x w ∧ u = w.takeFault f ∧ (x = .fault f ∨ ∃ p, f = .proto p ∧ x = .access p) := by
  rw [exec_probeInstr] at h
  simp only [runOp, run_bind] at h
  cases hm : probeFamily base fam s with
  | ok a w =>
    rw [hm] at h
    simp at h; subst h; simp [State.conclude] at hf
  | error e w =>
    obtain ⟨g, hg⟩ := blind_error (blind_probeFamily base fam) s g0 hm
    rw [hm] at h
    cases e with
    | fault f0 =>
      simp at h; subst h; simp [State.takeFault, State.conclude] at hf; subst hf
      exact ⟨_, _, hg, rfl, .inl rfl⟩
    | access p =>
      simp at h; subst h; simp [State.takeFault, State.conclude] at hf; subst hf
      exact ⟨_, _, hg, rfl, .inr ⟨p, rfl, rfl⟩⟩

/-- Candidates that were probed without a match are passed over (R212). -/
theorem run_probedWithoutMatch (base : Nat) (before rest : List Family) : ∀ (s t : State) (g0 : WorkRegs → WorkRegs),
    probedWithoutMatch base s before t →
    ∃ g, probeCandidates base (before ++ rest) (s.withWork g0) = probeCandidates base rest (t.withWork g) := by
  induction before with
  | nil => rintro s t g0 rfl; exact ⟨g0, rfl⟩
  | cons f before ih =>
    rintro s t g0 ⟨u, r, h1, h2, h3, h4, h5⟩
    obtain ⟨g, hg⟩ := probe_result h1 h2 g0
    obtain ⟨g', hg'⟩ := ih _ t g h5
    refine ⟨g', ?_⟩
    rw [List.cons_append, probeCandidates, run_bind, hg]
    simp only
    rw [← hg']
    cases hst : r.status with
    | access e => exact absurd hst (h3 e)
    | _ => cases hb : r.binding <;> simp [h4]

/-- Probes leave the registry as it is (R212, R214), and neither the count of operations nor the last result changes. -/
theorem probedWithoutMatch_keep (base : Nat) (before : List Family) : ∀ (s t : State), probedWithoutMatch base s before t →
    t.registry = s.registry ∧ t.opsDone = s.opsDone ∧ t.result = s.result := by
  induction before with
  | nil => rintro s t rfl; exact ⟨rfl, rfl, rfl⟩
  | cons f before ih =>
    rintro s t ⟨u, r, h1, h2, _, _, h5⟩
    obtain ⟨g, hg⟩ := probe_result h1 h2 id
    have hq := quiet_ok (quiet_probeFamily base f) hg
    obtain ⟨a1, a2, a3⟩ := ih _ _ h5
    exact ⟨a1.trans hq, a2, a3⟩

end Sys2Proof.Laws
end

