-- ==== Sys2Proof/Laws/PerInstr.lean ====
section
/-! SUPPORT. What holds of every operation as syntax, one lemma per constructor: the operands of a well-formed operation fit the two 32-bit fields of its word
(R99). -/

namespace Sys2Proof.Laws.OperandsFit

open Sys2Proof

/-- The operands of a well-formed operation fit their fields, so no bit of them is lost in its word (R99). -/
def Statement (i : Instr) : Prop := i.wellFormed = true → i.operands.1 < 2 ^ 32 ∧ i.operands.2 < 2 ^ 32

theorem init : Statement .init := by
  intro h
  decide

theorem deinit : Statement .deinit := by
  intro h
  decide

theorem resetChip : Statement .resetChip := by
  intro h
  decide

theorem restartChip : Statement .restartChip := by
  intro h
  decide

theorem stopChip : Statement .stopChip := by
  intro h
  decide

theorem stepChip : Statement .stepChip := by
  intro h
  decide

theorem getStatus : Statement .getStatus := by
  intro h
  decide

theorem releaseChip : Statement .releaseChip := by
  intro h
  decide

theorem speed (base : Nat) : Statement (.speed base) := by
  intro h
  simp only [Instr.wellFormed, fits, decide_eq_true_eq] at h
  exact ⟨h, Nat.two_pow_pos 32⟩

theorem senseCable (flag : Nat) : Statement (.senseCable flag) := by
  intro h
  simp only [Instr.wellFormed, fits, decide_eq_true_eq] at h
  exact ⟨h, Nat.two_pow_pos 32⟩

theorem debugLevel (level : Nat) : Statement (.debugLevel level) := by
  intro h
  simp only [Instr.wellFormed, fits, decide_eq_true_eq] at h
  exact ⟨h, Nat.two_pow_pos 32⟩

theorem setLed (flag : Nat) : Statement (.setLed flag) := by
  intro h
  simp only [Instr.wellFormed, fits, decide_eq_true_eq] at h
  exact ⟨h, Nat.two_pow_pos 32⟩

theorem serialClock (cmd : Word16) (delayBits : Nat) : Statement (.serialClock cmd delayBits) := by
  intro h
  have hc := cmd.isLt
  simp only [Instr.wellFormed, fits, decide_eq_true_eq] at h
  exact ⟨by simp only [Instr.operands]; omega, h⟩

theorem resynchronize : Statement .resynchronize := by
  intro h
  decide

theorem streamWrite (count : Nat) : Statement (.streamWrite count) := by
  intro h
  simp only [Instr.wellFormed, fits, decide_eq_true_eq] at h
  exact ⟨h, Nat.two_pow_pos 32⟩

theorem streamRead (count : Nat) : Statement (.streamRead count) := by
  intro h
  simp only [Instr.wellFormed, fits, decide_eq_true_eq] at h
  exact ⟨h, Nat.two_pow_pos 32⟩

theorem openSession (variant : Nat) : Statement (.openSession variant) := by
  intro h
  simp only [Instr.wellFormed, fits, decide_eq_true_eq] at h
  exact ⟨h, Nat.two_pow_pos 32⟩

theorem closeSession : Statement .closeSession := by
  intro h
  decide

theorem registerArea (hint : Nat) (base : Nat) : Statement (.registerArea hint base) := by
  intro h
  simp only [Instr.wellFormed, fits, Bool.and_eq_true, decide_eq_true_eq] at h
  exact h

theorem writeMemory (address : Nat) (length : Nat) : Statement (.writeMemory address length) := by
  intro h
  simp only [Instr.wellFormed, fits, Bool.and_eq_true, decide_eq_true_eq] at h
  exact h

theorem eraseArea (address : Nat) (whole : Nat) : Statement (.eraseArea address whole) := by
  intro h
  simp only [Instr.wellFormed, fits, Bool.and_eq_true, decide_eq_true_eq] at h
  exact h

theorem eraseWait (address : Nat) : Statement (.eraseWait address) := by
  intro h
  simp only [Instr.wellFormed, fits, decide_eq_true_eq] at h
  exact ⟨h, Nat.two_pow_pos 32⟩

theorem blankCheck (address : Nat) : Statement (.blankCheck address) := by
  intro h
  simp only [Instr.wellFormed, fits, decide_eq_true_eq] at h
  exact ⟨h, Nat.two_pow_pos 32⟩

theorem ramWrite (address : Nat) (count : Nat) : Statement (.ramWrite address count) := by
  intro h
  simp only [Instr.wellFormed, fits, Bool.and_eq_true, decide_eq_true_eq] at h
  exact h

theorem amdProbe (address : Nat) : Statement (.amdProbe address) := by
  intro h
  simp only [Instr.wellFormed, fits, decide_eq_true_eq] at h
  exact ⟨h, Nat.two_pow_pos 32⟩

theorem amdProgram (address : Nat) (count : Nat) : Statement (.amdProgram address count) := by
  intro h
  simp only [Instr.wellFormed, fits, Bool.and_eq_true, decide_eq_true_eq] at h
  exact h

theorem amdEraseSector (address : Nat) : Statement (.amdEraseSector address) := by
  intro h
  simp only [Instr.wellFormed, fits, decide_eq_true_eq] at h
  exact ⟨h, Nat.two_pow_pos 32⟩

theorem amdEraseAll : Statement .amdEraseAll := by
  intro h
  decide

theorem amdEraseWait : Statement .amdEraseWait := by
  intro h
  decide

theorem amdBlankCheck (address : Nat) : Statement (.amdBlankCheck address) := by
  intro h
  simp only [Instr.wellFormed, fits, decide_eq_true_eq] at h
  exact ⟨h, Nat.two_pow_pos 32⟩

theorem cfmProbe (address : Nat) : Statement (.cfmProbe address) := by
  intro h
  simp only [Instr.wellFormed, fits, decide_eq_true_eq] at h
  exact ⟨h, Nat.two_pow_pos 32⟩

theorem cfmProgram (address : Nat) (count : Nat) : Statement (.cfmProgram address count) := by
  intro h
  simp only [Instr.wellFormed, fits, Bool.and_eq_true, decide_eq_true_eq] at h
  exact h

theorem cfmEraseSector (address : Nat) : Statement (.cfmEraseSector address) := by
  intro h
  simp only [Instr.wellFormed, fits, decide_eq_true_eq] at h
  exact ⟨h, Nat.two_pow_pos 32⟩

theorem cfmEraseAll : Statement .cfmEraseAll := by
  intro h
  decide

theorem cfmEraseWait : Statement .cfmEraseWait := by
  intro h
  decide

theorem cfmBlankCheck (address : Nat) : Statement (.cfmBlankCheck address) := by
  intro h
  simp only [Instr.wellFormed, fits, decide_eq_true_eq] at h
  exact ⟨h, Nat.two_pow_pos 32⟩

theorem intelProbe (address : Nat) : Statement (.intelProbe address) := by
  intro h
  simp only [Instr.wellFormed, fits, decide_eq_true_eq] at h
  exact ⟨h, Nat.two_pow_pos 32⟩

theorem intelProgram (address : Nat) (count : Nat) : Statement (.intelProgram address count) := by
  intro h
  simp only [Instr.wellFormed, fits, Bool.and_eq_true, decide_eq_true_eq] at h
  exact h

theorem intelEraseSector (address : Nat) : Statement (.intelEraseSector address) := by
  intro h
  simp only [Instr.wellFormed, fits, decide_eq_true_eq] at h
  exact ⟨h, Nat.two_pow_pos 32⟩

theorem intelEraseAll : Statement .intelEraseAll := by
  intro h
  decide

theorem intelEraseWait : Statement .intelEraseWait := by
  intro h
  decide

theorem intelBlankCheck (address : Nat) : Statement (.intelBlankCheck address) := by
  intro h
  simp only [Instr.wellFormed, fits, decide_eq_true_eq] at h
  exact ⟨h, Nat.two_pow_pos 32⟩

end Sys2Proof.Laws.OperandsFit
end

