-- ==== Sys2Proof/Laws/Store.lean ====
section
/-! SUPPORT. RAM.WRITE access by access (R226), and WRITE_MEMORY area by area (R220 to R222). -/

namespace Sys2Proof.Laws

open Sys2Proof Sys2Proof.Machine

theorem widestWidths_exist : ∀ (n p : Nat), ∃ ws, widestWidths p n ws := by
  intro n
  induction n using Nat.strong_induction_on with
  | _ n ih =>
    intro p
    by_cases hn : n = 0
    · exact ⟨[], hn⟩
    · by_cases h4 : 4 ≤ n ∧ p % 4 = 0
      · obtain ⟨ws, h⟩ := ih (n - 4) (by omega) (p + 4)
        exact ⟨4 :: ws, by simp [widestWidths, h4, h]⟩
      · by_cases h2 : 2 ≤ n ∧ p % 2 = 0
        · obtain ⟨ws, h⟩ := ih (n - 2) (by omega) (p + 2)
          refine ⟨2 :: ws, ?_⟩
          rw [widestWidths, if_neg h4, if_pos h2]; exact ⟨rfl, by omega, h⟩
        · obtain ⟨ws, h⟩ := ih (n - 1) (by omega) (p + 1)
          refine ⟨1 :: ws, ?_⟩
          rw [widestWidths, if_neg h4, if_neg h2]; exact ⟨rfl, by omega, h⟩

/-- The first of the widest widths is what RAM.WRITE chooses (R226). -/
theorem widestWidths_head {p n w : Nat} {ws : List Nat} (h : widestWidths p n (w :: ws)) :
    ramWidth p n = w ∧ 1 ≤ w ∧ w ≤ n ∧ (w = 4 ∨ w = 2 ∨ w = 1) ∧ p % w = 0 ∧ widestWidths (p + w) (n - w) ws := by
  obtain ⟨h1, h2, h3⟩ := h
  unfold ramWidth
  by_cases h4 : 4 ≤ n ∧ p % 4 = 0
  · rw [if_pos h4] at h1; subst h1
    rw [if_pos ⟨h4.2, h4.1⟩]; exact ⟨rfl, by omega, h2, by omega, h4.2, h3⟩
  · rw [if_neg h4] at h1
    rw [if_neg (by omega)]
    by_cases h2' : 2 ≤ n ∧ p % 2 = 0
    · rw [if_pos h2'] at h1; subst h1
      rw [if_pos ⟨h2'.2, h2'.1⟩]; exact ⟨rfl, by omega, h2, by omega, h2'.2, h3⟩
    · rw [if_neg h2'] at h1; subst h1
      rw [if_neg (by omega)]; exact ⟨rfl, by omega, h2, by omega, by omega, h3⟩

theorem payload_range (data : Nat → Byte) (k w : Nat) : payload data k w = (List.range w).map (fun i => data (k + i)) := rfl

/-- The loop of RAM.WRITE over the first `j` of its accesses. -/
theorem run_ramLoop {a n : Nat} {data : Nat → Byte} (hsp : a + n ≤ 2^32) (ws : List Nat) : ∀ (j : Nat) (k KeepsSession : Nat) (s : State)
    (done rest : List MemReply),
    widestWidths (a + k) (n - k) ws → j ≤ ws.length → n - k ≤ KeepsSession → k ≤ n → done.length = j → (∀ r ∈ done, ∃ v, r = .done v) → s.memScript =
        done ++ rest →
    ∃ K', ramLoop a n data KeepsSession k s = ramLoop a n data K' (k + (ws.take j).sum) (s.performed (storesOf a data k (ws.take j))) ∧ n -
        (k + (ws.take j).sum) ≤ K' ∧
      k + (ws.take j).sum ≤ n ∧ widestWidths (a + (k + (ws.take j).sum)) (n - (k + (ws.take j).sum)) (ws.drop j) ∧
      (s.performed (storesOf a data k (ws.take j))).memScript = rest := by
  induction ws with
  | nil =>
    intro j k KeepsSession s done rest hw hj hK hk hl hd hs
    simp at hj; subst hj
    simp only [List.length_eq_zero_iff] at hl; subst hl
    exact ⟨KeepsSession, rfl, hK, hk, hw, by simpa [storesOf, State.performed] using hs⟩
  | cons w ws ih =>
    intro j k KeepsSession s done rest hw hj hK hk hl hd hs
    cases j with
    | zero =>
      simp only [List.length_eq_zero_iff] at hl; subst hl
      exact ⟨KeepsSession, rfl, hK, hk, hw, by simpa [storesOf, State.performed] using hs⟩
    | succ j =>
      cases done with
      | nil => simp at hl
      | cons r done =>
        obtain ⟨v, rfl⟩ := hd r (by simp)
        obtain ⟨e1, e2, e3, e4, e5, e6⟩ := widestWidths_head hw
        obtain ⟨KeepsSession, rfl⟩ : ∃ m, KeepsSession = m + 1 := ⟨KeepsSession - 1, by omega⟩
        have hlen : (payload data k w).length = w := by simp [payload_range]
        have hc : callAllowed (a + k) (payload data k w).length = true := by
          rw [hlen]; simp only [callAllowed, e5, Bool.and_eq_true, Bool.or_eq_true, beq_iff_eq,
              decide_eq_true_eq]; have : addrSpace = 2^32 := rfl; refine ⟨⟨by omega, trivial⟩, ?_⟩; rw [this]
          omega
        have hstep : ramLoop a n data (KeepsSession + 1) k s = ramLoop a n data KeepsSession (k + w)
            (s.tookReply.didWrite (a + k) (payload data k w)) := by
          simp only [ramLoop]
          have : k < n := by omega
          simp only [this, if_true, e1]
          rw [run_bind, run_memWrite_done hc hs]
        obtain ⟨K', h1, h2, h3, h4, h5⟩ := ih j (k + w) KeepsSession (s.tookReply.didWrite (a + k) (payload data k w)) done rest
          (by rw [← Nat.add_assoc, ← Nat.sub_sub]; exact e6) (by simpa using hj) (by omega) (by omega) (by simpa using hl)
              (fun r hr => hd r (by simp [hr]))
          (by simp [State.didWrite, State.tookReply, hs])
        refine ⟨K', ?_, ?_⟩
        · rw [hstep, h1]
          simp only [List.take_succ_cons, List.sum_cons, storesOf, State.performed, ← payload_range, Nat.add_assoc]
        · simp only [List.take_succ_cons, List.sum_cons, storesOf, State.performed, ← payload_range, List.drop_succ_cons,
            ← Nat.add_assoc] at h2 h3 h4 h5 ⊢
          exact ⟨h2, h3, h4, h5⟩

theorem widestWidths_sum (ws : List Nat) : ∀ p n, widestWidths p n ws → ws.sum = n := by
  induction ws with
  | nil => intro p n h; simp only [widestWidths] at h; simp [h]
  | cons w ws ih => intro p n h; obtain ⟨_, h2, h3⟩ := h; have := ih _ _ h3; simp; omega

theorem ramLoop_done {a n : Nat} {data : Nat → Byte} (KeepsSession k : Nat) (s : State) (h : n ≤ k) : ramLoop a n data KeepsSession k s = .ok
    { count := n, status := .ok } s := by
  cases KeepsSession with
  | zero => rfl
  | succ KeepsSession => simp only [ramLoop]; rw [if_neg (by omega)]; rfl

/-- RAM.WRITE whose accesses all complete. -/
theorem run_ramStore {a n : Nat} {ws : List Nat} {s : State} {data : Nat → Byte} {done rest : List MemReply} (hsp : a + n ≤ 2^32)
    (hw : widestWidths a n ws) (hl : done.length = ws.length)
    (hd : ∀ r ∈ done, ∃ v, r = .done v) (hs : s.memScript = done ++ rest) :
    ramStore a n data s = .ok { count := n, status := .ok } (s.performed (storesOf a data 0 ws)) := by
  obtain ⟨K', h1, _⟩ := run_ramLoop (data := data) hsp ws ws.length 0 n s done rest (by simpa using hw) le_rfl (by omega) (by omega) hl hd hs
  unfold ramStore
  rw [h1, List.take_length, ramLoop_done _ _ _ (by have := widestWidths_sum _ _ _ hw; omega)]

/-- RAM.WRITE whose access number `j` fails (R250). -/
theorem run_ramStore_cut {a n : Nat} {ws : List Nat} {s : State} {data : Nat → Byte} {done rest : List MemReply} {j : Nat} {f : ProtoFault}
    (hsp : a + n ≤ 2^32) (hw : widestWidths a n ws) (hj : j < ws.length) (hl : done.length = j)
    (hd : ∀ r ∈ done, ∃ v, r = .done v) (hs : s.memScript = done ++ .fault f :: rest) :
    ramStore a n data s = .ok { count := (ws.take j).sum, status := .access f } (s.cutOff (storesOf a data 0 (ws.take j))) := by
  obtain ⟨K', h1, h2, h3, h4, h5⟩ := run_ramLoop (data := data) hsp ws j 0 n s done _ (by simpa using hw) (by omega) (by omega) (by omega) hl hd hs
  unfold ramStore
  rw [h1]
  simp only [Nat.zero_add] at h2 h3 h4 h5 ⊢
  obtain ⟨w, ws', hws⟩ : ∃ w ws', ws.drop j = w :: ws' := by
    cases h : ws.drop j with
    | nil => simp at h; omega
    | cons w ws' => exact ⟨w, ws', rfl⟩
  rw [hws] at h4
  obtain ⟨e1, e2, e3, e4, e5, e6⟩ := widestWidths_head h4
  obtain ⟨K', rfl⟩ : ∃ m, K' = m + 1 := ⟨K' - 1, by omega⟩
  have hlen : (payload data (ws.take j).sum w).length = w := by simp [payload_range]
  have hc : callAllowed (a + (ws.take j).sum) (payload data (ws.take j).sum w).length = true := by
    rw [hlen]; simp only [callAllowed, e5, Bool.and_eq_true, Bool.or_eq_true, beq_iff_eq, decide_eq_true_eq]; have : addrSpace = 2^32 := rfl; refine
        ⟨⟨by omega, trivial⟩, ?_⟩; rw [this]
    omega
  simp only [ramLoop]
  have : (ws.take j).sum < n := by omega
  simp only [this, if_true, e1]
  rw [run_bind, run_memWrite_fault hc h5]
  rfl

/-- What the stores of a payload leave at every address. -/
theorem storedByte_storesOf (data : Nat → Byte) (a : Nat) (ws : List Nat) : ∀ (k n : Nat) (s : State), s.memory.wf = true → widestWidths
    (a + k) n ws → ∀ x,
    (s.performed (storesOf a data k ws)).storedByte x = if a + k ≤ x ∧ x < a + k + n then some (data (x - a)) else s.storedByte x := by
  induction ws with
  | nil => intro k n s _ h x; simp only [widestWidths] at h; subst h; simp [storesOf]
  | cons w ws ih =>
    intro k n s hwf h x
    obtain ⟨e1, e2, e3, e4, e5, e6⟩ := widestWidths_head h
    simp only [storesOf, State.performed]
    have hwf2 : (s.tookReply.didWrite (a + k) ((List.range w).map (fun i => data (k + i)))).memory.wf = true := memory_storeAll_wf _ _ _ hwf
    rw [ih (k + w) (n - w) _ hwf2 (by rw [← Nat.add_assoc]; exact e6)]
    have hb : (s.tookReply.didWrite (a + k) ((List.range w).map (fun i => data (k + i)))).storedByte x = if a + k ≤ x ∧ x < a + k + w then some
        (data (x - a)) else s.storedByte x := by
      have := memory_read_storeAll ((List.range w).map (fun i => data (k + i))) s.memory (a + k) x hwf
      simp only [State.storedByte]
      change Memory.read (s.memory.storeAll _ _) x = _
      rw [this]
      simp only [List.length_map, List.length_range]
      split
      · rename_i hh
        simp only [List.getElem?_map]
        rw [List.getElem?_range (by omega)]
        simp only [Option.map_some]
        congr 2; omega
      · rfl
    rw [hb]
    by_cases c1 : a + (k + w) ≤ x ∧ x < a + (k + w) + (n - w)
    · rw [if_pos c1, if_pos (by omega)]
    · rw [if_neg c1]
      by_cases c2 : a + k ≤ x ∧ x < a + k + w
      · rw [if_pos c2, if_pos (by omega)]
      · rw [if_neg c2, if_neg (by omega)]

theorem exec_ramWrite {s t : State} {address n : Nat} {r : FlashResult} (h : ramStore address n s.dataByte s = .ok r t) : exec
    (.ramWrite address n) s = .next (t.conclude (.flash r)) := by
  simp only [exec, execRamWrite]; apply runOp_ok; rw [run_bind, h]; rfl

theorem delegateWrite_ram {s t : State} {e : MemoryArea} {address n : Nat} {r : FlashResult} (hb : e.binding = .ram)
    (h : ramStore address n s.dataByte s = .ok r t) :
    delegateWrite e address n s.dataByte s = .ok r t := by
  unfold delegateWrite; rw [hb]; exact h

theorem widest_take_lt (ws : List Nat) : ∀ (p n j : Nat), widestWidths p n ws → j < ws.length → (ws.take j).sum < n := by
  induction ws with
  | nil => intro p n j _ h; simp at h
  | cons w ws ih =>
    intro p n j h hj
    obtain ⟨_, a, b, _, _, c⟩ := widestWidths_head h
    cases j with
    | zero => simp; omega
    | succ j => have := ih _ _ j c (by simpa using hj); simp; omega

/-- WRITE_MEMORY inside one area is what its owner does (R220). -/
theorem exec_writeMemory_one {s : State} {address n : Nat} {e : MemoryArea} {r : FlashResult} {t : State} (hn : 0 < n) (hsp : address + n ≤ 2 ^ 32)
    (ha : areaOf s.registry address = some e) (hend : address + n ≤ e.endAddr + 1)
    (h : delegateWrite e address n s.dataByte s = .ok r t) : exec (.writeMemory address n) s = .next (t.conclude (.written r.count r.status)) := by
  simp only [exec, execWriteMemory]
  apply runOp_ok
  obtain ⟨m, rfl⟩ : ∃ m, n = m + 1 := ⟨n - 1, by omega⟩
  simp only [writeLoop]
  have h1 : 0 < m + 1 ∧ address + 0 < addrSpace := by simp only [addrSpace, addrBits]; omega
  rw [if_pos h1, Nat.add_zero, run_bind, run_owningArea ha]
  simp only
  have hmin : min (m + 1 - 0) (e.endAddr - address + 1) = m + 1 := by have := areaOf_contains ha; omega
  have hfun : (fun i => s.dataByte (0 + i)) = s.dataByte := by funext i; rw [Nat.zero_add]
  rw [hmin, hfun, run_bind, h]
  simp only [Nat.zero_add]
  by_cases hr : r.count < m + 1
  · rw [if_pos hr]; rfl
  · rw [if_neg hr]
    cases m with
    | zero => simp [writeLoop]
    | succ m => simp only [writeLoop]; rw [if_neg (by omega)]; rfl

/-- A flash outcome comes from the flash result of the operation inside. -/
theorem flash_next_inv {m : Op FlashResult} {s t : State} {r : FlashResult} (h : runOp (do let r ← m; pure (.flash r)) s = .next t)
    (hr : t.result = some (.flash r)) :
    ∃ u, m s = .ok r u ∧ t = u.conclude (.flash r) := by
  simp only [runOp, run_bind] at h
  cases hm : m s with
  | ok a u => rw [hm] at h; simp at h; subst h; simp [State.conclude] at hr; subst hr; exact ⟨u, rfl, rfl⟩
  | error e u =>
    rw [hm] at h
    cases e <;> (simp at h; subst h; simp [State.takeFault, State.conclude] at hr)

/-- The same behind the choice of the owner. -/
theorem owning_next_inv {m : MemoryArea → Op FlashResult} {s t : State} {r : FlashResult} {address n : Nat} {e : MemoryArea}
    (ha : areaOf s.registry address = some e) (hend : address + n ≤ e.endAddr + 1)
    (h : runOp (do let a ← areaOwning address n; let r ← m a; pure (.flash r)) s = .next t) (hr : t.result = some (.flash r)) :
    ∃ u, m e s = .ok r u ∧ t = u.conclude (.flash r) := by
  have : areaOwning address n s = .ok e s := by rw [areaOwning, run_bind, run_owningArea ha]; simp only [hend, if_true]; rfl
  refine flash_next_inv ?_ hr
  rw [← h]; simp only [runOp, run_bind, this]

/-- The first area of WRITE_MEMORY (R220). -/
theorem run_writeLoop_first {address n k F : Nat} {data : Nat → Byte} {s : State} {e : MemoryArea} (ha : areaOf s.registry address = some e)
    (hn : 0 < n) (hk : min n (e.endAddr - address + 1) = k) (hsp : address < addrSpace) :
    writeLoop address n data (F + 1) 0 .ok s = (do
      let r ← delegateWrite e address k data
      if r.count < k then pure (.written r.count r.status) else writeLoop address n data F r.count r.status : Op OpResult) s := by
  simp only [writeLoop]
  have hfun : (fun i => data (0 + i)) = data := by funext i; rw [Nat.zero_add]
  rw [if_pos ⟨hn, by simpa using hsp⟩, run_bind, Nat.add_zero, run_owningArea ha]
  simp only [Nat.sub_zero, hk, Nat.zero_add]

theorem writeLoop_done {address n F c : Nat} {data : Nat → Byte} {st : FlashStatus} (h : n ≤ c) : writeLoop address n data F c st = pure
    (.written c st) := by
  cases F with
  | zero => rfl
  | succ F => simp only [writeLoop]; rw [if_neg (by omega)]

theorem writeLoop_status {address n F : Nat} {data : Nat → Byte} {st : FlashStatus} (hn : 0 < n) (hsp : address < addrSpace) :
    writeLoop address n data (F + 1) 0 st = writeLoop address n data (F + 1) 0 .ok := by
  simp only [writeLoop]; rw [if_pos ⟨hn, by simpa using hsp⟩, if_pos ⟨hn, by simpa using hsp⟩]

/-- How an operation of the host ends (R352). -/
def outcomeOf (x : EStateM.Result Exit State OpResult) : Host.Outcome State Fault Refusal := match x with
  | .ok r t => .next (t.conclude r) | .error (.fault f) t => .next (t.takeFault f) | .error (.access f) t => .next (t.takeFault (.proto f))

theorem runOp_outcome (m : Op OpResult) (s) : runOp m s = outcomeOf (m s) := by
  simp only [runOp, outcomeOf]
  cases m s with
  | ok r t => rfl
  | error e t => cases e <;> rfl

end Sys2Proof.Laws
end

