-- ==== Sys2Proof/Laws/Words.lean ====
section
/-! SUPPORT. The selector and the operand fields of a masked word and of an encoded operation (R99). -/

namespace Sys2Proof.Laws

open Sys2Proof Sys2Proof.Machine

theorem selector_and (w m : Op72) : Op72.selector (w &&& m) = Op72.selector w &&& m.extractLsb' 64 8 := by
  unfold Op72.selector; ext i; simp

theorem arg0_and (w m : Op72) : Op72.arg0 (w &&& m) = (w.extractLsb' 32 32 &&& m.extractLsb' 32 32).toNat := by
  unfold Op72.arg0; congr 1; ext i; simp

theorem arg1_and (w m : Op72) : Op72.arg1 (w &&& m) = (w.extractLsb' 0 32 &&& m.extractLsb' 0 32).toNat := by
  unfold Op72.arg1; congr 1; ext i; simp

theorem usedBits_selector (op : Byte) : (usedBits op).extractLsb' 64 8 = 0xFF#8 := by
  unfold usedBits; split
  · decide
  · split
    · decide
    · split <;> decide

theorem selector_used (w : Op72) : Op72.selector (w &&& usedBits (Op72.selector w)) = Op72.selector w := by
  rw [selector_and, usedBits_selector]; exact BitVec.and_allOnes

theorem selector_encode (i : Instr) : Op72.selector (encode i) = i.selector := by
  unfold encode Op72.selector packWord
  apply BitVec.eq_of_getLsbD_eq
  intro j hj
  simp only [BitVec.getLsbD_extractLsb', BitVec.getLsbD_append]
  have : ¬ (64 + j < 64) := by omega
  simp [hj, this]

theorem arg0_encode (i : Instr) : (encode i).extractLsb' 32 32 = BitVec.ofNat 32 i.operands.1 := by
  unfold encode packWord
  apply BitVec.eq_of_getLsbD_eq
  intro j hj
  simp only [BitVec.getLsbD_extractLsb', BitVec.getLsbD_append]
  have h1 : 32 + j < 64 := by omega
  have h2 : ¬ (32 + j < 32) := by omega
  simp [hj, h1, h2]

theorem arg1_encode (i : Instr) : (encode i).extractLsb' 0 32 = BitVec.ofNat 32 i.operands.2 := by
  unfold encode packWord
  apply BitVec.eq_of_getLsbD_eq
  intro j hj
  simp only [BitVec.getLsbD_extractLsb', BitVec.getLsbD_append]
  have h1 : j < 64 := by omega
  simp [hj, h1]

theorem word_ext (x y : Op72) (h : Op72.selector x = Op72.selector y) (h0 : x.extractLsb' 32 32 = y.extractLsb' 32 32)
    (h1 : x.extractLsb' 0 32 = y.extractLsb' 0 32) : x = y := by
  apply BitVec.eq_of_getLsbD_eq
  intro i hi
  by_cases a : i < 32
  · have := congrArg (fun z => BitVec.getLsbD z i) h1
    simpa [a] using this
  · by_cases b : i < 64
    · have := congrArg (fun z => BitVec.getLsbD z (i-32)) h0
      simp only [BitVec.getLsbD_extractLsb'] at this
      have e : 32 + (i - 32) = i := by omega
      have l : i - 32 < 32 := by omega
      simpa [e, l] using this
    · have := congrArg (fun z => BitVec.getLsbD z (i-64)) h
      simp only [Op72.selector, BitVec.getLsbD_extractLsb'] at this
      have e : 64 + (i - 64) = i := by omega
      have l : i - 64 < 8 := by omega
      simpa [e, l] using this

end Sys2Proof.Laws
end

