-- ==== Sys2Proof/Tests/Slice0.lean ====
section
/-! SUPPORT. Tests: the well-formedness checks, the words of spec/95_test_vectors.md V31 and one word of every other selector, one step of every
operation against the vectors of spec/95_test_vectors.md and spec/96_test_vectors_flash.md (named in each docstring), and a witness for the hypotheses
of every statement. -/

namespace Sys2Proof.Tests

open Sys2Proof Sys2Proof.Machine

/- One theorem at a time: each kernel evaluation waits on its own thread otherwise, and a hundred of them do not fit in memory. -/
set_option Elab.async false

/-! ### Well-formedness: one ill-formed term for each check -/

theorem test_wf_first_operand : (Instr.speed (2 ^ 32)).wellFormed = false := by decide
theorem test_wf_first_operand_top : (Instr.speed (2 ^ 32 - 1)).wellFormed = true := by decide
theorem test_wf_senseCable : (Instr.senseCable (2 ^ 32)).wellFormed = false := by decide
theorem test_wf_debugLevel : (Instr.debugLevel (2 ^ 32)).wellFormed = false := by decide
theorem test_wf_setLed : (Instr.setLed (2 ^ 32)).wellFormed = false := by decide
theorem test_wf_serialClock : (Instr.serialClock 0x1234 (2 ^ 32)).wellFormed = false := by decide
theorem test_wf_streamWrite : (Instr.streamWrite (2 ^ 32)).wellFormed = false := by decide
theorem test_wf_streamRead : (Instr.streamRead (2 ^ 32)).wellFormed = false := by decide
theorem test_wf_openSession : (Instr.openSession (2 ^ 32)).wellFormed = false := by decide

theorem test_wf_registerArea :
    (Instr.registerArea (2 ^ 32) 0).wellFormed = false ∧ (Instr.registerArea 0 (2 ^ 32)).wellFormed = false := by decide

theorem test_wf_writeMemory :
    (Instr.writeMemory (2 ^ 32) 0).wellFormed = false ∧ (Instr.writeMemory 0 (2 ^ 32)).wellFormed = false := by decide

theorem test_wf_eraseArea :
    (Instr.eraseArea (2 ^ 32) 0).wellFormed = false ∧ (Instr.eraseArea 0 (2 ^ 32)).wellFormed = false := by decide

theorem test_wf_eraseWait_blankCheck :
    (Instr.eraseWait (2 ^ 32)).wellFormed = false ∧ (Instr.blankCheck (2 ^ 32)).wellFormed = false := by decide

theorem test_wf_ramWrite :
    (Instr.ramWrite (2 ^ 32) 0).wellFormed = false ∧ (Instr.ramWrite 0 (2 ^ 32)).wellFormed = false := by decide

theorem test_wf_amd :
    (Instr.amdProbe (2 ^ 32)).wellFormed = false ∧ (Instr.amdProgram (2 ^ 32) 0).wellFormed = false ∧
      (Instr.amdProgram 0 (2 ^ 32)).wellFormed = false ∧ (Instr.amdEraseSector (2 ^ 32)).wellFormed = false ∧
      (Instr.amdBlankCheck (2 ^ 32)).wellFormed = false := by decide

theorem test_wf_cfm :
    (Instr.cfmProbe (2 ^ 32)).wellFormed = false ∧ (Instr.cfmProgram (2 ^ 32) 0).wellFormed = false ∧
      (Instr.cfmProgram 0 (2 ^ 32)).wellFormed = false ∧ (Instr.cfmEraseSector (2 ^ 32)).wellFormed = false ∧
      (Instr.cfmBlankCheck (2 ^ 32)).wellFormed = false := by decide

theorem test_wf_intel :
    (Instr.intelProbe (2 ^ 32)).wellFormed = false ∧ (Instr.intelProgram (2 ^ 32) 0).wellFormed = false ∧
      (Instr.intelProgram 0 (2 ^ 32)).wellFormed = false ∧ (Instr.intelEraseSector (2 ^ 32)).wellFormed = false ∧
      (Instr.intelBlankCheck (2 ^ 32)).wellFormed = false := by decide

/-! ### Decoding: words written out from R99 and R100 (the selector in bits 71 to 64, then two 32-bit operands) -/

/-- The lifecycle and the session; V31 gives INIT, STOP_CHIP, SPEED 4, SET_LED 1 and OPEN 2. -/
theorem test_decode_lifecycle :
    decode 0x000000000000000000#72 = .ok .init ∧ decode 0x010000000000000000#72 = .ok .deinit ∧
    decode 0x020000000000000000#72 = .ok .resetChip ∧ decode 0x030000000000000000#72 = .ok .restartChip ∧
    decode 0x040000000000000000#72 = .ok .stopChip ∧ decode 0x050000000000000000#72 = .ok .stepChip ∧
    decode 0x060000000000000000#72 = .ok .getStatus ∧ decode 0x070000000000000000#72 = .ok .releaseChip ∧
    decode 0x080000000400000000#72 = .ok (.speed 4) ∧ decode 0x090000000100000000#72 = .ok (.senseCable 1) ∧
    decode 0x0A0000000300000000#72 = .ok (.debugLevel 3) ∧ decode 0x0B0000000100000000#72 = .ok (.setLed 1) ∧
    decode 0x1E0000000200000000#72 = .ok (.openSession 2) ∧ decode 0x1F0000000000000000#72 = .ok .closeSession := by
  decide

/-- The serial exchange and the streams; V31 gives both SERIAL_CLOCK words and STREAM_READ 4, and PULSE. -/
theorem test_decode_serial :
    decode 0x100000123400000000#72 = .ok (.serialClock 0x1234 0) ∧
    decode 0x1000000C0000000001#72 = .ok (.serialClock 0x0C00 1) ∧
    decode 0x100000000000000010#72 = .ok (.serialClock 0 16) ∧
    decode 0x110000000000000000#72 = .ok .resynchronize ∧ decode 0x120000000600000000#72 = .ok (.streamWrite 6) ∧
    decode 0x130000000400000000#72 = .ok (.streamRead 4) := by decide

/-- V46: bits of `arg0` above 15 are not part of the command word. -/
theorem test_decode_serial_high_bits : decode 0x10FFFF800100000000#72 = .ok (.serialClock 0x8001 0) := by decide

/-- The registry and RAM.WRITE; V31 gives all but ERASE_WAIT and RAM.WRITE. -/
theorem test_decode_registry :
    decode 0x200000000310000000#72 = .ok (.registerArea 3 0x10000000) ∧
    decode 0x210007FFFE00000004#72 = .ok (.writeMemory 0x7FFFE 4) ∧
    decode 0x220001234500000000#72 = .ok (.eraseArea 0x12345 0) ∧ decode 0x220000000000000001#72 = .ok (.eraseArea 0 1) ∧
    decode 0x230001234500000000#72 = .ok (.eraseWait 0x12345) ∧
    decode 0x240007FFFF00000000#72 = .ok (.blankCheck 0x7FFFF) ∧
    decode 0x300000100100000006#72 = .ok (.ramWrite 0x1001 6) := by decide

theorem test_decode_amd :
    decode 0x400000000000000000#72 = .ok (.amdProbe 0) ∧ decode 0x410000100000000001#72 = .ok (.amdProgram 0x1000 1) ∧
    decode 0x420001234500000000#72 = .ok (.amdEraseSector 0x12345) ∧ decode 0x430000000000000000#72 = .ok .amdEraseAll ∧
    decode 0x440000000000000000#72 = .ok .amdEraseWait ∧ decode 0x450000000700000000#72 = .ok (.amdBlankCheck 7) := by
  decide

theorem test_decode_cfm :
    decode 0x500000000000000000#72 = .ok (.cfmProbe 0) ∧ decode 0x510000100200000002#72 = .ok (.cfmProgram 0x1002 2) ∧
    decode 0x520000123400000000#72 = .ok (.cfmEraseSector 0x1234) ∧ decode 0x530000000000000000#72 = .ok .cfmEraseAll ∧
    decode 0x540000000000000000#72 = .ok .cfmEraseWait ∧ decode 0x550000010000000000#72 = .ok (.cfmBlankCheck 0x100) := by
  decide

theorem test_decode_intel :
    decode 0x601000000000000000#72 = .ok (.intelProbe 0x10000000) ∧
    decode 0x611000010000000002#72 = .ok (.intelProgram 0x10000100 2) ∧
    decode 0x621000234500000000#72 = .ok (.intelEraseSector 0x10002345) ∧
    decode 0x630000000000000000#72 = .ok .intelEraseAll ∧ decode 0x640000000000000000#72 = .ok .intelEraseWait ∧
    decode 0x651000000000000000#72 = .ok (.intelBlankCheck 0x10000000) := by decide

/-- V32: selectors outside the table. -/
theorem test_decode_illegal :
    decode 0x0C0000000000000000#72 = .error (.illegalSelector 0x0C) ∧
    decode 0x140000000000000000#72 = .error (.illegalSelector 0x14) ∧
    decode 0x2F0000000000000000#72 = .error (.illegalSelector 0x2F) ∧
    decode 0x660000000000000000#72 = .error (.illegalSelector 0x66) ∧
    decode 0xFF0000000000000000#72 = .error (.illegalSelector 0xFF) := by decide

/-! ### Small operand and flag functions -/

/-- V28. -/
theorem test_startAcc : startAcc 0x1234 = 0x091A0000 ∧ startAcc 0xFFFF = 0x7FFF8000 ∧ startAcc 0x0C00 = 0x06000000 := by
  decide

/-- V33: `rep` and lanes. -/
theorem test_rep :
    [(1, 1), (2, 1), (2, 2), (4, 1), (4, 2), (4, 4)].map (fun p : Nat × Nat =>
      rep { base := 0, size := 0, name := "", busWidth := p.1, chipWidth := p.2, sectorSize := 0 } 0xAA) =
      [[0xAA], [0xAA, 0xAA], [0x00, 0xAA], [0xAA, 0xAA, 0xAA, 0xAA], [0x00, 0xAA, 0x00, 0xAA],
       [0x00, 0x00, 0x00, 0xAA]] ∧ lanes 2 1 [0x01, 0x89] = [[0x01], [0x89]] := by decide

/-- V20 to V27. -/
theorem test_decodeFrame :
    decodeFrame 0x0001FFFF = .fault .nvc ∧ decodeFrame 0x00010001 = .fault .berr ∧ decodeFrame 0x00010000 = .notReady ∧
    decodeFrame 0x00010002 = .payload 0x00010002 ∧ decodeFrame 0x8001FFFF = .payload 0x8001FFFF := by decide

/-- V140, in the order of its table. -/
theorem test_decodeStatus :
    [0x00, 0x02, 0x04, 0x06, 0x08, 0x10, 0x12, 0x1A, 0x1E, 0xE0].map (decodeStatus false) =
      [0b0000, 0b0010, 0b0001, 0b0011, 0b0000, 0b0000, 0b0010, 0b0010, 0b0011, 0b0000] ∧
    [0x00, 0x02, 0x04, 0x06, 0x08, 0x10, 0x12, 0x1A, 0x1E, 0xE0].map (decodeStatus true) =
      [0b1000, 0b1000, 0b1000, 0b1000, 0b1000, 0b0100, 0b0100, 0b0010, 0b0011, 0b1000] := by decide

/-- V30. -/
theorem test_codes :
    faultCode defaultParams .versionMismatch = -18 ∧ faultCode defaultParams .openFail = -14 ∧
    flashCode defaultParams .unimplemented = -23 ∧ flashCode defaultParams (.access .berr) = -7 ∧
    boundaryValue defaultParams .notFlash = some 0 ∧
    boundaryValue defaultParams (.flash { count := 0, status := .ok }) = some 1 := by decide

/-! ### Small states -/

/-- The state an operation ends in. -/
def ended (o : Host.Outcome State Fault Refusal) : State :=
  match o with
  | .next t => t
  | .fault _ => State.reset
  | .refused _ => State.reset

/-- One operation. -/
def run (i : Instr) (s : State) : State := ended (exec i s)

/-- Sessions as in section 1.3 of spec/95_test_vectors.md. -/
def pd : State := run (.openSession 0) State.reset

def icd : State := run (.openSession 1) State.reset
def coldFire : State := run (.openSession 2) State.reset

/-- With a STAT script. -/
def withStats (s : State) (l : List Byte) : State := { s with statScript := l }

/-- With the environment's answers to memory accesses and a data buffer. -/
def withMemory (s : State) (l : List MemReply) (data : List Byte) : State := { s with memScript := l, buffer := data }

/-- `F(x, n)` of section 1.1. -/
def shown (x n : Nat) : List Byte := (List.range n).map (fun i => if x.testBit (16 - i) then 0x1A else 0x1B)

/-- The line events of one operation. -/
def linesOf (i : Instr) (s : State) : List LineEvent := (run i s).lineTrace.drop s.lineTrace.length

/-- What is checked of an operation of the engine: its outcome and the shadow it leaves. -/
def leaves (i : Instr) (s : State) : Option OpResult × Option Byte :=
  ((run i s).result, (run i s).session.map (fun x => x.shadow))

/-! ### The engine, one step each -/

/-- R382: the fields of an ICD session. -/
def icdSession : Session :=
  { variant := .icd, caps := capsOf .icd, shadow := 0x20, baseDelay := 1, shortDelay := 0, halfDelay := 0, longDelay := 8
    minDelay := 1, resetExtraDelay := 0, fast := false, stopPollBound := 0xFFFF, sense := false, debugLevel := 0 }

theorem test_open_fields : icd.session = some icdSession := by decide +kernel

/-- V152. -/
theorem test_open_writes : linesOf (.openSession 1) State.reset = [.wrote 0x20] := by decide +kernel

/-- V154. -/
theorem test_close : linesOf .closeSession icd = [.wrote 0x00] ∧ (run .closeSession icd).owned = false := by decide +kernel

/-- V125. -/
theorem test_init :
    (run .init (run (.senseCable 1) (run (.speed 0) (run (.setLed 1) icd)))).session = some icdSession := by decide +kernel

/-- V126, V127. -/
theorem test_deinit : linesOf .deinit (run (.setLed 1) icd) = [.wrote 0x00] ∧ linesOf .deinit pd = [.wrote 0x02] := by
  decide +kernel

/-- V112. -/
theorem test_resetChip :
    linesOf .resetChip (run (.setLed 1) icd) = [.wrote 0x68, .delay 8, .wrote 0x60, .delay 8] := by decide +kernel

/-- V115: the target is still running after the reset. -/
theorem test_restartChip :
    linesOf .restartChip (withStats (run (.speed 4) (run (.setLed 1) icd)) [0x18, 0x18, 0x1A]) =
      [.wrote 0x6C, .delay 20, .wrote 0x64, .delay 20, .read 0x18, .wrote 0x64, .delay 4, .read 0x18, .delay 4,
       .read 0x1A, .wrote 0x60] := by decide +kernel

/-- V95: freeze after ten polls. -/
theorem test_stopChip :
    leaves .stopChip (withStats pd [0x18, 0x18, 0x18, 0x18, 0x18, 0x18, 0x18, 0x18, 0x18, 0x18, 0x1A]) =
      (some .ok, some 0x00) := by decide +kernel

/-- V52 and V96 with the bound the largest base delay gives, 1: the forced bus error stops the target. -/
theorem test_stopChip_berr :
    linesOf .stopChip (withStats (run (.speed 0xFFFF) icd) [0x18, 0x18, 0x1A]) =
      [.read 0x18, .wrote 0x24, .delay 65535, .read 0x18, .wrote 0x34, .delay 65535, .wrote 0x24, .delay 65535,
       .read 0x1A, .wrote 0x20] := by decide +kernel

/-- V101, its outcome and the events after the sixteen bits. -/
theorem test_stepChip :
    (linesOf .stepChip (withStats pd ([0x1A, 0x1A] ++ shown 0x10000 16 ++ [0x18, 0x1A]))).drop 82 =
      [.wrote 0x00, .wrote 0x02, .wrote 0x00, .delay 1, .read 0x18, .wrote 0x00, .delay 1, .read 0x1A, .wrote 0x00] ∧
    leaves .stepChip (withStats pd ([0x1A, 0x1A] ++ shown 0x10000 16 ++ [0x18, 0x1A])) = (some .ok, some 0x00) := by
  decide +kernel

/-- V103. -/
theorem test_stepChip_reset : linesOf .stepChip (withStats icd [0x1E]) = [.read 0x1E] := by decide +kernel

/-- V140, with sense mode on. -/
theorem test_getStatus :
    (run .getStatus (withStats (run (.senseCable 1) icd) [0x12])).result = some (.status 0b0100) := by decide +kernel

/-- V119. -/
theorem test_releaseChip : linesOf .releaseChip (run (.setLed 1) icd) = [.wrote 0x68, .delay 8, .wrote 0x00] := by decide +kernel

/-- V130, the row of 100. -/
theorem test_speed :
    (run (.speed 100) icd).session = some { icdSession with
      baseDelay := 100, shortDelay := 25, halfDelay := 50, longDelay := 404, minDelay := 100, stopPollBound := 655 } := by
  decide +kernel

/-- V128, V129. -/
theorem test_senseCable_debugLevel :
    (run (.senseCable 7) icd).session = some { icdSession with sense := true } ∧
    (run (.debugLevel 3) icd).session = some { icdSession with debugLevel := 3 } := by decide +kernel

/-- V121, V123. -/
theorem test_setLed :
    linesOf (.setLed 5) icd = [.wrote 0x60] ∧ (run (.setLed 1) pd).result = some (.fault .illegalOperation) := by decide +kernel

/-- V40: the known answer. -/
theorem test_serialClock :
    leaves (.serialClock 0x1234 0) (withStats icd (0x1A :: shown 0x0BEEF 17)) = (some (.frame 0x0BEEF), some 0x20) := by
  decide +kernel

/-- V49: ColdFire, LED on, base delay 4. -/
theorem test_serialClock_events :
    linesOf (.serialClock 0x8000 15) (withStats (run (.speed 4) (run (.setLed 1) coldFire)) [0x1A, 0x1B, 0x1A]) =
      [.read 0x1A, .wrote 0x60, .wrote 0x62, .delay 2, .read 0x1B, .wrote 0x60, .delay 4, .wrote 0x61, .wrote 0x63,
       .delay 2, .read 0x1A, .wrote 0x61, .delay 4] := by decide +kernel

/-- V61. -/
theorem test_resynchronize :
    leaves .resynchronize (withStats icd
      ((0x1A :: shown 0 17) ++ (0x1A :: shown 0 17) ++ (0x1A :: shown 0 17) ++ (0x1A :: shown 0 1))) =
      (some .ok, some 0x20) := by decide +kernel

/-- V76. -/
theorem test_streamWrite :
    (run (.streamWrite 4) { withStats icd ((0x1A :: shown 0x10000 17) ++ (0x1A :: shown 0x1FFFF 17)) with
      buffer := [0x19, 0x80, 0x00, 0x10] }).result = some (.streamWrite 4 .ok) := by decide +kernel

/-- V70. -/
theorem test_streamRead :
    (run (.streamRead 4) (withStats icd ((0x1A :: shown 0x0BEEF 17) ++ (0x1A :: shown 0x10000 17)))).result =
      some (.streamRead 2 .notReady [0xBE, 0xEF]) := by decide +kernel

/-! ### The registry and RAM -/

/-- A write's answer. -/
def ack : MemReply := .done []

/-- The bounds and flags of the registry. -/
def areas (s : State) : List (Nat × Nat × BitVec 4) :=
  s.registry.map (fun a => (a.beginAddr, a.endAddr, a.flags.bits))

/-- G1: the registry after the known chip was found. -/
def g1 : State :=
  run (.registerArea 0 0) (withMemory State.reset
    [.done [0xFF], ack, ack, ack, .done [0x01], .done [0xA4], ack, .done [0x01], ack, .done [0xFF]] [])

theorem test_registerArea :
    areas g1 = [(0, 0x7FFFF, 0b0011), (0x80000, 0xFFFFFFFF, 0b0000)] ∧ g1.result = some .ok ∧
    g1.memTrace = [.read 0x0 [0xFF], .wrote 0x555 [0xAA], .wrote 0x2AA [0x55], .wrote 0x555 [0x90], .read 0x0 [0x01],
      .read 0x1 [0xA4], .wrote 0x0 [0xFE], .read 0x0 [0x01], .wrote 0x0 [0xF0], .read 0x0 [0xFF]] := by decide +kernel

/-- G2, G4. -/
theorem test_registerArea_refused :
    (run (.registerArea 0 0) g1).result = some (.fault .illegalOperation) ∧
    (run (.registerArea 4 0x100000) g1).result = some (.fault .illegalOperation) := by decide +kernel

/-- M1. -/
theorem test_writeMemory :
    (run (.writeMemory 0x1001 6) (withMemory State.reset [ack, ack, ack, ack]
      [0x11, 0x22, 0x33, 0x44, 0x55, 0x66])).memTrace =
      [.wrote 0x1001 [0x11], .wrote 0x1002 [0x22, 0x33], .wrote 0x1004 [0x44, 0x55], .wrote 0x1006 [0x66]] := by decide +kernel

/-- M6: the second access fails. -/
theorem test_writeMemory_short :
    (run (.writeMemory 0x1001 6) (withMemory State.reset [ack, .fault .berr] [0x11, 0x22, 0x33, 0x44, 0x55, 0x66])).result =
      some (.written 1 (.access .berr)) := by decide +kernel

/-- M3. -/
theorem test_ramWrite :
    (run (.ramWrite 0x2002 8) (withMemory State.reset [ack, ack, ack] [1, 2, 3, 4, 5, 6, 7, 8])).memTrace =
      [.wrote 0x2002 [1, 2], .wrote 0x2004 [3, 4, 5, 6], .wrote 0x2008 [7, 8]] := by decide +kernel

/-- A8, M7. -/
theorem test_eraseArea :
    (run (.eraseArea 0x12345 0) (withMemory g1 [ack, ack, ack, ack, ack, ack] [])).memTrace.drop 10 =
      [.wrote 0x555 [0xAA], .wrote 0x2AA [0x55], .wrote 0x555 [0x80], .wrote 0x555 [0xAA], .wrote 0x2AA [0x55],
       .wrote 0x10000 [0x30]] ∧
    (run (.eraseArea 0x90000 0) g1).result = some .notFlash := by decide +kernel

/-- A9b, A12. -/
theorem test_eraseWait_blankCheck :
    (run (.eraseWait 0x12345) g1).result = some (.flash { count := 0, status := .ok }) ∧
    (run (.blankCheck 0) g1).result = some (.flash { count := 0, status := .unimplemented }) := by decide +kernel

/-! ### The flash families -/

/-- G1: the outcome of the probe itself. -/
theorem test_amdProbe :
    (run (.amdProbe 0) (withMemory State.reset
      [.done [0xFF], ack, ack, ack, .done [0x01], .done [0xA4], ack, .done [0x01], ack, .done [0xFF]] [])).result =
      some (.probe
        { size := 0x80000
          binding := some (.amd
            { chip := { base := 0, size := 0x80000, name := "Am29F040", busWidth := 1, chipWidth := 1, sectorSize := 0x10000 }
              manId := 0x01, devId := 0xA4, numbers := defaultAmdNumbers, pendingErase := .none })
          status := .ok }) := by decide +kernel

/-- A1, with the busy reads `0x00`, `0x40`. -/
theorem test_amdProgram :
    (run (.amdProgram 0x1000 1) (withMemory g1
      [.done [0xFF], ack, ack, ack, ack, .done [0x00], .done [0x40], .done [0x5A], .done [0x5A], .done [0x5A]]
      [0x5A])).memTrace.drop 10 =
      [.read 0x1000 [0xFF], .wrote 0x555 [0xAA], .wrote 0x2AA [0x55], .wrote 0x555 [0xA0], .wrote 0x1000 [0x5A],
       .read 0x1000 [0x00], .read 0x1000 [0x40], .read 0x1000 [0x5A], .read 0x1000 [0x5A], .read 0x1000 [0x5A]] := by decide +kernel

/-- A6: the chip exceeds its time limit. -/
theorem test_amdProgram_stuck :
    (run (.amdProgram 0x3000 2) (withMemory g1
      [.done [0xFF], ack, ack, ack, ack, .done [0x20], .done [0x60], .done [0x20], .done [0x60], ack]
      [0x00, 0x11])).result = some (.flash { count := 0, status := .deviceFault }) ∧
    areas (run (.amdProgram 0x3000 2) (withMemory g1
      [.done [0xFF], ack, ack, ack, ack, .done [0x20], .done [0x60], .done [0x20], .done [0x60], ack] [0x00, 0x11])) =
      [(0, 0x7FFFF, 0b1011), (0x80000, 0xFFFFFFFF, 0b0000)] := by decide +kernel

/-- A14: the range of the erase that is now pending. -/
theorem test_amdEraseSector :
    ((run (.amdEraseSector 0x7FFFF) (withMemory g1 [ack, ack, ack, ack, ack, ack] [])).registry.head?.map
      MemoryArea.binding) = (g1.registry.head?.map (fun a => (a.withPending (.sector 0x70000 0x7FFFF)).binding)) := by decide +kernel

/-- A10. -/
theorem test_amdEraseAll :
    (run .amdEraseAll (withMemory g1 [ack, ack, ack, ack, ack, ack] [])).memTrace.drop 10 =
      [.wrote 0x555 [0xAA], .wrote 0x2AA [0x55], .wrote 0x555 [0x80], .wrote 0x555 [0xAA], .wrote 0x2AA [0x55],
       .wrote 0x555 [0x10]] := by decide +kernel

/-- R249 (a), (c), R273: an erase to its end clears `ERASED`; one whose first write fails clears it too and sets `ERROR`. -/
theorem test_amdEraseAll_flags :
    areas (run .amdEraseAll (withMemory (g1.withArea 0 (fun a => a.withErased true)) [ack, ack, ack, ack, ack, ack] [])) =
      [(0, 0x7FFFF, 0b0011), (0x80000, 0xFFFFFFFF, 0b0000)] ∧
    areas (run .amdEraseAll (withMemory (g1.withArea 0 (fun a => a.withErased true)) [.fault .berr] [])) =
      [(0, 0x7FFFF, 0b1011), (0x80000, 0xFFFFFFFF, 0b0000)] := by decide +kernel

/-- A18, A19: a failed wait clears the pending erase and sets `ERROR`. -/
theorem test_amdEraseWait :
    (run .amdEraseWait (withMemory (run .amdEraseAll (withMemory g1 [ack, ack, ack, ack, ack, ack] []))
      [.done [0x20], .done [0x60], .done [0x20], .done [0x60], ack] [])).result =
      some (.flash { count := 0, status := .deviceFault }) := by decide +kernel

theorem test_amdBlankCheck :
    (run (.amdBlankCheck 0) g1).result = some (.flash { count := 0, status := .unimplemented }) := by decide +kernel

/-- C1. -/
def c1 : State := run (.registerArea 2 0) (withMemory State.reset [.done [0xC0]] [])

theorem test_cfm_registered : areas c1 = [(0, 0x7FFFF, 0b0001), (0x80000, 0xFFFFFFFF, 0b0000)] := by decide +kernel

/-- C2, C2d. -/
theorem test_cfmProbe :
    (run (.cfmProbe 0x1000) State.reset).result = some (.probe { size := 0, binding := none, status := .ok }) ∧
    (run (.cfmProbe 0) (withMemory State.reset [.done [0xC1]] [])).result =
      some (.probe { size := 0, binding := none, status := .ok }) := by decide +kernel

/-- C3. -/
theorem test_cfmProgram :
    (run (.cfmProgram 0x1002 2) (withMemory c1
      [.done [0xFF, 0xFF, 0xFF, 0xFF], ack, ack, ack, ack, .done [0x80], .done [0x80], .done [0xC0],
       .done [0xFF, 0xFF, 0x12, 0x34]] [0x12, 0x34])).memTrace.drop 1 =
      [.read 0x1000 [0xFF, 0xFF, 0xFF, 0xFF], .wrote 0x401D0020 [0x30], .wrote 0x44001000 [0xFF, 0xFF, 0x12, 0x34],
       .wrote 0x401D0024 [0x20], .wrote 0x401D0020 [0x80], .read 0x401D0020 [0x80], .read 0x401D0020 [0x80],
       .read 0x401D0020 [0xC0], .read 0x1000 [0xFF, 0xFF, 0x12, 0x34]] := by decide +kernel

/-- C12: a protection violation. -/
theorem test_cfmEraseSector :
    (run (.cfmEraseSector 0x10) (withMemory c1 [ack, ack, ack, ack, .done [0xE0]] [])).memTrace.drop 1 =
      [.wrote 0x401D0020 [0x30], .wrote 0x44000000 [0xFF, 0xFF, 0xFF, 0xFF], .wrote 0x401D0024 [0x40],
       .wrote 0x401D0020 [0x80], .read 0x401D0020 [0xE0]] := by decide +kernel

/-- C12 for the whole array. -/
theorem test_cfmEraseAll :
    (run .cfmEraseAll (withMemory c1 [ack, ack, ack, ack, .done [0xE0]] [])).result =
      some (.flash { count := 0, status := .deviceFault }) := by decide +kernel

/-- C7. -/
theorem test_cfmEraseWait : (run .cfmEraseWait c1).result = some (.flash { count := 0, status := .ok }) := by decide +kernel

/-- C5, C6. -/
theorem test_cfmBlankCheck :
    (run (.cfmBlankCheck 0) (withMemory c1
      [ack, ack, ack, ack, .done [0x80], .done [0x80], .done [0xC0], .done [0xC0]] [])).result =
      some (.flash { count := 0, status := .blankFail }) ∧
    (run (.cfmBlankCheck 0x100) (withMemory c1
      [ack, ack, ack, ack, .done [0x84], .done [0x84], .done [0xC4], .done [0xC4], ack] [])).result =
      some (.flash { count := 0, status := .ok }) := by decide +kernel

/-- The answers of I1, with a device code. -/
def intelAnswers (dev : BusWord) : List MemReply :=
  [.done [0xFF], ack, .done [0xFF], .done [0xFF], ack, .done [0xFF], .done [0xFF, 0xFF], ack, .done [0x00, 0x89],
   .done dev, ack, .done [0xFF, 0xFF], .done [0xFF, 0xFF], ack, .done [0x00, 0x89], .done dev, ack, .done [0x00, 0x89],
   ack, .done [0xFF, 0xFF]]

/-- I1, and I10 with a 64-byte write buffer. -/
def i1 : State := run (.registerArea 3 0x10000000) (withMemory State.reset (intelAnswers [0x88, 0xC3]) [])

def i10 : State :=
  run (.registerArea 3 0x10000000) (withMemory State.reset
    (intelAnswers [0x88, 0x18] ++ [ack, .done [0x00, 0x06], ack]) [])

theorem test_intel_registered :
    areas i1 = [(0, 0xFFFFFFF, 0b0000), (0x10000000, 0x101FFFFF, 0b0001), (0x10200000, 0xFFFFFFFF, 0b0000)] ∧
    areas i10 = [(0, 0xFFFFFFF, 0b0000), (0x10000000, 0x10FFFFFF, 0b0001), (0x11000000, 0xFFFFFFFF, 0b0000)] := by decide +kernel

/-- I10: the buffer-size query. -/
theorem test_intelProbe :
    (run (.intelProbe 0x10000000) (withMemory State.reset
      (intelAnswers [0x88, 0x18] ++ [ack, .done [0x00, 0x06], ack]) [])).memTrace.drop 20 =
      [.wrote 0x100000AA [0x00, 0x98], .read 0x10000054 [0x00, 0x06], .wrote 0x10000000 [0x00, 0xFF]] := by decide +kernel

/-- I2. -/
theorem test_intelProgram :
    (run (.intelProgram 0x10000100 2) (withMemory i1
      [.done [0xFF, 0xFF], ack, ack, ack, ack, .done [0x00, 0x00], .done [0x00, 0x80], ack, .done [0x12, 0x34], ack]
      [0x12, 0x34])).memTrace.drop 20 =
      [.read 0x10000100 [0xFF, 0xFF], .wrote 0x10000000 [0x00, 0x60], .wrote 0x10000000 [0x00, 0xD0],
       .wrote 0x10000100 [0x00, 0x40], .wrote 0x10000100 [0x12, 0x34], .read 0x10000100 [0x00, 0x00],
       .read 0x10000100 [0x00, 0x80], .wrote 0x10000000 [0x00, 0xFF], .read 0x10000100 [0x12, 0x34],
       .wrote 0x10000000 [0x00, 0xFF]] := by decide +kernel

/-- R252, D49: a program of no byte makes no access. -/
theorem test_intelProgram_empty :
    (run (.intelProgram 0x10000100 0) i1).memTrace = i1.memTrace ∧
    (run (.intelProgram 0x10000100 0) i1).result = some (.flash { count := 0, status := .ok }) := by decide +kernel

/-- I12: a burst of two words. -/
theorem test_intelProgram_burst :
    (run (.intelProgram 0x10000101 3) (withMemory i10
      [.done [0xFF, 0xFF], .done [0xFF, 0xFF], ack, ack, ack, .done [0x00, 0x80], ack, ack, ack, ack, .done [0x00, 0x00],
       .done [0x00, 0x80], ack, .done [0xFF, 0xA1], .done [0xA2, 0xA3], ack] [0xA1, 0xA2, 0xA3])).memTrace.drop 23 =
      [.read 0x10000100 [0xFF, 0xFF], .read 0x10000102 [0xFF, 0xFF], .wrote 0x10000000 [0x00, 0x60],
       .wrote 0x10000000 [0x00, 0xD0], .wrote 0x10000000 [0x00, 0xE8], .read 0x10000000 [0x00, 0x80],
       .wrote 0x10000000 [0x00, 0x01], .wrote 0x10000100 [0xFF, 0xA1], .wrote 0x10000102 [0xA2, 0xA3],
       .wrote 0x10000000 [0x00, 0xD0], .read 0x10000000 [0x00, 0x00], .read 0x10000000 [0x00, 0x80],
       .wrote 0x10000000 [0x00, 0xFF], .read 0x10000100 [0xFF, 0xA1], .read 0x10000102 [0xA2, 0xA3],
       .wrote 0x10000000 [0x00, 0xFF]] := by decide +kernel

/-- I7b: the sector is locked down. -/
theorem test_intelEraseSector :
    (run (.intelEraseSector 0x10000000) (withMemory i1
      [ack, ack, ack, ack, .done [0x00, 0x00], .done [0x00, 0xA2], ack, ack] [])).memTrace.drop 20 =
      [.wrote 0x10000000 [0x00, 0x60], .wrote 0x10000000 [0x00, 0xD0], .wrote 0x10000000 [0x00, 0x20],
       .wrote 0x10000000 [0x00, 0xD0], .read 0x10000000 [0x00, 0x00], .read 0x10000000 [0x00, 0xA2],
       .wrote 0x10000000 [0x00, 0x50], .wrote 0x10000000 [0x00, 0xFF]] := by decide +kernel

/-- I7b for the whole chip: the first sector fails and no other is tried. -/
theorem test_intelEraseAll :
    (run .intelEraseAll (withMemory { i1 with areaSel := 0x10000000 }
      [ack, ack, ack, ack, .done [0x00, 0x00], .done [0x00, 0xA2], ack, ack] [])).result =
      some (.flash { count := 0, status := .deviceFault }) := by decide +kernel

/-- I5, I6. -/
theorem test_intelEraseWait_blankCheck :
    (run .intelEraseWait { i1 with areaSel := 0x10000000 }).result = some (.flash { count := 0, status := .ok }) ∧
    (run (.intelBlankCheck 0x10000000) i1).result = some (.flash { count := 0, status := .unimplemented }) := by decide +kernel

/-- The step after a word was placed runs exactly that operation (R22, R99). -/
theorem test_withFetchWord :
    step (State.reset.withFetchWord 72 0x1E0000000100000000) =
      exec (.openSession 1) (State.reset.accept (requestOf 0x1E0000000100000000#72) []) := rfl

/-! ### Witnesses: for every statement with hypotheses, values that meet them together; for every clause, a value of its range -/

theorem witness_DecodeOfEncodeIsTheOperation :
    (Instr.serialClock 0xFFFF (2 ^ 32 - 1)).wellFormed = true ∧ (Instr.registerArea (2 ^ 32 - 1) 0).wellFormed = true := by
  decide

theorem witness_OnlyTableSelectorsDecode : 0x65 ∈ tableSelectors ∧ 0x66 ∉ tableSelectors := by decide

/-- An operation that leaves a result ends in a next state. -/
theorem exec_run {i : Instr} {s : State} {r : OpResult} (h : (run i s).result = some r) : exec i s = .next (run i s) := by
  cases e : exec i s <;> simp_all [run, ended, State.reset]

/-- SPEED without its second operand, SERIAL_CLOCK without bits 31 to 16 of its first (V46), INIT without any. -/
theorem witness_UnusedOperandBitsAreIgnored :
    let agree := fun w w' : Op72 => w ≠ w' ∧ w &&& usedBits (Op72.selector w) = w' &&& usedBits (Op72.selector w)
    agree 0x080000000400000000#72 0x0800000004FFFFFFFF#72 ∧ decode 0x0800000004FFFFFFFF#72 = .ok (.speed 4) ∧
    agree 0x1000000C0000000001#72 0x10FFFF0C0000000001#72 ∧ decode 0x10FFFF0C0000000001#72 = .ok (.serialClock 0x0C00 1) ∧
    agree 0x000000000000000000#72 0x00FFFFFFFFFFFFFFFF#72 ∧ decode 0x00FFFFFFFFFFFFFFFF#72 = .ok .init := by decide

/-- A call of the host. -/
def call (w : Op72) : Request := { origin := .host, word := w, data := [] }

/-- A state with one call. -/
def asked (s : State) (w : Op72) : State := { s with requests := [call w] }

theorem witness_StepRunsTheDecodedOperation :
    (asked State.reset 0x1E0000000100000000#72).requests = [call 0x1E0000000100000000#72] ∧
    decode (call 0x1E0000000100000000#72).word = .ok (.openSession 1) ∧
    internalSelector (Op72.selector (call 0x1E0000000100000000#72).word) = false := by decide

theorem witness_IllegalSelectorDoesNothing :
    (Op72.selector 0x2F0000000000000000#72).toNat ∉ tableSelectors ∧
    (call 0x300000000000000000#72).origin = .host ∧ (Op72.selector 0x300000000000000000#72).toNat = 0x30 ∧
    (Op72.selector 0x650000000000000000#72).toNat = 0x65 := by decide

/-- The default parameters, and parameters with an exception row. -/
theorem witness_ResetIsSound :
    timingParamsSound defaultParams = true ∧
    timingParamsSound { defaultParams with boundRows := [(7, 1)] } = true ∧
    stopPollBoundOf { defaultParams with boundRows := [(7, 1)] } 7 = 1 := by decide +kernel

/-- REGISTER_AREA asked of a fresh registry, with the answers of G1. -/
def registering : State :=
  asked (withMemory State.reset
    [.done [0xFF], ack, ack, ack, .done [0x01], .done [0xA4], ack, .done [0x01], ack, .done [0xFF]] [])
    0x200000000000000000#72

theorem witness_EveryStepKeepsThePartition :
    registering.partitioned = true ∧ (ended (step registering)).partitioned = true ∧
    (ended (step registering)).registry.length = 2 := by decide +kernel

theorem witness_EveryStepKeepsTheAreasSound :
    registering.partitioned = true ∧ registering.areasSound = true ∧ (ended (step registering)).areasSound = true := by
  decide +kernel

theorem witness_EveryStepKeepsTheSessionSound :
    (asked icd 0x080000000400000000#72).sessionSound = true ∧ (asked icd 0x080000000400000000#72).ownershipSound = true ∧
    (ended (step (asked icd 0x080000000400000000#72))).sessionSound = true := by decide +kernel

/-- RAM.WRITE of one byte, completed. -/
def storing : State := withMemory State.reset [ack] [0x5A]

theorem witness_EveryStepEndsAtRest :
    registering.atRest = true ∧ registering.memory.wf = true ∧ (ended (step registering)).memory.length = 3 := by
  decide +kernel

theorem witness_EveryStepKeepsAccessesAligned :
    registering.accessesSound = true ∧ (ended (step registering)).memTrace.length = 10 := by decide +kernel

theorem witness_EveryStepEndsAndOnlyAppendsEvents : State.reset.requests = [] := rfl

theorem witness_NoOperationReachesBothSpaces :
    exec .closeSession icd = .next (run .closeSession icd) ∧ memoryOperation .closeSession = false ∧
    exec (.ramWrite 7 1) storing = .next (run (.ramWrite 7 1) storing) ∧ memoryOperation (.ramWrite 7 1) = true :=
  ⟨rfl, rfl, rfl, rfl⟩

theorem witness_BytesNotWrittenAreKept :
    storing.memory.wf = true ∧ (run (.ramWrite 7 1) storing).memTrace = [.wrote 7 [0x5A]] ∧
    writesByte [.wrote 7 [0x5A]] 6 = false ∧ writesByte [.wrote 7 [0x5A]] 8 = false ∧
    (run (.ramWrite 7 1) storing).storedByte 7 = some 0x5A := by decide +kernel

/-- G1 after A6: the area has `ERROR`. -/
def afterError : State :=
  run (.amdProgram 0x3000 2) (withMemory g1
    [.done [0xFF], ack, ack, ack, ack, .done [0x20], .done [0x60], .done [0x20], .done [0x60], ack] [0x00, 0x11])

theorem witness_AreaFlagsAfterRegistration :
    (let t := run (.amdEraseSector 0) (withMemory afterError [ack, ack, ack, ack, ack, ack] [])
     (afterError.registry[0]?.map (fun a => a.flags.error)) = some true ∧
     (t.registry[0]?.map (fun a => a.flags.error)) = some true ∧ t.registry ≠ afterError.registry ∧
     t.registry.map MemoryArea.fixed = afterError.registry.map MemoryArea.fixed) ∧
    (let s := withMemory afterError (intelAnswers [0x88, 0xC3]) []
     let t := run (.registerArea 3 0x10000000) s
     s.partitioned = true ∧ t.registry.length = 4 ∧
     (s.registry.filter (fun a => decide (a.binding ≠ .ram))).length = 1 ∧
     (∀ a ∈ s.registry.filter (fun a => decide (a.binding ≠ .ram)), a ∈ t.registry)) := by decide +kernel

theorem witness_NotOpenWithoutASession :
    engineOperation (.serialClock 0 17) = true ∧ engineOperation .closeSession = true ∧ State.reset.session = none ∧
    State.reset.owned = false := ⟨rfl, rfl, rfl, rfl⟩

theorem witness_OpenCreatesTheSession :
    2 < 3 ∧ icd.owned = true ∧ State.reset.owned = false ∧
    [pd, icd, coldFire].map (fun s => s.session.map (fun x => x.variant)) = [some .pd, some .icd, some .coldFire] := by
  decide +kernel

theorem witness_CloseFreesTheChannel :
    State.reset.owned = false ∧ icd.owned = true ∧ icd.session = some icdSession ∧
    icdSession.caps = capsOf icdSession.variant := by decide +kernel

theorem witness_InitAndDeinit : icd.session = some icdSession ∧ icdSession.caps = capsOf icdSession.variant := by
  decide +kernel

theorem witness_ConfigurationCommands : icd.session = some icdSession := by decide +kernel

theorem witness_SetLedMovesOnlyTheLed :
    icd.session = some icdSession ∧ icdSession.caps = capsOf icdSession.variant ∧ icdSession.variant ≠ .pd ∧
    (variantParams icd.params icdSession.variant).encoding = .dedicated ∧
    (pd.session.map (fun x => x.variant)) = some .pd := by decide +kernel

theorem witness_GetStatusDecodesOneSample :
    (withStats icd [0x1A]).session = some icdSession ∧ icdSession.caps = capsOf icdSession.variant := by decide +kernel

theorem witness_StatusBitsExclude :
    targetNotConnected (decodeStatus true 0x0F) = true ∧ targetPowerFail (decodeStatus true 0x17) = true ∧
    decodeStatus false 0x06 = 0b0011 := by decide

theorem witness_FrameClasses :
    (0x0001FFFE : Word32) ≠ 0x0001FFFF ∧ (0x0001FFFE : Word32) ≠ 0x00010001 ∧ (0x0001FFFE : Word32) ≠ 0x00010000 := by
  decide

theorem witness_ResetAndReleaseSequences :
    icd.session = some icdSession ∧ icdSession.caps = capsOf icdSession.variant ∧ patternsSound icd.params = true := by
  decide +kernel

theorem witness_StopChipOnAFrozenTarget :
    (withStats icd [0x1A]).session = some icdSession ∧ icdSession.caps = capsOf icdSession.variant ∧
    runningSample icdSession (withStats icd [0x1A]).nextStat = false := by decide +kernel

/-- An ICD session with the largest 16-bit base delay: its poll bound is 1. -/
def slowSession : Session := icdSession.withSpeed defaultParams 0xFFFF

/-- An ICD machine whose variant does or does not force the bus error. -/
def slowIcd (force : Bool) : State :=
  { run (.speed 0xFFFF) icd with
    params := { defaultParams with icd := { defaultParams.icd with forceBerr := force } } }

theorem witness_StopChipFrozenAtAPoll :
    (icd.session = some icdSession ∧ icdSession.caps = capsOf icdSession.variant ∧ patternsSound icd.params = true ∧
     runningSample icdSession 0x18 = true ∧ [0x18, 0x18].all (runningSample icdSession) = true ∧
     runningSample icdSession 0x1A = false ∧ 2 < icdSession.stopPollBound ∧
     (withStats icd [0x18, 0x18, 0x18, 0x1A]).statScript = 0x18 :: ([0x18, 0x18] ++ 0x1A :: [])) ∧
    (let s := withStats (slowIcd true) [0x18, 0x18, 0x1A]
     s.session = some slowSession ∧ slowSession.caps = capsOf slowSession.variant ∧ patternsSound s.params = true ∧
     (variantParams s.params slowSession.variant).forceBerr = true ∧
     runningSample slowSession 0x18 = true ∧ [0x18].all (runningSample slowSession) = true ∧
     [(0x18 : Byte)].length = slowSession.stopPollBound ∧ [].all (runningSample slowSession) = true ∧
     ([] : List Byte).length < slowSession.stopPollBound ∧ runningSample slowSession 0x1A = false ∧
     s.statScript = 0x18 :: ([0x18] ++ [] ++ 0x1A :: []) ∧ (run .stopChip s).result = some .ok) := by decide +kernel

theorem witness_StopChipNeverFrozen :
    (slowIcd false).session = some slowSession ∧ (slowIcd true).session = some slowSession ∧
    slowSession.caps = capsOf slowSession.variant ∧ patternsSound (slowIcd false).params = true ∧
    patternsSound (slowIcd true).params = true ∧ runningSample slowSession 0x18 = true ∧
    [0x18].all (runningSample slowSession) = true ∧ [(0x18 : Byte)].length = slowSession.stopPollBound ∧
    (variantParams (slowIcd false).params slowSession.variant).forceBerr = false ∧
    (variantParams (slowIcd true).params slowSession.variant).forceBerr = true ∧
    (withStats (slowIcd false) [0x18, 0x18]).statScript = 0x18 :: ([0x18] ++ []) ∧
    (withStats (slowIcd true) [0x18, 0x18, 0x18]).statScript = 0x18 :: ([0x18] ++ [0x18] ++ []) := by decide +kernel

/-- An ICD machine whose variant asks for a resynchronization after RESTART_CHIP and STEP_CHIP. -/
def resyncIcd : State :=
  { icd with params := { defaultParams with icd := { defaultParams.icd with resyncAfterRestart := true, resyncAfterStep := true } } }

/-- Where RESTART_CHIP of an ICD session with the LED off calls STOP_CHIP (V115, V116). -/
def restartStop (s : State) (x : Session) : State :=
  { s with
    lines := 0x24, session := some { x with shadow := 0x24 }
    lineTrace := s.lineTrace ++ ([LineEvent.wrote 0x2C] ++ delayEvents (x.longDelay + x.resetExtraDelay) ++
      [LineEvent.wrote 0x24] ++ delayEvents x.longDelay) }

/-- A frozen target; one that runs at the first sample and freezes at a poll (V115), one that never freezes (V116 with a bound of 1), and a frozen one with a
resynchronization asked for. -/
theorem witness_RestartChipIntoTheFrozenState :
    let stopped := fun (s : State) (x : Session) (r : OpResult) (resync : Bool) =>
      s.session = some x ∧ x.caps = capsOf x.variant ∧ patternsSound s.params = true ∧
      keepLed (variantParams s.params x.variant).encoding x.shadow (variantParams s.params x.variant).patterns.resetArm = 0x2C ∧
      keepLed (variantParams s.params x.variant).encoding x.shadow (variantParams s.params x.variant).patterns.arm = 0x24 ∧
      (run .stopChip (restartStop s x)).result = some r ∧ (variantParams s.params x.variant).resyncAfterRestart = resync
    ((icd.session = some icdSession ∧ icdSession.caps = capsOf icdSession.variant ∧ patternsSound icd.params = true ∧
      (variantParams icd.params icdSession.variant).resyncAfterRestart = false ∧
      (withStats icd [0x1A]).statScript = 0x1A :: [] ∧ runningSample icdSession 0x1A = false) ∧
     stopped (withStats icd [0x18, 0x18, 0x1A]) icdSession .ok false ∧
     stopped (withStats (slowIcd false) [0x18, 0x18]) slowSession (.fault (.proto .response)) false ∧
     stopped (withStats resyncIcd [0x1A]) icdSession .ok true) ∧
    exec .stopChip (restartStop (withStats icd [0x18, 0x18, 0x1A]) icdSession) =
      .next (run .stopChip (restartStop (withStats icd [0x18, 0x18, 0x1A]) icdSession)) ∧
    exec .stopChip (restartStop (withStats (slowIcd false) [0x18, 0x18]) slowSession) =
      .next (run .stopChip (restartStop (withStats (slowIcd false) [0x18, 0x18]) slowSession)) ∧
    exec .stopChip (restartStop (withStats resyncIcd [0x1A]) icdSession) =
      .next (run .stopChip (restartStop (withStats resyncIcd [0x1A]) icdSession)) :=
  ⟨by decide +kernel, exec_run (r := .ok) (by decide +kernel), exec_run (r := .fault (.proto .response)) (by decide +kernel),
    exec_run (r := .ok) (by decide +kernel)⟩

/-- An exchange of a frozen target that shows `x` in its first `n` bits, in slow mode. -/
def exchange (cmd : Word16) (x n : Nat) : Exchange := { cmd, status := 0x1A, settle := [], samples := shown x n }

/-- The nested exchange of STEP_CHIP. -/
def stepClock (s : State) : State := run (.serialClock s.params.goCmd 1) s.readStat

/-- Where STEP_CHIP of an ICD session with the LED off calls STOP_CHIP. -/
def stepStop (s : State) (y : Session) : State :=
  { (stepClock s).nestedIn s with
    lines := 0x24, session := some { y with shadow := 0x24 }
    lineTrace := (stepClock s).lineTrace ++ ([LineEvent.wrote 0x24, .wrote 0x26] ++ bitDelayEvents y y.halfDelay ++
      [LineEvent.wrote 0x24] ++ bitDelayEvents y y.baseDelay) }

/-- The nested exchange of a frozen target, after which its status samples are `last`. -/
def stepping (s : State) (last : List Byte) : State := withStats s (0x1A :: 0x1A :: (shown 0x10000 16 ++ last))

/-- A target that freezes again at once; one that freezes only at a poll, as in V101; one that never freezes; one that runs when STEP_CHIP is issued, which the nested
exchange stops; and one with a resynchronization asked for. -/
theorem witness_StepChipClocksTheHeldBitArmed :
    let clocked := fun (s : State) (x y : Session) =>
      s.session = some x ∧ x.caps = capsOf x.variant ∧ patternsSound s.params = true ∧
      unavailableFault (decodeStatus x.sense s.nextStat) = none ∧ (stepClock s).session = some y ∧
      keepLed (variantParams s.params x.variant).encoding y.shadow
        ((variantParams s.params x.variant).patterns.arm ||| dsi (s.params.goCmd.getLsbD 0)) = 0x24 ∧
      keepLed (variantParams s.params x.variant).encoding y.shadow
        ((variantParams s.params x.variant).patterns.arm ||| dsi (s.params.goCmd.getLsbD 0) ||| 0x02) = 0x26
    let stopped := fun (s : State) (y : Session) (r : OpResult) (resync : Bool) =>
      (run .stopChip (stepStop s y)).result = some r ∧ (variantParams s.params y.variant).resyncAfterStep = resync
    (icd.session = some icdSession ∧ icdSession.caps = capsOf icdSession.variant ∧ patternsSound icd.params = true ∧
     (variantParams icd.params icdSession.variant).resyncAfterStep = false ∧
     (exchange 0x0C00 0x10000 16).cmd = icd.params.goCmd ∧
     unavailableFault (decodeStatus icdSession.sense 0x1A) = none ∧
     (exchange 0x0C00 0x10000 16).answered icd.params icdSession 1 = true ∧ runningSample icdSession 0x1A = false ∧
     (withStats icd (0x1A :: ((exchange 0x0C00 0x10000 16).script ++ [0x1A]))).statScript =
       0x1A :: ((exchange 0x0C00 0x10000 16).script ++ 0x1A :: [])) ∧
    (clocked (stepping icd [0x18, 0x1A]) icdSession icdSession ∧ stopped (stepping icd [0x18, 0x1A]) icdSession .ok false) ∧
    (clocked (stepping (slowIcd false) [0x18, 0x18]) slowSession slowSession ∧
      stopped (stepping (slowIcd false) [0x18, 0x18]) slowSession (.fault (.proto .response)) false) ∧
    (let s := withStats icd (0x18 :: 0x18 :: 0x18 :: 0x1A :: (shown 0x10000 16 ++ [0x1A]))
     clocked s icdSession icdSession ∧ stopped s icdSession .ok false) ∧
    (clocked (stepping resyncIcd [0x1A]) icdSession icdSession ∧ stopped (stepping resyncIcd [0x1A]) icdSession .ok true) :=
  ⟨by decide +kernel, by decide +kernel, by decide +kernel, by decide +kernel, by decide +kernel⟩

/-- The steps of that witness are next states. -/
theorem witness_StepChipClocksTheHeldBitArmed_runs :
    let s := withStats icd (0x18 :: 0x18 :: 0x18 :: 0x1A :: (shown 0x10000 16 ++ [0x1A]))
    exec (.serialClock s.params.goCmd 1) s.readStat = .next (stepClock s) ∧ (stepClock s).result = some (.frame 0x00008000) ∧
    exec .stopChip (stepStop s icdSession) = .next (run .stopChip (stepStop s icdSession)) :=
  ⟨exec_run (r := .frame 0x00008000) (by decide +kernel), by decide +kernel, exec_run (r := .ok) (by decide +kernel)⟩

/-- Fast mode with one bit and a settle poll that never settles (V47). -/
def unsettled : Exchange := { cmd := 0, status := 0x1B, settle := List.replicate 100 0x1B, samples := [0x1B] }

/-- The exchange of V40 on a target that runs when it is asked. -/
def runningExchange : Exchange := { exchange 0x1234 0x0BEEF 17 with status := 0x18 }

/-- That target: it freezes at the first poll of the nested STOP_CHIP. -/
def runningIcd : State := withStats icd ([0x18, 0x1A] ++ (runningExchange.settle ++ runningExchange.samples ++ [0x55]))

/-- Slow mode with all 17 bits, fast mode with one bit, and a running target. -/
theorem witness_SerialClockSamplingLaw :
    (let s := withStats icd ((exchange 0x1234 0x0BEEF 17).script ++ [0x18])
     s.session = some icdSession ∧ icdSession.caps = capsOf icdSession.variant ∧ patternsSound s.params = true ∧ 0 ≤ 16 ∧
     (exchange 0x1234 0x0BEEF 17).answered s.params icdSession 0 = true ∧
     s.statScript = (exchange 0x1234 0x0BEEF 17).script ++ [0x18]) ∧
    (let s := withStats (run (.speed 0) icd) unsettled.script
     let x := icdSession.withSpeed defaultParams 0
     s.session = some x ∧ x.caps = capsOf x.variant ∧ patternsSound s.params = true ∧ 16 ≤ 16 ∧
     unsettled.answered s.params x 16 = true ∧ s.statScript = unsettled.script ++ []) ∧
    (let s := runningIcd
     let t := run .stopChip s.readStat
     let y := { icdSession with shadow := 0x20 }
     (s.session = some icdSession ∧ icdSession.caps = capsOf icdSession.variant ∧ patternsSound s.params = true ∧ 0 ≤ 16 ∧
      unavailableFault (decodeStatus icdSession.sense s.nextStat) = none ∧ runningSample icdSession s.nextStat = true ∧
      t.result = some .ok ∧ t.session = some y ∧
      settleReads (y.fast && settleBefore s.params runningExchange.cmd 0) runningExchange.settle = true ∧
      runningExchange.samples.length = 17 - 0 ∧
      t.statScript = runningExchange.settle ++ runningExchange.samples ++ [0x55] ∧
      (run (.serialClock 0x1234 0) s).result = some (.frame 0x0BEEF)) ∧
     exec .stopChip s.readStat = .next t) :=
  ⟨by decide +kernel, by decide +kernel, by decide +kernel, exec_run (r := .ok) (by decide +kernel)⟩

/-- The first clauses, a target that never freezes (bound 1, no forced bus error), and a reset during the exchange of STEP_CHIP. -/
theorem witness_ExchangesFailFast :
    (icd.session = some icdSession ∧ icdSession.caps = capsOf icdSession.variant ∧ 16 < 17 ∧ 1 % 2 = 1 ∧
     unavailableFault (decodeStatus icdSession.sense (withStats icd [0x1C]).nextStat) = some .reset ∧
     unavailableFault (decodeStatus true 0x0A) = some .cable ∧ unavailableFault (decodeStatus true 0x12) = some .power) ∧
    (let s := withStats (slowIcd false) [0x18, 0x18, 0x18]
     let t := run .stopChip s.readStat
     (s.session = some slowSession ∧ slowSession.caps = capsOf slowSession.variant ∧ 16 ≤ 16 ∧
      unavailableFault (decodeStatus slowSession.sense s.nextStat) = none ∧ runningSample slowSession s.nextStat = true ∧
      t.result = some (.fault (.proto .response))) ∧ exec .stopChip s.readStat = .next t) ∧
    (let s := withStats icd [0x1A, 0x1C]
     let t := run (.serialClock s.params.goCmd 1) s.readStat
     (s.session = some icdSession ∧ unavailableFault (decodeStatus icdSession.sense s.nextStat) = none ∧
      t.result = some (.fault (.proto .reset))) ∧ exec (.serialClock s.params.goCmd 1) s.readStat = .next t) :=
  ⟨by decide +kernel, ⟨by decide +kernel, exec_run (r := .fault (.proto .response)) (by decide +kernel)⟩,
    by decide +kernel, exec_run (r := .fault (.proto .reset)) (by decide +kernel)⟩

/-- Three NOP frames with different responses (V60). -/
def nopAnswers : List Exchange := [exchange 0 0x12345 17, exchange 0 0x1FFFF 17, exchange 0 0x10000 17]

/-- A pulse that shows the idle level, and one that does not. -/
def idlePulse : Exchange := exchange 0 0 1

def lowPulse : Exchange := exchange 0 0x10000 1

/-- The state after these exchanges, and whether each returned its frame. -/
def afterClocks : State → List Clocked → State
  | s, [] => s
  | s, c :: l => afterClocks ((run (.serialClock c.cmd c.delayBits) s).nestedIn s) l

def clocksAnswered : State → List Clocked → Bool
  | _, [] => true
  | s, c :: l =>
    (run (.serialClock c.cmd c.delayBits) s).result == some (.frame c.frame) &&
      clocksAnswered ((run (.serialClock c.cmd c.delayBits) s).nestedIn s) l

theorem clocksTo_run : ∀ (l : List Clocked) (s : State), clocksAnswered s l = true → clocksTo s l (afterClocks s l)
  | [], _, _ => rfl
  | c :: l, s, h => by
    simp only [clocksAnswered, Bool.and_eq_true, beq_iff_eq] at h
    exact ⟨_, exec_run h.1, h.1, clocksTo_run l _ h.2⟩

/-- A NOP frame that returned `x`, and a pulse. -/
def nopFrame (x : Word32) : Clocked := { cmd := 0, delayBits := 0, frame := x }

def pulse (v : Word32) : Clocked := { cmd := 0, delayBits := 16, frame := v }

/-- The status samples of a target that runs and freezes at the first poll of the nested stop (R131), then those of an exchange. -/
def fromRunning (l : List Byte) : List Byte := 0x18 :: 0x18 :: 0x1A :: l

/-- Idle at the second pulse, at the 17th (V65), and 17 pulses without it. -/
theorem witness_ResynchronizeFindsTheIdleLevel :
    let idle := fun (e : Exchange) =>
      recordedLevel ((exchangeResult e.cmd e.samples).getLsbD 0) = (variantParams icd.params icdSession.variant).dsoIdle
    icd.session = some icdSession ∧ icdSession.caps = capsOf icdSession.variant ∧ patternsSound icd.params = true ∧
    nopAnswers.length = 3 ∧
    (∀ e ∈ nopAnswers, e.cmd = icd.params.nopCmd ∧ e.answered icd.params icdSession 0 = true) ∧
    (∀ e ∈ [lowPulse] ++ [idlePulse], e.cmd = icd.params.nopCmd ∧ e.answered icd.params icdSession 16 = true) ∧
    ¬ idle lowPulse ∧ idle idlePulse ∧
    (run .resynchronize (withStats icd ((nopAnswers ++ [lowPulse] ++ [idlePulse]).flatMap Exchange.script))).result =
      some .ok ∧
    (List.replicate 16 lowPulse).length ≤ 16 ∧
    (run .resynchronize (withStats icd ((nopAnswers ++ List.replicate 16 lowPulse ++ [idlePulse]).flatMap Exchange.script))).result =
      some .ok ∧
    (List.replicate 17 lowPulse).length = 17 ∧
    (run .resynchronize (withStats icd ((nopAnswers ++ List.replicate 17 lowPulse).flatMap Exchange.script))).result =
      some (.fault (.proto .unknown)) := by decide +kernel

/-- A target that runs before the second frame, with the idle level at the 17th pulse; one that shows no idle level; one that is in reset at the second frame (V64); and
one that runs before the second pulse and does not freeze again. -/
theorem witness_ResynchronizeFindsTheIdleLevel_running :
    let frames := [nopFrame 0, nopFrame 0, nopFrame 0]
    let lows := fun (n : Nat) => (List.replicate n [0x1A, 0x1A]).flatten
    let s := withStats icd (0x1A :: shown 0 17 ++ fromRunning (shown 0 17) ++ 0x1A :: shown 0 17 ++ lows 16 ++ [0x1A, 0x1B])
    let never := withStats icd ((0x1A :: shown 0 17) ++ (0x1A :: shown 0 17) ++ (0x1A :: shown 0 17) ++ lows 17)
    let inReset := withStats icd ((0x1A :: shown 0 17) ++ [0x1C])
    let leaves := withStats (slowIcd false) ((0x1A :: shown 0 17) ++ (0x1A :: shown 0 17) ++ (0x1A :: shown 0 17) ++ lows 1 ++ [0x18, 0x18, 0x18])
    clocksTo s (frames ++ (List.replicate 16 (pulse 1) ++ [pulse 0])) (afterClocks s (frames ++ (List.replicate 16 (pulse 1) ++ [pulse 0]))) ∧
    clocksTo never (frames ++ List.replicate 17 (pulse 1)) (afterClocks never (frames ++ List.replicate 17 (pulse 1))) ∧
    (clocksTo inReset ([nopFrame 0] ++ []) (afterClocks inReset [nopFrame 0]) ∧
      exec (.serialClock inReset.params.nopCmd 0) (afterClocks inReset [nopFrame 0]) =
        .next (run (.serialClock 0 0) (afterClocks inReset [nopFrame 0])) ∧
      (run (.serialClock 0 0) (afterClocks inReset [nopFrame 0])).result = some (.fault (.proto .reset))) ∧
    (clocksTo leaves (frames ++ [pulse 1]) (afterClocks leaves (frames ++ [pulse 1])) ∧
      exec (.serialClock leaves.params.nopCmd 16) (afterClocks leaves (frames ++ [pulse 1])) =
        .next (run (.serialClock 0 16) (afterClocks leaves (frames ++ [pulse 1]))) ∧
      (run (.serialClock 0 16) (afterClocks leaves (frames ++ [pulse 1]))).result = some (.fault (.proto .response)) ∧
      leaves.session = some slowSession) :=
  ⟨clocksTo_run _ _ (by decide +kernel), clocksTo_run _ _ (by decide +kernel),
    ⟨clocksTo_run _ _ (by decide +kernel), exec_run (r := .fault (.proto .reset)) (by decide +kernel), by decide +kernel⟩,
    ⟨clocksTo_run _ _ (by decide +kernel), exec_run (r := .fault (.proto .response)) (by decide +kernel), by decide +kernel, by decide +kernel⟩⟩

/-- One unit, and a second one whose exchange finds the target in reset. -/
theorem witness_StreamWriteSendsEachUnit :
    let e : Exchange := exchange 0x1980 0x10000 17
    let s : State := { withStats icd (e.script ++ [0x1C]) with buffer := [0x19, 0x80, 0x00, 0x10] }
    let t := run (.serialClock 0x0010 0) ([e].foldl State.exchanged s)
    (s.session = some icdSession ∧ icdSession.caps = capsOf icdSession.variant ∧ patternsSound s.params = true ∧
     e.answered s.params icdSession 0 = true ∧
     e.cmd = ((s.dataByte (2 * 0)).setWidth 16 <<< (8 : Nat) ||| (s.dataByte (2 * 0 + 1)).setWidth 16 : Word16) ∧
     (0x0010 : Word16) = (s.dataByte (2 * 1)).setWidth 16 <<< (8 : Nat) ||| (s.dataByte (2 * 1 + 1)).setWidth 16 ∧
     s.statScript = [e].flatMap Exchange.script ++ [0x1C] ∧ t.result = some (.fault (.proto .reset)) ∧
     (run (.streamWrite 4) s).result = some (.streamWrite 2 (.fault (.proto .reset)))) ∧
    exec (.serialClock 0x0010 0) ([e].foldl State.exchanged s) = .next t :=
  ⟨by decide +kernel, exec_run (r := .fault (.proto .reset)) (by decide +kernel)⟩

/-- A unit whose exchange first stops a running target, and a second one on which the target, which has left debug mode, does not freeze again (V78). -/
theorem witness_StreamWriteSendsEachUnit_running :
    let s : State := { withStats (slowIcd false) (fromRunning (shown 0 17) ++ [0x18, 0x18, 0x18]) with buffer := [0x01, 0x02, 0x03, 0x04] }
    let l : List Clocked := [{ cmd := 0x0102, delayBits := 0, frame := 0 }]
    let t := run (.serialClock 0x0304 0) (afterClocks s l)
    clocksTo s l (afterClocks s l) ∧ exec (.serialClock 0x0304 0) (afterClocks s l) = .next t ∧
    s.session = some slowSession ∧ t.result = some (.fault (.proto .response)) ∧
    (run (.streamWrite 4) s).result = some (.streamWrite 2 (.fault (.proto .response))) ∧
    (0x0102 : Word16) = (s.dataByte (2 * 0)).setWidth 16 <<< (8 : Nat) ||| (s.dataByte (2 * 0 + 1)).setWidth 16 ∧
    (0x0304 : Word16) = (s.dataByte (2 * 1)).setWidth 16 <<< (8 : Nat) ||| (s.dataByte (2 * 1 + 1)).setWidth 16 :=
  ⟨clocksTo_run _ _ (by decide +kernel), exec_run (r := .fault (.proto .response)) (by decide +kernel), by decide +kernel,
    by decide +kernel, by decide +kernel, by decide +kernel, by decide +kernel⟩

theorem witness_StreamReadDeliversPayloads :
    let es := [exchange 0 0x1CAFE 17]
    let s := withStats icd (es.flatMap Exchange.script)
    let r := withStats icd (fromRunning (shown 0x1CAFE 17))
    (s.session = some icdSession ∧ icdSession.caps = capsOf icdSession.variant ∧ patternsSound s.params = true ∧
     (∀ e ∈ es, e.cmd = s.params.nopCmd ∧ e.answered s.params icdSession 0 = true ∧
       decodeFrame (exchangeResult e.cmd e.samples) = .payload (exchangeResult e.cmd e.samples)) ∧
     s.statScript = es.flatMap Exchange.script ++ []) ∧
    clocksTo r [nopFrame 0x1CAFE] (afterClocks r [nopFrame 0x1CAFE]) ∧ decodeFrame 0x1CAFE = .payload 0x1CAFE :=
  ⟨by decide +kernel, clocksTo_run _ _ (by decide +kernel), by decide⟩

theorem witness_StreamReadStopsAtASentinel :
    let es := [exchange 0 0x0BEEF 17]
    let ended := fun (bad : Exchange) (v : Word32) =>
      let s := withStats icd ((es ++ [bad]).flatMap Exchange.script)
      s.session = some icdSession ∧ icdSession.caps = capsOf icdSession.variant ∧ patternsSound s.params = true ∧
      (∀ e ∈ es ++ [bad], e.cmd = s.params.nopCmd ∧ e.answered s.params icdSession 0 = true) ∧
      (∀ e ∈ es, decodeFrame (exchangeResult e.cmd e.samples) = .payload (exchangeResult e.cmd e.samples)) ∧
      s.statScript = (es ++ [bad]).flatMap Exchange.script ++ [] ∧ exchangeResult bad.cmd bad.samples = v
    let s := withStats icd (es.flatMap Exchange.script ++ [0x1C])
    let t := run (.serialClock s.params.nopCmd 0) (es.foldl State.exchanged s)
    (ended (exchange 0 0x10000 17) 0x00010000 ∧ ended (exchange 0 0x10001 17) 0x00010001 ∧
      ended (exchange 0 0x1FFFF 17) 0x0001FFFF) ∧
    (s.session = some icdSession ∧ s.statScript = es.flatMap Exchange.script ++ [0x1C] ∧
      t.result = some (.fault (.proto .reset))) ∧
    exec (.serialClock s.params.nopCmd 0) (es.foldl State.exchanged s) = .next t :=
  ⟨by decide +kernel, by decide +kernel, exec_run (r := .fault (.proto .reset)) (by decide +kernel)⟩

/-- The same four ends after a unit, and at an exchange, that first stopped a running target. -/
theorem witness_StreamReadStopsAtASentinel_running :
    let l := [nopFrame 0x0BEEF]
    let stuck : List Byte := [0x18, 0x18, 0x18]
    let s := fun (next : List Byte) => withStats (slowIcd false) (fromRunning (shown 0x0BEEF 17) ++ next)
    let ended := fun (next : List Byte) (r : OpResult) =>
      clocksAnswered (s next) l = true ∧ (run (.serialClock 0 0) (afterClocks (s next) l)).result = some r ∧ (s next).session = some slowSession
    (ended (fromRunning (shown 0x10000 17)) (.frame 0x00010000) ∧ ended (fromRunning (shown 0x10001 17)) (.frame 0x00010001) ∧
     ended (fromRunning (shown 0x1FFFF 17)) (.frame 0x0001FFFF) ∧ ended stuck (.fault (.proto .response))) ∧
    clocksTo (s stuck) l (afterClocks (s stuck) l) ∧
    exec (.serialClock (s stuck).params.nopCmd 0) (afterClocks (s stuck) l) = .next (run (.serialClock 0 0) (afterClocks (s stuck) l)) :=
  ⟨by decide +kernel, clocksTo_run _ _ (by decide +kernel), exec_run (r := .fault (.proto .response)) (by decide +kernel)⟩

/-! Small registries: a chip of 8 bytes, and RAM above it. -/

/-- A chip of 8 bytes in two sectors. -/
def smallChip (busWidth chipWidth : Nat) : ChipCommon :=
  { base := 0, size := 8, name := "", busWidth, chipWidth, sectorSize := 4 }

/-- A registry with one 8-byte flash area. -/
def smallState (b : Binding) : State :=
  { State.reset with
    registry :=
      [{ beginAddr := 0, endAddr := 7, binding := b
         flags := { flash := true, auto := false, erased := false, error := false } }, ramArea 8 (addrSpace - 1)] }

def smallAmd (p : PendingErase) : AmdDescriptor :=
  { chip := smallChip 1 1, manId := 1, devId := 0xA4
    numbers := { defaultAmdNumbers with unlock1Addr := 5, unlock2Addr := 2 }, pendingErase := p }

def smallCfm : CfmDescriptor :=
  { chip := smallChip 4 4, regBase := 0x1000, backdoorBase := 0x2000, numbers := defaultCfmNumbers }

def smallIntel (bufBytes : Nat) : IntelDescriptor :=
  { chip := smallChip 2 2, manId := 0x89, devId := 0x88C3, regions := [(2, 4)], buffered := false, bufBytes
    numbers := defaultIntelNumbers }

/-- The flash area of a small registry. -/
def smallArea (b : Binding) : MemoryArea :=
  { beginAddr := 0, endAddr := 7, binding := b
    flags := { flash := true, auto := false, erased := false, error := false } }

theorem witness_SpliceReassignsOnlyTheNewRange :
    coversFrom 0 State.reset.registry = true ∧ wholeSpaceRam ∈ State.reset.registry ∧ wholeSpaceRam.binding = .ram ∧
    wholeSpaceRam.beginAddr ≤ 4 ∧ 4 ≤ 7 ∧ 7 ≤ wholeSpaceRam.endAddr ∧
    areaOf (splice State.reset.registry wholeSpaceRam { smallArea (.cfm smallCfm) with beginAddr := 4 }) 7 =
      some { smallArea (.cfm smallCfm) with beginAddr := 4 } := by decide +kernel

/-- C1. -/
theorem witness_RegisterAreaFindsTheCfm :
    let s := withMemory State.reset [.done [0xC0]] []
    areaOf s.registry 0 = some wholeSpaceRam ∧ wholeSpaceRam.binding = .ram ∧
    sortBy CfmRow.size (s.params.cfmTable.filter (fun r => r.arrayBase == 0)) = defaultCfmTable ∧
    0 + 0x80000 - 1 ≤ wholeSpaceRam.endAddr ∧ callAllowed (0x401D0000 + s.params.cfmNumbers.ustatOff) 1 = true ∧
    (0xC0 : Byte) &&& s.params.cfmNumbers.ccif ≠ 0 ∧ (0xC0 : Byte) &&& 0x0B = 0 ∧ s.memScript = .done [0xC0] :: [] := by
  decide +kernel

theorem witness_RegisterAreaRefusals :
    3 < 4 ∧ 0 ≤ 3 ∧ areaOf (smallState (.cfm smallCfm)).registry 7 = some (smallArea (.cfm smallCfm)) ∧
    (smallArea (.cfm smallCfm)).binding ≠ .ram := by decide +kernel

/-- Six bytes from an odd address (M1), and the last two of the address space. -/
theorem witness_RamWriteStoresItsBytes :
    let stored := fun (address n : Nat) (ws : List Nat) =>
      let done := ws.map (fun _ => ack)
      let s := withMemory State.reset done [1, 2, 3, 4, 5, 6]
      (s.memory.wf = true ∧ address + n ≤ 2 ^ 32 ∧ s.memScript = done ++ [] ∧ done.length = ws.length ∧
        areaOf s.registry address = some wholeSpaceRam ∧ wholeSpaceRam.binding = .ram ∧ address + n ≤ wholeSpaceRam.endAddr + 1 ∧
        (run (.ramWrite address n) s).memTrace = storesOf address s.dataByte 0 ws) ∧
      (∀ r ∈ done, ∃ v, r = .done v) ∧ widestWidths address n ws
    stored 0x1001 6 [1, 2, 2, 1] ∧ stored 0xFFFFFFFE 2 [2] ∧ stored 0x1000 5 [4, 1] ∧ stored 7 0 [] :=
  ⟨⟨by decide +kernel, by simp [ack], by simp [widestWidths]⟩, ⟨by decide +kernel, by simp [ack], by simp [widestWidths]⟩,
    ⟨by decide +kernel, by simp [ack], by simp [widestWidths]⟩, ⟨by decide +kernel, by simp, by simp [widestWidths]⟩⟩

/-- The second access fails (M6), the last one fails, and the first one. -/
theorem witness_ShortWriteIsFinal :
    let cut := fun (j : Nat) =>
      let done := List.replicate j ack
      let s := withMemory State.reset (done ++ [.fault .berr]) [1, 2, 3, 4, 5, 6]
      (0x1001 + 6 ≤ 2 ^ 32 ∧ j < [1, 2, 2, 1].length ∧ done.length = j ∧ s.memScript = done ++ .fault .berr :: [] ∧
        areaOf s.registry 0x1001 = some wholeSpaceRam ∧ 0x1001 + 6 ≤ wholeSpaceRam.endAddr + 1 ∧
        (run (.writeMemory 0x1001 6) s).result = some (.written ([1, 2, 2, 1].take j).sum (.access .berr))) ∧
      (∀ r ∈ done, ∃ v, r = .done v) ∧ widestWidths 0x1001 6 [1, 2, 2, 1]
    cut 0 ∧ cut 1 ∧ cut 3 ∧ 0 < 1 ∧ 0x1001 + 1 ≤ 2 ^ 32 ∧
    (withMemory State.reset [.fault .berr] [1]).memScript = .fault .berr :: [] :=
  ⟨⟨by decide +kernel, by simp, by simp [widestWidths]⟩, ⟨by decide +kernel, by simp [ack], by simp [widestWidths]⟩,
    ⟨by decide +kernel, by simp [ack], by simp [widestWidths]⟩, by decide +kernel⟩

/-- A registry whose second area is flash. -/
def behindRam (b : Binding) : State :=
  { State.reset with
    registry := [ramArea 0 7, { smallArea b with beginAddr := 8, endAddr := 15 }, ramArea 16 (addrSpace - 1)] }

/-- An AMD descriptor on a bus that no machine has: the access of its first cell is refused (R71). -/
def brokenAmd : Binding := .amd { smallAmd .none with chip := smallChip 3 1 }

/-- A program of one byte that the cell already holds, in each family. -/
theorem witness_WriteMemoryDelegatesToTheOwner :
    let held := fun (i : Instr) (b : Binding) (l : List MemReply) =>
      let s := withMemory (smallState b) l [0x5A]
      (areaOf s.registry 7 = some (smallArea b) ∧ 0 < 1 ∧ 7 + 1 ≤ (smallArea b).endAddr + 1 ∧
        (run i s).result = some (.flash { count := 1, status := .ok })) ∧ exec i s = .next (run i s)
    held (.amdProgram 7 1) (.amd (smallAmd .none)) [.done [0x5A]] ∧
    held (.cfmProgram 7 1) (.cfm smallCfm) [.done [0, 0, 0, 0x5A]] ∧
    held (.intelProgram 7 1) (.intel (smallIntel 0)) [.done [0, 0x5A], ack] :=
  ⟨⟨by decide +kernel, exec_run (r := .flash { count := 1, status := .ok }) (by decide +kernel)⟩,
    ⟨by decide +kernel, exec_run (r := .flash { count := 1, status := .ok }) (by decide +kernel)⟩,
    ⟨by decide +kernel, exec_run (r := .flash { count := 1, status := .ok }) (by decide +kernel)⟩⟩

/-- Four bytes from 6 over areas that end at 7: into RAM behind flash, short in the flash, refused in the first area and in the second; and four bytes
from the last two of the address space. -/
theorem witness_WriteMemoryOverAreas :
    let data : List Byte := [0x11, 0x22, 0x33, 0x44]
    let first := fun (s : State) (e : MemoryArea) (r : OpResult) =>
      (areaOf s.registry 6 = some e ∧ 4 ≤ s.buffer.length ∧ e.endAddr + 1 - 6 = 2 ∧ 2 < 4 ∧ 6 + 2 < 2 ^ 32 ∧
        (run (.writeMemory 6 2) s).result = some r) ∧ exec (.writeMemory 6 2) s = .next (run (.writeMemory 6 2) s)
    let second := fun (s : State) (r : OpResult) =>
      let t := { run (.writeMemory 6 2) s with buffer := s.buffer.drop 2, opsDone := s.opsDone, result := s.result }
      (run (.writeMemory 8 2) t).result = some r ∧ exec (.writeMemory 8 2) t = .next (run (.writeMemory 8 2) t)
    let flash := smallState (.amd (smallAmd .none))
    let area := smallArea (.amd (smallAmd .none))
    let whole := withMemory flash [.done [0x11], .done [0x22], ack] data
    let short := withMemory flash [.fault .berr] data
    let broken := withMemory (smallState brokenAmd) [] data
    let after := withMemory (behindRam brokenAmd) [ack] data
    let top := withMemory State.reset [ack] data
    (first whole area (.written 2 .ok) ∧ second whole (.written 2 .ok)) ∧
    (first short area (.written 0 (.access .berr)) ∧ 0 < 2) ∧
    first broken (smallArea brokenAmd) (.fault .illegalOperation) ∧
    (first after (ramArea 0 7) (.written 2 .ok) ∧ second after (.fault .illegalOperation)) ∧
    (top.partitioned = true ∧ 0xFFFFFFFE < 2 ^ 32 ∧ 2 ^ 32 < 0xFFFFFFFE + 4 ∧
      (run (.writeMemory 0xFFFFFFFE 4) top).result = some (.written 2 .ok)) :=
  ⟨⟨⟨by decide +kernel, exec_run (r := .written 2 .ok) (by decide +kernel)⟩,
      ⟨by decide +kernel, exec_run (r := .written 2 .ok) (by decide +kernel)⟩⟩,
    ⟨⟨by decide +kernel, exec_run (r := .written 0 (.access .berr)) (by decide +kernel)⟩, by decide⟩,
    ⟨by decide +kernel, exec_run (r := .fault .illegalOperation) (by decide +kernel)⟩,
    ⟨⟨by decide +kernel, exec_run (r := .written 2 .ok) (by decide +kernel)⟩,
      ⟨by decide +kernel, exec_run (r := .fault .illegalOperation) (by decide +kernel)⟩⟩,
    by decide +kernel⟩

theorem witness_RamIsNotFlash :
    areaOf (smallState (.cfm smallCfm)).registry 8 = some (ramArea 8 (addrSpace - 1)) ∧
    (ramArea 8 (addrSpace - 1)).binding = .ram := by decide +kernel

theorem witness_OperationsWithoutAccess :
    (smallState (.amd (smallAmd .none))).partitioned = true ∧
    areaOf (smallState (.amd (smallAmd .none))).registry 0 = some (smallArea (.amd (smallAmd .none))) ∧
    (smallAmd .none).pendingErase = .none ∧ (smallState (.cfm smallCfm)).partitioned = true ∧
    areaOf (smallState (.cfm smallCfm)).registry (smallState (.cfm smallCfm)).areaSel = some (smallArea (.cfm smallCfm)) ∧
    (smallState (.intel (smallIntel 0))).partitioned = true ∧
    areaOf (smallState (.intel (smallIntel 0))).registry (smallState (.intel (smallIntel 0))).areaSel =
      some (smallArea (.intel (smallIntel 0))) ∧
    areaOf (smallState (.intel (smallIntel 0))).registry 7 = some (smallArea (.intel (smallIntel 0))) := by decide +kernel

/-- The state whose environment completes exactly these calls. -/
def answering (s : State) (evs : List MemEvent) (data : List Byte) : State := withMemory s (answersOf evs) data

/-- The state whose environment completes the first `j` of these calls and fails the next. -/
def failing (s : State) (evs : List MemEvent) (j : Nat) (data : List Byte) : State :=
  withMemory s (answersOf (evs.take j) ++ [.fault .berr]) data

/-- The outcome of a probe without a chip. -/
def noChip (st : FlashStatus) : OpResult := .probe { size := 0, binding := none, status := st }

/-- An attempt on cells that hold all ones and answer nothing. -/
def missed (w : Nat) : ProbeTry := { orig := allOnes w, man := allOnes w, dev := allOnes w, guard := none, back := allOnes w }

/-- An attempt that finds a chip. -/
def answered (w : Nat) (man dev : BusWord) : ProbeTry := { orig := allOnes w, man, dev, guard := some man, back := allOnes w }

/-- An attempt on RAM that happens to hold the identifier of the known chip: the guard's store sticks, and the address is restored. -/
def stuckTry : ProbeTry := { orig := [0x01], man := [0x01], dev := [0xA4], guard := some [0xFE], back := [0xF0] }

/-- The events of the attempts of AMD.PROBE at an address. -/
def amdTries (address : Nat) (tries : List ProbeTry) : List MemEvent :=
  let n := defaultAmdNumbers
  let word := fun (w c : Nat) (code : Byte) => replicateLanes w c code.toNat
  triesEvents address
    (fun w c => [(address + n.unlock1Addr * w, word w c n.unlock1Val), (address + n.unlock2Addr * w, word w c n.unlock2Val),
      (address + n.unlock1Addr * w, word w c n.cmdId)])
    (fun w c => word w c n.cmdReset) (triedPairs address) tries

/-- The state after a probe. -/
def afterProbe (base : Nat) (f : Family) (s : State) : State := (run (probeInstr base f) s).nestedIn s

theorem probed_run {base : Nat} {f : Family} {s : State} (h : (run (probeInstr base f) s).result = some (noChip .ok)) :
    probedWithoutMatch base s [f] (afterProbe base f s) :=
  ⟨_, _, exec_run h, h, fun _ => by simp, rfl, rfl⟩

/-- The outcome of CFM.PROBE at address 0 with the default table. -/
def foundCfm : ProbeResult :=
  { size := 0x80000, status := .ok
    binding := some (.cfm
      { chip := { base := 0, size := 0x80000, name := "CFM512", busWidth := 4, chipWidth := 4, sectorSize := 0x800 }
        regBase := 0x401D0000, backdoorBase := 0x44000000, numbers := defaultCfmNumbers }) }

/-- With the hint of CFM: a base with no row; a chip that fits, a chip that would reach past a RAM area of 8 bytes (C1), a probe whose first read fails, and one whose status
register lies at no aligned address of the space. With no hint: AMD, without a match, before CFM, which matches and ends the search. -/
theorem witness_RegisterAreaBindsTheChipFound :
    let ends := fun (s : State) (base : Nat) (e : MemoryArea) (f : Family) (r : OpResult) =>
      areaOf s.registry base = some e ∧ e.binding = .ram ∧ (run (probeInstr base f) s).result = some r ∧
      exec (probeInstr base f) s = .next (run (probeInstr base f) s)
    let answered := withMemory State.reset [.done [0xC0]] []
    let crowded := { answered with registry := [ramArea 0 7, { smallArea (.cfm smallCfm) with beginAddr := 8, endAddr := addrSpace - 1 }] }
    let cut := withMemory State.reset [.fault .berr] []
    let nowhere := { State.reset with params := { defaultParams with cfmTable := defaultCfmTable.map (fun r => { r with regBase := addrSpace }) } }
    let amdFirst := withMemory State.reset (answersOf (amdTries 0 ((triedPairs 0).map (fun p => missed p.1))) ++ [.done [0xC0]]) []
    (probedWithoutMatch 0x1000 State.reset [.cfm] (afterProbe 0x1000 .cfm State.reset) ∧
      areaOf State.reset.registry 0x1000 = some wholeSpaceRam) ∧
    (ends answered 0 wholeSpaceRam .cfm (.probe foundCfm) ∧ ¬ wholeSpaceRam.endAddr < 0 + foundCfm.size - 1) ∧
    (ends crowded 0 (ramArea 0 7) .cfm (.probe foundCfm) ∧ (ramArea 0 7).endAddr < 0 + foundCfm.size - 1) ∧
    ends cut 0 wholeSpaceRam .cfm (noChip (.access .berr)) ∧
    ends nowhere 0 wholeSpaceRam .cfm (.fault .illegalOperation) ∧
    (State.reset.params.algOrder = [.amd] ++ Family.cfm :: [.intel] ∧ probedWithoutMatch 0 amdFirst [.amd] (afterProbe 0 .amd amdFirst) ∧
      (run (probeInstr 0 .cfm) (afterProbe 0 .amd amdFirst)).result = some (.probe foundCfm)) := by
  refine ⟨⟨probed_run (by decide +kernel), by decide⟩, ⟨⟨by decide, by decide, by decide +kernel, ?_⟩, by decide⟩,
    ⟨⟨by decide, by decide, by decide +kernel, ?_⟩, by decide⟩, ⟨by decide, by decide, by decide +kernel, ?_⟩,
    ⟨by decide +kernel, by decide, by decide +kernel, ?_⟩, by decide, probed_run (by decide +kernel), by decide +kernel⟩
  · exact exec_run (r := .probe foundCfm) (by decide +kernel)
  · exact exec_run (r := .probe foundCfm) (by decide +kernel)
  · exact exec_run (r := noChip (.access .berr)) (by decide +kernel)
  · exact exec_run (r := .fault .illegalOperation) (by decide +kernel)

/-- A hit at the first pair (G1), misses at the only pair of an odd address and at all six of address 0, and a hit at the second pair after RAM that
the guard found; each search also with its first and its last access failed. -/
theorem witness_AmdProbeFindsTheChip :
    let searched := fun (address : Nat) (tries : List ProbeTry) (pair : Option (Nat × Nat)) =>
      let evs := amdTries address tries
      let s := answering State.reset evs []
      triesSound (amdRow s.params) (triedPairs address) tries = true ∧ callsAllowed evs = true ∧
      (triesHit (amdRow s.params) (triedPairs address) tries).map (fun h => h.1) = pair ∧
      (pair.isSome = true ∨ tries.length = (triedPairs address).length) ∧ s.memScript = answersOf evs ++ [] ∧
      (run (.amdProbe address) s).memTrace = evs ∧ (pair.isSome = true ∨ (run (.amdProbe address) s).result = some (noChip .ok)) ∧
      0 < evs.length ∧ (run (.amdProbe address) (failing State.reset evs 0 [])).result = some (noChip (.access .berr)) ∧
      (run (.amdProbe address) (failing State.reset evs (evs.length - 1) [])).result = some (noChip (.access .berr))
    searched 0 [answered 1 [0x01] [0xA4]] (some (1, 1)) ∧ searched 1 [missed 1] none ∧
    searched 0 ([1, 2, 2, 4, 4, 4].map missed) none ∧
    searched 0 [stuckTry, answered 2 [0x01, 0x01] [0xA4, 0xA4]] (some (2, 1)) := by decide +kernel

/-- An unbuffered row of an 8-bit part. -/
def byteRow : IntelRow :=
  { manId := 0x89, devId := 0xC3, chipWidth := 1, chipSize := 8, regions := [(2, 4)], buffered := false, name := "" }

/-- The events of the attempts of INTEL.PROBE at an address. -/
def intelTries (address : Nat) (tries : List ProbeTry) : List MemEvent :=
  let n := defaultIntelNumbers
  let word := fun (w c : Nat) (code : Byte) => replicateLanes w c code.toNat
  triesEvents address (fun w c => [(address, word w c n.cmdReadId)]) (fun w c => word w c n.cmdReadArray) (triedPairs address) tries

/-- The buffer size of the chip that a probe found. -/
def bufferFound (r : Option OpResult) : Option Nat :=
  match r with
  | some (.probe { binding := some (.intel d), .. }) => some d.bufBytes
  | _ => none

/-- An unbuffered row at the first pair, a miss and a guard that found RAM at an odd address, and buffered rows: a 16-bit chip whose query answers the
exponents 1, 10, 0 and 11, and two of them side by side whose answers disagree. -/
theorem witness_IntelProbeFindsTheChip :
    let searched := fun (address : Nat) (tries : List ProbeTry) (pair : Option (Nat × Nat)) =>
      let evs := intelTries address tries
      let start := { State.reset with params := { defaultParams with intelTable := [byteRow] } }
      let s := answering start evs []
      triesSound (intelRow s.params) (triedPairs address) tries = true ∧ callsAllowed evs = true ∧
      (triesHit (intelRow s.params) (triedPairs address) tries).map (fun h => (h.1, h.2.buffered)) = pair.map (fun p => (p, false)) ∧
      (pair.isSome = true ∨ tries.length = (triedPairs address).length) ∧ s.memScript = answersOf evs ++ [] ∧
      (run (.intelProbe address) s).memTrace = evs ∧ (pair.isSome = true ∨ (run (.intelProbe address) s).result = some (noChip .ok)) ∧
      0 < evs.length ∧ (run (.intelProbe address) (failing start evs 0 [])).result = some (noChip (.access .berr))
    let queried := fun (tries : List ProbeTry) (w c : Nat) (answer : BusWord) (v : Option Nat) (bytes : Nat) =>
      let evs := intelTries 0 tries
      let query : List MemEvent :=
        [.wrote (0 + 0x55 * w) (replicateLanes w c 0x98), .read (0 + 0x2A * w) answer, .wrote 0 (replicateLanes w c 0xFF)]
      let s := answering State.reset (evs ++ query) []
      triesSound (intelRow s.params) (triedPairs 0) tries = true ∧ callsAllowed evs = true ∧ callsAllowed query = true ∧
      (triesHit (intelRow s.params) (triedPairs 0) tries).map (fun h => (h.1, h.2.buffered)) = some ((w, c), true) ∧
      answer.length = w ∧ agreedValue w c answer = v ∧ s.memScript = answersOf (evs ++ query) ++ [] ∧
      (run (.intelProbe 0) s).memTrace = evs ++ query ∧ bufferFound (run (.intelProbe 0) s).result = some bytes ∧
      evs.length + 1 < (evs ++ query).length ∧
      (run (.intelProbe 0) (failing State.reset (evs ++ query) (evs.length + 1) [])).result = some (noChip (.access .berr))
    let one := [missed 1, missed 2, answered 2 [0x00, 0x89] [0x88, 0x18]]
    let two := [missed 1, missed 2, missed 2, missed 4, answered 4 [0x00, 0x89, 0x00, 0x89] [0x88, 0x18, 0x88, 0x18]]
    (searched 0 [answered 1 [0x89] [0xC3]] (some (1, 1)) ∧ searched 1 [missed 1] none ∧
      searched 1 [{ orig := [0x89], man := [0x89], dev := [0xC3], guard := some [0x76], back := [0xFF] }] none) ∧
    queried one 2 2 [0, 1] (some 1) 2 ∧ queried one 2 2 [0, 10] (some 10) 1024 ∧ queried one 2 2 [0, 0] (some 0) 0 ∧
    queried one 2 2 [0, 11] (some 11) 0 ∧ queried two 4 2 [0, 6, 0, 7] none 0 :=
  ⟨by decide +kernel, by decide +kernel, by decide +kernel, by decide +kernel, by decide +kernel, by decide +kernel⟩

/-- No row (C2), a module that is not idle (C2d), one that is after a smaller row whose module is not, and a read that fails. -/
theorem witness_CfmProbeTestsPresence :
    let rows := fun (p : Params) (address : Nat) => sortBy CfmRow.size (p.cfmTable.filter (fun r => r.arrayBase == address))
    let present := fun (st : Byte) => st &&& defaultCfmNumbers.ccif != 0 && st &&& 0x0B == 0
    let small : CfmRow := { arrayBase := 0, size := 8, pageSize := 4, regBase := 0x1000, backdoorBase := 0x2000, name := "" }
    let start := { State.reset with params := { defaultParams with cfmTable := defaultCfmTable ++ [small] } }
    rows defaultParams 0x1000 = [] ∧
    (let evs : List MemEvent := [.read 0x401D0020 [0xC1]]
     let s := answering State.reset evs []
     callsAllowed evs = true ∧ [(0xC1 : Byte)].length = (rows s.params 0).length ∧ [0xC1].any present = false ∧
     s.memScript = answersOf evs ++ [] ∧ (run (.cfmProbe 0) s).memTrace = evs) ∧
    (let evs : List MemEvent := [.read 0x1020 [0xC1], .read 0x401D0020 [0xD0]]
     let s := answering start evs []
     callsAllowed evs = true ∧ [0xC1].any present = false ∧ present 0xD0 = true ∧
     (rows s.params 0)[1]? = defaultCfmTable.head? ∧ s.memScript = answersOf evs ++ [] ∧ (run (.cfmProbe 0) s).memTrace = evs) ∧
    (let s := withMemory start (answersOf [.read 0x1020 [0xC1]] ++ .fault .berr :: []) []
     [0xC1].any present = false ∧ (rows s.params 0)[1]? = defaultCfmTable.head? ∧ callAllowed (0x401D0000 + 0x20) 1 = true ∧
     (run (.cfmProbe 0) s).result = some (noChip (.access .berr))) := by decide +kernel

/-! The parts of a conduct, put together. -/

theorem goesOn {first next : Conduct} {a b : List MemEvent} {st : FlashStatus} (h : first a .ok) (h' : next b st) :
    first.andThen next (a ++ b) st := .inl ⟨a, b, rfl, h, h'⟩

theorem endsThere {first next : Conduct} {a : List MemEvent} {st : FlashStatus} (h : first a st) (bad : st ≠ .ok) :
    first.andThen next a st := .inr ⟨h, bad⟩

/-- The cells of a program of one or two cells, each checked on its own. -/
theorem one_cell {P : Nat → CellRun → Prop} {a : CellRun} (h : P 0 a) (i : Nat) (r : CellRun) (e : [a][i]? = some r) : P i r := by
  match i with
  | 0 => cases e; exact h
  | _ + 1 => cases e

theorem two_cells {P : Nat → CellRun → Prop} {a b : CellRun} (h : P 0 a) (h' : P 1 b) (i : Nat) (r : CellRun)
    (e : [a, b][i]? = some r) : P i r := by
  match i with
  | 0 => cases e; exact h
  | 1 => cases e; exact h'
  | _ + 2 => cases e

/-- The small AMD area without a pending erase. -/
def amdIdle : State := smallState (.amd (smallAmd .none))

/-- The program command for the cell at `c`. -/
def amdCommand (c : Nat) (want : BusWord) : List (Nat × BusWord) := [(5, [0xAA]), (2, [0x55]), (5, [0xA0]), (c, want)]

/-- A toggle poll at `c` that ends at its first round, one whose recheck shows the lane still toggling, and one that a bound of 1 ends. -/
def pollDone (c : Nat) (v : BusWord) : List MemEvent := [.read c v, .read c v]

def pollStuck (c : Nat) : List MemEvent := [.read c [0x20], .read c [0x60], .read c [0x20], .read c [0x60], .wrote 0 [0xF0]]
def pollTimeout (c : Nat) : List MemEvent := [.read c [0x00], .read c [0x40], .wrote 0 [0xF0]]

theorem polls_done (p : PendingErase) (bound c : Nat) (b : Byte) : togglePolls (smallAmd p) (bound + 1) c (pollDone c [b]) .ok :=
  ⟨[b], [{ cur := [b], rechecks := [] }], by simp [toggleVerdict, ToggleRound.ends, suspectLanes, rechecksStable], rfl, rfl, rfl⟩

theorem polls_stuck (p : PendingErase) (bound c : Nat)
    (h : toggleVerdict (smallAmd p) bound [0x20] [{ cur := [0x60], rechecks := [([0x20], [0x60])] }] = some .deviceFault) :
    togglePolls (smallAmd p) bound c (pollStuck c) .deviceFault :=
  ⟨[0x20], [{ cur := [0x60], rechecks := [([0x20], [0x60])] }], h, rfl, rfl, by
    change _ = _ ++ if FlashStatus.deviceFault = .ok then [] else [MemEvent.wrote 0 (rep (smallChip 1 1) 0xF0)]; rfl⟩

theorem polls_timeout (c : Nat) : togglePolls (smallAmd .none) 1 c (pollTimeout c) .pollTimeout :=
  ⟨[0x00], [{ cur := [0x40], rechecks := [] }], rfl, rfl, rfl, rfl⟩

/-- What the cell at `c` may do: end well, show another value, or not end its poll. -/
def cellDone (c : Nat) (b : Byte) : CellRun :=
  { cur := [0xFF], step := writesOf (amdCommand c [b]) ++ (pollDone c [b] ++ [.read c [b]]), status := .ok }

def cellWrong (c : Nat) (b bad : Byte) : CellRun :=
  { cur := [0xFF], step := writesOf (amdCommand c [b]) ++ (pollDone c [b] ++ [.read c [bad]]), status := .verifyMismatch }

def cellStuck (c : Nat) (b : Byte) : CellRun :=
  { cur := [0xFF], step := writesOf (amdCommand c [b]) ++ pollStuck c, status := .deviceFault }

def cellTimeout (c : Nat) (b : Byte) : CellRun :=
  { cur := [0xFF], step := writesOf (amdCommand c [b]) ++ pollTimeout c, status := .pollTimeout }

/-- Two cells, one of which already holds its byte; a second cell whose chip exceeds its time limit (A6), whose verify fails, and a first cell whose poll
ends at a bound of 1; and the first of the two cells cut off at its read, its last command write, its poll and its verify. -/
theorem witness_AmdProgramsItsCells :
    let programs := fun (start : State) (cells : List CellRun) (r : FlashResult) (erased : Bool) =>
      let evs := cellRunEvents 1 (6 - 6 % 1) cells
      let s := answering start evs [0x11, 0x22]
      (s.partitioned = true ∧ areaOf s.registry 6 = some (smallArea (.amd (smallAmd .none))) ∧
        (smallAmd .none).pendingErase = .none ∧ 0 < 2 ∧ 6 + 2 ≤ 7 + 1 ∧ 0 < (smallAmd .none).chip.busWidth ∧
        callsAllowed evs = true ∧ s.memScript = answersOf evs ++ [] ∧
        (r.status = .ok ∨ cells.getLast?.map CellRun.status = some r.status) ∧
        (run (.amdProgram 6 2) s).memTrace = evs ∧ (run (.amdProgram 6 2) s).result = some (.flash r) ∧
        anyChanged cells = erased) ∧
      cellRuns 1 6 2 s.dataByte (amdCell (smallAmd .none) s.params.flashPollBound) cells
    let cut := fun (j : Nat) =>
      let s := failing amdIdle (CellRun.events 6 (cellDone 6 0x11)) j [0x11, 0x22]
      j ≤ (cellDone 6 0x11).step.length ∧
      s.memScript = answersOf (cellRunEvents 1 6 [] ++ (CellRun.events 6 (cellDone 6 0x11)).take j) ++ .fault .berr :: [] ∧
      (run (.amdProgram 6 2) s).result = some (.flash { count := 0, status := .access .berr })
    programs amdIdle [cellDone 6 0x11, { cur := [0x22], step := [], status := .ok }] { count := 2, status := .ok } true ∧
    programs amdIdle [{ cur := [0x11], step := [], status := .ok }, cellStuck 7 0x22] { count := 1, status := .deviceFault } true ∧
    programs amdIdle [{ cur := [0x11], step := [], status := .ok }, cellWrong 7 0x22 0x23]
      { count := 1, status := .verifyMismatch } true ∧
    programs { amdIdle with params := { defaultParams with flashPollBound := 1 } } [cellTimeout 6 0x11]
      { count := 0, status := .pollTimeout } true ∧
    cut 0 ∧ cut 4 ∧ cut 5 ∧ cut 7 :=
  ⟨⟨by decide +kernel, two_cells
      ⟨rfl, by decide, fun _ => rfl, by
        rw [if_neg (by decide +kernel)]; exact goesOn ⟨rfl, rfl⟩ (goesOn (polls_done _ _ _ _) (.inl ⟨rfl, rfl⟩))⟩
      ⟨rfl, by decide, fun _ => rfl, by rw [if_pos (by decide +kernel)]; exact ⟨rfl, rfl⟩⟩⟩,
    ⟨by decide +kernel, two_cells ⟨rfl, by decide, fun _ => rfl, by rw [if_pos (by decide +kernel)]; exact ⟨rfl, rfl⟩⟩
      ⟨rfl, by decide, by decide, by
        rw [if_neg (by decide +kernel)]; exact goesOn ⟨rfl, rfl⟩ (endsThere (polls_stuck _ _ _ rfl) (by decide))⟩⟩,
    ⟨by decide +kernel, two_cells ⟨rfl, by decide, fun _ => rfl, by rw [if_pos (by decide +kernel)]; exact ⟨rfl, rfl⟩⟩
      ⟨rfl, by decide, by decide, by
        rw [if_neg (by decide +kernel)]
        exact goesOn ⟨rfl, rfl⟩ (goesOn (polls_done _ _ _ _) (.inr ⟨0, [0x22], [0x23], rfl, by decide, rfl, rfl, rfl⟩))⟩⟩,
    ⟨by decide +kernel, one_cell ⟨rfl, by decide, by decide, by
        rw [if_neg (by decide +kernel)]; exact goesOn ⟨rfl, rfl⟩ (endsThere (polls_timeout _) (by decide))⟩⟩,
    by decide +kernel⟩

/-- The six writes of an erase. -/
def amdEraseEvents (a : Nat) (code : Byte) : List MemEvent :=
  [.wrote (smallAmd .none).u1 [0xAA], .wrote (smallAmd .none).u2 [0x55], .wrote (smallAmd .none).u1 [0x80],
   .wrote (smallAmd .none).u1 [0xAA], .wrote (smallAmd .none).u2 [0x55], .wrote a [code]]

/-- Each erase with its six writes, and with the first and the sixth of them failed. -/
theorem witness_AmdEraseReturnsAtOnce :
    let erased := fun (i : Instr) (evs : List MemEvent) =>
      let s := answering amdIdle evs []
      let cut := fun (j : Nat) => j < evs.length ∧
        (failing amdIdle evs j []).memScript = answersOf (evs.take j) ++ .fault .berr :: [] ∧
        (run i (failing amdIdle evs j [])).result = some (.flash { count := 0, status := .access .berr })
      s.partitioned = true ∧ areaOf s.registry 7 = some (smallArea (.amd (smallAmd .none))) ∧
      areaOf s.registry s.areaSel = some (smallArea (.amd (smallAmd .none))) ∧ (smallAmd .none).pendingErase = .none ∧
      callsAllowed evs = true ∧ s.memScript = answersOf evs ++ [] ∧ (run i s).memTrace = evs ∧ (cut 0 ∧ cut 5)
    erased (.amdEraseSector 7) (amdEraseEvents (0 + (7 - 0) / 4 * 4) 0x30) ∧
    erased (.eraseArea 7 0) (amdEraseEvents (0 + (7 - 0) / 4 * 4) 0x30) ∧
    erased .amdEraseAll (amdEraseEvents (smallAmd .none).u1 0x10) ∧
    erased (.eraseArea 7 1) (amdEraseEvents (smallAmd .none).u1 0x10) :=
  ⟨by decide +kernel, by decide +kernel, by decide +kernel, by decide +kernel⟩

/-- Nothing pending; a sector and the whole chip whose waits end well; a chip that exceeds its time limit, a cell that is not erased, and the last read
failed. -/
theorem witness_AmdEraseWaitVerifies :
    let waited := fun (p : PendingErase) (evs : List MemEvent) (st : FlashStatus) =>
      let s := answering (smallState (.amd (smallAmd p))) evs []
      s.partitioned = true ∧ areaOf s.registry 7 = some (smallArea (.amd (smallAmd p))) ∧
      areaOf s.registry s.areaSel = some (smallArea (.amd (smallAmd p))) ∧ (smallAmd p).pendingErase = p ∧
      callsAllowed evs = true ∧ s.memScript = answersOf evs ++ [] ∧ (run .amdEraseWait s).memTrace = evs ∧
      (run .amdEraseWait s).result = some (.flash { count := 0, status := st })
    let allowed := fun (p : PendingErase) (lo hi : Nat) (evs : List MemEvent) (st : FlashStatus) =>
      ((togglePolls (smallAmd p) defaultParams.flashPollBound lo).andThen (verifiesErased 1 lo hi)) evs st
    let sector := pollDone 4 [0xFF] ++ erasedReads 1 (cellsIn 4 7 1) 4
    let whole := pollDone 0 [0xFF] ++ erasedReads 1 (cellsIn 0 (0 + 8 - 1) 1) 0
    let unerased : List MemEvent := pollDone 4 [0xFF] ++ (erasedReads 1 1 4 ++ [.read (4 + 1 * 1) [0x7F]])
    let cut := failing (smallState (.amd (smallAmd (.sector 4 7)))) sector 5 []
    waited .none [] .ok ∧
    (waited (.sector 4 7) sector .ok ∧ allowed (.sector 4 7) 4 7 sector .ok) ∧
    (waited .whole whole .ok ∧ allowed .whole 0 (0 + 8 - 1) whole .ok) ∧
    (waited (.sector 4 7) (pollStuck 4) .deviceFault ∧ allowed (.sector 4 7) 4 7 (pollStuck 4) .deviceFault) ∧
    (waited (.sector 4 7) unerased .verifyMismatch ∧ allowed (.sector 4 7) 4 7 unerased .verifyMismatch) ∧
    5 < sector.length ∧ cut.memScript = answersOf (sector.take 5) ++ .fault .berr :: [] ∧
    (run (.eraseWait 7) cut).result = some (.flash { count := 0, status := .access .berr }) :=
  ⟨by decide +kernel, ⟨by decide +kernel, goesOn (polls_done _ _ _ _) (.inl ⟨rfl, rfl⟩)⟩,
    ⟨by decide +kernel, goesOn (polls_done _ _ _ _) (.inl ⟨rfl, rfl⟩)⟩,
    ⟨by decide +kernel, endsThere (polls_stuck _ _ _ rfl) (by decide)⟩,
    ⟨by decide +kernel, goesOn (polls_done _ _ _ _) (.inr ⟨1, [0x7F], by decide, by decide, rfl, rfl, rfl⟩)⟩, by decide +kernel⟩

/-- The small CFM area. -/
def cfmIdle : State := smallState (.cfm smallCfm)

/-- A CFM command at an offset: its writes, and the reads of its two completion loops. -/
def cfmWrites (a : Nat) (v : BusWord) (code : Byte) : List MemEvent :=
  writesOf [(0x1020, [0x30]), (0x2000 + a, v), (0x1024, [code]), (0x1020, [0x80])]

def cfmReads (l : List Byte) : List MemEvent := l.map (fun v => MemEvent.read 0x1020 [v])

def commandOf (a : Nat) (v : BusWord) (code : Byte) : List MemEvent :=
  cfmWrites a v code ++ (cfmReads [0x00, 0x80] ++ cfmReads [0x80, 0xC0])

theorem cfm_command (a : Nat) (v : BusWord) (code : Byte) :
    cfmCommandRun smallCfm 0xFFFF a v code (commandOf a v code) .ok :=
  goesOn ⟨rfl, rfl⟩ (goesOn ⟨[0x00, 0x80], rfl, rfl⟩ ⟨[0x80, 0xC0], rfl, rfl⟩)

/-- A protection violation in the first loop, an access error in the second (C12). -/
theorem cfm_pviol (a : Nat) (v : BusWord) (code : Byte) :
    cfmCommandRun smallCfm 0xFFFF a v code (cfmWrites a v code ++ cfmReads [0xA0]) .deviceFault :=
  goesOn ⟨rfl, rfl⟩ (endsThere ⟨[0xA0], rfl, rfl⟩ (by decide))

theorem cfm_accerr (a : Nat) (v : BusWord) (code : Byte) :
    cfmCommandRun smallCfm 0xFFFF a v code (cfmWrites a v code ++ (cfmReads [0x80] ++ cfmReads [0x90]))
      .deviceFault :=
  goesOn ⟨rfl, rfl⟩ (goesOn ⟨[0x80], rfl, rfl⟩ ⟨[0x90], rfl, rfl⟩)

/-- A command that never completes, at a bound of 1. -/
theorem cfm_timeout (a : Nat) (v : BusWord) (code : Byte) :
    cfmCommandRun smallCfm 1 a v code (cfmWrites a v code ++ (cfmReads [0x80] ++ cfmReads [0x80])) .pollTimeout :=
  goesOn ⟨rfl, rfl⟩ (goesOn ⟨[0x80], rfl, rfl⟩ ⟨[0x80], rfl, rfl⟩)

/-- The first cell of a program at 3, and the second, which already holds its byte. -/
def cfmDone : CellRun :=
  { cur := allOnes 4, step := commandOf 0 [0xFF, 0xFF, 0xFF, 0x11] 0x20 ++ [.read 0 [0xFF, 0xFF, 0xFF, 0x11]], status := .ok }

def cfmHeld : CellRun := { cur := [0x22, 0, 0, 0], step := [], status := .ok }

/-- Two cells, one of which already holds its byte; a first cell whose verify fails, that is protected, and whose command does not complete; and the first
cell cut off at its read, its first write and its verify. -/
theorem witness_CfmProgramsItsCells :
    let programs := fun (start : State) (cells : List CellRun) (r : FlashResult) =>
      let evs := cellRunEvents 4 (3 - 3 % 4) cells
      let s := answering start evs [0x11, 0x22]
      (s.partitioned = true ∧ areaOf s.registry 3 = some (smallArea (.cfm smallCfm)) ∧ 0 < 2 ∧ 3 + 2 ≤ 7 + 1 ∧
        callsAllowed evs = true ∧ s.memScript = answersOf evs ++ [] ∧
        (r.status = .ok ∨ cells.getLast?.map CellRun.status = some r.status) ∧
        (run (.cfmProgram 3 2) s).memTrace = evs ∧ (run (.cfmProgram 3 2) s).result = some (.flash r)) ∧
      cellRuns 4 3 2 s.dataByte (cfmCell smallCfm s.params.flashPollBound) cells
    let bad := fun (step : List MemEvent) (status : FlashStatus) => [({ cur := allOnes 4, step, status } : CellRun)]
    let want : BusWord := [0xFF, 0xFF, 0xFF, 0x11]
    let cut := fun (j : Nat) =>
      let s := failing cfmIdle (CellRun.events 0 cfmDone) j [0x11, 0x22]
      j ≤ cfmDone.step.length ∧
      s.memScript = answersOf (cellRunEvents 4 0 [] ++ (CellRun.events 0 cfmDone).take j) ++ .fault .berr :: [] ∧
      (run (.cfmProgram 3 2) s).result = some (.flash { count := 0, status := .access .berr })
    programs cfmIdle [cfmDone, cfmHeld] { count := 2, status := .ok } ∧
    programs cfmIdle (bad (commandOf 0 want 0x20 ++ [.read 0 [0xFF, 0xFF, 0xFF, 0x10]]) .verifyMismatch)
      { count := 0, status := .verifyMismatch } ∧
    programs cfmIdle (bad (cfmWrites 0 want 0x20 ++ cfmReads [0xA0]) .deviceFault) { count := 0, status := .deviceFault } ∧
    programs { cfmIdle with params := { defaultParams with flashPollBound := 1 } }
      (bad (cfmWrites 0 want 0x20 ++ (cfmReads [0x80] ++ cfmReads [0x80])) .pollTimeout)
      { count := 0, status := .pollTimeout } ∧
    (cut 0 ∧ cut 1 ∧ cut 9) :=
  ⟨⟨by decide +kernel, two_cells
      ⟨rfl, by decide, fun _ => rfl, by
        rw [if_neg (by decide +kernel)]; exact goesOn (cfm_command 0 _ _) (.inl ⟨rfl, rfl⟩)⟩
      ⟨rfl, by decide, fun _ => rfl, by rw [if_pos (by decide +kernel)]; exact ⟨rfl, rfl⟩⟩⟩,
    ⟨by decide +kernel, one_cell ⟨rfl, by decide, by decide, by
        rw [if_neg (by decide +kernel)]
        exact goesOn (cfm_command 0 _ _)
          (.inr ⟨0, [0xFF, 0xFF, 0xFF, 0x11], [0xFF, 0xFF, 0xFF, 0x10], rfl, by decide, rfl, rfl, rfl⟩)⟩⟩,
    ⟨by decide +kernel, one_cell ⟨rfl, by decide, by decide, by
        rw [if_neg (by decide +kernel)]; exact endsThere (cfm_pviol 0 _ _) (by decide)⟩⟩,
    ⟨by decide +kernel, one_cell ⟨rfl, by decide, by decide, by
        rw [if_neg (by decide +kernel)]; exact endsThere (cfm_timeout 0 _ _) (by decide)⟩⟩,
    by decide +kernel⟩

/-- Each erase to its end; a sector erase that is protected, and one with a cell that is not erased; the first write and the last read failed. -/
theorem witness_CfmEraseVerifies :
    let erased := fun (i : Instr) (evs : List MemEvent) (st : FlashStatus) =>
      let s := answering cfmIdle evs []
      s.partitioned = true ∧ areaOf s.registry 7 = some (smallArea (.cfm smallCfm)) ∧
      areaOf s.registry s.areaSel = some (smallArea (.cfm smallCfm)) ∧ callsAllowed evs = true ∧
      s.memScript = answersOf evs ++ [] ∧ (run i s).memTrace = evs ∧ (run i s).result = some (.flash { count := 0, status := st })
    let erase := fun (lo hi : Nat) (code : Byte) =>
      (cfmCommandRun smallCfm State.reset.params.flashPollBound lo [0xFF, 0xFF, 0xFF, 0xFF] code).andThen (verifiesErased 4 lo hi)
    let ones : BusWord := [0xFF, 0xFF, 0xFF, 0xFF]
    let sector := commandOf 4 ones 0x40 ++ erasedReads 4 (cellsIn 4 7 4) 4
    let whole := commandOf 0 ones 0x41 ++ erasedReads 4 (cellsIn 0 7 4) 0
    let violated := cfmWrites 4 ones 0x40 ++ cfmReads [0xA0]
    let unerased : List MemEvent := commandOf 4 ones 0x40 ++ [.read 4 [0xFF, 0xFF, 0xFF, 0xFE]]
    let cut := fun (i : Instr) (evs : List MemEvent) (j : Nat) => j < evs.length ∧
      (failing cfmIdle evs j []).memScript = answersOf (evs.take j) ++ .fault .berr :: [] ∧
      (run i (failing cfmIdle evs j [])).result = some (.flash { count := 0, status := .access .berr })
    (erased (.cfmEraseSector 7) sector .ok ∧ erased (.eraseArea 7 0) sector .ok) ∧ erase 4 7 0x40 sector .ok ∧
    (erased .cfmEraseAll whole .ok ∧ erased (.eraseArea 7 1) whole .ok) ∧ erase 0 7 0x41 whole .ok ∧
    erased (.cfmEraseSector 7) violated .deviceFault ∧ erase 4 7 0x40 violated .deviceFault ∧
    erased (.cfmEraseSector 7) unerased .verifyMismatch ∧ erase 4 7 0x40 unerased .verifyMismatch ∧
    cut (.cfmEraseSector 7) sector 0 ∧ cut .cfmEraseAll whole 9 :=
  ⟨by decide +kernel, goesOn (cfm_command 4 _ _) (.inl ⟨rfl, rfl⟩), by decide +kernel,
    goesOn (cfm_command 0 _ _) (.inl ⟨rfl, rfl⟩), by decide +kernel, endsThere (cfm_pviol 4 _ _) (by decide), by decide +kernel,
    goesOn (cfm_command 4 _ _) (.inr ⟨0, [0xFF, 0xFF, 0xFF, 0xFE], by decide, by decide, rfl, rfl, rfl⟩), by decide +kernel⟩

/-- An array that is blank, one that is not, an access error in the command, and the last access failed. -/
theorem witness_CfmBlankCheck :
    let checked := fun (evs : List MemEvent) (st : FlashStatus) =>
      let s := answering cfmIdle evs []
      s.partitioned = true ∧ areaOf s.registry 7 = some (smallArea (.cfm smallCfm)) ∧
      callsAllowed evs = true ∧ s.memScript = answersOf evs ++ [] ∧ (run (.cfmBlankCheck 7) s).memTrace = evs ∧
      (run (.blankCheck 7) s).result = some (.flash { count := 0, status := st })
    let allowed := (cfmCommandRun smallCfm State.reset.params.flashPollBound 0 [0xFF, 0xFF, 0xFF, 0xFF] 0x05).andThen
      (cfmReadsBlank smallCfm)
    let command := commandOf 0 [0xFF, 0xFF, 0xFF, 0xFF] 0x05
    let blank : List MemEvent := command ++ [.read 0x1020 [0xC4], .wrote 0x1020 [0x04]]
    let full : List MemEvent := command ++ [.read 0x1020 [0xC0]]
    let failed := cfmWrites 0 [0xFF, 0xFF, 0xFF, 0xFF] 0x05 ++ (cfmReads [0x80] ++ cfmReads [0x90])
    checked blank .ok ∧ allowed blank .ok ∧ checked full .blankFail ∧ allowed full .blankFail ∧
    checked failed .deviceFault ∧ allowed failed .deviceFault ∧ 9 < blank.length ∧
    (failing cfmIdle blank 9 []).memScript = answersOf (blank.take 9) ++ .fault .berr :: [] ∧
    (run (.blankCheck 7) (failing cfmIdle blank 9 [])).result = some (.flash { count := 0, status := .access .berr }) :=
  ⟨by decide +kernel, goesOn (cfm_command 0 _ _) ⟨0xC4, .inl ⟨by decide, rfl, rfl⟩⟩, by decide +kernel,
    goesOn (cfm_command 0 _ _) ⟨0xC0, .inr ⟨by decide, rfl, rfl⟩⟩, by decide +kernel,
    endsThere (cfm_accerr 0 _ _) (by decide), by decide +kernel⟩

/-- Ready without error, ready with the locked error, and busy. -/
def readyStatus : BusWord := [0x00, 0x80]

def lockedStatus : BusWord := [0x00, 0x82]
def busyStatus : BusWord := [0x00, 0x00]

/-- The unlock of a sector, the array-read command and the reads of a status poll. -/
def intelUnlock (a : Nat) : List MemEvent := [.wrote a [0, 0x60], .wrote a [0, 0xD0]]

def intelArray : MemEvent := .wrote 0 [0, 0xFF]
def statusDone (a : Nat) : List MemEvent := [.read a busyStatus, .read a readyStatus]
def statusLocked (a : Nat) : List MemEvent := [.read a lockedStatus, .wrote 0 [0, 0x50], intelArray]
def statusTimeout (a : Nat) : List MemEvent := [.read a busyStatus, intelArray]

/-- On the part without a buffer and on the one with a buffer of 4 bytes. -/
theorem status_done (b a : Nat) (h : b = 0 ∨ b = 4) : statusPolls (smallIntel b) 0xFFFF a (statusDone a) .ok := by
  rcases h with rfl | rfl <;> exact ⟨[busyStatus, readyStatus], by decide +kernel, by decide, rfl⟩

theorem status_locked (b a : Nat) (h : b = 0 ∨ b = 4) : statusPolls (smallIntel b) 0xFFFF a (statusLocked a) .deviceFault := by
  rcases h with rfl | rfl <;> exact ⟨[lockedStatus], by decide +kernel, by decide, rfl⟩

theorem status_timeout (b a : Nat) (h : b = 0 ∨ b = 4) : statusPolls (smallIntel b) 1 a (statusTimeout a) .pollTimeout := by
  rcases h with rfl | rfl <;> exact ⟨[busyStatus], by decide +kernel, by decide, rfl⟩

/-- A single word, and a burst of two in the sector from `lo`. -/
def wordDone (c : Nat) (v : BusWord) : List MemEvent :=
  writesOf [(c, [0, 0x40]), (c, v)] ++ (statusDone c ++ (writesOf [(0, [0, 0xFF])] ++ [.read c v]))

def burstDone (lo c : Nat) (v v' : BusWord) : List MemEvent :=
  writesOf [(lo, [0, 0xE8])] ++ (statusDone lo ++ (writesOf [(lo, [0, 1]), (c, v), (c + 2, v'), (lo, [0, 0xD0])] ++
    (statusDone lo ++ (writesOf [(0, [0, 0xFF])] ++ [.read c v, .read (c + 2) v']))))

/-- The erase of one 4-byte sector. -/
def intelErased (lo : Nat) : List MemEvent :=
  writesOf [(lo, [0, 0x60]), (lo, [0, 0xD0]), (lo, [0, 0x20]), (lo, [0, 0xD0])] ++
    (statusDone lo ++ (writesOf [(0, [0, 0xFF])] ++ erasedReads 2 2 lo))

theorem word_done (b c : Nat) (v : BusWord) (h : b = 0 ∨ b = 4) : intelCell (smallIntel b) 0xFFFF c v (wordDone c v) .ok := by
  have status := status_done b c h
  rcases h with rfl | rfl <;> exact goesOn ⟨rfl, rfl⟩ (goesOn status (goesOn ⟨rfl, rfl⟩ (.inl ⟨rfl, rfl⟩)))

theorem burst_done :
    intelBurst (smallIntel 4) 0xFFFF 4 4 [[0xFF, 0x11], [0x22, 0x33]] (burstDone 4 4 [0xFF, 0x11] [0x22, 0x33]) .ok :=
  goesOn ⟨rfl, rfl⟩ (goesOn (status_done _ _ (.inr rfl)) (goesOn ⟨by decide +kernel, rfl⟩
    (goesOn (status_done _ _ (.inr rfl)) (goesOn ⟨rfl, rfl⟩ (.inl ⟨by decide +kernel, rfl⟩)))))

theorem erase_done (lo hi : Nat) (h : cellsIn lo hi 2 = 2) :
    intelSectorErase (smallIntel 0) 0xFFFF (lo, hi) (intelErased lo) .ok :=
  goesOn ⟨rfl, rfl⟩ (goesOn (status_done _ _ (.inl rfl)) (goesOn ⟨rfl, rfl⟩ (.inl ⟨by
    show erasedReads 2 2 lo = erasedReads 2 (cellsIn lo hi 2) lo; rw [h], rfl⟩)))

/-- One word; a burst; three words on a part without a buffer, over two sectors, of which the second is unlocked once; a chunk that holds what it should,
then a word whose sector is locked down (I7b), and one whose poll ends at a bound of 1; the last one and the closing command cut off. -/
theorem witness_IntelProgramsAChunk :
    let programs := fun (start : State) (b address n : Nat) (chunks : List ChunkRun) (r : FlashResult) =>
      let first := address - address % 2
      let evs := chunkRunEvents 2 first chunks
      let made := if r.status = .ok then evs ++ [intelReadArrayEvent (smallIntel b)] else evs
      let s := answering start made [0x11, 0x22, 0x33, 0x44]
      (s.partitioned = true ∧ areaOf s.registry address = some (smallArea (.intel (smallIntel b))) ∧ 0 < n ∧
        address + n ≤ 7 + 1 ∧ 0 < (smallIntel b).chip.busWidth ∧
        callsAllowed (evs ++ [intelReadArrayEvent (smallIntel b)]) = true ∧
        (r.status ≠ .ok ∨ address + n ≤ chunksEnd 2 first chunks) ∧
        (r.status = .ok ∨ chunks.getLast?.map ChunkRun.status = some r.status) ∧ s.memScript = answersOf made ++ [] ∧
        (run (.intelProgram address n) s).memTrace = made ∧ (run (.intelProgram address n) s).result = some (.flash r)) ∧
      chunkRuns (smallIntel b) s.params.flashPollBound address n s.dataByte first [] chunks
    let chunk := fun (curs : List BusWord) (unlock step : List MemEvent) => ({ curs, unlock, step, status := .ok } : ChunkRun)
    let ones : BusWord := [0xFF, 0xFF]
    let plain := smallState (.intel (smallIntel 0))
    let word := [chunk [ones] (intelUnlock 4) (wordDone 4 [0xFF, 0x11])]
    let cut := fun (evs : List MemEvent) (j : Nat) =>
      (failing plain evs j [0x11]).memScript = answersOf (evs.take j) ++ .fault .berr :: [] ∧
      (run (.intelProgram 5 1) (failing plain evs j [0x11])).result = some (.flash { count := 0, status := .access .berr })
    programs plain 0 5 1 word { count := 1, status := .ok } ∧
    programs (smallState (.intel (smallIntel 4))) 4 5 3
      [chunk [ones, ones] (intelUnlock 4) (burstDone 4 4 [0xFF, 0x11] [0x22, 0x33])] { count := 3, status := .ok } ∧
    programs plain 0 3 4
      [chunk [ones] (intelUnlock 0) (wordDone 2 [0xFF, 0x11]), chunk [ones] (intelUnlock 4) (wordDone 4 [0x22, 0x33]),
       chunk [ones] [] (wordDone 6 [0x44, 0xFF])] { count := 4, status := .ok } ∧
    programs plain 0 3 2
      [chunk [[0, 0x11]] [] [],
       { curs := [ones], unlock := intelUnlock 4, step := writesOf [(4, [0, 0x40]), (4, [0x22, 0xFF])] ++ statusLocked 4,
         status := .deviceFault }] { count := 1, status := .deviceFault } ∧
    programs { plain with params := { defaultParams with flashPollBound := 1 } } 0 5 1
      [{ curs := [ones], unlock := intelUnlock 4, step := writesOf [(4, [0, 0x40]), (4, [0xFF, 0x11])] ++ statusTimeout 4,
         status := .pollTimeout }] { count := 0, status := .pollTimeout } ∧
    (0 < (chunkRunEvents 2 4 word).length ∧ cut (chunkRunEvents 2 4 word) 0 ∧ cut (chunkRunEvents 2 4 word) 2 ∧
      cut (chunkRunEvents 2 4 word) 8 ∧ cut (chunkRunEvents 2 4 word ++ [intelArray]) (chunkRunEvents 2 4 word).length) := by
  refine ⟨⟨by decide +kernel, 4, 7, by decide, by decide, rfl, by decide, fun _ => rfl, ?_⟩,
    ⟨by decide +kernel, 4, 7, by decide, by decide, by unfold chunkLength chunkFits; decide, by decide, fun _ => rfl, ?_⟩,
    ⟨by decide +kernel, 0, 3, by decide, by decide, rfl, by decide, fun _ => rfl, ?_⟩,
    ⟨by decide +kernel, 0, 3, by decide, by decide, rfl, by decide, fun _ => rfl, ?_⟩,
    ⟨by decide +kernel, 4, 7, by decide, by decide, rfl, by decide, fun h => absurd rfl h, ?_⟩, by decide +kernel⟩
  · rw [if_neg (by decide +kernel)]
    exact ⟨rfl, word_done 0 4 _ (.inl rfl), trivial⟩
  · rw [if_neg (by decide +kernel)]
    exact ⟨rfl, burst_done, trivial⟩
  · rw [if_neg (by decide +kernel)]
    refine ⟨rfl, word_done 0 2 _ (.inl rfl), 4, 7, by decide, by decide, rfl, by decide, fun _ => rfl, ?_⟩
    rw [if_neg (by decide +kernel)]
    refine ⟨rfl, word_done 0 4 _ (.inl rfl), 4, 7, by decide, by decide, rfl, by decide, fun _ => rfl, ?_⟩
    rw [if_neg (by decide +kernel)]
    exact ⟨rfl, word_done 0 6 _ (.inl rfl), trivial⟩
  · rw [if_pos (by decide +kernel)]
    refine ⟨rfl, rfl, rfl, 4, 7, by decide, by decide, rfl, by decide, fun h => absurd rfl h, ?_⟩
    rw [if_neg (by decide +kernel)]
    exact ⟨rfl, goesOn ⟨rfl, rfl⟩ (endsThere (status_locked 0 4 (.inl rfl)) (by decide)), trivial⟩
  · rw [if_neg (by decide +kernel)]
    exact ⟨rfl, goesOn ⟨rfl, rfl⟩ (endsThere (status_timeout 0 4 (.inl rfl)) (by decide)), trivial⟩

/-- Each erase to its end; one whose sector is locked down (I7b), a whole erase whose second sector has a cell that is not erased; the first write and the
last read failed. -/
theorem witness_IntelEraseVerifies :
    let plain := smallState (.intel (smallIntel 0))
    let erased := fun (i : Instr) (evs : List MemEvent) (st : FlashStatus) =>
      let s := answering plain evs []
      s.partitioned = true ∧ areaOf s.registry 7 = some (smallArea (.intel (smallIntel 0))) ∧
      areaOf s.registry s.areaSel = some (smallArea (.intel (smallIntel 0))) ∧ callsAllowed evs = true ∧
      s.memScript = answersOf evs ++ [] ∧ (run i s).memTrace = evs ∧ (run i s).result = some (.flash { count := 0, status := st })
    let bound := State.reset.params.flashPollBound
    let sector := intelSectorErase (smallIntel 0) bound (4, 7)
    let whole := intelSectorErases (smallIntel 0) bound (smallIntel 0).sectors
    let both := intelErased 0 ++ (intelErased 4 ++ [])
    let commands := fun (lo : Nat) => writesOf [(lo, [0, 0x60]), (lo, [0, 0xD0]), (lo, [0, 0x20]), (lo, [0, 0xD0])]
    let locked := commands 4 ++ statusLocked 4
    let unerased := intelErased 0 ++ (commands 4 ++ (statusDone 4 ++ (writesOf [(0, [0, 0xFF])] ++ [.read 4 [0xFF, 0xFE]])))
    let cut := fun (i : Instr) (evs : List MemEvent) (j : Nat) => j < evs.length ∧
      (failing plain evs j []).memScript = answersOf (evs.take j) ++ .fault .berr :: [] ∧
      (run i (failing plain evs j [])).result = some (.flash { count := 0, status := .access .berr })
    ((smallIntel 0).sectorRange 7 = some (4, 7) ∧ (∀ r ∈ (smallIntel 0).sectors, (smallIntel 0).sectorRange r.1 = some r)) ∧
    (erased (.intelEraseSector 7) (intelErased 4) .ok ∧ erased (.eraseArea 7 0) (intelErased 4) .ok) ∧
    sector (intelErased 4) .ok ∧ (erased .intelEraseAll both .ok ∧ erased (.eraseArea 7 1) both .ok) ∧ whole both .ok ∧
    erased (.intelEraseSector 7) locked .deviceFault ∧ sector locked .deviceFault ∧
    erased .intelEraseAll unerased .verifyMismatch ∧ whole unerased .verifyMismatch ∧
    (cut (.intelEraseSector 7) (intelErased 4) 0 ∧ cut .intelEraseAll both (both.length - 1)) := by
  have one : intelSectorErase (smallIntel 0) 0xFFFF (0, 3) (intelErased 0) .ok := erase_done 0 3 (by decide)
  have two : intelSectorErase (smallIntel 0) 0xFFFF (4, 7) (intelErased 4) .ok := erase_done 4 7 (by decide)
  exact ⟨by decide +kernel, by decide +kernel, two, by decide +kernel, goesOn one (goesOn two ⟨rfl, rfl⟩), by decide +kernel,
    goesOn ⟨rfl, rfl⟩ (endsThere (status_locked 0 4 (.inl rfl)) (by decide)), by decide +kernel,
    goesOn one (endsThere (goesOn ⟨rfl, rfl⟩ (goesOn (status_done 0 4 (.inl rfl)) (goesOn ⟨rfl, rfl⟩
      (.inr ⟨0, [0xFF, 0xFE], by decide, by decide, rfl, rfl, rfl⟩)))) (by decide)), by decide +kernel⟩

theorem witness_ProgramIsIdempotent :
    let kept := fun (i : Instr) (b : Binding) (w : Nat) (cells : List BusWord) =>
      let evs : List MemEvent := cells.mapIdx (fun k v => MemEvent.read (6 - 6 % w + k * w) v)
      let s := answering (smallState b) evs [0x11, 0x22]
      s.partitioned = true ∧ areaOf s.registry 6 = some (smallArea b) ∧ 6 + 2 ≤ 7 + 1 ∧
      cells.length = (6 % w + 2 + (w - 1)) / w ∧ (∀ v ∈ cells, v.length = w) ∧
      (∀ k, k < 2 → ((cells[(6 + k - (6 - 6 % w)) / w]?).bind (fun v => v[(6 + k - (6 - 6 % w)) % w]?)) =
        some (s.dataByte k)) ∧
      callsAllowed evs = true ∧ s.memScript = answersOf evs ++ [] ∧ (run i s).memTrace = evs
    kept (.amdProgram 6 2) (.amd (smallAmd .none)) 1 [[0x11], [0x22]] ∧
    kept (.cfmProgram 6 2) (.cfm smallCfm) 4 [[0, 0, 0x11, 0x22]] := by decide +kernel

/-- A sector erase pending that ends well, before each of the operations, and one that does not. -/
theorem witness_AmdWaitsForAPendingErase :
    let pending := smallState (.amd (smallAmd (.sector 4 7)))
    let good := pollDone 4 [0xFF] ++ erasedReads 1 4 4
    let waits := fun (evs : List MemEvent) (st : FlashStatus) (i : Instr) (own : List MemEvent) (r : FlashResult) =>
      let s := answering pending (evs ++ own) [0x11, 0x22]
      (s.partitioned = true ∧ areaOf s.registry 6 = some (smallArea (.amd (smallAmd (.sector 4 7)))) ∧
        (smallAmd (.sector 4 7)).pendingErase ≠ .none ∧ 6 + 2 ≤ 7 + 1 ∧
        areaOf s.registry s.areaSel = some (smallArea (.amd (smallAmd (.sector 4 7)))) ∧
        (run (.eraseWait 6) s).result = some (.flash { count := 0, status := st }) ∧
        (run i s).memTrace = evs ++ own ∧ (run i s).result = some (.flash r)) ∧
      exec (.eraseWait 6) s = .next (run (.eraseWait 6) s)
    waits good .ok (.amdProgram 6 2)
      (cellRunEvents 1 6 [cellDone 6 0x11, { cur := [0x22], step := [], status := .ok }]) { count := 2, status := .ok } ∧
    waits good .ok (.amdEraseSector 6) (amdEraseEvents 4 0x30) { count := 0, status := .ok } ∧
    waits good .ok .amdEraseAll (amdEraseEvents 5 0x10) { count := 0, status := .ok } ∧
    waits good .ok (.eraseArea 6 1) (amdEraseEvents 5 0x10) { count := 0, status := .ok } ∧
    waits (pollStuck 4) .deviceFault (.amdProgram 6 2) [] { count := 0, status := .deviceFault } :=
  ⟨⟨by decide +kernel, exec_run (r := .flash { count := 0, status := .ok }) (by decide +kernel)⟩,
    ⟨by decide +kernel, exec_run (r := .flash { count := 0, status := .ok }) (by decide +kernel)⟩,
    ⟨by decide +kernel, exec_run (r := .flash { count := 0, status := .ok }) (by decide +kernel)⟩,
    ⟨by decide +kernel, exec_run (r := .flash { count := 0, status := .ok }) (by decide +kernel)⟩,
    ⟨by decide +kernel, exec_run (r := .flash { count := 0, status := .deviceFault }) (by decide +kernel)⟩⟩

end Sys2Proof.Tests
end

