-- ==== Sys2Proof/Proofs/EngineEffects.lean ====
section
/-! What an operation of the engine, OPEN included, can do, said once: it is a chain of line events, updates of working registers and updates of the
session (R65). It is the counterpart of the chains of effects of the operations on target memory (`MemPath`). -/

namespace Sys2Proof.Scope

open Sys2Proof Sys2Proof.Machine Sys2Proof.Laws

variable {α β : Type}

/-- One effect of an operation of the engine. -/
inductive LineEffect : State → State → Prop where
  | work (s : State) (g : WorkRegs → WorkRegs) : LineEffect s (s.withWork g)
  | wrote (s : State) (p : Byte) : LineEffect s (s.wroteCtrl p)
  | sampled (s : State) : LineEffect s s.readStat
  | waited (s : State) (k : Nat) : LineEffect s (s.delayed k)
  | initialised (s : State) : LineEffect s (s.withSession (fun x => x.initialised s.params))
  | speed (s : State) (base : Nat) : LineEffect s (s.withSession (fun x => x.withSpeed s.params base))
  | sense (s : State) (b : Bool) : LineEffect s (s.withSession (fun x => { x with sense := b }))
  | debugLevel (s : State) (n : Nat) : LineEffect s (s.withSession (fun x => { x with debugLevel := n }))
  | opened (s : State) (v : Variant) (h : s.owned = false) : LineEffect s { s with owned := true, session := some (newSession v) }
  | closed (s : State) : LineEffect s { s with session := none, owned := false }

/-- A chain of effects. -/
abbrev LinePath : State → State → Prop := Relation.ReflTransGen LineEffect

/-- Wherever `m` ends, a chain of effects leads there. -/
def Steers (m : Op α) : Prop := ∀ s, LinePath s (endState (m s))

/-! ### Sequencing -/

/-- The chain of `m` at one state, followed by that of what comes next. -/
theorem linePath_bind {m : Op α} {k : α → Op β} {s : State} (hm : LinePath s (endState (m s))) (hk : ∀ a, Steers (k a)) :
    LinePath s (endState ((m >>= k) s)) := by
  rw [run_bind]
  cases h : m s with
  | ok a t => rw [h] at hm; exact hm.trans (hk a t)
  | error e t => rw [h] at hm; exact hm

theorem steers_pure (a : α) : Steers (pure a : Op α) := fun _ => .refl

theorem steers_raise (f : FaultKind) : Steers (raise f : Op α) := fun _ => .refl

theorem steers_bind {m : Op α} {k : α → Op β} (hm : Steers m) (hk : ∀ a, Steers (k a)) : Steers (m >>= k) :=
  fun s => linePath_bind (hm s) hk

theorem steers_ite {c : Prop} [Decidable c] {m n : Op α} (hm : Steers m) (hn : Steers n) : Steers (if c then m else n) := by
  split <;> assumption

/-- Reading the state before `k`, which then runs on that state. -/
theorem steers_get_here {k : State → Op β} (h : ∀ s, LinePath s (endState (k s s))) : Steers (do let s ← get; k s) := h

theorem steers_get {k : State → Op β} (h : ∀ x, Steers (k x)) : Steers (do let s ← get; k s) :=
  steers_get_here (fun s => h s s)

/-- What a nested operation did stays done, whatever the caller's rule makes of its fault (R354). -/
theorem steers_attempt {m : Op α} (h : Steers m) : Steers (attempt m) := by
  intro s
  have path := h s
  unfold attempt
  cases hm : m s with
  | ok a t => rw [hm] at path; exact path
  | error e t => rw [hm] at path; cases e <;> exact path

/-! ### Primitives and accessors -/

theorem steers_writeCtrl (p : Byte) : Steers (writeCtrl p) := fun s => .single (.wrote s p)

theorem steers_readStat : Steers readStat := fun s => .single (.sampled s)

theorem steers_delay (k : Nat) : Steers (delay k) := fun s => .single (.waited s k)

theorem steers_withWork (g : WorkRegs → WorkRegs) : Steers (modify (fun s => s.withWork g)) := fun s => .single (.work s g)

theorem steers_setCnt (k : Nat) : Steers (setCnt k) := steers_withWork _

theorem steers_setPoll (k : Nat) : Steers (setPoll k) := steers_withWork _

theorem steers_setAcc (v : Word32) : Steers (setAcc v) := steers_withWork _

theorem steers_setDbit (d : Bool) : Steers (setDbit d) := steers_withWork _

theorem steers_setSt (b : BitVec 4) : Steers (setSt b) := steers_withWork _

theorem steers_getAcc : Steers getAcc := fun _ => .refl

theorem steers_openedSession : Steers openedSession := by
  intro s
  cases h : s.session with
  | none => rw [run_openedSession_none h]; exact .refl
  | some x => rw [run_openedSession h]; exact .refl

theorem steers_currentParams : Steers currentParams :=
  steers_bind steers_openedSession (fun _ => steers_get (fun _ => steers_pure _))

theorem steers_writeKept (p : Byte) : Steers (writeKept p) :=
  steers_bind steers_openedSession (fun _ => steers_bind steers_currentParams (fun _ => steers_writeCtrl _))

theorem steers_useCap (present : Caps → Bool) : Steers (useCap present) :=
  steers_bind steers_openedSession (fun _ => steers_ite (steers_pure _) (steers_raise _))

/-! ### The status and stopping (R170, R200) -/

theorem steers_readStatus : Steers readStatus :=
  steers_bind (steers_useCap _) (fun _ => steers_bind steers_openedSession (fun _ => steers_bind steers_readStat (fun _ =>
    steers_bind (steers_setSt _) (fun _ => steers_pure _))))

theorem steers_pollFreeze (k : Nat) : Steers (pollFreeze k) := by
  induction k with
  | zero => exact steers_pure _
  | succ k ih =>
    exact steers_bind (steers_setPoll _) (fun _ => steers_bind steers_openedSession (fun _ => steers_bind (steers_delay _) (fun _ =>
      steers_bind steers_readStatus (fun _ => steers_ite (steers_pure _) ih))))

theorem steers_stopTarget : Steers stopTarget := by
  have forced : ∀ (v : VariantParams) (x : Session), Steers (do
      writeKept v.patterns.berr
      delay x.minDelay
      writeKept v.patterns.arm
      let frozen ← pollFreeze x.stopPollBound
      if frozen then writeKept v.patterns.idle else raise (.proto .response)) := fun v x =>
    steers_bind (steers_writeKept _) (fun _ => steers_bind (steers_delay _) (fun _ => steers_bind (steers_writeKept _) (fun _ =>
      steers_bind (steers_pollFreeze _) (fun _ => steers_ite (steers_writeKept _) (steers_raise _)))))
  exact steers_bind (steers_useCap _) (fun _ => steers_bind steers_currentParams (fun v => steers_bind steers_readStatus (fun _ =>
    steers_ite (steers_writeKept _) (steers_bind (steers_writeKept _) (fun _ => steers_bind steers_openedSession (fun x =>
      steers_bind (steers_pollFreeze _) (fun _ => steers_ite (steers_writeKept _) (steers_ite (forced v x) (steers_raise _)))))))))

theorem steers_checkAvailable : Steers checkAvailable := by
  refine steers_bind steers_readStatus (fun st => ?_)
  cases unavailableFault st with
  | none => exact steers_pure _
  | some f => exact steers_raise _

/-! ### The serial exchange and resynchronization (R130 to R140) -/

theorem steers_settlePoll (cmd : Word16) (delayBits : Nat) : Steers (settlePoll cmd delayBits) := by
  have loop : ∀ k, Steers (settleLoop k) := by
    intro k
    induction k with
    | zero => exact steers_pure _
    | succ k ih =>
      exact steers_bind (steers_setPoll _) (fun _ => steers_bind steers_readStat (fun _ => steers_ite ih (steers_pure _)))
  exact steers_bind steers_openedSession (fun _ => steers_get (fun _ => steers_ite (loop _) (steers_pure _)))

theorem steers_bitDelay (x : Session) (k : Nat) : Steers (bitDelay x k) := steers_ite (steers_pure _) (steers_delay _)

theorem steers_clockOneBit : Steers clockOneBit :=
  steers_bind steers_openedSession (fun _ => steers_bind steers_currentParams (fun _ => steers_bind steers_getAcc (fun _ =>
    steers_bind (steers_setDbit _) (fun _ => steers_bind (steers_writeKept _) (fun _ => steers_bind (steers_writeKept _) (fun _ =>
      steers_bind (steers_bitDelay _ _) (fun _ => steers_bind steers_readStat (fun _ => steers_bind (steers_setAcc _) (fun _ =>
        steers_bind (steers_writeKept _) (fun _ => steers_bitDelay _ _))))))))))

theorem steers_bitLoop (k : Nat) : Steers (bitLoop k) := by
  induction k with
  | zero => exact steers_pure _
  | succ k ih => exact steers_bind steers_clockOneBit (fun _ => steers_bind (steers_setCnt _) (fun _ => ih))

theorem steers_serialExchange (cmd : Word16) (delayBits : Nat) : Steers (serialExchange cmd delayBits) := by
  have preconditions : Steers exchangePreconditions :=
    steers_bind steers_checkAvailable (fun _ => steers_ite (steers_pure _) steers_stopTarget)
  have frame : Steers (clockedFrame cmd delayBits) :=
    steers_bind (steers_setAcc _) (fun _ => steers_bind (steers_setCnt _) (fun _ => steers_bind (steers_settlePoll _ _) (fun _ =>
      steers_bind (steers_bitLoop _) (fun _ => steers_getAcc))))
  rw [serialExchange_eq]
  exact steers_bind (steers_useCap _) (fun _ => steers_ite (steers_raise _) (steers_bind preconditions (fun _ => frame)))

theorem steers_resynchronizeTarget : Steers resynchronizeTarget := by
  have frames : ∀ k, Steers (nopFrames k) := by
    intro k
    induction k with
    | zero => exact steers_pure _
    | succ k ih => exact steers_get (fun _ => steers_bind (steers_serialExchange _ _) (fun _ => ih))
  have pulses : ∀ k, Steers (idlePulses k) := by
    intro k
    induction k with
    | zero => exact steers_raise _
    | succ k ih =>
      exact steers_bind (steers_setPoll _) (fun _ => steers_get (fun _ => steers_bind (steers_serialExchange _ _) (fun _ =>
        steers_bind steers_currentParams (fun _ => steers_ite (steers_pure _) ih))))
  exact steers_bind (steers_useCap _) (fun _ => steers_bind (frames _) (fun _ => pulses _))

/-- Resynchronization where the variant asks for it (R172, R174). -/
theorem steers_resynchronize_if (c : Bool) : Steers (do
    if c then resynchronizeTarget
    pure OpResult.ok) := by
  cases c with
  | false => exact steers_bind (steers_pure _) (fun _ => steers_pure _)
  | true => exact steers_bind steers_resynchronizeTarget (fun _ => steers_pure _)

/-! ### The session (R160, R161, R164, R165) -/

theorem steers_initSession : Steers initSession :=
  steers_bind (steers_useCap _) (fun _ => steers_get_here (fun s =>
    linePath_bind (m := updateSession (fun x => x.initialised s.params)) (.single (.initialised s)) (fun _ =>
      steers_bind steers_currentParams (fun _ => steers_writeCtrl _))))

theorem steers_deinitSession : Steers deinitSession :=
  steers_bind (steers_useCap _) (fun _ => steers_bind steers_currentParams (fun _ => steers_writeCtrl _))

/-! ### Whole operations -/

theorem steers_writeUnits (k : Nat) : ∀ done, Steers (writeUnits k done) := by
  induction k with
  | zero => intro done; exact steers_pure _
  | succ k ih =>
    intro done
    refine steers_get (fun s => steers_bind (steers_attempt (steers_serialExchange _ _)) (fun answer => ?_))
    cases answer with
    | error f => exact steers_pure _
    | ok v => exact ih _

theorem steers_readUnits (k : Nat) : ∀ data, Steers (readUnits k data) := by
  induction k with
  | zero => intro data; exact steers_pure _
  | succ k ih =>
    intro data
    refine steers_get (fun s => steers_bind (steers_attempt (steers_serialExchange _ _)) (fun answer => ?_))
    cases answer with
    | error f => exact steers_pure _
    | ok v =>
      dsimp only
      cases decodeFrame v with
      | payload p => exact ih _
      | _ => exact steers_pure _

/-- A stream of an even number of bytes, on an open session (R145). -/
theorem steers_stream {m : Op α} {result : α → OpResult} (count : Nat) (h : Steers m) : Steers (do
    let _ ← openedSession
    if count % 2 ≠ 0 then raise .illegalSize
    else do
      let r ← m
      pure (result r)) :=
  steers_bind steers_openedSession (fun _ => steers_ite (steers_raise _) (steers_bind h (fun _ => steers_pure _)))

/-- Where a whole operation ends: one outcome after the last effect (R22). -/
theorem runOp_endState (m : Op OpResult) (s : State) : ∃ r, runOp m s = .next ((endState (m s)).conclude r) := by
  unfold runOp
  cases m s with
  | ok r t => exact ⟨r, rfl⟩
  | error e t => cases e <;> exact ⟨_, rfl⟩

theorem runOp_steers {m : Op OpResult} (h : Steers m) (s : State) : ∃ u r, LinePath s u ∧ runOp m s = .next (u.conclude r) := by
  obtain ⟨r, hr⟩ := runOp_endState m s
  exact ⟨_, r, h s, hr⟩

/-- STEP_CHIP (R172). -/
theorem execStepChip_steers (s : State) : ∃ u r, LinePath s u ∧ execStepChip s = .next (u.conclude r) := by
  have armed : ∀ d, Steers (clockArmedBit d) := fun d =>
    steers_bind steers_openedSession (fun _ => steers_bind steers_currentParams (fun _ => steers_bind (steers_writeKept _) (fun _ =>
      steers_bind (steers_writeKept _) (fun _ => steers_bind (steers_bitDelay _ _) (fun _ => steers_bind (steers_writeKept _) (fun _ =>
        steers_bitDelay _ _))))))
  exact runOp_steers (steers_bind (steers_useCap _) (fun _ => steers_bind steers_checkAvailable (fun _ => steers_get (fun _ =>
    steers_bind (steers_serialExchange _ _) (fun _ => steers_bind (armed _) (fun _ => steers_bind steers_stopTarget (fun _ =>
      steers_bind steers_currentParams (fun _ => steers_resynchronize_if _)))))))) s

/-- OPEN (R160). -/
theorem execOpenSession_steers (variant : Nat) (s : State) : ∃ u r, LinePath s u ∧ execOpenSession variant s = .next (u.conclude r) := by
  refine runOp_steers ?_ s
  cases variantOf variant with
  | none => exact steers_raise _
  | some v =>
    refine steers_get_here (fun t => ?_)
    by_cases h : t.owned = true
    · simp only [h, if_true]; exact .refl
    · simp only [h]
      exact linePath_bind (m := set { t with owned := true, session := some (newSession v) })
        (.single (.opened t v (by simpa using h))) (fun _ => steers_bind steers_initSession (fun _ => steers_pure _))

/-- CLOSE (R161). -/
theorem execCloseSession_steers (s : State) : ∃ u r, LinePath s u ∧ execCloseSession s = .next (u.conclude r) := by
  have close : Steers (modify (fun u => { u with session := none, owned := false })) := fun t => .single (.closed t)
  exact runOp_steers (steers_get (fun _ => steers_ite (steers_bind steers_deinitSession (fun _ =>
    steers_bind close (fun _ => steers_pure _))) (steers_raise _))) s

/-- Every operation of the engine, OPEN included, ends a chain of line effects away (R65). -/
theorem exec_steers {i : Instr} (hi : memoryOperation i = false) (s : State) :
    ∃ u r, LinePath s u ∧ exec i s = .next (u.conclude r) := by
  cases i <;> simp only [memoryOperation, engineOperation, opensChannel, Bool.not_true, Bool.not_false, Bool.and_self, Bool.false_and,
    Bool.and_false, Bool.true_eq_false] at hi
  case init => exact runOp_steers (steers_bind steers_initSession (fun _ => steers_pure _)) s
  case deinit => exact runOp_steers (steers_bind steers_deinitSession (fun _ => steers_pure _)) s
  case resetChip =>
    exact runOp_steers (steers_bind (steers_useCap _) (fun _ => steers_bind steers_openedSession (fun _ =>
      steers_bind steers_currentParams (fun _ => steers_bind (steers_writeKept _) (fun _ => steers_bind (steers_delay _) (fun _ =>
        steers_bind (steers_writeKept _) (fun _ => steers_bind (steers_delay _) (fun _ => steers_pure _)))))))) s
  case restartChip =>
    exact runOp_steers (steers_bind (steers_useCap _) (fun _ => steers_bind steers_openedSession (fun _ =>
      steers_bind steers_currentParams (fun _ => steers_bind (steers_writeKept _) (fun _ => steers_bind (steers_delay _) (fun _ =>
        steers_bind (steers_writeKept _) (fun _ => steers_bind (steers_delay _) (fun _ => steers_bind steers_stopTarget (fun _ =>
          steers_resynchronize_if _))))))))) s
  case stopChip => exact runOp_steers (steers_bind steers_stopTarget (fun _ => steers_pure _)) s
  case stepChip => exact execStepChip_steers s
  case getStatus => exact runOp_steers (steers_bind steers_readStatus (fun _ => steers_pure _)) s
  case releaseChip =>
    exact runOp_steers (steers_bind (steers_useCap _) (fun _ => steers_bind steers_openedSession (fun _ =>
      steers_bind steers_currentParams (fun _ => steers_bind (steers_writeKept _) (fun _ => steers_bind (steers_delay _) (fun _ =>
        steers_bind (steers_writeCtrl _) (fun _ => steers_pure _))))))) s
  case speed base =>
    exact runOp_steers (steers_bind steers_openedSession (fun _ => steers_get_here (fun t =>
      linePath_bind (m := updateSession (fun x => x.withSpeed t.params base)) (.single (.speed t base)) (fun _ => steers_pure _)))) s
  case senseCable flag =>
    have update : Steers (updateSession (fun x => { x with sense := isOn flag })) := fun t => .single (.sense t _)
    exact runOp_steers (steers_bind steers_openedSession (fun _ => steers_bind update (fun _ => steers_pure _))) s
  case debugLevel level =>
    have update : Steers (updateSession (fun x => { x with debugLevel := level })) := fun t => .single (.debugLevel t _)
    exact runOp_steers (steers_bind steers_openedSession (fun _ => steers_bind update (fun _ => steers_pure _))) s
  case setLed flag =>
    exact runOp_steers (steers_bind (steers_useCap _) (fun _ => steers_bind steers_openedSession (fun _ =>
      steers_bind steers_currentParams (fun _ => steers_ite (steers_raise _) (steers_bind (steers_writeCtrl _) (fun _ =>
        steers_pure _)))))) s
  case serialClock cmd delayBits => exact runOp_steers (steers_bind (steers_serialExchange _ _) (fun _ => steers_pure _)) s
  case resynchronize => exact runOp_steers (steers_bind steers_resynchronizeTarget (fun _ => steers_pure _)) s
  case streamWrite count =>
    exact runOp_steers (steers_stream (result := fun r => .streamWrite r.1 r.2) count (steers_writeUnits _ _)) s
  case streamRead count =>
    exact runOp_steers (steers_stream (result := fun r => .streamRead r.2.length r.1 r.2) count (steers_readUnits _ _)) s
  case openSession variant => exact execOpenSession_steers variant s
  case closeSession => exact execCloseSession_steers s

/-- The engine's effects leave target memory, its trace and the environment's answers for it, and the registry as they are (R65). -/
theorem linePath_memory {s t : State} (h : LinePath s t) :
    t.memTrace = s.memTrace ∧ t.memory = s.memory ∧ t.registry = s.registry ∧ t.memScript = s.memScript := by
  induction h with
  | refl => exact ⟨rfl, rfl, rfl, rfl⟩
  | tail _ effect ih => cases effect <;> simpa using ih

end Sys2Proof.Scope
end

