-- ==== Sys2Proof/Proofs/StoredBytes.lean ====
section
/-! The record of stores after any operation is the replay of the events the operation appended to the memory trace (R11, R66), so a byte that none of
those writes covers is recorded as before. -/

namespace Sys2Proof.Scope

open Sys2Proof Sys2Proof.Machine Sys2Proof.Laws

/-! ### Replaying events -/

/-- The record after a replay depends on the record before it alone. -/
theorem performed_memory_congr (evs : List MemEvent) : ∀ {s t : State}, s.memory = t.memory →
    (s.performed evs).memory = (t.performed evs).memory := by
  induction evs with
  | nil => intro s t h; exact h
  | cons e rest ih =>
    intro s t h
    cases e with
    | read a v => exact ih h
    | wrote a v => exact ih (congrArg (fun m : Memory => m.storeAll a v) h)

/-- A replay leaves alone every recorded byte that none of its writes covers. -/
theorem performed_storedByte (evs : List MemEvent) (a : Nat) : ∀ {s : State}, s.memory.wf = true → writesByte evs a = false →
    (s.performed evs).storedByte a = s.storedByte a := by
  induction evs with
  | nil => intro s _ _; rfl
  | cons e rest ih =>
    intro s hwf huncovered
    cases e with
    | read b v => exact ih (s := s.tookReply.didRead b v) hwf (by simpa [writesByte] using huncovered)
    | wrote b v =>
      have hrest : writesByte rest a = false := by simp_all [writesByte]
      have hout : ¬ (b ≤ a ∧ a < b + v.length) := by simp_all [writesByte]
      calc ((s.tookReply.didWrite b v).performed rest).storedByte a
          = (s.tookReply.didWrite b v).storedByte a := ih (memory_storeAll_wf v _ b hwf) hrest
        _ = s.storedByte a := (memory_read_storeAll v s.memory b a hwf).trans (if_neg hout)

/-- From `s` to `t` the memory trace grew by accesses the block may make, and the record of stores is their replay. -/
def Replayed (s t : State) : Prop :=
  ∃ evs, callsAllowed evs = true ∧ t.memTrace = s.memTrace ++ evs ∧ t.memory = (s.performed evs).memory

theorem replayed_of_eq {s t : State} (htrace : t.memTrace = s.memTrace) (hmemory : t.memory = s.memory) : Replayed s t :=
  ⟨[], rfl, by simp [htrace], hmemory⟩

theorem replayed_trans {s t u : State} (hst : Replayed s t) (htu : Replayed t u) : Replayed s u := by
  obtain ⟨evs, hcalls, htrace, hmemory⟩ := hst
  obtain ⟨more, hcalls', htrace', hmemory'⟩ := htu
  refine ⟨evs ++ more, by simp [hcalls, hcalls'], by rw [htrace', htrace, List.append_assoc], ?_⟩
  rw [hmemory', performed_append]
  exact performed_memory_congr more hmemory

/-! ### Every operation replays its events -/

theorem replayed_memEffect {s t : State} (h : MemEffect s t) : Replayed s t := by
  cases h with
  | read a v hcall => exact ⟨[.read a v], by simpa [callsAllowed] using hcall, rfl, rfl⟩
  | wrote a v hcall => exact ⟨[.wrote a v], by simpa [callsAllowed] using hcall, rfl, rfl⟩
  | _ => exact replayed_of_eq rfl rfl

theorem replayed_memPath {s t : State} (h : MemPath s t) : Replayed s t := by
  induction h with
  | refl => exact replayed_of_eq rfl rfl
  | tail _ effect ih => exact replayed_trans ih (replayed_memEffect effect)

/-- The area REGISTER_AREA binds to the chip its probes found (R212, R213). -/
def foundArea (hint base size : Nat) (d : Binding) : MemoryArea :=
  { beginAddr := base, endAddr := base + size - 1, binding := d, flags := registeredFlags hint }

/-- What REGISTER_AREA can do: it ends after the effects of its probes, or it then splices in the area of the chip found (R212 to R214). -/
theorem execRegisterArea_cases (hint base : Nat) (s : State) :
    (∃ u r, MemPath s u ∧ execRegisterArea hint base s = .next (u.conclude r)) ∨
    ∃ families e size d u, candidates s.params hint = some families ∧ areaOf s.registry base = some e ∧ e.binding = .ram ∧
      probeCandidates base families s = .ok (some (size, d)) u ∧ base + size - 1 ≤ e.endAddr ∧
      execRegisterArea hint base s =
        .next (State.conclude { u with registry := splice u.registry e (foundArea hint base size d) } .ok) := by
  unfold execRegisterArea
  cases hc : candidates s.params hint with
  | none => exact .inl ⟨s, _, .refl, rfl⟩
  | some families =>
    cases ho : areaOf s.registry base with
    | none => exact .inl ⟨s, .fault .illegalOperation, .refl, by simp [runOp, run_bind, ho, State.takeFault]⟩
    | some e =>
      by_cases hb : e.binding = .ram
      · cases hp : probeCandidates base families s with
        | error x u =>
          have path : MemPath s u := travels_error (travels_probeCandidates base families) hp
          cases x with
          | fault f => exact .inl ⟨u, .fault f, path, by simp [runOp, run_bind, ho, hb, hp, State.takeFault]⟩
          | access f => exact .inl ⟨u, .fault (.proto f), path, by simp [runOp, run_bind, ho, hb, hp, State.takeFault]⟩
        | ok found u =>
          have path : MemPath s u := travels_ok (travels_probeCandidates base families) hp
          cases found with
          | none => exact .inl ⟨u, .notFound, path, by simp [runOp, run_bind, ho, hb, hp]⟩
          | some chip =>
            obtain ⟨size, d⟩ := chip
            by_cases hend : e.endAddr < base + size - 1
            · exact .inl ⟨u, .fault .illegalOperation, path, by simp [runOp, run_bind, ho, hb, hp, hend, State.takeFault]⟩
            · exact .inr ⟨families, e, size, d, u, rfl, rfl, hb, hp, by omega, by simp [runOp, run_bind, run_map, ho, hb, hp, hend, foundArea]⟩
      · exact .inl ⟨s, .fault .illegalOperation, .refl, by simp [runOp, run_bind, ho, hb, State.takeFault]⟩

/-- Whatever the operation, the record of stores is the replay of the events it appends to the memory trace (R11, R66). -/
theorem exec_replayed {i : Instr} {s t : State} (h : exec i s = .next t) : Replayed s t := by
  have concluded : ∀ {u : State} {r : OpResult}, exec i s = .next (u.conclude r) → Replayed s u → Replayed s t := by
    intro u r hexec hu
    rw [hexec] at h
    cases h
    exact replayed_trans hu (replayed_of_eq rfl rfl)
  cases hi : memoryOperation i with
  | false =>
    obtain ⟨u, r, path, hexec⟩ := exec_steers hi s
    obtain ⟨htrace, hmemory, _, _⟩ := linePath_memory path
    exact concluded hexec (replayed_of_eq htrace hmemory)
  | true =>
    by_cases hr : ∃ hint base, i = .registerArea hint base
    · obtain ⟨hint, base, rfl⟩ := hr
      rcases execRegisterArea_cases hint base s with ⟨u, r, path, hexec⟩ | ⟨families, e, size, d, u, _, _, _, hp, _, hexec⟩
      · exact concluded hexec (replayed_memPath path)
      · have probes : Replayed s u := replayed_memPath (travels_ok (travels_probeCandidates base families) hp)
        exact concluded hexec (replayed_trans probes (replayed_of_eq rfl rfl))
    · obtain ⟨u, r, path, hexec⟩ := exec_travels hi (fun hint base he => hr ⟨hint, base, he⟩) s
      exact concluded hexec (replayed_memPath path)

/-- Settles O16: the record after an operation is the replay of the events it appended, and a replay leaves uncovered bytes alone. -/
theorem bytesNotWrittenAreKept : Obligations.BytesNotWrittenAreKept := by
  intro i s t hwf hexec
  obtain ⟨evs, _, htrace, hmemory⟩ := exec_replayed hexec
  refine ⟨evs, htrace, fun a huncovered => ?_⟩
  calc t.storedByte a
      = (s.performed evs).storedByte a := congrArg (fun m : Memory => m.read a) hmemory
    _ = s.storedByte a := performed_storedByte evs a hwf huncovered

end Sys2Proof.Scope
end

