-- ==== Sys2Proof/Proofs/StepCases.lean ====
section
/-! What an operation and a step can do, said once over all operations (R22, R65, R101): the ways an operation ends, the ways a step ends, and the principle
by which an invariant of the operations is one of the steps. What follows from this alone: a step runs the operation its word decodes to, always answers a
next state, only appends to the traces, and ends at rest. -/

namespace Sys2Proof.Invariants

open Sys2Proof Sys2Proof.Machine Sys2Proof.Laws Sys2Proof.Scope

/-! ### Operations -/

/-- From `s` a REGISTER_AREA probed its candidates, found a chip that ends inside a RAM area, and spliced in the chip's area (R212 to R214). -/
def Registers (s u : State) : Prop :=
  ∃ hint base families e size d v, areaOf s.registry base = some e ∧ e.binding = .ram ∧
    probeCandidates base families s = .ok (some (size, d)) v ∧ base + size - 1 ≤ e.endAddr ∧
    u = { v with registry := splice v.registry e (foundArea hint base size d) }

/-- Every operation on target memory ends with one outcome, after a chain of effects or a registration (R65). -/
theorem exec_memory_cases {i : Instr} (hi : memoryOperation i = true) (s : State) :
    ∃ u r, exec i s = .next (u.conclude r) ∧ (MemPath s u ∨ Registers s u) := by
  by_cases hr : ∃ hint base, i = .registerArea hint base
  · obtain ⟨hint, base, rfl⟩ := hr
    rcases execRegisterArea_cases hint base s with ⟨u, r, path, hexec⟩ | ⟨families, e, size, d, v, _, ho, hb, hp, hend, hexec⟩
    · exact ⟨u, r, hexec, .inl path⟩
    · exact ⟨_, _, hexec, .inr ⟨hint, base, families, e, size, d, v, ho, hb, hp, hend, rfl⟩⟩
  · obtain ⟨u, r, path, hexec⟩ := exec_travels hi (fun hint base he => hr ⟨hint, base, he⟩) s
    exact ⟨u, r, hexec, .inl path⟩

/-- Every operation ends with one outcome, after a chain of effects of the engine, a chain of effects on target memory, or a registration (R22, R65). -/
theorem exec_cases (i : Instr) (s : State) :
    ∃ u r, exec i s = .next (u.conclude r) ∧ (LinePath s u ∨ MemPath s u ∨ Registers s u) := by
  cases hi : memoryOperation i with
  | false =>
    obtain ⟨u, r, path, hexec⟩ := exec_steers hi s
    exact ⟨u, r, hexec, .inl path⟩
  | true =>
    obtain ⟨u, r, hexec, path⟩ := exec_memory_cases hi s
    exact ⟨u, r, hexec, .inr path⟩

/-! ### Steps -/

/-- An admitted call is one whose word decodes to an operation its issuer may issue (R101). -/
theorem admitted_of_decode {r : Request} {i : Instr} (hdecode : decode r.word = .ok i)
    (hissuer : r.origin = .host → internalSelector (Op72.selector r.word) = false) : admitted r = .ok i := by
  have hallowed : (internalSelector (Op72.selector r.word) && r.origin == .host) = false := by
    cases horigin : r.origin with
    | host => simp [hissuer horigin]
    | registry area => simp
  simp only [admitted, hdecode, hallowed, Bool.false_eq_true, if_false]

theorem step_idle {s : State} (h : s.requests = []) : step s = .next s := by
  simp only [step, h]

theorem step_refused {s : State} {r : Request} {rest : List Request} {f : FaultKind} (h : s.requests = r :: rest)
    (hr : admitted r = .error f) : step s = .next ((s.accept r rest).takeFault f) := by
  simp only [step, h, hr]

theorem step_admitted {s : State} {r : Request} {rest : List Request} {i : Instr} (h : s.requests = r :: rest)
    (hr : admitted r = .ok i) : step s = exec i (s.accept r rest) := by
  simp only [step, h, hr]

/-- A step is idle, refuses the next call, or runs its operation (R22, R101). -/
theorem step_cases (s : State) :
    step s = .next s ∨ ∃ r rest, (∃ f, step s = .next ((s.accept r rest).takeFault f)) ∨ ∃ i, step s = exec i (s.accept r rest) := by
  cases h : s.requests with
  | nil => exact .inl (step_idle h)
  | cons r rest =>
    cases hr : admitted r with
    | error f => exact .inr ⟨r, rest, .inl ⟨f, step_refused h hr⟩⟩
    | ok i => exact .inr ⟨r, rest, .inr ⟨i, step_admitted h hr⟩⟩

/-- What taking a call and refusing one keep, and every operation keeps, every step keeps. -/
theorem step_keeps {I : State → Prop} (haccept : ∀ s r rest, I s → I (s.accept r rest)) (hrefuse : ∀ s f, I s → I (s.takeFault f))
    (hexec : ∀ i s t, I s → exec i s = .next t → I t) {s t : State} (hs : I s) (h : step s = .next t) : I t := by
  rcases step_cases s with hidle | ⟨r, rest, ⟨f, hfault⟩ | ⟨i, hrun⟩⟩
  · rw [hidle] at h; cases h; exact hs
  · rw [hfault] at h; cases h; exact hrefuse _ f (haccept s r rest hs)
  · exact hexec i _ t (haccept s r rest hs) (hrun ▸ h)

/-- Settles O5: a call whose word decodes to an operation its issuer may issue is admitted, and the step runs it. -/
theorem stepRunsTheDecodedOperation : Obligations.StepRunsTheDecodedOperation := by
  intro s r rest i hcall hdecode hissuer
  exact ⟨step_admitted hcall (admitted_of_decode hdecode hissuer), rfl, rfl⟩

/-! ### Parameters and traces -/

/-- From `s` to `t` no parameter changed and both traces grew at their ends (R40, R45). -/
def Appends (s t : State) : Prop :=
  t.params = s.params ∧ (∃ l, t.lineTrace = s.lineTrace ++ l) ∧ (∃ m, t.memTrace = s.memTrace ++ m)

theorem appends_of_eq {s t : State} (hparams : t.params = s.params) (hline : t.lineTrace = s.lineTrace)
    (hmem : t.memTrace = s.memTrace) : Appends s t :=
  ⟨hparams, ⟨[], by simp [hline]⟩, ⟨[], by simp [hmem]⟩⟩

theorem appends_trans {s t u : State} (hst : Appends s t) (htu : Appends t u) : Appends s u := by
  obtain ⟨hparams, ⟨l, hl⟩, ⟨m, hm⟩⟩ := hst
  obtain ⟨hparams', ⟨l', hl'⟩, ⟨m', hm'⟩⟩ := htu
  exact ⟨hparams'.trans hparams, ⟨l ++ l', by rw [hl', hl, List.append_assoc]⟩, ⟨m ++ m', by rw [hm', hm, List.append_assoc]⟩⟩

theorem appends_lineEffect {s t : State} (h : LineEffect s t) : Appends s t := by
  cases h with
  | wrote p => exact ⟨rfl, ⟨_, wroteCtrl_lineTrace s p⟩, [], by simp⟩
  | sampled => exact ⟨rfl, ⟨_, readStat_lineTrace s⟩, [], by simp⟩
  | waited k => exact ⟨delayed_params s k, ⟨_, delayed_lineTrace s k⟩, [], by simp⟩
  | _ => exact appends_of_eq rfl rfl rfl

theorem appends_memEffect {s t : State} (h : MemEffect s t) : Appends s t := by
  cases h with
  | read a v => exact ⟨rfl, ⟨[], by simp⟩, _, didRead_memTrace s.tookReply a v⟩
  | wrote a v => exact ⟨rfl, ⟨[], by simp⟩, _, didWrite_memTrace s.tookReply a v⟩
  | _ => exact appends_of_eq rfl rfl rfl

theorem appends_linePath {s t : State} (h : LinePath s t) : Appends s t := by
  induction h with
  | refl => exact appends_of_eq rfl rfl rfl
  | tail _ effect ih => exact appends_trans ih (appends_lineEffect effect)

theorem appends_memPath {s t : State} (h : MemPath s t) : Appends s t := by
  induction h with
  | refl => exact appends_of_eq rfl rfl rfl
  | tail _ effect ih => exact appends_trans ih (appends_memEffect effect)

/-- Every operation answers a next state, with the parameters as they were and the traces only longer (R45, R80). -/
theorem exec_appends (i : Instr) (s : State) : ∃ t, exec i s = .next t ∧ Appends s t := by
  obtain ⟨u, r, hexec, hu⟩ := exec_cases i s
  have before : Appends s u := by
    rcases hu with path | path | ⟨hint, base, families, e, size, d, v, _, _, hp, _, rfl⟩
    · exact appends_linePath path
    · exact appends_memPath path
    · exact appends_trans (appends_memPath (travels_ok (travels_probeCandidates base families) hp)) (appends_of_eq rfl rfl rfl)
  exact ⟨u.conclude r, hexec, appends_trans before (appends_of_eq rfl rfl rfl)⟩

/-- Settles O14: a step that is not idle takes a call, which touches neither parameters nor traces, and refuses it or runs its operation. -/
theorem everyStepEndsAndOnlyAppendsEvents : Obligations.EveryStepEndsAndOnlyAppendsEvents := by
  intro s
  refine ⟨step_idle, ?_⟩
  change ∃ t, step s = .next t ∧ Appends s t
  rcases step_cases s with hidle | ⟨r, rest, ⟨f, hfault⟩ | ⟨i, hrun⟩⟩
  · exact ⟨s, hidle, appends_of_eq rfl rfl rfl⟩
  · exact ⟨_, hfault, appends_of_eq rfl rfl rfl⟩
  · obtain ⟨t, hexec, hgrown⟩ := exec_appends i (s.accept r rest)
    exact ⟨t, hrun.trans hexec, appends_trans (appends_of_eq rfl rfl rfl) hgrown⟩

/-! ### Rest and the record of stores -/

/-- Every operation ends at rest (R21, R22). -/
theorem exec_atRest {i : Instr} {s t : State} (h : exec i s = .next t) : t.atRest = true := by
  obtain ⟨u, r, hexec, _⟩ := exec_cases i s
  rw [hexec] at h
  cases h
  simp [State.atRest]

/-- A replay of memory events keeps the record of stores in its canonical form (R66). -/
theorem performed_memory_wf (evs : List MemEvent) : ∀ {s : State}, s.memory.wf = true → (s.performed evs).memory.wf = true := by
  induction evs with
  | nil => intro s h; exact h
  | cons e rest ih =>
    intro s h
    cases e with
    | read a v => exact ih (s := s.tookReply.didRead a v) h
    | wrote a v => exact ih (s := s.tookReply.didWrite a v) (memory_storeAll_wf v _ a h)

theorem exec_memory_wf {i : Instr} {s t : State} (hwf : s.memory.wf = true) (h : exec i s = .next t) : t.memory.wf = true := by
  obtain ⟨evs, _, _, hmemory⟩ := exec_replayed h
  rw [hmemory]
  exact performed_memory_wf evs hwf

/-- Settles O12: an operation ends at rest, and its record of stores is a replay of stores onto a record in canonical form. -/
theorem everyStepEndsAtRest : Obligations.EveryStepEndsAtRest := by
  intro s t hrest hwf
  refine step_keeps (I := fun s => s.atRest = true ∧ s.memory.wf = true) (fun _ _ _ h => h) ?_ ?_ ⟨hrest, hwf⟩
  · rintro s f ⟨_, hwf⟩
    exact ⟨by simp [State.atRest], hwf⟩
  · rintro i s t ⟨_, hwf⟩ hexec
    exact ⟨exec_atRest hexec, exec_memory_wf hwf hexec⟩

end Sys2Proof.Invariants
end

