-- ==== Sys2Proof/Proofs/Candidates.lean ====
section
/-! What a probe answers (R241, R264, R292, R312): the descriptor of a match has the probed address as its base and the size of the answer. -/

namespace Sys2Proof.Invariants

open Sys2Proof Sys2Proof.Machine Sys2Proof.Laws Sys2Proof.Scope

/-- The chip of a descriptor; a RAM area has none (R35, R38). -/
def chipOf : Binding → Option ChipCommon
  | .ram => none
  | .amd d => some d.chip
  | .cfm d => some d.chip
  | .intel d => some d.chip

/-- A binding is the descriptor of a chip of `size` bytes at `base`. -/
def Describes (base size : Nat) (d : Binding) : Prop := ∃ chip, chipOf d = some chip ∧ chip.base = base ∧ chip.size = size

/-- A probe at `base` answered no descriptor, or one of a chip there of the size it answered. -/
def Identified (base : Nat) (r : ProbeResult) : Prop := ∀ d, r.binding = some d → Describes base r.size d

theorem identified_none (base size : Nat) (st : FlashStatus) : Identified base { size := size, binding := none, status := st } :=
  fun _ h => by cases h

theorem identified_some {base size : Nat} {d : Binding} {st : FlashStatus} (h : Describes base size d) :
    Identified base { size := size, binding := some d, status := st } :=
  fun _ hd => by cases hd; exact h

theorem returns_probeOp {m : Op ProbeResult} {base : Nat} (h : Returns m (Identified base)) : Returns (probeOp m) (Identified base) := by
  intro s r t hr
  unfold probeOp at hr
  cases hm : m s with
  | ok a u =>
    rw [hm] at hr
    cases hr
    exact h s r t hm
  | error e u =>
    rw [hm] at hr
    cases e with
    | fault f => cases hr
    | access f =>
      cases hr
      exact identified_none base 0 (.access f)

theorem amdProbe_identified (base : Nat) : Returns (amdProbeOp base) (Identified base) := by
  have search : ∀ pairs, Returns (amdProbePairs base pairs) (Identified base) := by
    intro pairs
    induction pairs with
    | nil => exact returns_pure (identified_none base 0 .ok)
    | cons pair rest ih =>
      refine returns_bind (fun s => returns_bind (fun hit => ?_))
      cases hit with
      | none => exact ih
      | some row => exact returns_pure (identified_some ⟨_, rfl, rfl, rfl⟩)
  exact returns_probeOp (search _)

theorem cfmProbe_identified (base : Nat) : Returns (cfmProbeOp base) (Identified base) := by
  have search : ∀ rows, Returns (cfmProbeRows base rows) (Identified base) := by
    intro rows
    induction rows with
    | nil => exact returns_pure (identified_none base 0 .ok)
    | cons row rest ih =>
      exact returns_bind (fun s => returns_bind (fun answer => returns_ite (returns_pure (identified_some ⟨_, rfl, rfl, rfl⟩)) ih))
  exact returns_probeOp (returns_bind (fun _ => search _))

theorem intelProbe_identified (base : Nat) : Returns (intelProbeOp base) (Identified base) := by
  have hit : ∀ d : IntelDescriptor, d.chip.base = base → Returns (intelHit d) (Identified base) := fun d hbase =>
    returns_ite (returns_bind (fun _ => returns_pure (identified_some ⟨_, rfl, hbase, rfl⟩)))
      (returns_pure (identified_some ⟨_, rfl, hbase, rfl⟩))
  have search : ∀ pairs, Returns (intelProbePairs base pairs) (Identified base) := by
    intro pairs
    induction pairs with
    | nil => exact returns_pure (identified_none base 0 .ok)
    | cons pair rest ih =>
      refine returns_bind (fun s => returns_bind (fun found => ?_))
      cases found with
      | none => exact ih
      | some row => exact hit _ rfl
  exact returns_probeOp (search _)

theorem probeFamily_identified (base : Nat) (f : Family) : Returns (probeFamily base f) (Identified base) := by
  cases f with
  | amd => exact amdProbe_identified base
  | cfm => exact cfmProbe_identified base
  | intel => exact intelProbe_identified base

/-- What the first part returned is known to the second. -/
theorem returns_bind_of {α β : Type} {m : Op α} {k : α → Op β} {good : α → Prop} {good' : β → Prop} (hm : Returns m good)
    (hk : ∀ a, good a → Returns (k a) good') : Returns (m >>= k) good' := by
  intro s c u h
  obtain ⟨a, t, hfirst, hsecond⟩ := bind_ok_inv h
  exact hk a (hm s a t hfirst) t c u hsecond

/-- The candidates' probes answer only chips of nonzero size, with their descriptors (R212, R241). -/
theorem probeCandidates_describe (base : Nat) (families : List Family) :
    Returns (probeCandidates base families) (fun found => ∀ chip, found = some chip → 0 < chip.1 ∧ Describes base chip.1 chip.2) := by
  induction families with
  | nil => exact returns_pure (fun chip h => by cases h)
  | cons f rest ih =>
    refine returns_bind_of (probeFamily_identified base f) (fun r hr => ?_)
    split
    · intro s a t h
      cases h
    · cases hd : r.binding with
      | none => exact ih
      | some d =>
        by_cases hsize : 0 < r.size
        · simp only [hsize, if_true]
          exact returns_pure (fun chip h => by cases h; exact ⟨hsize, hr d hd⟩)
        · simp only [hsize, if_false]
          exact ih

end Sys2Proof.Invariants
end

