-- ==== Sys2Proof/Proofs/Partition.lean ====
section
/-! The ownership partition (R36, R210, R216): only a splice changes the bounds of areas, and the pieces of a splice cover exactly the area they replace. -/

namespace Sys2Proof.Invariants

open Sys2Proof Sys2Proof.Machine Sys2Proof.Laws Sys2Proof.Scope

/-- What a splice leaves of the old area above the new one reaches up to what follows (R213). -/
theorem covers_rightPiece {hi top : Nat} {rest : List MemoryArea} (htop : hi ≤ top) (hrest : coversFrom (top + 1) rest = true) :
    coversFrom (hi + 1) ((if hi < top then [ramArea (hi + 1) top] else []) ++ rest) = true := by
  by_cases hgap : hi < top
  · simp [hgap, coversFrom, ramArea, hrest, Nat.succ_le_of_lt hgap]
  · simpa [hgap, show hi = top by omega] using hrest

/-- The pieces of a splice cover the area they replace, up to what follows it (R213). -/
theorem covers_splicePieces {e new : MemoryArea} {rest : List MemoryArea} (hlo : e.beginAddr ≤ new.beginAddr)
    (hnew : new.beginAddr ≤ new.endAddr) (hhi : new.endAddr ≤ e.endAddr) (hrest : coversFrom (e.endAddr + 1) rest = true) :
    coversFrom e.beginAddr (splicePieces e new ++ rest) = true := by
  have above := covers_rightPiece hhi hrest
  unfold splicePieces
  by_cases hgap : e.beginAddr < new.beginAddr
  · have hnext : new.beginAddr - 1 + 1 = new.beginAddr := by omega
    have hbefore : e.beginAddr ≤ new.beginAddr - 1 := by omega
    simp [hgap, coversFrom, hnext, hbefore, hnew, above]
  · have hstart : e.beginAddr = new.beginAddr := by omega
    simp [hstart, coversFrom, hnew, above]

/-- Areas that all begin elsewhere are left alone by a splice. -/
theorem splice_elsewhere {areas : List MemoryArea} {e : MemoryArea} (new : MemoryArea)
    (h : ∀ a ∈ areas, a.beginAddr ≠ e.beginAddr) : splice areas e new = areas := by
  induction areas with
  | nil => rfl
  | cons a rest ih =>
    have hrest : splice rest e new = rest := ih (fun b hb => h b (List.mem_cons_of_mem _ hb))
    simpa [splice, h a List.mem_cons_self] using hrest

/-- A splice inside one area of a partition gives a partition (R36, R213). -/
theorem covers_splice {e new : MemoryArea} (hlo : e.beginAddr ≤ new.beginAddr) (hnew : new.beginAddr ≤ new.endAddr)
    (hhi : new.endAddr ≤ e.endAddr) : ∀ (areas : List MemoryArea) (lo : Nat), coversFrom lo areas = true → e ∈ areas →
      coversFrom lo (splice areas e new) = true := by
  intro areas
  induction areas with
  | nil => intro lo _ he; cases he
  | cons a rest ih =>
    intro lo hcovers he
    simp only [coversFrom, Bool.and_eq_true, beq_iff_eq, decide_eq_true_eq] at hcovers
    obtain ⟨⟨rfl, hle⟩, hrest⟩ := hcovers
    rcases List.mem_cons.mp he with rfl | he
    · have above : ∀ b ∈ rest, b.beginAddr ≠ e.beginAddr := fun b hb => by
        have := (covers_ge rest _ b hrest hb).1
        omega
      have hsplice : splice (e :: rest) e new = splicePieces e new ++ rest := by
        have := splice_elsewhere new above
        simp only [splice, List.flatMap_cons, if_true] at this ⊢
        rw [this]
      rw [hsplice]
      exact covers_splicePieces hlo hnew hhi hrest
    · have hne : a.beginAddr ≠ e.beginAddr := by
        have := (covers_ge rest _ e hrest he).1
        omega
      have hsplice : splice (a :: rest) e new = a :: splice rest e new := by
        simp [splice, hne]
      rw [hsplice]
      simp [coversFrom, ih _ hrest he, hle]

/-- The area of a chip that ends inside the owner of its base is spliced into a partition (R213, R214). -/
theorem partitioned_spliceFound {s : State} {e : MemoryArea} {hint base size : Nat} {d : Binding} (hs : s.partitioned = true)
    (ho : areaOf s.registry base = some e) (hsize : 0 < size) (hend : base + size - 1 ≤ e.endAddr) :
    State.partitioned { s with registry := splice s.registry e (foundArea hint base size d) } = true := by
  obtain ⟨hmem, hlo, _⟩ := areaOf_contains ho
  exact covers_splice (new := foundArea hint base size d) hlo (by simp only [foundArea]; omega) hend s.registry 0 hs hmem

theorem registers_partitioned {s u : State} (h : Registers s u) (hs : s.partitioned = true) : u.partitioned = true := by
  obtain ⟨hint, base, families, e, size, d, v, ho, _, hp, hend, rfl⟩ := h
  obtain ⟨hsize, _⟩ := probeCandidates_describe base families s _ v hp (size, d) rfl
  have hquiet : v.registry = s.registry := quiet_ok (quiet_probeCandidates base families) hp
  exact partitioned_spliceFound (by rw [State.partitioned, hquiet]; exact hs) (by rw [hquiet]; exact ho) hsize hend

theorem memPath_partitioned {s u : State} (h : MemPath s u) : u.partitioned = s.partitioned :=
  covers_fixed _ _ 0 (registryKept_path h).1

theorem exec_partitioned {i : Instr} {s t : State} (hs : s.partitioned = true) (h : exec i s = .next t) : t.partitioned = true := by
  obtain ⟨u, r, hexec, hu⟩ := exec_cases i s
  rw [hexec] at h
  cases h
  change u.partitioned = true
  rcases hu with path | path | registration
  · obtain ⟨_, _, hregistry, _⟩ := linePath_memory path
    rw [State.partitioned, hregistry]
    exact hs
  · rw [memPath_partitioned path]
    exact hs
  · exact registers_partitioned registration hs

/-- Settles O9: no operation but a registration moves the bounds of an area, and the pieces of its splice cover the area they replace. -/
theorem everyStepKeepsThePartition : Obligations.EveryStepKeepsThePartition := fun _ _ hs =>
  step_keeps (I := fun s => s.partitioned = true) (fun _ _ _ h => h) (fun _ _ h => h) (fun _ _ _ => exec_partitioned) hs

end Sys2Proof.Invariants
end

