-- ==== Sys2Proof/Proofs/Chains.lean ====
section
/-! Computations that end, wherever they end, a chain of effects of a given kind away. The kinds of the two chains already at hand (`MemPath`, `LinePath`) say
which effects a whole class of operations has; a smaller kind says more of a single part. -/

namespace Sys2Proof.Invariants

open Sys2Proof Sys2Proof.Machine Sys2Proof.Laws Sys2Proof.Scope

variable {α β : Type} {E : State → State → Prop}

/-- Wherever `m` ends, a chain of effects of the kind `E` leads there. -/
def Follows (E : State → State → Prop) (m : Op α) : Prop := ∀ s, Relation.ReflTransGen E s (endState (m s))

/-- The chain of `m` at one state, followed by what comes next at the states where `m` returns. -/
theorem chain_bind {m : Op α} {k : α → Op β} {s : State} (hm : Relation.ReflTransGen E s (endState (m s)))
    (hk : ∀ a t, m s = .ok a t → Relation.ReflTransGen E t (endState (k a t))) :
    Relation.ReflTransGen E s (endState ((m >>= k) s)) := by
  rw [run_bind]
  cases h : m s with
  | ok a t => rw [h] at hm; exact hm.trans (hk a t h)
  | error e t => rw [h] at hm; exact hm

theorem follows_pure (a : α) : Follows E (pure a : Op α) := fun _ => .refl

theorem follows_raise (f : FaultKind) : Follows E (raise f : Op α) := fun _ => .refl

theorem follows_bind {m : Op α} {k : α → Op β} (hm : Follows E m) (hk : ∀ a, Follows E (k a)) : Follows E (m >>= k) :=
  fun s => chain_bind (hm s) (fun a t _ => hk a t)

theorem follows_ite {c : Prop} [Decidable c] {m n : Op α} (hm : Follows E m) (hn : Follows E n) : Follows E (if c then m else n) := by
  split <;> assumption

/-- Reading the state before `k`, which then runs on that state. -/
theorem follows_get_here {k : State → Op β} (h : ∀ s, Relation.ReflTransGen E s (endState (k s s))) : Follows E (do let s ← get; k s) := h

theorem follows_get {k : State → Op β} (h : ∀ x, Follows E (k x)) : Follows E (do let s ← get; k s) :=
  follows_get_here (fun s => h s s)

/-- A computation that ends where `m` ends, whatever it makes of the outcome of `m`. -/
theorem follows_of_endState {m : Op α} {n : Op β} (hn : ∀ s, endState (n s) = endState (m s)) (hm : Follows E m) : Follows E n :=
  fun s => (hn s).symm ▸ hm s

theorem endState_attempt (m : Op α) (s : State) : endState (attempt m s) = endState (m s) := by
  unfold attempt
  cases m s with
  | ok a t => rfl
  | error e t => cases e <;> rfl

theorem endState_orAccess (m : Op FlashResult) (s : State) : endState (orAccess m s) = endState (m s) := by
  unfold orAccess
  cases m s with
  | ok a t => rfl
  | error e t => cases e <;> rfl

theorem endState_orAccessStatus (m : Op FlashStatus) (s : State) : endState (orAccessStatus m s) = endState (m s) := by
  unfold orAccessStatus
  cases m s with
  | ok a t => rfl
  | error e t => cases e <;> rfl

theorem endState_orAccessChunk (m : Op (FlashStatus × Nat × List Nat)) (s : State) : endState (orAccessChunk m s) = endState (m s) := by
  unfold orAccessChunk
  cases m s with
  | ok a t => rfl
  | error e t => cases e <;> rfl

/-- A whole operation ends with one outcome after its chain (R22). -/
theorem runOp_follows {m : Op OpResult} {s : State} (h : Relation.ReflTransGen E s (endState (m s))) :
    ∃ u r, Relation.ReflTransGen E s u ∧ runOp m s = .next (u.conclude r) := by
  obtain ⟨r, hr⟩ := runOp_endState m s
  exact ⟨_, r, h, hr⟩

end Sys2Proof.Invariants
end

