-- ==== Sys2Proof/Proofs/SessionEffects.lean ====
section
/-! OPEN alone opens a channel (R160): every other operation of the engine is a chain of line effects none of which gives the channel an owner. -/

namespace Sys2Proof.Invariants

open Sys2Proof Sys2Proof.Machine Sys2Proof.Laws Sys2Proof.Scope

variable {α : Type}

/-- An effect of the engine that gives the channel no owner. -/
def UnopeningEffect (s t : State) : Prop := LineEffect s t ∧ (t.owned = true → s.owned = true)

/-- Wherever `m` ends, it opened no channel on the way. -/
abbrev Unopening (m : Op α) : Prop := Follows UnopeningEffect m

/-! ### Primitives and accessors -/

theorem unopening_withWork (g : WorkRegs → WorkRegs) : Unopening (modify (fun s => s.withWork g)) :=
  fun s => .single ⟨.work s g, id⟩

theorem unopening_writeCtrl (p : Byte) : Unopening (writeCtrl p) := fun s => .single ⟨.wrote s p, id⟩

theorem unopening_readStat : Unopening readStat := fun s => .single ⟨.sampled s, id⟩

theorem unopening_delay (k : Nat) : Unopening (delay k) :=
  fun s => .single ⟨.waited s k, fun h => (delayed_owned s k) ▸ h⟩

theorem unopening_getAcc : Unopening getAcc := fun _ => .refl

theorem unopening_openedSession : Unopening openedSession := by
  intro s
  cases h : s.session with
  | none => rw [run_openedSession_none h]; exact .refl
  | some x => rw [run_openedSession h]; exact .refl

theorem unopening_currentParams : Unopening currentParams :=
  follows_bind unopening_openedSession (fun _ => follows_get (fun _ => follows_pure _))

theorem unopening_writeKept (p : Byte) : Unopening (writeKept p) :=
  follows_bind unopening_openedSession (fun _ => follows_bind unopening_currentParams (fun _ => unopening_writeCtrl _))

theorem unopening_useCap (present : Caps → Bool) : Unopening (useCap present) :=
  follows_bind unopening_openedSession (fun _ => follows_ite (follows_pure _) (follows_raise _))

/-! ### The status and stopping (R170, R200) -/

theorem unopening_readStatus : Unopening readStatus :=
  follows_bind (unopening_useCap _) (fun _ => follows_bind unopening_openedSession (fun _ => follows_bind unopening_readStat (fun _ =>
    follows_bind (unopening_withWork _) (fun _ => follows_pure _))))

theorem unopening_pollFreeze : ∀ k, Unopening (pollFreeze k)
  | 0 => follows_pure _
  | k + 1 => follows_bind (unopening_withWork _) (fun _ => follows_bind unopening_openedSession (fun _ =>
      follows_bind (unopening_delay _) (fun _ => follows_bind unopening_readStatus (fun _ =>
        follows_ite (follows_pure _) (unopening_pollFreeze k)))))

/-- The poll for the freeze, and what each of its ends goes on with (R170). -/
theorem unopening_afterPoll {k : Nat} {m : Op Unit} (pattern : Byte) (h : Unopening m) : Unopening (do
    let frozen ← pollFreeze k
    if frozen then writeKept pattern else m) :=
  follows_bind (unopening_pollFreeze k) (fun _ => follows_ite (unopening_writeKept _) h)

theorem unopening_stopTarget : Unopening stopTarget :=
  follows_bind (unopening_useCap _) (fun _ => follows_bind unopening_currentParams (fun _ => follows_bind unopening_readStatus (fun _ =>
    follows_ite (unopening_writeKept _) (follows_bind (unopening_writeKept _) (fun _ => follows_bind unopening_openedSession (fun _ =>
      unopening_afterPoll _ (follows_ite (follows_bind (unopening_writeKept _) (fun _ => follows_bind (unopening_delay _) (fun _ =>
        follows_bind (unopening_writeKept _) (fun _ => unopening_afterPoll _ (follows_raise _))))) (follows_raise _))))))))

theorem unopening_checkAvailable : Unopening checkAvailable := by
  refine follows_bind unopening_readStatus (fun st => ?_)
  cases unavailableFault st with
  | none => exact follows_pure _
  | some f => exact follows_raise _

/-! ### The serial exchange and resynchronization (R130 to R140) -/

theorem unopening_settleLoop : ∀ k, Unopening (settleLoop k)
  | 0 => follows_pure _
  | k + 1 => follows_bind (unopening_withWork _) (fun _ => follows_bind unopening_readStat (fun _ =>
      follows_ite (unopening_settleLoop k) (follows_pure _)))

theorem unopening_bitDelay (x : Session) (k : Nat) : Unopening (bitDelay x k) := follows_ite (follows_pure _) (unopening_delay _)

theorem unopening_clockOneBit : Unopening clockOneBit :=
  follows_bind unopening_openedSession (fun _ => follows_bind unopening_currentParams (fun _ => follows_bind unopening_getAcc (fun _ =>
    follows_bind (unopening_withWork _) (fun _ => follows_bind (unopening_writeKept _) (fun _ =>
      follows_bind (unopening_writeKept _) (fun _ => follows_bind (unopening_bitDelay _ _) (fun _ => follows_bind unopening_readStat (fun _ =>
        follows_bind (unopening_withWork _) (fun _ => follows_bind (unopening_writeKept _) (fun _ => unopening_bitDelay _ _))))))))))

theorem unopening_bitLoop : ∀ k, Unopening (bitLoop k)
  | 0 => follows_pure _
  | k + 1 => follows_bind unopening_clockOneBit (fun _ => follows_bind (unopening_withWork _) (fun _ => unopening_bitLoop k))

theorem unopening_serialExchange (cmd : Word16) (delayBits : Nat) : Unopening (serialExchange cmd delayBits) := by
  have preconditions : Unopening exchangePreconditions :=
    follows_bind unopening_checkAvailable (fun _ => follows_ite (follows_pure _) unopening_stopTarget)
  have settle : Unopening (settlePoll cmd delayBits) :=
    follows_bind unopening_openedSession (fun _ => follows_get (fun _ => follows_ite (unopening_settleLoop _) (follows_pure _)))
  rw [serialExchange_eq]
  exact follows_bind (unopening_useCap _) (fun _ => follows_ite (follows_raise _) (follows_bind preconditions (fun _ =>
    follows_bind (unopening_withWork _) (fun _ => follows_bind (unopening_withWork _) (fun _ => follows_bind settle (fun _ =>
      follows_bind (unopening_bitLoop _) (fun _ => unopening_getAcc)))))))

theorem unopening_nopFrames : ∀ k, Unopening (nopFrames k)
  | 0 => follows_pure _
  | k + 1 => follows_get (fun _ => follows_bind (unopening_serialExchange _ _) (fun _ => unopening_nopFrames k))

theorem unopening_idlePulses : ∀ k, Unopening (idlePulses k)
  | 0 => follows_raise _
  | k + 1 => follows_bind (unopening_withWork _) (fun _ => follows_get (fun _ => follows_bind (unopening_serialExchange _ _) (fun _ =>
      follows_bind unopening_currentParams (fun _ => follows_ite (follows_pure _) (unopening_idlePulses k)))))

theorem unopening_resynchronizeTarget : Unopening resynchronizeTarget :=
  follows_bind (unopening_useCap _) (fun _ => follows_bind (unopening_nopFrames _) (fun _ => unopening_idlePulses _))

/-- Resynchronization where the variant asks for it (R172, R174). -/
theorem unopening_resynchronize_if (c : Bool) : Unopening (do
    if c then resynchronizeTarget
    pure OpResult.ok) := by
  cases c with
  | false => exact follows_bind (follows_pure _) (fun _ => follows_pure _)
  | true => exact follows_bind unopening_resynchronizeTarget (fun _ => follows_pure _)

/-! ### Whole operations -/

/-- An update of the session with values taken from the parameters (R164, R176). -/
theorem unopening_update {f : State → Session → Session} {m : Op α} (hf : ∀ s : State, LineEffect s (s.withSession (f s))) (hm : Unopening m) :
    Unopening (do
      let s ← get
      updateSession (f s)
      m) :=
  follows_get_here (fun s => chain_bind (m := updateSession (f s)) (.single ⟨hf s, id⟩) (fun _ t _ => hm t))

theorem unopening_initSession : Unopening initSession :=
  follows_bind (unopening_useCap _) (fun _ => unopening_update (f := fun s x => x.initialised s.params) .initialised
    (follows_bind unopening_currentParams (fun _ => unopening_writeCtrl _)))

theorem unopening_deinitSession : Unopening deinitSession :=
  follows_bind (unopening_useCap _) (fun _ => follows_bind unopening_currentParams (fun _ => unopening_writeCtrl _))

theorem unopening_writeUnits : ∀ k done, Unopening (writeUnits k done)
  | 0, _ => follows_pure _
  | k + 1, _ => follows_get (fun _ =>
      follows_bind (follows_of_endState (endState_attempt _) (unopening_serialExchange _ _)) (fun answer =>
        match answer with
        | .error _ => follows_pure _
        | .ok _ => unopening_writeUnits k _))

theorem unopening_readUnits : ∀ k data, Unopening (readUnits k data)
  | 0, _ => follows_pure _
  | k + 1, _ => follows_get (fun _ =>
      follows_bind (follows_of_endState (endState_attempt _) (unopening_serialExchange _ _)) (fun answer => by
        cases answer with
        | error f => exact follows_pure _
        | ok v =>
          dsimp only
          cases decodeFrame v with
          | payload p => exact unopening_readUnits k _
          | _ => exact follows_pure _))


/-- A stream of an even number of bytes, on an open session (R145). -/
theorem unopening_stream {m : Op α} {result : α → OpResult} (count : Nat) (h : Unopening m) : Unopening (do
    let _ ← openedSession
    if count % 2 ≠ 0 then raise .illegalSize
    else do
      let r ← m
      pure (result r)) :=
  follows_bind unopening_openedSession (fun _ => follows_ite (follows_raise _) (follows_bind h (fun _ => follows_pure _)))

theorem unopening_clockArmedBit (d : Bool) : Unopening (clockArmedBit d) :=
  follows_bind unopening_openedSession (fun _ => follows_bind unopening_currentParams (fun _ => follows_bind (unopening_writeKept _) (fun _ =>
    follows_bind (unopening_writeKept _) (fun _ => follows_bind (unopening_bitDelay _ _) (fun _ => follows_bind (unopening_writeKept _) (fun _ =>
      unopening_bitDelay _ _))))))

/-- The head of the three resets: the capability, the pattern that asserts the reset, its pulse (R173 to R175). -/
theorem unopening_resetPulse {present : Caps → Bool} {pattern : VariantParams → Byte} {m : Session → VariantParams → Op OpResult}
    (h : ∀ x v, Unopening (m x v)) : Unopening (do
      useCap present
      let x ← openedSession
      let v ← currentParams
      writeKept (pattern v)
      delay (x.longDelay + x.resetExtraDelay)
      m x v) :=
  follows_bind (unopening_useCap _) (fun _ => follows_bind unopening_openedSession (fun x => follows_bind unopening_currentParams (fun v =>
    follows_bind (unopening_writeKept _) (fun _ => follows_bind (unopening_delay _) (fun _ => h x v)))))

/-- Every operation of the engine but OPEN ends a chain of effects away that gives the channel no owner (R160). -/
theorem exec_unopening {i : Instr} (hi : engineOperation i = true) (s : State) :
    ∃ u r, Relation.ReflTransGen UnopeningEffect s u ∧ exec i s = .next (u.conclude r) := by
  have ending : ∀ {m : Op Unit} {r : OpResult}, Unopening m → Unopening (do m; pure r) :=
    fun h => follows_bind h (fun _ => follows_pure _)
  cases i <;> simp only [engineOperation, Bool.false_eq_true] at hi
  case init => exact runOp_follows (ending unopening_initSession s)
  case deinit => exact runOp_follows (ending unopening_deinitSession s)
  case resetChip =>
    exact runOp_follows (unopening_resetPulse (pattern := fun v => v.patterns.reset) (fun _ _ =>
      follows_bind (unopening_writeKept _) (fun _ => ending (unopening_delay _))) s)
  case restartChip =>
    exact runOp_follows (unopening_resetPulse (pattern := fun v => v.patterns.resetArm) (fun _ _ =>
      follows_bind (unopening_writeKept _) (fun _ => follows_bind (unopening_delay _) (fun _ =>
        follows_bind unopening_stopTarget (fun _ => unopening_resynchronize_if _)))) s)
  case stopChip => exact runOp_follows (ending unopening_stopTarget s)
  case stepChip =>
    exact runOp_follows (follows_bind (unopening_useCap _) (fun _ => follows_bind unopening_checkAvailable (fun _ =>
      follows_get (fun _ => follows_bind (unopening_serialExchange _ _) (fun _ => follows_bind (unopening_clockArmedBit _) (fun _ =>
        follows_bind unopening_stopTarget (fun _ => follows_bind unopening_currentParams (fun _ =>
          unopening_resynchronize_if _))))))) s)
  case getStatus => exact runOp_follows (follows_bind unopening_readStatus (fun _ => follows_pure _) s)
  case releaseChip =>
    exact runOp_follows (unopening_resetPulse (pattern := fun v => v.patterns.reset) (fun _ _ => ending (unopening_writeCtrl _)) s)
  case speed base =>
    exact runOp_follows (follows_bind unopening_openedSession (fun _ =>
      unopening_update (f := fun t x => x.withSpeed t.params base) (fun t => .speed t base) (follows_pure _)) s)
  case senseCable flag =>
    have update : Unopening (updateSession (fun x => { x with sense := isOn flag })) := fun t => .single ⟨.sense t _, id⟩
    exact runOp_follows (follows_bind unopening_openedSession (fun _ => ending update) s)
  case debugLevel level =>
    have update : Unopening (updateSession (fun x => { x with debugLevel := level })) := fun t => .single ⟨.debugLevel t _, id⟩
    exact runOp_follows (follows_bind unopening_openedSession (fun _ => ending update) s)
  case setLed flag =>
    exact runOp_follows (follows_bind (unopening_useCap _) (fun _ => follows_bind unopening_openedSession (fun _ =>
      follows_bind unopening_currentParams (fun _ => follows_ite (follows_raise _) (ending (unopening_writeCtrl _))))) s)
  case serialClock cmd delayBits => exact runOp_follows (follows_bind (unopening_serialExchange _ _) (fun _ => follows_pure _) s)
  case resynchronize => exact runOp_follows (ending unopening_resynchronizeTarget s)
  case streamWrite count =>
    exact runOp_follows (unopening_stream (result := fun r => .streamWrite r.1 r.2) count (unopening_writeUnits _ _) s)
  case streamRead count =>
    exact runOp_follows (unopening_stream (result := fun r => .streamRead r.2.length r.1 r.2) count (unopening_readUnits _ _) s)
  case closeSession =>
    have close : Unopening (modify (fun u => { u with session := none, owned := false })) :=
      fun t => .single ⟨.closed t, fun h => by cases h⟩
    exact runOp_follows (follows_get (fun _ => follows_ite (follows_bind unopening_deinitSession (fun _ => ending close))
      (follows_raise _)) s)

end Sys2Proof.Invariants
end

