-- ==== Sys2Proof/Proofs/SessionSound.lean ====
section
/-! The relations of the session (R24, R26, R30, R44, R166): every effect but the opening of a channel keeps them, and OPEN ends with a session that has just been
initialised. -/

namespace Sys2Proof.Invariants

open Sys2Proof Sys2Proof.Machine Sys2Proof.Laws Sys2Proof.Scope

/-- The relations of the session and of its channel. -/
def ChannelSound (s : State) : Prop := s.sessionSound = true ∧ s.ownershipSound = true

/-- The relations read only the parameters, the owner flag, the session and the lines. -/
theorem channelSound_congr {s t : State} (hparams : t.params = s.params) (howned : t.owned = s.owned) (hsession : t.session = s.session)
    (hlines : t.lines = s.lines) : ChannelSound t ↔ ChannelSound s := by
  simp only [ChannelSound, State.sessionSound, State.ownershipSound, hparams, howned, hsession, hlines]

theorem channelSound_conclude {s : State} (r : OpResult) (h : ChannelSound s) : ChannelSound (s.conclude r) := h

theorem channelSound_closed {s : State} (howned : s.owned = false) (hsession : s.session = none) : ChannelSound s := by
  simp [ChannelSound, State.sessionSound, State.ownershipSound, howned, hsession]

/-- On an open channel the relations are those of the session. -/
theorem channelSound_open {s : State} {x : Session} (hsession : s.session = some x) :
    ChannelSound s ↔ x.sound s.params = true ∧ x.shadow = s.lines ∧ s.owned = true := by
  simp [ChannelSound, State.sessionSound, State.ownershipSound, hsession, and_assoc]

/-- A pattern write moves lines and shadow together (R24). -/
theorem channelSound_wroteCtrl {s : State} (p : Byte) (h : ChannelSound s) : ChannelSound (s.wroteCtrl p) := by
  cases hsession : s.session with
  | none =>
    have howned : s.owned = false := by simpa [State.ownershipSound, hsession] using h.2
    exact channelSound_closed howned (by simp [hsession])
  | some x =>
    obtain ⟨hsound, _, howned⟩ := (channelSound_open hsession).mp h
    exact (channelSound_open (x := { x with shadow := p }) (by simp [hsession])).mpr ⟨hsound, rfl, howned⟩

/-- An update of the session that keeps it sound and leaves its shadow alone. -/
theorem channelSound_withSession {s : State} {f : Session → Session} (hsound : ∀ x, x.sound s.params = true → (f x).sound s.params = true)
    (hshadow : ∀ x, (f x).shadow = x.shadow) (h : ChannelSound s) : ChannelSound (s.withSession f) := by
  cases hsession : s.session with
  | none =>
    have howned : s.owned = false := by simpa [State.ownershipSound, hsession] using h.2
    exact channelSound_closed howned (by simp [hsession])
  | some x =>
    obtain ⟨hx, hlines, howned⟩ := (channelSound_open hsession).mp h
    exact (channelSound_open (x := f x) (by simp [hsession])).mpr ⟨hsound x hx, (hshadow x).trans hlines, howned⟩

/-- Timing taken from the parameters is sound, whatever it was before (R30, R176). -/
theorem withSpeed_sound {x : Session} {p : Params} (base : Nat) (h : x.caps = capsOf x.variant) : (x.withSpeed p base).sound p = true := by
  simp [Session.sound, Session.timingSound, Session.withSpeed, h]

theorem initialised_sound {x : Session} {p : Params} (h : x.caps = capsOf x.variant) : (x.initialised p).sound p = true :=
  withSpeed_sound p.defaultBaseDelay h

theorem caps_of_sound {x : Session} {p : Params} (h : x.sound p = true) : x.caps = capsOf x.variant := by
  simp only [Session.sound, Bool.and_eq_true, beq_iff_eq] at h
  exact h.1

theorem channelSound_effect {s t : State} (h : UnopeningEffect s t) (hs : ChannelSound s) : ChannelSound t := by
  obtain ⟨effect, hopen⟩ := h
  cases effect with
  | work g => exact hs
  | wrote p => exact channelSound_wroteCtrl p hs
  | sampled => exact hs
  | waited k => exact (channelSound_congr (by simp) (by simp) (by simp) (by simp)).mpr hs
  | initialised => exact channelSound_withSession (fun x hx => initialised_sound (caps_of_sound hx)) (fun _ => rfl) hs
  | speed base => exact channelSound_withSession (fun x hx => withSpeed_sound base (caps_of_sound hx)) (fun _ => rfl) hs
  | sense b => exact channelSound_withSession (fun _ hx => hx) (fun _ => rfl) hs
  | debugLevel n => exact channelSound_withSession (fun _ hx => hx) (fun _ => rfl) hs
  | opened v h => rw [hopen rfl] at h; cases h
  | closed => exact channelSound_closed rfl rfl

theorem channelSound_chain {s t : State} (h : Relation.ReflTransGen UnopeningEffect s t) (hs : ChannelSound s) : ChannelSound t := by
  induction h with
  | refl => exact hs
  | tail _ effect ih => exact channelSound_effect effect ih

/-- INIT on a session with the capability table of its variant (R164). -/
theorem run_initSession {s : State} {x : Session} (hsession : s.session = some x) (hcaps : x.caps = capsOf x.variant) :
    initSession s = .ok () ((s.withSession (fun y => y.initialised s.params)).wroteCtrl (variantParams s.params x.variant).patterns.run) := by
  have hcap : x.caps.init = true := by rw [hcaps]; rfl
  rw [initSession, run_bind, run_useCap hsession]
  simp only [hcap, if_true, run_bind, run_get, run_updateSession]
  rw [run_currentParams (x := x.initialised s.params) (by simp [hsession])]
  simp

/-- OPEN is refused with nothing done, or ends with a fresh session, initialised (R160, R164). -/
theorem execOpenSession_cases (variant : Nat) (s : State) :
    execOpenSession variant s = .next (s.takeFault .openFail) ∨
    ∃ v : Variant, execOpenSession variant s = .next (State.conclude
      ((({ s with owned := true, session := some (newSession v) } : State).withSession (fun y => y.initialised s.params)).wroteCtrl
        (variantParams s.params v).patterns.run) .ok) := by
  unfold execOpenSession
  cases variantOf variant with
  | none => exact .inl (runOp_fault rfl)
  | some v =>
    cases howned : s.owned with
    | true => exact .inl (runOp_fault (by simp [run_bind, howned]))
    | false =>
      refine .inr ⟨v, runOp_ok ?_⟩
      simp only [run_bind, run_get, howned, Bool.false_eq_true, if_false, run_set]
      rw [run_initSession (x := newSession v) rfl rfl]
      rfl

theorem execOpenSession_channelSound {variant : Nat} {s t : State} (hs : ChannelSound s) (h : execOpenSession variant s = .next t) :
    ChannelSound t := by
  rcases execOpenSession_cases variant s with hrefused | ⟨v, hopened⟩
  · rw [hrefused] at h
    cases h
    exact hs
  · rw [hopened] at h
    cases h
    have hsound : ((newSession v).initialised s.params).sound s.params = true := initialised_sound rfl
    exact (channelSound_open (x := { (newSession v).initialised s.params with shadow := (variantParams s.params v).patterns.run }) rfl).mpr
      ⟨hsound, rfl, rfl⟩

/-- Operations on target memory reach neither the session nor the lines (R65). -/
theorem memPath_channel {s t : State} (h : MemPath s t) :
    t.params = s.params ∧ t.owned = s.owned ∧ t.session = s.session ∧ t.lines = s.lines := by
  induction h with
  | refl => exact ⟨rfl, rfl, rfl, rfl⟩
  | tail _ effect ih => cases effect <;> exact ih

theorem channelSound_memPath {s t : State} (h : MemPath s t) (hs : ChannelSound s) : ChannelSound t := by
  obtain ⟨hparams, howned, hsession, hlines⟩ := memPath_channel h
  exact (channelSound_congr hparams howned hsession hlines).mpr hs

theorem channelSound_registers {s u : State} (h : Registers s u) (hs : ChannelSound s) : ChannelSound u := by
  obtain ⟨hint, base, families, e, size, d, v, _, _, hp, _, rfl⟩ := h
  have hv : ChannelSound v := channelSound_memPath (travels_ok (travels_probeCandidates base families) hp) hs
  exact hv

theorem opensChannel_iff {i : Instr} : opensChannel i = true ↔ ∃ variant, i = .openSession variant := by
  cases i <;> simp [opensChannel]

theorem exec_channelSound {i : Instr} {s t : State} (hs : ChannelSound s) (h : exec i s = .next t) : ChannelSound t := by
  by_cases hengine : engineOperation i = true
  · obtain ⟨u, r, path, hexec⟩ := exec_unopening hengine s
    rw [hexec] at h
    cases h
    exact channelSound_conclude r (channelSound_chain path hs)
  · cases hopens : opensChannel i with
    | true =>
      obtain ⟨variant, rfl⟩ := opensChannel_iff.mp hopens
      exact execOpenSession_channelSound hs h
    | false =>
      obtain ⟨u, r, hexec, hu⟩ := exec_memory_cases (i := i) (by simp [memoryOperation, hengine, hopens]) s
      rw [hexec] at h
      cases h
      rcases hu with path | registration
      · exact channelSound_conclude r (channelSound_memPath path hs)
      · exact channelSound_conclude r (channelSound_registers registration hs)

/-- Settles O11: only OPEN opens a channel, and it initialises the session it creates; every other effect keeps the relations. -/
theorem everyStepKeepsTheSessionSound : Obligations.EveryStepKeepsTheSessionSound := fun _ _ hsession howned =>
  step_keeps (I := ChannelSound) (fun _ _ _ h => h) (fun _ _ h => h) (fun _ _ _ => exec_channelSound) ⟨hsession, howned⟩

end Sys2Proof.Invariants
end

