-- ==== Sys2Proof/Proofs/AreaEffects.lean ====
section
/-! A family operation on the area that begins at an address leaves every other area of the registry as it is, and refuses a RAM area with nothing done (R249,
R257). -/

namespace Sys2Proof.Invariants

open Sys2Proof Sys2Proof.Machine Sys2Proof.Laws Sys2Proof.Scope

variable {α β : Type} {b : Nat}

/-- The areas that begin elsewhere than at `b`. -/
def areasElsewhere (b : Nat) (s : State) : List MemoryArea := s.registry.filter (fun a => decide (a.beginAddr ≠ b))

def SameElsewhere (b : Nat) (s t : State) : Prop := areasElsewhere b t = areasElsewhere b s

/-- Wherever `m` ends, it changed no area but the one that begins at `b`. -/
abbrev Confined (b : Nat) (m : Op α) : Prop := Follows (SameElsewhere b) m

theorem sameElsewhere_of_registry {s t : State} (h : t.registry = s.registry) : SameElsewhere b s t := by
  rw [SameElsewhere, areasElsewhere, h, areasElsewhere]

theorem sameElsewhere_of_chain {s t : State} (h : Relation.ReflTransGen (SameElsewhere b) s t) : SameElsewhere b s t := by
  induction h with
  | refl => rfl
  | tail _ same ih => exact same.trans ih

theorem quiet_endState {m : Op α} (h : Quiet m) (s : State) : (endState (m s)).registry = s.registry := by
  have := h s
  cases hm : m s with
  | ok a t => rw [hm] at this; exact this
  | error e t => rw [hm] at this; exact this

theorem confined_of_quiet {m : Op α} (h : Quiet m) : Confined b m := fun s => .single (sameElsewhere_of_registry (quiet_endState h s))

/-- An update of the area at `b` that keeps where the area begins. -/
theorem confined_updateArea {f : MemoryArea → MemoryArea} (hf : ∀ a, (f a).beginAddr = a.beginAddr) : Confined b (updateArea b f) := by
  have kept : ∀ l : List MemoryArea, (l.map (fun a => if a.beginAddr = b then f a else a)).filter (fun a => decide (a.beginAddr ≠ b)) =
      l.filter (fun a => decide (a.beginAddr ≠ b)) := by
    intro l
    induction l with
    | nil => rfl
    | cons a l ih => by_cases h : a.beginAddr = b <;> simp_all
  exact fun s => .single (kept s.registry)

theorem confined_markErased (v : Bool) : Confined b (markErased b v) := confined_updateArea (fun a => withErased_begin a v)

theorem confined_pending (p : PendingErase) : Confined b (updateArea b (fun a => a.withPending p)) := confined_updateArea (fun a => withPending_begin a p)

/-! ### Shared parts of the families -/

theorem confined_setPoll (k : Nat) : Confined b (setPoll k) := confined_of_quiet (fun _ => rfl)

theorem confined_rd (a n : Nat) : Confined b (rd a n) := confined_of_quiet (quiet_rd a n)

theorem confined_wr (a : Nat) (v : BusWord) : Confined b (wr a v) := confined_of_quiet (quiet_wr a v)

theorem confined_wrAll (ws : List (Nat × BusWord)) : Confined b (wrAll ws) := confined_of_quiet (quiet_wrAll ws)

theorem quiet_owningArea (a : Nat) : Quiet (owningArea a) := by
  intro s
  cases h : areaOf s.registry a with
  | none => rw [run_owningArea_none h]
  | some e => rw [run_owningArea h]

theorem confined_owningArea (a : Nat) : Confined b (owningArea a) := confined_of_quiet (quiet_owningArea a)

theorem confined_familyOp {m : Op FlashResult} (h : Confined b m) : Confined b (familyOp b m) :=
  follows_bind (follows_of_endState (endState_orAccess m) h) (fun r =>
    follows_bind (confined_updateArea (fun a => afterStatus_begin a r.status)) (fun _ => follows_pure _))

theorem confined_verifyErased (lo hi w : Nat) : Confined b (verifyErased lo hi w) := by
  have cells : ∀ n c, Confined b (verifyCells w n c) := by
    intro n
    induction n with
    | zero => intro c; exact follows_pure _
    | succ n ih => intro c; exact follows_bind (confined_rd _ _) (fun _ => follows_ite (ih _) (follows_pure _))
  exact cells _ _

theorem confined_programCells {w : Nat} {cell : Nat → BusWord → Op FlashStatus} (h : ∀ c want, Confined b (cell c want)) (addr n : Nat)
    (data : Nat → Byte) : Confined b (programCells w cell addr n data) := by
  have one : ∀ done c, Confined b (programOneCell w cell addr n data done c) := fun _ _ =>
    follows_bind (confined_rd _ _) (fun _ => follows_ite (follows_pure _) (h _ _))
  have loop : ∀ k done c, Confined b (cellLoop w cell addr n data k done c) := by
    intro k
    induction k with
    | zero => intro done c; exact follows_pure _
    | succ k ih =>
      intro done c
      exact follows_ite (follows_bind (follows_of_endState (endState_orAccessStatus _) (one _ _)) (fun _ =>
        follows_ite (ih _ _) (follows_pure _))) (follows_pure _)
  exact loop _ _ _

/-! ### AMD -/

theorem confined_amdDescriptor (a : Nat) : Confined b (amdDescriptor a) :=
  follows_bind (confined_owningArea a) (fun e => by cases e.binding <;> first | exact follows_pure _ | exact follows_raise _)

theorem confined_togglePoll (d : AmdDescriptor) (c : Nat) : Confined b (togglePoll d c) := by
  have lanes : ∀ prev cur ls busy, Confined b (toggleLanes d c prev cur ls busy) := by
    intro prev cur ls
    induction ls with
    | nil => intro busy; exact follows_pure _
    | cons l ls ih =>
      intro busy
      exact follows_ite (ih _) (follows_ite (follows_bind (confined_rd _ _) (fun _ => follows_bind (confined_rd _ _) (fun _ =>
        follows_ite (ih _) (follows_pure _)))) (ih _))
  have reset : ∀ st : FlashStatus, Confined b (do amdReset d; pure st) := fun _ => follows_bind (confined_wr _ _) (fun _ => follows_pure _)
  have loop : ∀ k prev, Confined b (toggleLoop d c k prev) := by
    intro k
    induction k with
    | zero => intro prev; exact reset _
    | succ k ih =>
      intro prev
      refine follows_bind (confined_setPoll _) (fun _ => follows_bind (confined_rd _ _) (fun cur => follows_bind (lanes _ _ _ _) (fun busy => ?_)))
      match busy with
      | none => exact reset _
      | some false => exact follows_pure _
      | some true => exact ih _
  exact follows_bind (confined_rd _ _) (fun _ => follows_get (fun _ => loop _ _))

theorem confined_amdAwaitErase (d : AmdDescriptor) (lo hi : Nat) : Confined b (amdAwaitErase b d lo hi) := by
  refine follows_bind (confined_pending _) (fun _ => follows_bind (confined_togglePoll d _) (fun _ => follows_ite (follows_pure _) ?_))
  refine follows_bind (confined_verifyErased _ _ _) (fun _ => follows_ite (follows_pure _) ?_)
  exact follows_ite (follows_bind (confined_markErased _) (fun _ => follows_pure _)) (follows_pure _)

theorem confined_amdEraseWaitOp : Confined b (amdEraseWaitOp b) := by
  refine confined_familyOp (follows_bind (confined_amdDescriptor b) (fun d => ?_))
  cases d.pendingRange with
  | none => exact follows_pure _
  | some range => exact confined_amdAwaitErase d _ _

theorem confined_amdPrepare {m : Op FlashResult} (h : Confined b m) : Confined b (amdPrepare b m) :=
  follows_bind (confined_amdDescriptor b) (fun _ => follows_ite h (follows_bind confined_amdEraseWaitOp (fun _ => follows_ite h (follows_pure _))))

theorem confined_amdProgramCell (d : AmdDescriptor) (c : Nat) (want : BusWord) : Confined b (amdProgramCell b d c want) :=
  follows_bind (confined_wrAll _) (fun _ => follows_bind (confined_markErased _) (fun _ => follows_bind (confined_togglePoll d c) (fun _ =>
    follows_ite (follows_pure _) (follows_bind (confined_rd _ _) (fun _ => follows_pure _)))))

theorem confined_amdStartErase (ws : List (Nat × BusWord)) (p : PendingErase) : Confined b (amdStartErase b ws p) :=
  follows_bind (confined_markErased _) (fun _ => follows_bind (confined_wrAll _) (fun _ => follows_bind (confined_pending _) (fun _ =>
    follows_bind (confined_markErased _) (fun _ => follows_pure _))))

/-! ### CFM -/

theorem confined_cfmDescriptor (a : Nat) : Confined b (cfmDescriptor a) :=
  follows_bind (confined_owningArea a) (fun e => by cases e.binding <;> first | exact follows_pure _ | exact follows_raise _)

theorem confined_cfmCommand (d : CfmDescriptor) (a : Nat) (v : BusWord) (code : Byte) : Confined b (cfmCommand d a v code) := by
  have poll : ∀ awaited k, Confined b (cfmPoll d awaited k) := by
    intro awaited k
    induction k with
    | zero => exact follows_pure _
    | succ k ih =>
      exact follows_bind (confined_setPoll _) (fun _ => follows_bind (confined_rd _ _) (fun _ =>
        follows_ite (follows_pure _) (follows_ite (follows_pure _) ih)))
  exact follows_bind (confined_wrAll _) (fun _ => follows_get (fun _ => follows_bind (poll _ _) (fun _ =>
    follows_ite (follows_pure _) (poll _ _))))

theorem confined_cfmProgramCell (d : CfmDescriptor) (c : Nat) (want : BusWord) : Confined b (cfmProgramCell b d c want) :=
  follows_bind (confined_markErased _) (fun _ => follows_bind (confined_cfmCommand d c want _) (fun _ =>
    follows_ite (follows_pure _) (follows_bind (confined_rd _ _) (fun _ => follows_pure _))))

theorem confined_cfmErase (d : CfmDescriptor) (lo hi : Nat) (code : Byte) : Confined b (cfmErase d lo hi code) :=
  follows_bind (confined_cfmCommand _ _ _ _) (fun _ => follows_ite (follows_pure _) (confined_verifyErased _ _ _))

/-! ### INTEL -/

theorem confined_intelDescriptor (a : Nat) : Confined b (intelDescriptor a) :=
  follows_bind (confined_owningArea a) (fun e => by cases e.binding <;> first | exact follows_pure _ | exact follows_raise _)

theorem confined_intelSector (d : IntelDescriptor) (a : Nat) : Confined b (intelSector d a) := by
  unfold intelSector
  cases d.sectorRange a with
  | none => exact follows_raise _
  | some r => exact follows_pure _

theorem confined_statusPoll (d : IntelDescriptor) (a : Nat) : Confined b (statusPoll d a) := by
  have loop : ∀ k, Confined b (statusLoop d a k) := by
    intro k
    induction k with
    | zero => exact follows_bind (confined_wr _ _) (fun _ => follows_pure _)
    | succ k ih =>
      exact follows_bind (confined_setPoll _) (fun _ => follows_bind (confined_rd _ _) (fun _ =>
        follows_ite (follows_ite (follows_bind (confined_wr _ _) (fun _ => follows_bind (confined_wr _ _) (fun _ => follows_pure _)))
          (follows_pure _)) ih))
  exact follows_get (fun _ => loop _)

theorem confined_programChunk (d : IntelDescriptor) (s c : Nat) (wants : List BusWord) : Confined b (programChunk d s c wants) := by
  have verify : ∀ (l : List BusWord) c, Confined b (verifyBurst d.chip.busWidth c l) := by
    intro l
    induction l with
    | nil => intro c; exact follows_pure _
    | cons v vs ih => intro c; exact follows_bind (confined_rd _ _) (fun _ => follows_ite (ih _) (follows_pure _))
  match wants with
  | [] => exact follows_pure _
  | [want] =>
    exact follows_bind (confined_wrAll _) (fun _ => follows_bind (confined_statusPoll _ _) (fun _ => follows_ite (follows_pure _)
      (follows_bind (confined_wr _ _) (fun _ => follows_bind (confined_rd _ _) (fun _ => follows_pure _)))))
  | v :: x :: vs =>
    exact follows_bind (confined_wr _ _) (fun _ => follows_bind (confined_statusPoll _ _) (fun _ => follows_ite (follows_pure _)
      (follows_bind (confined_wr _ _) (fun _ => follows_bind (confined_wrAll _) (fun _ => follows_bind (confined_wr _ _) (fun _ =>
        follows_bind (confined_statusPoll _ _) (fun _ => follows_ite (follows_pure _)
          (follows_bind (confined_wr _ _) (fun _ => verify _ _)))))))))

theorem confined_intelChunk (d : IntelDescriptor) (addr n : Nat) (data : Nat → Byte) (done c : Nat) (unlocked : List Nat) :
    Confined b (intelChunk b d addr n data done c unlocked) := by
  have merge : ∀ w k done c, Confined b (mergeChunk w addr n data k done c) := by
    intro w k
    induction k with
    | zero => intro done c; exact follows_pure _
    | succ k ih => intro done c; exact follows_bind (confined_rd _ _) (fun _ => follows_bind (ih _ _) (fun _ => follows_pure _))
  have unlock : ∀ s, Confined b (unlockOnce d s unlocked) := fun _ =>
    follows_ite (follows_pure _) (follows_bind (confined_wrAll _) (fun _ => follows_pure _))
  exact follows_bind (confined_intelSector _ _) (fun _ => follows_bind (merge _ _ _ _) (fun _ =>
    follows_ite (follows_bind (unlock _) (fun _ => follows_bind (confined_markErased _) (fun _ => follows_bind (confined_programChunk _ _ _ _) (fun _ =>
      follows_pure _)))) (follows_pure _)))

theorem confined_chunkLoop (d : IntelDescriptor) (addr n : Nat) (data : Nat → Byte) : ∀ k before done c unlocked,
    Confined b (chunkLoop b d addr n data k before done c unlocked) := by
  have finish : ∀ before, Confined b (intelFinish d before n) := fun _ =>
    follows_bind (follows_of_endState (endState_orAccessStatus _) (follows_bind (confined_wr _ _) (fun _ => follows_pure _))) (fun _ => follows_pure _)
  intro k
  induction k with
  | zero => intro before done c unlocked; exact finish _
  | succ k ih =>
    intro before done c unlocked
    exact follows_ite (follows_bind (follows_of_endState (endState_orAccessChunk _) (confined_intelChunk d addr n data done c unlocked)) (fun _ =>
      follows_ite (ih _ _ _ _) (follows_pure _))) (finish _)

theorem confined_intelEraseSectorOp (addr : Nat) : Confined b (intelEraseSectorOp b addr) :=
  confined_familyOp (follows_bind (confined_intelDescriptor b) (fun _ => follows_bind (confined_intelSector _ _) (fun _ =>
    follows_bind (confined_markErased _) (fun _ => follows_bind (confined_wrAll _) (fun _ => follows_bind (confined_wrAll _) (fun _ =>
      follows_bind (confined_statusPoll _ _) (fun _ => follows_ite (follows_pure _) (follows_bind (confined_wr _ _) (fun _ =>
        follows_bind (confined_verifyErased _ _ _) (fun _ => follows_pure _))))))))))

theorem confined_intelEraseSectors : ∀ l, Confined b (intelEraseSectors b l)
  | [] => follows_bind (confined_markErased _) (fun _ => follows_pure _)
  | _ :: rest => follows_bind (confined_intelEraseSectorOp _) (fun _ => follows_ite (confined_intelEraseSectors rest) (follows_pure _))

/-! ### A RAM area is refused -/

/-- On a RAM area at `b`, `m` is refused with nothing done (R163, R257). -/
def RefusesRam (b : Nat) (m : Op α) : Prop :=
  ∀ s e, areaOf s.registry b = some e → e.binding = .ram → m s = .error (.fault .illegalOperation) s

theorem refusesRam_bind {m : Op α} (h : RefusesRam b m) (k : α → Op β) : RefusesRam b (m >>= k) := by
  intro s e ho hram
  rw [run_bind, h s e ho hram]

theorem refusesRam_familyOp {m : Op FlashResult} (h : RefusesRam b m) : RefusesRam b (familyOp b m) :=
  fun s e ho hram => run_familyOp_fault (h s e ho hram)

theorem refusesRam_amdDescriptor : RefusesRam b (amdDescriptor b) := by
  intro s e ho hram
  rw [amdDescriptor, run_bind, run_owningArea ho]
  simp [hram]

theorem refusesRam_cfmDescriptor : RefusesRam b (cfmDescriptor b) := by
  intro s e ho hram
  rw [cfmDescriptor, run_bind, run_owningArea ho]
  simp [hram]

theorem refusesRam_intelDescriptor : RefusesRam b (intelDescriptor b) := by
  intro s e ho hram
  rw [intelDescriptor, run_bind, run_owningArea ho]
  simp [hram]

/-! ### The family operations -/

/-- A family operation for the area at `b`: it travels, touches only that area, and refuses a RAM area. -/
structure FlashOperation (b : Nat) (m : Op FlashResult) : Prop where
  travels : Travels m
  sameElsewhere : Confined b m
  refusesRam : RefusesRam b m

theorem flashOperation_amdProgramOp (addr n : Nat) (data : Nat → Byte) : FlashOperation b (amdProgramOp b addr n data) :=
  ⟨travels_amdProgramOp _ _ _ _,
    confined_familyOp (confined_amdPrepare (follows_bind (confined_amdDescriptor b) (fun d => confined_programCells (confined_amdProgramCell d) _ _ _))),
    refusesRam_familyOp (refusesRam_bind refusesRam_amdDescriptor _)⟩

theorem flashOperation_amdEraseSectorOp (addr : Nat) : FlashOperation b (amdEraseSectorOp b addr) :=
  ⟨travels_amdEraseSectorOp _ _,
    confined_familyOp (confined_amdPrepare (follows_bind (confined_amdDescriptor b) (fun _ => confined_amdStartErase _ _))),
    refusesRam_familyOp (refusesRam_bind refusesRam_amdDescriptor _)⟩

theorem flashOperation_amdEraseAllOp : FlashOperation b (amdEraseAllOp b) :=
  ⟨travels_amdEraseAllOp _,
    confined_familyOp (confined_amdPrepare (follows_bind (confined_amdDescriptor b) (fun _ => confined_amdStartErase _ _))),
    refusesRam_familyOp (refusesRam_bind refusesRam_amdDescriptor _)⟩

theorem flashOperation_amdEraseWaitOp : FlashOperation b (amdEraseWaitOp b) :=
  ⟨travels_amdEraseWaitOp _, confined_amdEraseWaitOp, refusesRam_familyOp (refusesRam_bind refusesRam_amdDescriptor _)⟩

theorem flashOperation_amdBlankCheckOp : FlashOperation b (amdBlankCheckOp b) :=
  ⟨travels_amdBlankCheckOp _, confined_familyOp (follows_bind (confined_amdDescriptor b) (fun _ => follows_pure _)),
    refusesRam_familyOp (refusesRam_bind refusesRam_amdDescriptor _)⟩

theorem flashOperation_cfmProgramOp (addr n : Nat) (data : Nat → Byte) : FlashOperation b (cfmProgramOp b addr n data) :=
  ⟨travels_cfmProgramOp _ _ _ _,
    confined_familyOp (follows_bind (confined_cfmDescriptor b) (fun d => confined_programCells (confined_cfmProgramCell d) _ _ _)),
    refusesRam_familyOp (refusesRam_bind refusesRam_cfmDescriptor _)⟩

theorem flashOperation_cfmEraseSectorOp (addr : Nat) : FlashOperation b (cfmEraseSectorOp b addr) :=
  ⟨travels_cfmEraseSectorOp _ _,
    confined_familyOp (follows_bind (confined_cfmDescriptor b) (fun _ => follows_bind (confined_markErased _) (fun _ =>
      follows_bind (confined_cfmErase _ _ _ _) (fun _ => follows_pure _)))),
    refusesRam_familyOp (refusesRam_bind refusesRam_cfmDescriptor _)⟩

theorem flashOperation_cfmEraseAllOp : FlashOperation b (cfmEraseAllOp b) :=
  ⟨travels_cfmEraseAllOp _,
    confined_familyOp (follows_bind (confined_cfmDescriptor b) (fun _ => follows_bind (confined_markErased _) (fun _ =>
      follows_bind (confined_cfmErase _ _ _ _) (fun _ => follows_ite (follows_bind (confined_markErased _) (fun _ => follows_pure _))
        (follows_pure _))))),
    refusesRam_familyOp (refusesRam_bind refusesRam_cfmDescriptor _)⟩

theorem flashOperation_cfmEraseWaitOp : FlashOperation b (cfmEraseWaitOp b) :=
  ⟨travels_cfmEraseWaitOp _, confined_familyOp (follows_bind (confined_cfmDescriptor b) (fun _ => follows_pure _)),
    refusesRam_familyOp (refusesRam_bind refusesRam_cfmDescriptor _)⟩

theorem flashOperation_cfmBlankCheckOp : FlashOperation b (cfmBlankCheckOp b) :=
  ⟨travels_cfmBlankCheckOp _,
    confined_familyOp (follows_bind (confined_cfmDescriptor b) (fun _ => follows_bind (confined_cfmCommand _ _ _ _) (fun _ =>
      follows_ite (follows_pure _) (follows_bind (confined_rd _ _) (fun _ =>
        follows_ite (follows_bind (confined_wr _ _) (fun _ => follows_pure _)) (follows_pure _)))))),
    refusesRam_familyOp (refusesRam_bind refusesRam_cfmDescriptor _)⟩

theorem flashOperation_intelProgramOp (addr n : Nat) (data : Nat → Byte) : FlashOperation b (intelProgramOp b addr n data) :=
  ⟨travels_intelProgramOp _ _ _ _,
    confined_familyOp (follows_bind (confined_intelDescriptor b) (fun d => follows_ite (follows_pure _) (confined_chunkLoop d _ _ _ _ _ _ _ _))),
    refusesRam_familyOp (refusesRam_bind refusesRam_intelDescriptor _)⟩

theorem flashOperation_intelEraseSectorOp (addr : Nat) : FlashOperation b (intelEraseSectorOp b addr) :=
  ⟨travels_intelEraseSectorOp _ _, confined_intelEraseSectorOp addr, refusesRam_familyOp (refusesRam_bind refusesRam_intelDescriptor _)⟩

theorem flashOperation_intelEraseAllOp : FlashOperation b (intelEraseAllOp b) :=
  ⟨travels_intelEraseAllOp _, confined_familyOp (follows_bind (confined_intelDescriptor b) (fun _ => confined_intelEraseSectors _)),
    refusesRam_familyOp (refusesRam_bind refusesRam_intelDescriptor _)⟩

theorem flashOperation_intelEraseWaitOp : FlashOperation b (intelEraseWaitOp b) :=
  ⟨travels_intelEraseWaitOp _, confined_familyOp (follows_bind (confined_intelDescriptor b) (fun _ => follows_pure _)),
    refusesRam_familyOp (refusesRam_bind refusesRam_intelDescriptor _)⟩

theorem flashOperation_intelBlankCheckOp : FlashOperation b (intelBlankCheckOp b) :=
  ⟨travels_intelBlankCheckOp _, confined_familyOp (follows_bind (confined_intelDescriptor b) (fun _ => follows_pure _)),
    refusesRam_familyOp (refusesRam_bind refusesRam_intelDescriptor _)⟩

end Sys2Proof.Invariants
end

