-- ==== Sys2Proof/Proofs/AreasSound.lean ====
section
/-! Areas, flags and descriptors in agreement (R34, R35, R38, R213, R215). A family operation changes only the area it acts on, which is a flash area, and of that
area nothing its soundness reads; a splice adds a flash area bound to its chip, and RAM without flags. -/

namespace Sys2Proof.Invariants

open Sys2Proof Sys2Proof.Machine Sys2Proof.Laws Sys2Proof.Scope

variable {α β : Type}

/-! ### Soundness of one area -/

theorem sound_of_chip {a : MemoryArea} {chip : ChipCommon} (h : chipOf a.binding = some chip) : a.sound = (a.flags.flash && boundTo chip a) := by
  unfold MemoryArea.sound
  cases hb : a.binding with
  | ram => rw [hb] at h; cases h
  | amd d => rw [hb] at h; cases h; rfl
  | cfm d => rw [hb] at h; cases h; rfl
  | intel d => rw [hb] at h; cases h; rfl

theorem sound_of_ram {a : MemoryArea} (h : a.binding = .ram) :
    a.sound = (a.flags == { flash := false, auto := false, erased := false, error := false }) := by
  simp only [MemoryArea.sound, h]

theorem chipOf_settled (d : Binding) : chipOf d.settled = chipOf d := by
  cases d <;> rfl

theorem chipOf_eq_none {d : Binding} : chipOf d = none ↔ d = .ram := by
  cases d <;> simp [chipOf]

/-- A flash area's soundness reads only what is fixed at registration (R38, R249). -/
theorem sound_of_fixed {a c : MemoryArea} (h : c.fixed = a.fixed) (hflash : a.binding ≠ .ram) : c.sound = a.sound := by
  simp only [MemoryArea.fixed, Prod.mk.injEq] at h
  obtain ⟨hbegin, hend, hflag, _, hsettled⟩ := h
  have hchips : chipOf c.binding = chipOf a.binding := by rw [← chipOf_settled c.binding, hsettled, chipOf_settled]
  cases ha : chipOf a.binding with
  | none => exact absurd (chipOf_eq_none.mp ha) hflash
  | some chip => rw [sound_of_chip ha, sound_of_chip (hchips.trans ha), hflag, boundTo, boundTo, hbegin, hend]

/-! ### The two invariants of the registry, together -/

/-- From a partition of sound areas, `t` is one too. -/
def AreasKept (s t : State) : Prop :=
  s.partitioned = true → s.areasSound = true → t.partitioned = true ∧ t.areasSound = true

theorem areasKept_of_registry {s t : State} (h : t.registry = s.registry) : AreasKept s t := fun hp hs => by
  rw [State.partitioned, State.areasSound, h]
  exact ⟨hp, hs⟩

theorem areasKept_trans {s t u : State} (hst : AreasKept s t) (htu : AreasKept t u) : AreasKept s u := fun hp hs => by
  obtain ⟨hp', hs'⟩ := hst hp hs
  exact htu hp' hs'

theorem areasKept_of_chain {s t : State} (h : Relation.ReflTransGen AreasKept s t) : AreasKept s t := by
  induction h with
  | refl => exact areasKept_of_registry rfl
  | tail _ kept ih => exact areasKept_trans ih kept

theorem areasKept_of_quiet {m : Op α} (h : Quiet m) : Follows AreasKept m := fun s => .single (areasKept_of_registry (quiet_endState h s))

theorem areasKept_runOp {m : Op OpResult} (h : Follows AreasKept m) (s : State) : ∃ u r, AreasKept s u ∧ runOp m s = .next (u.conclude r) := by
  obtain ⟨u, r, path, hrun⟩ := runOp_follows (h s)
  exact ⟨u, r, areasKept_of_chain path, hrun⟩

/-! ### Family operations -/

/-- Effects on target memory that change no area but the flash area at `b` keep the areas sound. -/
theorem areasSound_of_sameElsewhere {s t : State} {b : Nat} (path : MemPath s t) (same : SameElsewhere b s t)
    (hflash : ∀ a ∈ s.registry, a.beginAddr = b → a.binding ≠ .ram) (hs : s.areasSound = true) : t.areasSound = true := by
  simp only [State.areasSound, List.all_eq_true] at hs ⊢
  intro c hc
  by_cases hb : c.beginAddr = b
  · have hfixed : c.fixed ∈ s.registry.map MemoryArea.fixed := (registryKept_path path).1 ▸ List.mem_map_of_mem hc
    obtain ⟨a, ha, heq⟩ := List.mem_map.mp hfixed
    have hbegin : a.beginAddr = b := (congrArg Prod.fst heq).trans hb
    rw [sound_of_fixed heq.symm (hflash a ha hbegin)]
    exact hs a ha
  · have helse : c ∈ areasElsewhere b t := List.mem_filter.mpr ⟨hc, by simpa using hb⟩
    rw [same] at helse
    exact hs c (List.mem_filter.mp helse).1

/-- A family operation on the area that owns an address keeps a partition of sound areas. -/
theorem areasKept_flashOperation {m : Op FlashResult} {s : State} {e : MemoryArea} {x : Nat} (hm : FlashOperation e.beginAddr m)
    (ho : areaOf s.registry x = some e) : AreasKept s (endState (m s)) := by
  intro hp hs
  have hbegin : areaOf s.registry e.beginAddr = some e := areaOf_begin hp ho
  by_cases hram : e.binding = .ram
  · rw [hm.refusesRam s e hbegin hram]
    exact ⟨hp, hs⟩
  · have path : MemPath s (endState (m s)) := by
      have := hm.travels s
      cases h : m s with
      | ok a t => rw [h] at this; exact this
      | error err t => rw [h] at this; exact this
    have hflash : ∀ a ∈ s.registry, a.beginAddr = e.beginAddr → a.binding ≠ .ram := by
      intro a ha heq
      have howner : areaOf s.registry e.beginAddr = some a := areaOf_unique _ 0 _ a hp ha heq.le (heq ▸ (covers_ge _ 0 a hp ha).2)
      rw [hbegin] at howner
      cases howner
      exact hram
    exact ⟨(memPath_partitioned path).trans hp,
      areasSound_of_sameElsewhere path (sameElsewhere_of_chain (hm.sameElsewhere s)) hflash hs⟩

/-- What follows the look-up of an owner runs with that area as the owner. -/
theorem areasKept_owner {k : MemoryArea → Op β} (x : Nat)
    (h : ∀ e s, areaOf s.registry x = some e → Relation.ReflTransGen AreasKept s (endState (k e s))) : Follows AreasKept (owningArea x >>= k) := by
  intro s
  cases ho : areaOf s.registry x with
  | none => rw [run_bind, run_owningArea_none ho]; exact .refl
  | some e => rw [run_bind, run_owningArea ho]; exact h e s ho

/-- A family operation on the area that owns an address. -/
theorem areasKept_onOwner {op : Nat → Op FlashResult} (x : Nat) (h : ∀ b, FlashOperation b (op b)) : Follows AreasKept (do
    let a ← owningArea x
    let r ← op a.beginAddr
    pure (OpResult.flash r)) :=
  areasKept_owner x (fun e _ ho => chain_bind (.single (areasKept_flashOperation (h e.beginAddr) ho)) (fun _ _ _ => .refl))

/-- A family operation on the area that must own a whole range (R257). -/
theorem areasKept_onRange {op : Nat → Op FlashResult} (x n : Nat) (h : ∀ b, FlashOperation b (op b)) : Follows AreasKept (do
    let a ← areaOwning x n
    let r ← op a.beginAddr
    pure (OpResult.flash r)) := by
  have hassoc : (do
      let a ← areaOwning x n
      let r ← op a.beginAddr
      pure (OpResult.flash r)) = (do
      let a ← owningArea x
      let a ← (if x + n ≤ a.endAddr + 1 then pure a else raise .illegalOperation : Op MemoryArea)
      let r ← op a.beginAddr
      pure (OpResult.flash r)) := by
    simp only [areaOwning, bind_assoc]
  rw [hassoc]
  refine areasKept_owner x (fun e s ho => ?_)
  split
  · exact chain_bind (m := op e.beginAddr) (.single (areasKept_flashOperation (h e.beginAddr) ho)) (fun _ _ _ => .refl)
  · exact .refl

/-! ### The registry's operations -/

theorem quiet_ramStore (a n : Nat) (data : Nat → Byte) : Quiet (ramStore a n data) := by
  have write : ∀ a v, Quiet (memWrite a v) := by
    intro a v s
    unfold memWrite
    by_cases hc : callAllowed a v.length = true
    · simp only [hc, if_true]; cases s.nextReply (.write a v) <;> rfl
    · simp only [hc, Bool.false_eq_true, if_false]
  have loop : ∀ k done, Quiet (ramLoop a n data k done) := by
    intro k
    induction k with
    | zero => intro done; exact quiet_pure _
    | succ k ih =>
      intro done
      refine quiet_ite (quiet_bind (write _ _) (fun answer => ?_)) (quiet_pure _)
      cases answer with
      | error f => exact quiet_pure _
      | ok u => exact ih _
  exact loop _ _

theorem areasKept_delegateWrite {s : State} {e : MemoryArea} {x : Nat} (ho : areaOf s.registry x = some e) (addr n : Nat) (data : Nat → Byte) :
    AreasKept s (endState (delegateWrite e addr n data s)) := by
  unfold delegateWrite
  cases e.binding with
  | ram => exact areasKept_of_registry (quiet_endState (quiet_ramStore addr n data) s)
  | amd d => exact areasKept_flashOperation (flashOperation_amdProgramOp addr n data) ho
  | cfm d => exact areasKept_flashOperation (flashOperation_cfmProgramOp addr n data) ho
  | intel d => exact areasKept_flashOperation (flashOperation_intelProgramOp addr n data) ho

theorem areasKept_writeLoop (addr n : Nat) (data : Nat → Byte) : ∀ k written st, Follows AreasKept (writeLoop addr n data k written st) := by
  intro k
  induction k with
  | zero => intro written st; exact follows_pure _
  | succ k ih =>
    intro written st
    exact follows_ite (areasKept_owner _ (fun e s ho => chain_bind (.single (areasKept_delegateWrite ho _ _ _)) (fun r t _ =>
      follows_ite (follows_pure _) (ih _ _) t))) (follows_pure _)

theorem areasKept_dispatchOwner (x : Nat) {op : MemoryArea → Option (Op FlashResult)}
    (h : ∀ e m, op e = some m → FlashOperation e.beginAddr m) : Follows AreasKept (dispatchOwner x op) := by
  refine areasKept_owner x (fun e s ho => ?_)
  cases hop : op e with
  | none => exact .refl
  | some m => exact chain_bind (.single (areasKept_flashOperation (h e m hop) ho)) (fun _ _ _ => .refl)

theorem flashOperation_eraseOf (e : MemoryArea) (address : Nat) (whole : Bool) (m : Op FlashResult) (h : eraseOf e address whole = some m) :
    FlashOperation e.beginAddr m := by
  unfold eraseOf at h
  cases hb : e.binding with
  | ram => rw [hb] at h; cases h
  | amd d =>
    rw [hb] at h; cases h
    cases whole with
    | true => exact flashOperation_amdEraseAllOp
    | false => exact flashOperation_amdEraseSectorOp address
  | cfm d =>
    rw [hb] at h; cases h
    cases whole with
    | true => exact flashOperation_cfmEraseAllOp
    | false => exact flashOperation_cfmEraseSectorOp address
  | intel d =>
    rw [hb] at h; cases h
    cases whole with
    | true => exact flashOperation_intelEraseAllOp
    | false => exact flashOperation_intelEraseSectorOp address

theorem flashOperation_eraseWaitOf (e : MemoryArea) (m : Op FlashResult) (h : eraseWaitOf e = some m) : FlashOperation e.beginAddr m := by
  unfold eraseWaitOf at h
  cases hb : e.binding with
  | ram => rw [hb] at h; cases h
  | amd d => rw [hb] at h; cases h; exact flashOperation_amdEraseWaitOp
  | cfm d => rw [hb] at h; cases h; exact flashOperation_cfmEraseWaitOp
  | intel d => rw [hb] at h; cases h; exact flashOperation_intelEraseWaitOp

theorem flashOperation_blankCheckOf (e : MemoryArea) (m : Op FlashResult) (h : blankCheckOf e = some m) : FlashOperation e.beginAddr m := by
  unfold blankCheckOf at h
  cases hb : e.binding with
  | ram => rw [hb] at h; cases h
  | amd d => rw [hb] at h; cases h; exact flashOperation_amdBlankCheckOp
  | cfm d => rw [hb] at h; cases h; exact flashOperation_cfmBlankCheckOp
  | intel d => rw [hb] at h; cases h; exact flashOperation_intelBlankCheckOp

/-- An area bound to the chip found at its base is sound (R213, R215). -/
theorem foundArea_sound {hint base size : Nat} {d : Binding} (hsize : 0 < size) (hd : Describes base size d) :
    (foundArea hint base size d).sound = true := by
  obtain ⟨chip, hchip, hbase, hchipSize⟩ := hd
  have hspan : size = base + size - 1 - base + 1 := by omega
  rw [sound_of_chip (a := foundArea hint base size d) hchip]
  simp [foundArea, registeredFlags, boundTo, hbase, hchipSize, ← hspan]

/-- The pieces that take the place of a sound RAM area are sound when the new area is (R213). -/
theorem splicePieces_sound {e new a : MemoryArea} (hram : e.binding = .ram) (he : e.sound = true) (hnew : new.sound = true)
    (ha : a ∈ splicePieces e new) : a.sound = true := by
  have hbefore : ∀ top, ({ e with endAddr := top } : MemoryArea).sound = true := by
    intro top
    rw [sound_of_ram (a := { e with endAddr := top }) hram, ← sound_of_ram hram]
    exact he
  simp only [splicePieces, List.mem_append, List.mem_singleton] at ha
  rcases ha with (ha | rfl) | ha
  · split at ha
    · rw [List.mem_singleton.mp ha]
      exact hbefore _
    · cases ha
  · exact hnew
  · split at ha
    · rw [List.mem_singleton.mp ha]
      rfl
    · cases ha

theorem areasKept_spliceFound {s : State} {e : MemoryArea} {hint base size : Nat} {d : Binding} (ho : areaOf s.registry base = some e)
    (hram : e.binding = .ram) (hsize : 0 < size) (hd : Describes base size d) (hend : base + size - 1 ≤ e.endAddr) :
    AreasKept s { s with registry := splice s.registry e (foundArea hint base size d) } := by
  intro hp hs
  refine ⟨partitioned_spliceFound hp ho hsize hend, ?_⟩
  simp only [State.areasSound, List.all_eq_true] at hs ⊢
  have he : e.sound = true := hs e (areaOf_contains ho).1
  intro a ha
  rw [splice, List.mem_flatMap] at ha
  obtain ⟨old, hold, ha⟩ := ha
  split at ha
  · exact splicePieces_sound hram he (foundArea_sound hsize hd) ha
  · rw [List.mem_singleton.mp ha]
    exact hs old hold

/-- REGISTER_AREA refuses, finds no chip, or splices in the area of the chip found (R212 to R214). -/
theorem execRegisterArea_areasKept (hint base : Nat) (s : State) : ∃ u r, AreasKept s u ∧ execRegisterArea hint base s = .next (u.conclude r) := by
  refine areasKept_runOp ?_ s
  cases candidates s.params hint with
  | none => exact follows_raise _
  | some families =>
    refine areasKept_owner base (fun e t ho => ?_)
    by_cases hram : e.binding = .ram
    · have hquiet := quiet_probeCandidates base families
      simp only [hram, ne_eq, not_true_eq_false, if_false]
      refine chain_bind (areasKept_of_quiet hquiet t) (fun found v hprobe => ?_)
      cases found with
      | none => exact .refl
      | some chip =>
        obtain ⟨size, d⟩ := chip
        obtain ⟨hsize, hd⟩ := probeCandidates_describe base families t _ v hprobe (size, d) rfl
        have hov : areaOf v.registry base = some e := by rw [quiet_ok hquiet hprobe]; exact ho
        by_cases hend : e.endAddr < base + size - 1
        · simp only [hend, if_true]
          exact .refl
        · simp only [hend, if_false]
          exact .single (areasKept_spliceFound hov hram hsize hd (by omega))
    · simp only [ne_eq, hram, not_false_eq_true, if_true]
      exact .refl

/-! ### Every operation -/

theorem exec_memory_areasKept {i : Instr} (hi : memoryOperation i = true) (s : State) : ∃ u r, AreasKept s u ∧ exec i s = .next (u.conclude r) := by
  have probe : ∀ {m : Op ProbeResult}, Quiet m → Follows AreasKept (do let r ← m; pure (OpResult.probe r)) :=
    fun h => follows_bind (areasKept_of_quiet h) (fun _ => follows_pure _)
  cases i <;> simp only [memoryOperation, engineOperation, opensChannel, Bool.not_true, Bool.not_false, Bool.and_self, Bool.false_and,
    Bool.and_false, Bool.false_eq_true] at hi
  case registerArea hint base => exact execRegisterArea_areasKept hint base s
  case writeMemory a n => exact areasKept_runOp (areasKept_writeLoop _ _ _ _ _ _) s
  case eraseArea a w => exact areasKept_runOp (areasKept_dispatchOwner _ (fun e m h => flashOperation_eraseOf e _ _ m h)) s
  case eraseWait a => exact areasKept_runOp (areasKept_dispatchOwner _ flashOperation_eraseWaitOf) s
  case blankCheck a => exact areasKept_runOp (areasKept_dispatchOwner _ flashOperation_blankCheckOf) s
  case ramWrite a n => exact areasKept_runOp (follows_bind (areasKept_of_quiet (quiet_ramStore _ _ _)) (fun _ => follows_pure _)) s
  case amdProbe a => exact areasKept_runOp (probe (quiet_amdProbeOp _)) s
  case amdProgram a n => exact areasKept_runOp (areasKept_onRange a n (fun _ => flashOperation_amdProgramOp _ _ _)) s
  case amdEraseSector a => exact areasKept_runOp (areasKept_onOwner a (fun _ => flashOperation_amdEraseSectorOp _)) s
  case amdEraseAll => exact areasKept_runOp (areasKept_onOwner _ (fun _ => flashOperation_amdEraseAllOp)) s
  case amdEraseWait => exact areasKept_runOp (areasKept_onOwner _ (fun _ => flashOperation_amdEraseWaitOp)) s
  case amdBlankCheck a => exact areasKept_runOp (areasKept_onOwner a (fun _ => flashOperation_amdBlankCheckOp)) s
  case cfmProbe a => exact areasKept_runOp (probe (quiet_cfmProbeOp _)) s
  case cfmProgram a n => exact areasKept_runOp (areasKept_onRange a n (fun _ => flashOperation_cfmProgramOp _ _ _)) s
  case cfmEraseSector a => exact areasKept_runOp (areasKept_onOwner a (fun _ => flashOperation_cfmEraseSectorOp _)) s
  case cfmEraseAll => exact areasKept_runOp (areasKept_onOwner _ (fun _ => flashOperation_cfmEraseAllOp)) s
  case cfmEraseWait => exact areasKept_runOp (areasKept_onOwner _ (fun _ => flashOperation_cfmEraseWaitOp)) s
  case cfmBlankCheck a => exact areasKept_runOp (areasKept_onOwner a (fun _ => flashOperation_cfmBlankCheckOp)) s
  case intelProbe a => exact areasKept_runOp (probe (quiet_intelProbeOp _)) s
  case intelProgram a n => exact areasKept_runOp (areasKept_onRange a n (fun _ => flashOperation_intelProgramOp _ _ _)) s
  case intelEraseSector a => exact areasKept_runOp (areasKept_onOwner a (fun _ => flashOperation_intelEraseSectorOp _)) s
  case intelEraseAll => exact areasKept_runOp (areasKept_onOwner _ (fun _ => flashOperation_intelEraseAllOp)) s
  case intelEraseWait => exact areasKept_runOp (areasKept_onOwner _ (fun _ => flashOperation_intelEraseWaitOp)) s
  case intelBlankCheck a => exact areasKept_runOp (areasKept_onOwner a (fun _ => flashOperation_intelBlankCheckOp)) s

theorem exec_areasKept {i : Instr} {s t : State} (h : exec i s = .next t) : AreasKept s t := by
  have before : ∃ u r, AreasKept s u ∧ exec i s = .next (u.conclude r) := by
    cases hi : memoryOperation i with
    | true => exact exec_memory_areasKept hi s
    | false =>
      obtain ⟨u, r, path, hexec⟩ := exec_steers hi s
      obtain ⟨_, _, hregistry, _⟩ := linePath_memory path
      exact ⟨u, r, areasKept_of_registry hregistry, hexec⟩
  obtain ⟨u, r, kept, hexec⟩ := before
  rw [hexec] at h
  cases h
  exact areasKept_trans kept (areasKept_of_registry rfl)

/-- Settles O10: a family operation keeps what the soundness of its flash area reads, and a registration splices in sound areas. -/
theorem everyStepKeepsTheAreasSound : Obligations.EveryStepKeepsTheAreasSound := by
  intro s t hp hs hstep
  have both : t.partitioned = true ∧ t.areasSound = true :=
    step_keeps (I := fun s => s.partitioned = true ∧ s.areasSound = true) (fun _ _ _ h => h) (fun _ _ h => h)
      (fun _ _ _ ⟨hp, hs⟩ hexec => exec_areasKept hexec hp hs) ⟨hp, hs⟩ hstep
  exact both.2

end Sys2Proof.Invariants
end

