-- ==== Sys2Proof/Proofs/ResetSound.lean ====
section
/-! The state after reset (R46, R381) and the delays and bounds that R23, R31 and R32 ask to be at least 1. -/

namespace Sys2Proof.Invariants

open Sys2Proof Sys2Proof.Machine Sys2Proof.Laws

/-- A poll delay and a long delay of a sound parameter choice are at least 1, in a row of its own and by the formula (R23, R31). -/
theorem deriveDelays_pos {p : Params} (h : timingParamsSound p = true) (base : Nat) :
    1 ≤ (deriveDelays p base).minDelay ∧ 1 ≤ (deriveDelays p base).longDelay := by
  unfold deriveDelays
  cases hrow : p.delayRows.lookup base with
  | none => simp [defaultDelays]
  | some row =>
    simp only [timingParamsSound, Bool.and_eq_true, List.all_eq_true, decide_eq_true_eq] at h
    exact h.1 (base, row) (lookup_mem_pair hrow)

/-- The bound of the freeze poll of a sound parameter choice is at least 1 (R32). -/
theorem stopPollBound_pos {p : Params} (h : timingParamsSound p = true) (base : Nat) : 1 ≤ stopPollBoundOf p base := by
  unfold stopPollBoundOf
  cases hrow : p.boundRows.lookup base with
  | none => exact le_max_left 1 _
  | some bound =>
    simp only [timingParamsSound, Bool.and_eq_true, List.all_eq_true, decide_eq_true_eq] at h
    exact h.2 (base, bound) (lookup_mem_pair hrow)

/-- Settles O8: the invariants and side conditions of reset are evaluated; the delays and the bound are positive in every row and by their formulas. -/
theorem resetIsSound : Obligations.ResetIsSound := by
  refine ⟨by decide, by decide, by decide, by decide, by decide, fun p h base => ?_⟩
  obtain ⟨hmin, hlong⟩ := deriveDelays_pos h base
  exact ⟨hmin, hlong, stopPollBound_pos h base⟩

end Sys2Proof.Invariants
end

