-- ==== Sys2Proof/Proofs/Spaces.lean ====
section
/-! What an operation does on each side (R65, R71): the accesses it adds to the memory trace are accesses the block may make, and an operation on target memory
leaves the line port as it is. -/

namespace Sys2Proof.Invariants

open Sys2Proof Sys2Proof.Machine Sys2Proof.Laws Sys2Proof.Scope

/-- The accesses an operation adds to the memory trace are accesses the block may make (R71). -/
theorem exec_accessesSound {i : Instr} {s t : State} (hs : s.accessesSound = true) (h : exec i s = .next t) :
    t.accessesSound = true := by
  obtain ⟨evs, hcalls, htrace, _⟩ := exec_replayed h
  rw [State.accessesSound, htrace, callsAllowed_append, hcalls, Bool.and_true]
  exact hs

/-- Settles O13: taking a call and refusing one touch no access, and an operation only adds accesses the block may make. -/
theorem everyStepKeepsAccessesAligned : Obligations.EveryStepKeepsAccessesAligned := fun _ _ hs h =>
  step_keeps (I := fun s => s.accessesSound = true) (fun _ _ _ h => h) (fun _ _ h => h) (fun _ _ _ => exec_accessesSound) hs h

/-- From `s` to `t` the line port is as it was: its trace, the lines, the session, the owner and the answers to come (R65). -/
def KeepsLines (s t : State) : Prop :=
  t.lineTrace = s.lineTrace ∧ t.lines = s.lines ∧ t.session = s.session ∧ t.owned = s.owned ∧ t.statScript = s.statScript

/-- The effects on target memory leave the line port as it is (R65). -/
theorem memPath_keepsLines {s t : State} (h : MemPath s t) : KeepsLines s t := by
  induction h with
  | refl => exact ⟨rfl, rfl, rfl, rfl, rfl⟩
  | tail _ effect ih => cases effect <;> exact ih

/-- Settles O15: an operation of the engine is a chain of line effects; one on target memory is a chain of memory effects, after which a registration
changes the registry alone. -/
theorem noOperationReachesBothSpaces : Obligations.NoOperationReachesBothSpaces := by
  intro i s t h
  refine ⟨fun hi => ?_, fun hi => ?_⟩
  · obtain ⟨u, r, path, hexec⟩ := exec_steers hi s
    rw [hexec] at h
    cases h
    have kept := linePath_memory path
    exact kept
  · obtain ⟨u, r, hexec, hu⟩ := exec_memory_cases hi s
    rw [hexec] at h
    cases h
    have kept : KeepsLines s u := by
      rcases hu with path | ⟨hint, base, families, e, size, d, v, _, _, hprobes, _, rfl⟩
      · exact memPath_keepsLines path
      · have probes : KeepsLines s v := memPath_keepsLines (travels_ok (travels_probeCandidates base families) hprobes)
        exact probes
    exact kept

end Sys2Proof.Invariants
end

