-- ==== Sys2Proof/Proofs/ExchangeEnds.lean ====
section
/-! Where the operations made of exchanges end: the refusals and the faults that SERIAL_CLOCK and STEP_CHIP take over from their parts (R130, R131, R172, R203),
and STREAM_WRITE unit by unit, to its end or to the first exchange that fails (R145, R146). -/

namespace Sys2Proof.Exchanges

open Sys2Proof Sys2Proof.Machine Sys2Proof.Laws

/-! ### Ends of an operation -/

/-- An operation whose part raised a fault, or whose access failed, takes that fault, whatever the working registers hold (R352). -/
theorem runOp_ended {m : Op OpResult} {s u : State} {x : Exit} {f : FaultKind} (hm : ∃ g, m s = .error x (u.withWork g))
    (hx : x = .fault f ∨ ∃ p, f = .proto p ∧ x = .access p) : runOp m s = .next (u.takeFault f) := by
  obtain ⟨g, hg⟩ := hm
  rcases hx with rfl | ⟨p, rfl, rfl⟩
  · exact runOp_fault_work ⟨g, hg⟩
  · simp only [runOp, hg, takeFault_withWork]

/-- A STOP_CHIP that ended in a fault is a stop that does. -/
theorem stopChip_fault {s t : State} {f : FaultKind} (h : exec .stopChip s = .next t) (hf : t.result = some (.fault f)) :
    ∃ x u, stopTarget s = .error x u ∧ t = u.takeFault f ∧ (x = .fault f ∨ ∃ p, f = .proto p ∧ x = .access p) := by
  obtain ⟨u, hraised | ⟨p, hproto, hfailed⟩, ht⟩ := (stopChip_ends s t h).2 f hf
  · exact ⟨_, u, hraised, ht, .inl rfl⟩
  · exact ⟨_, u, hfailed, ht, .inr ⟨p, hproto, rfl⟩⟩

/-! ### Where an exchange and a step fail (R130, R131, R145, R172) -/

section

variable {s : State} {x : Session} {cmd : Word16} {delayBits : Nat} (hx : s.session = some x) (hc : x.caps = capsOf x.variant)

include hx hc

theorem serialExchange_refused (hd : 16 < delayBits) : serialExchange cmd delayBits s = .error (.fault .illegalOperation) s := by
  have hcap : x.caps.serialClock = true := by rw [hc]; rfl
  rw [serialExchange, run_bind, run_useCap hx, hcap]
  simp [hd]

/-- Past the tests of the capability and of `delayBits`, an exchange starts with its preconditions (R130). -/
theorem serialExchange_ends_in_preconditions {e : Exit} {u : State} (hd : delayBits ≤ 16) (h : exchangePreconditions s = .error e u) :
    serialExchange cmd delayBits s = .error e u := by
  have hcap : x.caps.serialClock = true := by rw [hc]; rfl
  rw [serialExchange, run_bind, run_useCap hx, hcap]
  simp [Nat.not_lt.mpr hd, run_bind, h]

theorem serialExchange_unavailable {f : ProtoFault} (hd : delayBits ≤ 16)
    (hf : unavailableFault (decodeStatus x.sense s.nextStat) = some f) :
    ∃ g, serialExchange cmd delayBits s = .error (.fault (.proto f)) (s.readStat.withWork g) := by
  obtain ⟨g, hg⟩ := run_checkAvailable_fault hx (by rw [hc]; rfl) hf
  exact ⟨g, serialExchange_ends_in_preconditions hx hc hd (run_bind_error hg)⟩

/-- On an available target that runs, an exchange ends where its stop fails (R131). -/
theorem serialExchange_stop_fails {e : Exit} {u : State} (hd : delayBits ≤ 16)
    (hf : unavailableFault (decodeStatus x.sense s.nextStat) = none) (hrun : runningSample x s.nextStat = true)
    (hstop : stopTarget s.readStat = .error e u) : ∃ g, serialExchange cmd delayBits s = .error e (u.withWork g) := by
  obtain ⟨g, hg⟩ := run_checkAvailable hx (by rw [hc]; rfl) hf
  obtain ⟨g', hg'⟩ := blind_error blind_stopTarget s.readStat g hstop
  have hnot : targetStopped (decodeStatus x.sense s.nextStat) = false := by simpa [runningSample] using hrun
  refine ⟨g', serialExchange_ends_in_preconditions hx hc hd ?_⟩
  rw [exchangePreconditions, run_bind, hg]
  simpa [hnot] using hg'

/-- STEP_CHIP on a target that its one status read shows unavailable (R172). -/
theorem stepChip_unavailable {f : ProtoFault} (hf : unavailableFault (decodeStatus x.sense s.nextStat) = some f) :
    exec .stepChip s = .next (s.readStat.takeFault (.proto f)) := by
  have hcap : x.caps.stepChip = true := by rw [hc]; rfl
  obtain ⟨g, hg⟩ := run_checkAvailable_fault hx (by rw [hc]; rfl) hf
  refine runOp_ended ⟨g, ?_⟩ (.inl rfl)
  rw [run_bind, run_useCap hx, hcap]
  exact run_bind_error hg

/-- On an available target STEP_CHIP ends where its exchange fails (R172). -/
theorem stepChip_exchange_fails {t : State} {f : FaultKind} (hf : unavailableFault (decodeStatus x.sense s.nextStat) = none)
    (ht : t.result = some (.fault f)) (h : exec (.serialClock s.params.goCmd 1) s.readStat = .next t) : exec .stepChip s = .next t := by
  have hcap : x.caps.stepChip = true := by rw [hc]; rfl
  obtain ⟨g, hg⟩ := run_checkAvailable hx (by rw [hc]; rfl) hf
  obtain ⟨e, u, hfails, rfl, he⟩ := serialClock_ends h ht g
  refine runOp_ended ⟨id, ?_⟩ he
  rw [run_bind, run_useCap hx, hcap, if_pos rfl]
  refine (run_bind_ok hg).trans ?_
  rw [run_bind, run_get]
  exact run_bind_error hfails

end

/-- An odd count of a stream is refused on an open session, with nothing done (R145). -/
theorem stream_odd {s : State} {x : Session} {n : Nat} (hx : s.session = some x) (hn : n % 2 = 1) (m : Op OpResult) :
    runOp (do let _ ← openedSession; if n % 2 ≠ 0 then raise .illegalSize else m) s = .next (s.takeFault .illegalSize) := by
  apply runOp_fault
  rw [run_bind, run_openedSession hx]
  simp [hn]

/-- Settles O34: each refusal is a test made before any event, and each fault taken over is the end of the part that failed. -/
theorem exchangesFailFast : Obligations.ExchangesFailFast := by
  intro s x cmd delayBits hx hc
  refine ⟨fun hd => ?_, fun n hn => ⟨?_, ?_⟩, fun f hf => ⟨fun hd => ?_, stepChip_unavailable hx hc hf⟩, fun hf t f ht => ⟨?_, ?_⟩⟩
  · exact runOp_fault (run_bind_error (serialExchange_refused hx hc hd))
  · exact stream_odd hx hn _
  · exact stream_odd hx hn _
  · obtain ⟨g, hg⟩ := serialExchange_unavailable (cmd := cmd) hx hc hd hf
    exact runOp_ended ⟨g, run_bind_error hg⟩ (.inl rfl)
  · intro hd hrun hstop
    obtain ⟨e, u, hfails, rfl, he⟩ := stopChip_fault hstop ht
    obtain ⟨g, hg⟩ := serialExchange_stop_fails (cmd := cmd) hx hc hd hf hrun hfails
    exact runOp_ended ⟨g, run_bind_error hg⟩ he
  · exact stepChip_exchange_fails hx hc hf ht

/-! ### The units of STREAM_WRITE (R146) -/

/-- STREAM_WRITE of an even count is its units from the first byte on. -/
theorem exec_streamWrite_even {s : State} {x : Session} (hx : s.session = some x) (k : Nat) :
    exec (.streamWrite (2 * k)) s = runOp (do let r ← writeUnits k 0; pure (.streamWrite r.1 r.2)) s := by
  have heven : ¬ 2 * k % 2 ≠ 0 := by omega
  have hhalf : 2 * k / 2 = k := by omega
  simp only [exec, execStreamWrite, runOp_outcome]
  rw [run_bind, run_openedSession hx]
  simp only [heven, if_false, hhalf]

/-- A unit whose exchange fails ends the stream with the bytes sent before it (R146). -/
theorem run_writeUnits_fails {s t : State} {f : FaultKind} {done k : Nat} {g0 : WorkRegs → WorkRegs}
    (h : exec (.serialClock (streamUnit (s.dataByte done) (s.dataByte (done + 1))) 0) s = .next t) (ht : t.result = some (.fault f)) :
    ∃ u, writeUnits (k + 1) done (s.withWork g0) = .ok (done, .fault f) u ∧ t = u.takeFault f := by
  obtain ⟨e, u, hfails, rfl, he⟩ := serialClock_ends h ht g0
  have hattempt : attempt (serialExchange (streamUnit (s.dataByte done) (s.dataByte (done + 1))) 0) (s.withWork g0) = .ok (.error f) u := by
    rcases he with rfl | ⟨p, rfl, rfl⟩ <;> simp only [attempt, hfails]
  refine ⟨u, ?_, rfl⟩
  rw [writeUnits, run_bind, run_get]
  refine (run_bind_ok hattempt).trans rfl

section

variable {s s1 : State} {x : Session} {l : List Clocked} (hx : s.session = some x)
  (hl : ∀ k c, l[k]? = some c → c.cmd = streamUnit (s.dataByte (2 * k)) (s.dataByte (2 * k + 1)) ∧ c.delayBits = 0) (hto : clocksTo s l s1)

include hx hl hto

/-- Where its exchanges lead, STREAM_WRITE goes on with the next unit. -/
theorem exec_streamWrite_clocked (k : Nat) :
    ∃ g, exec (.streamWrite (2 * (l.length + k))) s =
      runOp (do let r ← writeUnits k (2 * l.length); pure (.streamWrite r.1 r.2)) (s1.withWork g) := by
  obtain ⟨g, hg⟩ := clocked_writeUnits l k s s1 0 id (by simpa using hl) hto
  rw [withWork_id, Nat.zero_add] at hg
  refine ⟨g, ?_⟩
  rw [exec_streamWrite_even hx, runOp_outcome, runOp_outcome, run_bind, run_bind, hg]

theorem streamWrite_done : exec (.streamWrite (2 * l.length)) s = .next (s1.conclude (.streamWrite (2 * l.length) .ok)) := by
  obtain ⟨g, hg⟩ := exec_streamWrite_clocked hx hl hto 0
  rw [Nat.add_zero] at hg
  rw [hg]
  exact runOp_ok_work ⟨g, rfl⟩

theorem streamWrite_fails {t : State} {f : FaultKind} (more : Nat)
    (h : exec (.serialClock (streamUnit (s.dataByte (2 * l.length)) (s.dataByte (2 * l.length + 1))) 0) s1 = .next t)
    (ht : t.result = some (.fault f)) :
    exec (.streamWrite (2 * (l.length + 1 + more))) s = .next { t with result := some (.streamWrite (2 * l.length) (.fault f)) } := by
  obtain ⟨_, _, hbuffer, hops, _⟩ := clocksTo_keep l s s1 hto
  have hdata : ∀ i, s1.dataByte i = s.dataByte i := fun i => by simp only [State.dataByte, hbuffer, hops]
  rw [← hdata, ← hdata] at h
  obtain ⟨g, hg⟩ := exec_streamWrite_clocked hx hl hto (more + 1)
  obtain ⟨u, hu, rfl⟩ := run_writeUnits_fails (k := more) (g0 := g) h ht
  rw [Nat.add_right_comm, Nat.add_assoc, hg]
  have hend : runOp (do let r ← writeUnits (more + 1) (2 * l.length); pure (.streamWrite r.1 r.2)) (s1.withWork g) =
      .next (u.conclude (.streamWrite (2 * l.length) (.fault f))) := runOp_ok (run_bind_ok hu)
  exact hend

end

/-- Settles O36: by the exchanges the stream makes, of which the answered exchanges of a frozen target are one case. -/
theorem streamWriteSendsEachUnit : Obligations.StreamWriteSendsEachUnit := by
  intro s x hx hc
  simp only [streamUnit_eq]
  refine ⟨fun es rest hp hunits hscript => ?_, fun l s1 hl hto =>
    ⟨streamWrite_done hx hl hto, fun t f more => streamWrite_fails hx hl hto more⟩⟩
  have hanswered : ∀ e ∈ es, 0 ≤ 16 ∧ e.answered s.params x 0 = true := by
    intro e he
    obtain ⟨k, hk⟩ := List.getElem?_of_mem he
    exact ⟨by omega, (hunits k e hk).1⟩
  obtain ⟨g, hto⟩ := clocksTo_exchanged (fun _ => 0) es s x rest id hx hc hp hanswered hscript
  have hl : ∀ k c, (es.map (fun e => ({ cmd := e.cmd, delayBits := 0, frame := exchangeResult e.cmd e.samples } : Clocked)))[k]? = some c →
      c.cmd = streamUnit (s.dataByte (2 * k)) (s.dataByte (2 * k + 1)) ∧ c.delayBits = 0 := by
    intro k c hk
    rw [List.getElem?_map, Option.map_eq_some_iff] at hk
    obtain ⟨e, he, rfl⟩ := hk
    exact ⟨(hunits k e he).2, rfl⟩
  have hdone := streamWrite_done hx hl hto
  refine ⟨?_, fun t f more h ht => ?_⟩
  · simpa using hdone
  · have hfails := streamWrite_fails (t := t) (f := f) hx hl hto more (by simpa [exec_serialClock_withWork] using h) ht
    simpa using hfails

end Sys2Proof.Exchanges
end

