-- ==== Sys2Proof/Proofs/RamWrites.lean ====
section
/-! RAM.WRITE and WRITE_MEMORY inside one RAM area, whose accesses complete (R220, R226). -/

namespace Sys2Proof.Writes

open Sys2Proof Sys2Proof.Machine Sys2Proof.Laws

theorem widestWidths_zero {p : Nat} {ws : List Nat} (h : widestWidths p 0 ws) : ws = [] := by
  cases ws with
  | nil => rfl
  | cons w ws =>
    obtain ⟨_, hpos, hle, _⟩ := widestWidths_head h
    omega

/-- WRITE_MEMORY of no bytes makes no access (R222). -/
theorem exec_writeMemory_zero (s : State) (address : Nat) : exec (.writeMemory address 0) s = .next (s.conclude (.written 0 .ok)) := rfl

/-- Settles O43: the widths exist for every range, their stores are read back byte by byte, and RAM.WRITE and its delegation make exactly those
stores. -/
theorem ramWriteStoresItsBytes : Obligations.RamWriteStoresItsBytes := by
  intro s address n hwf hspace
  refine ⟨widestWidths_exist n address, fun ws hws => ⟨fun a => ?_, fun done rest hscript hlen hdone => ?_⟩⟩
  · exact storedByte_storesOf s.dataByte address ws 0 n s hwf hws a
  · have hstore := run_ramStore (data := s.dataByte) hspace hws hlen hdone hscript
    refine ⟨exec_ramWrite hstore, fun e howner hram hend => ?_⟩
    rcases Nat.eq_zero_or_pos n with rfl | hpos
    · obtain rfl := widestWidths_zero hws
      exact exec_writeMemory_zero s address
    · exact exec_writeMemory_one hpos hspace howner hend (delegateWrite_ram hram hstore)

end Sys2Proof.Writes
end

