-- ==== Sys2Proof/Proofs/CfmProgram.lean ====
section
/-! CFM.PROGRAM: the cell loop on its area, and what its end makes of the area's flags (R244, R249, R293). -/

namespace Sys2Proof.Writes

open Sys2Proof Sys2Proof.Machine Sys2Proof.Laws

/-- A family operation on its area that clears `ERASED` or not: its status decides about `ERROR` (R249). -/
theorem run_family_flagged {b : Nat} {m : Op FlashResult} {s t : State} {r : FlashResult} {cleared : Bool}
    (h : ∃ g, m s = .ok r ((t.withArea b (cellFlag cleared)).withWork g)) :
    ∃ g, familyOp b m s = .ok r ((t.withArea b (fun a => a.flagged cleared (setsError r.status))).withWork g) := by
  obtain ⟨g, hg⟩ := run_family_ok (cellFlag_begin cleared) h
  simp only [afterStatus_cellFlag] at hg
  exact ⟨g, hg⟩

/-- CFM.PROGRAM on an area it owns ends as the cell loop does, with the area's flags (R249, R293). -/
theorem exec_cfmProgram {s t : State} {e : MemoryArea} {d : CfmDescriptor} {address n : Nat} {r : FlashResult} {cleared : Bool}
    (hpart : s.partitioned = true) (howner : areaOf s.registry address = some e) (hcfm : e.binding = .cfm d)
    (hend : address + n ≤ e.endAddr + 1)
    (h : ∃ g, programCells 4 (cfmProgramCell e.beginAddr d) address n s.dataByte s =
      .ok r ((t.withArea e.beginAddr (cellFlag cleared)).withWork g)) :
    exec (.cfmProgram address n) s =
      .next ((t.withArea e.beginAddr (fun a => a.flagged cleared (setsError r.status))).conclude (.flash r)) := by
  obtain ⟨g, hcells⟩ := h
  obtain ⟨g', hfamily⟩ := run_family_flagged (m := do
    let d ← cfmDescriptor e.beginAddr
    programCells 4 (cfmProgramCell e.beginAddr d) address n s.dataByte)
    ⟨g, (run_bind_ok (run_cfmDescriptor hpart howner hcfm)).trans hcells⟩
  refine runOp_ok_work ⟨g', (run_bind_ok (run_areaOwning howner hend)).trans ?_⟩
  exact run_bind_ok hfamily

/-- Settles O54: CFM.PROGRAM is the cell loop on its area, and the cell loop runs as the cells say. -/
theorem cfmProgramsItsCells : Obligations.CfmProgramsItsCells := by
  intro s e d address n cells first evs ended hpart howner hcfm hpos hend hcells hcalls
  obtain ⟨toEnd, toBadStatus, toFailedAccess⟩ :=
    run_cellRuns (cfm_followsCell s.params.flashPollBound e.beginAddr d) (by omega) hpos rfl hcells hcalls
  have himplemented := cellRuns_implemented hcells (fun c want => implemented_cfmCell d s.params.flashPollBound c want)
  refine ⟨fun rest hok hall hscript => ?_, fun before last hlast => ⟨fun rest hbad hscript => ?_, fun j f rest hj => ?_⟩⟩
  · exact exec_cfmProgram hpart howner hcfm hend (toEnd rest hok hall hscript)
  · have hstatus : setsError last.status = true := setsError_bad hbad (himplemented last (by simp [hlast]))
    have hrun := exec_cfmProgram hpart howner hcfm hend (toBadStatus before last rest hlast hbad hscript)
    rw [hstatus] at hrun
    exact hrun
  · intro made hscript
    have hrun := exec_cfmProgram hpart howner hcfm hend (toFailedAccess before last j f rest hlast hj hscript)
    rw [Nat.zero_add] at hrun
    exact hrun

end Sys2Proof.Writes
end

