-- ==== Sys2Proof/Proofs/WordEncoding.lean ====
section
/-! The operation word (R99 to R102): an operation of the table comes back from its own word, and what a word decodes to is encoded by the word with its
unused bits 0. The decoder's table is split in `assemble_cases` and `assemble_reads`; the rest follows from the fields of the word. After it, what is refused
with `ILLEGAL_OPERATION` before anything is done: a selector the caller may not use, and the operands of REGISTER_AREA (R101, R214). -/

namespace Sys2Proof.Encoding

open Sys2Proof Sys2Proof.Machine Sys2Proof.Laws

/-! ### Operations and their operands -/

/-- The support's lemma of each constructor, as one. -/
theorem operands_fit : ∀ i : Instr, OperandsFit.Statement i
  | .init => OperandsFit.init | .deinit => OperandsFit.deinit | .resetChip => OperandsFit.resetChip
  | .restartChip => OperandsFit.restartChip | .stopChip => OperandsFit.stopChip | .stepChip => OperandsFit.stepChip
  | .getStatus => OperandsFit.getStatus | .releaseChip => OperandsFit.releaseChip | .speed b => OperandsFit.speed b
  | .senseCable f => OperandsFit.senseCable f | .debugLevel l => OperandsFit.debugLevel l | .setLed f => OperandsFit.setLed f
  | .serialClock c d => OperandsFit.serialClock c d | .resynchronize => OperandsFit.resynchronize
  | .streamWrite n => OperandsFit.streamWrite n | .streamRead n => OperandsFit.streamRead n
  | .openSession v => OperandsFit.openSession v | .closeSession => OperandsFit.closeSession
  | .registerArea h b => OperandsFit.registerArea h b | .writeMemory a n => OperandsFit.writeMemory a n
  | .eraseArea a w => OperandsFit.eraseArea a w | .eraseWait a => OperandsFit.eraseWait a | .blankCheck a => OperandsFit.blankCheck a
  | .ramWrite a n => OperandsFit.ramWrite a n
  | .amdProbe a => OperandsFit.amdProbe a | .amdProgram a n => OperandsFit.amdProgram a n
  | .amdEraseSector a => OperandsFit.amdEraseSector a | .amdEraseAll => OperandsFit.amdEraseAll
  | .amdEraseWait => OperandsFit.amdEraseWait | .amdBlankCheck a => OperandsFit.amdBlankCheck a
  | .cfmProbe a => OperandsFit.cfmProbe a | .cfmProgram a n => OperandsFit.cfmProgram a n
  | .cfmEraseSector a => OperandsFit.cfmEraseSector a | .cfmEraseAll => OperandsFit.cfmEraseAll
  | .cfmEraseWait => OperandsFit.cfmEraseWait | .cfmBlankCheck a => OperandsFit.cfmBlankCheck a
  | .intelProbe a => OperandsFit.intelProbe a | .intelProgram a n => OperandsFit.intelProgram a n
  | .intelEraseSector a => OperandsFit.intelEraseSector a | .intelEraseAll => OperandsFit.intelEraseAll
  | .intelEraseWait => OperandsFit.intelEraseWait | .intelBlankCheck a => OperandsFit.intelBlankCheck a

/-- The converse: what fits the two fields is well-formed (R99). -/
theorem wellFormed_of_operands_lt {i : Instr} (h1 : i.operands.1 < 2 ^ 32) (h2 : i.operands.2 < 2 ^ 32) : i.wellFormed = true := by
  cases i <;> simp_all [Instr.wellFormed, Instr.operands, fits]

/-! ### The decoder's table (R100) -/

/-- The encoder's tables and the decoder's agree: the row of an operation's selector, on its operands, is that operation. -/
theorem assemble_selector_operands (i : Instr) : assemble i.selector i.operands.1 i.operands.2 = .ok i := by
  cases i with
  | serialClock cmd delayBits => simp [Instr.selector, Instr.operands, assemble]
  | _ => rfl

/-- A selector has a row, or the decoder names it (R101). -/
theorem assemble_cases (op : Byte) (a b : Nat) :
    (op.toNat ∈ tableSelectors ∧ ∃ i, assemble op a b = .ok i) ∨
      (op.toNat ∉ tableSelectors ∧ assemble op a b = .error (.illegalSelector op)) := by
  unfold assemble
  split
  case h_43 =>
    have hother : ∀ n ∈ tableSelectors, op ≠ BitVec.ofNat 8 n := by
      simp only [tableSelectors, List.forall_mem_cons, List.not_mem_nil, false_implies, implies_true, and_true]
      and_intros <;> assumption
    exact .inr ⟨fun h => hother _ h (by simp), rfl⟩
  all_goals exact .inl ⟨by decide, _, rfl⟩

theorem and_wholeField (x : Word32) : x &&& 0xFFFFFFFF#32 = x := BitVec.and_allOnes

theorem toNat_and_lowHalf (x : Word32) : (x &&& 0xFFFF#32).toNat = x.toNat % 65536 := Nat.and_two_pow_sub_one_eq_mod x.toNat 16

/-- What a row reads: the operation has the row's selector, and its operands are the two fields cut to the bits the row uses (R99,
R100, R102). -/
theorem assemble_reads {op : Byte} {x y : Word32} {i : Instr} (h : assemble op x.toNat y.toNat = .ok i) :
    i.selector = op ∧
      i.operands = ((x &&& (usedBits op).extractLsb' 32 32).toNat, (y &&& (usedBits op).extractLsb' 0 32).toNat) := by
  unfold assemble at h
  split at h <;> cases h <;>
    simp [Instr.selector, Instr.operands, usedBits, and_wholeField, toNat_and_lowHalf, -BitVec.toNat_and]

/-! ### Words (R99) -/

/-- The two operand fields of a word as bit vectors. -/
theorem decode_eq_assemble (w : Op72) :
    decode w = assemble (Op72.selector w) (w.extractLsb' 32 32).toNat (w.extractLsb' 0 32).toNat := rfl

/-- Settles O1: no bit of a well-formed operand is lost in its field, and the two tables agree. -/
theorem decodeOfEncodeIsTheOperation : Obligations.DecodeOfEncodeIsTheOperation := by
  intro i hwf
  obtain ⟨h1, h2⟩ := operands_fit i hwf
  rw [decode_eq_assemble, selector_encode, arg0_encode, arg1_encode, BitVec.toNat_ofNat, BitVec.toNat_ofNat,
    Nat.mod_eq_of_lt h1, Nat.mod_eq_of_lt h2]
  exact assemble_selector_operands i

/-- A word that the encoder writes for a well-formed operation decodes to it. -/
theorem decode_of_encode_eq {i : Instr} {w : Op72} (hw : encode i = w) (hwf : i.wellFormed = true) : decode w = .ok i :=
  hw ▸ decodeOfEncodeIsTheOperation i hwf

/-- Settles O2: each word is the one the encoder writes for its operation. -/
theorem writtenWordsDecode : Obligations.WrittenWordsDecode := by
  refine ⟨?_, ?_, ?_, ?_, ?_, ?_, ?_⟩ <;> exact decode_of_encode_eq (by decide) (by decide)

/-- Settles O3: the selector has a row or it has none. -/
theorem onlyTableSelectorsDecode : Obligations.OnlyTableSelectorsDecode := by
  intro w
  rcases assemble_cases (Op72.selector w) (Op72.arg0 w) (Op72.arg1 w) with ⟨hin, hok⟩ | ⟨hout, herror⟩
  · exact ⟨fun _ => hok, fun hout => absurd hin hout⟩
  · exact ⟨fun hin => absurd hin hout, fun _ => herror⟩

/-- What a word decodes to is well-formed, has the word's selector, and is encoded by the word with its unused bits 0 (R99). -/
theorem encode_of_decode {w : Op72} {i : Instr} (h : decode w = .ok i) :
    i.wellFormed = true ∧ i.selector = Op72.selector w ∧ encode i = w &&& usedBits (Op72.selector w) := by
  obtain ⟨hsel, hops⟩ := assemble_reads h
  refine ⟨?_, hsel, word_ext _ _ ?_ ?_ ?_⟩
  · exact wellFormed_of_operands_lt (by rw [hops]; exact BitVec.isLt _) (by rw [hops]; exact BitVec.isLt _)
  · rw [selector_encode, selector_used, hsel]
  · rw [arg0_encode, hops, BitVec.ofNat_toNat, BitVec.setWidth_eq, BitVec.extractLsb'_and]
  · rw [arg1_encode, hops, BitVec.ofNat_toNat, BitVec.setWidth_eq, BitVec.extractLsb'_and]

/-- Words that agree in the bits used by the selector of one of them have the same selector (R99). -/
theorem selector_eq_of_used_eq {w w' : Op72} (h : w &&& usedBits (Op72.selector w) = w' &&& usedBits (Op72.selector w)) :
    Op72.selector w' = Op72.selector w := by
  have hsel := congrArg Op72.selector h
  rw [selector_used, selector_and, usedBits_selector] at hsel
  exact (hsel.trans BitVec.and_allOnes).symm

/-- Settles O4: two words that agree in the bits their selector uses decode to operations with the same encoding, which are then the same. -/
theorem unusedOperandBitsAreIgnored : Obligations.UnusedOperandBitsAreIgnored := by
  refine ⟨fun w w' hagree => ?_, fun w i hdecode => ?_⟩
  · have hsel := selector_eq_of_used_eq hagree
    by_cases hrow : (Op72.selector w).toNat ∈ tableSelectors
    · obtain ⟨i, hi⟩ := (onlyTableSelectorsDecode w).1 hrow
      obtain ⟨i', hi'⟩ := (onlyTableSelectorsDecode w').1 (hsel ▸ hrow)
      obtain ⟨hwf, _, hencode⟩ := encode_of_decode hi
      obtain ⟨hwf', _, hencode'⟩ := encode_of_decode hi'
      have hsame : encode i' = encode i := by rw [hencode, hencode', hsel, hagree]
      have hdecode : decode (encode i') = .ok i := decode_of_encode_eq hsame.symm hwf
      rw [hi, hi', ← decodeOfEncodeIsTheOperation i' hwf', hdecode]
    · rw [(onlyTableSelectorsDecode w).2 hrow, (onlyTableSelectorsDecode w').2 (hsel ▸ hrow), hsel]
  · obtain ⟨hwf, hsel, hencode⟩ := encode_of_decode hdecode
    exact ⟨hwf, hsel, hencode, decodeOfEncodeIsTheOperation i hwf⟩

/-! ### Refusals (R101, R214) -/

/-- A call that R101 does not allow is refused. -/
theorem admitted_refused {r : Request} (h : (Op72.selector r.word).toNat ∉ tableSelectors ∨
    (r.origin = .host ∧ 0x30 ≤ (Op72.selector r.word).toNat ∧ (Op72.selector r.word).toNat ≤ 0x65)) :
    admitted r = .error .illegalOperation := by
  rcases h with hrow | ⟨hhost, hlow, hhigh⟩
  · simp only [admitted, (onlyTableSelectorsDecode r.word).2 hrow]
  · cases hdecode : decode r.word with
    | error e => simp only [admitted, hdecode]
    | ok i => simp [admitted, hdecode, hhost, internalSelector, hlow, hhigh]

/-- Settles O6: the call is refused, and taking it and its fault touch nothing that R101 names. -/
theorem illegalSelectorDoesNothing : Obligations.IllegalSelectorDoesNothing := by
  intro s r rest hcall hillegal
  refine ⟨_, Invariants.step_refused hcall (admitted_refused hillegal), rfl, rfl, rfl, rfl, rfl, rfl, rfl, rfl, rfl, rfl, rfl, rfl,
    fun hrest => ?_⟩
  have hwork : s.work = WorkRegs.rest := by simpa [State.atRest] using hrest
  exact hwork.symm

theorem candidates_out_of_range {p : Params} {hint : Nat} (h : 3 < hint) : candidates p hint = none := by
  obtain ⟨k, rfl⟩ : ∃ k, hint = k + 4 := ⟨hint - 4, by omega⟩
  rfl

theorem candidates_in_range (p : Params) {hint : Nat} (h : hint ≤ 3) : ∃ families, candidates p hint = some families := by
  interval_cases hint <;> exact ⟨_, rfl⟩

/-- Settles O42: the hint is tested first, then the area that owns the base; both tests come before any probe. -/
theorem registerAreaRefusals : Obligations.RegisterAreaRefusals := by
  intro s hint base
  refine ⟨fun hhint => ?_, fun e hhint howner hflash => ?_⟩
  · simp only [exec, execRegisterArea, candidates_out_of_range hhint]
    exact runOp_fault (run_raise _ s)
  · obtain ⟨families, hfamilies⟩ := candidates_in_range s.params hhint
    simp only [exec, execRegisterArea, hfamilies]
    refine runOp_fault ((run_bind_ok (run_owningArea howner)).trans ?_)
    simp [hflash]

end Sys2Proof.Encoding
end

