-- ==== Sys2Proof/Proofs/FramesRead.lean ====
section
/-! The frames that exchanges return: SERIAL_CLOCK by the sampling law, on a frozen target and on one that runs (R130, R131, R151), the classes of a frame
(R92), and STREAM_READ unit by unit, to the first unit that ends it (R147, R148). -/

namespace Sys2Proof.Exchanges

open Sys2Proof Sys2Proof.Machine Sys2Proof.Laws

/-! ### One exchange (R130 to R134, R151) -/

/-- The sampling law with the number of bits clocked (R151). -/
theorem exchangeResult_of_length {cmd : Word16} {samples : List Byte} {k : Nat} (h : samples.length = k) :
    exchangeResult cmd samples = BitVec.ofNat 32 (cmd.toNat * 2 ^ 15 * 2 ^ k % 2 ^ 32 + sampledValue samples) := by
  rw [exchangeResult, h]

theorem answered_length {e : Exchange} {p : Params} {x : Session} {delayBits : Nat} (h : e.answered p x delayBits = true) :
    e.samples.length = 17 - delayBits := by
  simp only [Exchange.answered, Bool.and_eq_true, beq_iff_eq] at h
  exact h.2

/-- The state after the exchange of a frozen target whose answers are the script's next ones. -/
theorem exchanged_of_script {s : State} {x : Session} {e : Exchange} {rest : List Byte} (hx : s.session = some x)
    (hs : s.statScript = e.script ++ rest) :
    let v := variantParams s.params x.variant
    let p := bitPattern v x e.cmd (e.samples.length - 1) false
    s.exchanged e = { s with
      lines := p, session := some { x with shadow := p }, statScript := rest
      lineTrace := s.lineTrace ++ e.events v x } := by
  simp only [State.exchanged, hx, hs, List.drop_left]

/-- On an available target that runs, an exchange is the stop and then the clocked frame, with no second status test (R131, R138 (d)). -/
theorem serialExchange_after_stop {s u : State} {x : Session} {cmd : Word16} {delayBits : Nat} (hx : s.session = some x)
    (hc : x.caps = capsOf x.variant) (hd : delayBits ≤ 16) (hf : unavailableFault (decodeStatus x.sense s.nextStat) = none)
    (hrun : runningSample x s.nextStat = true) (hstop : stopTarget s.readStat = .ok () u) :
    ∃ g, serialExchange cmd delayBits s = clockedFrame cmd delayBits (u.withWork g) := by
  obtain ⟨g, hg⟩ := run_checkAvailable hx (by rw [hc]; rfl) hf
  obtain ⟨g', hg'⟩ := blind_withWork blind_stopTarget s.readStat g
  rw [hstop] at hg'
  have hnot : targetStopped (decodeStatus x.sense s.nextStat) = false := by simpa [runningSample] using hrun
  have hpre : exchangePreconditions s = .ok () (u.withWork g') := by
    rw [exchangePreconditions, run_bind, hg]
    simpa [hnot] using hg'
  have hcap : x.caps.serialClock = true := by rw [hc]; rfl
  refine ⟨g', ?_⟩
  rw [serialExchange_eq, run_bind, run_useCap hx, hcap]
  simp [Nat.not_lt.mpr hd, run_bind, hpre]

/-- Settles O33: a frozen target's exchange is the clocked frame at once, a running target's is the clocked frame where STOP_CHIP ended. -/
theorem serialClockSamplingLaw : Obligations.SerialClockSamplingLaw := by
  intro s x e delayBits rest hx hc hp hd
  refine ⟨fun hanswered hscript => ?_, fun t y hf hrun hstop hok hy hsettle hlen hscript => ?_⟩
  · have hlen := answered_length hanswered
    have hexec := exec_serialClock_answered hx hc hp hd hanswered hscript
    rw [exchanged_of_script hx hscript, exchangeResult_of_length hlen, hlen] at hexec
    exact hexec
  · obtain ⟨u, hu, rfl⟩ := (stopChip_ends _ _ hstop).1 hok
    have hkept := keeps_stopTarget s.readStat
    rw [hu] at hkept
    obtain ⟨hparams, hvariant, hops⟩ := hkept
    simp only [endState, readStat_params, readStat_session, readStat_opsDone] at hparams hvariant hops
    have hyu : u.session = some y := hy
    have hyx : y.variant = x.variant := by simpa [hyu, hx] using hvariant
    obtain ⟨g, hexchange⟩ := serialExchange_after_stop (cmd := e.cmd) hx hc hd hf hrun hu
    obtain ⟨g', hframe⟩ := run_clockedFrame (s := u.withWork g) (x := y) (e := e) (delayBits := delayBits) (rest := rest) hyu
      (by simpa [hparams] using hp) hd (by simpa [hparams] using hsettle) hlen hscript
    have hexec : exec (.serialClock e.cmd delayBits) s = _ := runOp_ok (run_bind_ok (hexchange.trans hframe))
    rw [hexec, exchangeResult_of_length hlen, hlen]
    congr 1
    apply state_ext <;> simp [hyx, hparams, hops, Exchange.events]

/-! ### The classes of a frame (R92) -/

/-- Settles O26: the sentinels are tested in turn. -/
theorem frameClasses : Obligations.FrameClasses := by
  intro v
  refine ⟨?_, ?_, ?_, fun hnvc hberr hnotReady => ?_⟩
  · rintro rfl; rfl
  · rintro rfl; rfl
  · rintro rfl; rfl
  · simp only [decodeFrame, hnvc, hberr, hnotReady, if_false]

/-! ### The units of STREAM_READ (R147, R148) -/

/-- The outcome with which a unit's exchange ends the stream, where it does: a frame that is no payload, or a fault of the exchange (R147). -/
inductive EndsStream : OpResult → StreamOutcome → Prop
  | notReady {v : Word32} (h : decodeFrame v = .notReady) : EndsStream (.frame v) .notReady
  | sentinel {v : Word32} {f : ProtoFault} (h : decodeFrame v = .fault f) : EndsStream (.frame v) (.fault (.proto f))
  | failed {f : FaultKind} : EndsStream (.fault f) (.fault f)

/-- STREAM_READ of an even count is its units from no byte on. -/
theorem exec_streamRead_even {s : State} {x : Session} (hx : s.session = some x) (k : Nat) :
    exec (.streamRead (2 * k)) s = runOp (do let r ← readUnits k []; pure (.streamRead r.2.length r.1 r.2)) s := by
  have heven : ¬ 2 * k % 2 ≠ 0 := by omega
  have hhalf : 2 * k / 2 = k := by omega
  simp only [exec, execStreamRead, runOp_outcome]
  rw [run_bind, run_openedSession hx]
  simp only [heven, if_false, hhalf]

/-- A SERIAL_CLOCK that returned a frame, attempted inside another operation, which then ends there. -/
theorem attempt_frame {s t : State} {cmd : Word16} {d : Nat} {v : Word32} (h : exec (.serialClock cmd d) s = .next t)
    (hv : t.result = some (.frame v)) (g0 : WorkRegs → WorkRegs) :
    ∃ u, attempt (serialExchange cmd d) (s.withWork g0) = .ok (.ok v) u ∧ ∀ r, u.conclude r = { t with result := some r } := by
  obtain ⟨g, hg⟩ := serialClock_frame h hv g0
  refine ⟨(t.nestedIn s).withWork g, by simp only [attempt, hg], fun r => ?_⟩
  rw [conclude_withWork]
  exact conclude_nestedIn (blind_bind (blind_serialExchange cmd d) (fun _ => blind_pure _)) h r

/-- A SERIAL_CLOCK that ended in a fault, attempted inside another operation, which then ends there. -/
theorem attempt_fault {s t : State} {cmd : Word16} {d : Nat} {f : FaultKind} (h : exec (.serialClock cmd d) s = .next t)
    (hf : t.result = some (.fault f)) (g0 : WorkRegs → WorkRegs) :
    ∃ u, attempt (serialExchange cmd d) (s.withWork g0) = .ok (.error f) u ∧ ∀ r, u.conclude r = { t with result := some r } := by
  obtain ⟨e, u, hfails, rfl, he⟩ := serialClock_ends h hf g0
  refine ⟨u, ?_, fun _ => rfl⟩
  rcases he with rfl | ⟨p, rfl, rfl⟩ <;> simp only [attempt, hfails]

/-- A unit whose exchange ends the stream leaves the bytes read before it (R147). -/
theorem run_readUnits_ends {s t : State} {r : OpResult} {o : StreamOutcome} (h : exec (.serialClock s.params.nopCmd 0) s = .next t)
    (hr : t.result = some r) (hends : EndsStream r o) (k : Nat) (data : List Byte) (g0 : WorkRegs → WorkRegs) :
    ∃ u, readUnits (k + 1) data (s.withWork g0) = .ok (o, data) u ∧ ∀ r, u.conclude r = { t with result := some r } := by
  rw [readUnits, run_bind, run_get]
  simp only [withWork_params]
  cases hends with
  | notReady hv =>
    obtain ⟨u, hu, hend⟩ := attempt_frame h hr g0
    exact ⟨u, (run_bind_ok hu).trans (by simp only [hv, run_pure]), hend⟩
  | sentinel hv =>
    obtain ⟨u, hu, hend⟩ := attempt_frame h hr g0
    exact ⟨u, (run_bind_ok hu).trans (by simp only [hv, run_pure]), hend⟩
  | failed =>
    obtain ⟨u, hu, hend⟩ := attempt_fault h hr g0
    exact ⟨u, run_bind_ok hu, hend⟩

/-- The bytes of a list of exchanges: of each frame bits 15 to 8, then bits 7 to 0 (R147). -/
def framesData (l : List Clocked) : List Byte := l.flatMap (fun c => [c.frame.extractLsb' 8 8, c.frame.extractLsb' 0 8])

theorem framesData_length (l : List Clocked) : (framesData l).length = 2 * l.length := by
  simp [framesData, List.length_flatMap, Nat.mul_comm]

/-- After payloads, the first unit that ends the stream ends STREAM_READ where its exchange ended, with the bytes read before (R147, R148). -/
theorem streamRead_ends {s s1 t : State} {x : Session} {l : List Clocked} {r : OpResult} {o : StreamOutcome} (hx : s.session = some x)
    (hl : ∀ c ∈ l, c.cmd = s.params.nopCmd ∧ c.delayBits = 0 ∧ decodeFrame c.frame = .payload c.frame) (hto : clocksTo s l s1)
    (h : exec (.serialClock s.params.nopCmd 0) s1 = .next t) (hr : t.result = some r) (hends : EndsStream r o) (more : Nat) :
    exec (.streamRead (2 * (l.length + 1 + more))) s = .next { t with result := some (.streamRead (2 * l.length) o (framesData l)) } := by
  obtain ⟨hparams, _⟩ := clocksTo_keep l s s1 hto
  obtain ⟨g, hg⟩ := clocked_readUnits l (more + 1) s s1 [] id hl hto
  rw [withWork_id] at hg
  obtain ⟨u, hu, hend⟩ := run_readUnits_ends (by rw [hparams]; exact h) hr hends more (framesData l) g
  have hunits : readUnits (l.length + (more + 1)) [] s = .ok (o, framesData l) u := hg.trans hu
  rw [Nat.add_assoc, Nat.add_comm 1, exec_streamRead_even hx, runOp_outcome, run_bind, hunits, ← hend, ← framesData_length]
  rfl

/-- The answered NOP exchange of a frozen target, by the frame it returned. -/
def clockedOf (e : Exchange) : Clocked := { cmd := e.cmd, delayBits := 0, frame := exchangeResult e.cmd e.samples }

theorem framesData_clockedOf (es : List Exchange) : framesData (es.map clockedOf) =
    es.flatMap (fun e => [(exchangeResult e.cmd e.samples).extractLsb' 8 8, (exchangeResult e.cmd e.samples).extractLsb' 0 8]) := by
  rw [framesData, List.flatMap_map]
  rfl

/-- The answered exchanges of a frozen target, cut before the last one: it is a SERIAL_CLOCK where the others end. -/
theorem clocksTo_last {s : State} {x : Session} {es : List Exchange} {bad : Exchange} {rest : List Byte} (hx : s.session = some x)
    (hc : x.caps = capsOf x.variant) (hp : patternsSound s.params = true)
    (ha : ∀ e ∈ es ++ [bad], e.answered s.params x 0 = true) (hs : s.statScript = (es ++ [bad]).flatMap Exchange.script ++ rest) :
    ∃ s1 t, clocksTo s (es.map clockedOf) s1 ∧ exec (.serialClock bad.cmd 0) s1 = .next t ∧
      t.result = some (.frame (exchangeResult bad.cmd bad.samples)) ∧
      ∀ r, { t with result := some r } = ((es ++ [bad]).foldl State.exchanged s).conclude r := by
  obtain ⟨g, hto⟩ := clocksTo_exchanged (fun _ => 0) (es ++ [bad]) s x rest id hx hc hp (fun e he => ⟨by omega, ha e he⟩) hs
  rw [List.map_append, clocksTo_append, withWork_id] at hto
  obtain ⟨s1, hbefore, t, hexec, hresult, hlast⟩ := hto
  refine ⟨s1, t, hbefore, hexec, hresult, fun r => ?_⟩
  have hend := conclude_nestedIn (blind_bind (blind_serialExchange bad.cmd 0) (fun _ => blind_pure _)) hexec r
  rw [← hend, ← hlast, conclude_withWork]

/-- Settles O38: by the exchanges the stream makes, of which the answered exchanges of a frozen target are one case. -/
theorem streamReadStopsAtASentinel : Obligations.StreamReadStopsAtASentinel := by
  intro s x more hx hc
  refine ⟨fun es rest hp hes => ?_, fun l s1 t hl hto h => ?_⟩
  · have hl : ∀ c ∈ es.map clockedOf, c.cmd = s.params.nopCmd ∧ c.delayBits = 0 ∧ decodeFrame c.frame = .payload c.frame := by
      intro c hmem
      obtain ⟨e, he, rfl⟩ := List.mem_map.mp hmem
      obtain ⟨hcmd, _, hpayload⟩ := hes e he
      exact ⟨hcmd, rfl, hpayload⟩
    have hanswered : ∀ e ∈ es, e.answered s.params x 0 = true := fun e he => (hes e he).2.1
    intro data
    have hdata : framesData (es.map clockedOf) = data := framesData_clockedOf es
    refine ⟨fun bad hcmd hbad hscript => ?_, fun t f hscript h hf => ?_⟩
    · obtain ⟨s1, t, hto, hexec, hresult, hend⟩ :=
        clocksTo_last hx hc hp (by simpa [or_imp, forall_and] using ⟨hanswered, hbad⟩) hscript
      have hends {o} (ho : EndsStream (.frame (exchangeResult bad.cmd bad.samples)) o) :
          exec (.streamRead (2 * (es.length + 1 + more))) s =
            .next (((es ++ [bad]).foldl State.exchanged s).conclude (.streamRead (2 * es.length) o data)) := by
        have hrun := streamRead_ends hx hl hto (hcmd ▸ hexec) hresult ho more
        rwa [hdata, List.length_map, hend] at hrun
      exact ⟨fun hr => hends (.notReady (hr ▸ rfl)), fun hr => hends (.sentinel (hr ▸ rfl)), fun hr => hends (.sentinel (hr ▸ rfl))⟩
    · obtain ⟨g, hto⟩ := clocksTo_exchanged (fun _ => 0) es s x rest id hx hc hp (fun e he => ⟨by omega, hanswered e he⟩) hscript
      have hrun := streamRead_ends hx hl hto (by simpa [exec_serialClock_withWork] using h) hf .failed more
      rwa [hdata, List.length_map] at hrun
  · have hends := fun {r o} (hr : t.result = some r) (ho : EndsStream r o) => streamRead_ends hx hl hto h hr ho more
    exact ⟨fun hr => hends hr (.notReady rfl), fun hr => hends hr (.sentinel rfl), fun hr => hends hr (.sentinel rfl),
      fun f hr => hends hr .failed⟩

end Sys2Proof.Exchanges
end

/-! The operations made of several exchanges: STREAM_READ to its end (R147), RESYNCHRONIZE frame by frame and pulse by pulse (R140), and STEP_CHIP from its
exchange through the held-back bit to its stop (R172). -/

namespace Sys2Proof.Exchanges

open Sys2Proof Sys2Proof.Machine Sys2Proof.Laws

/-! ### STREAM_READ to its end (R147) -/

/-- Where its exchanges returned payloads, STREAM_READ ends with all their bytes. -/
theorem streamRead_done {s s1 : State} {x : Session} {l : List Clocked} (hx : s.session = some x)
    (hl : ∀ c ∈ l, c.cmd = s.params.nopCmd ∧ c.delayBits = 0 ∧ decodeFrame c.frame = .payload c.frame) (hto : clocksTo s l s1) :
    exec (.streamRead (2 * l.length)) s = .next (s1.conclude (.streamRead (2 * l.length) .ok (framesData l))) := by
  obtain ⟨g, hg⟩ := clocked_readUnits l 0 s s1 [] id hl hto
  have hunits : readUnits l.length [] s = .ok (.ok, framesData l) (s1.withWork g) := hg
  rw [exec_streamRead_even hx, runOp_outcome, run_bind, hunits, ← framesData_length]
  rfl

/-- Settles O37: by the exchanges the stream makes, of which the answered exchanges of a frozen target are one case. -/
theorem streamReadDeliversPayloads : Obligations.StreamReadDeliversPayloads := by
  intro s x hx hc
  refine ⟨fun es rest hp hes hscript => ?_, fun l s1 hl hto => streamRead_done hx hl hto⟩
  obtain ⟨g, hto⟩ := clocksTo_exchanged (fun _ => 0) es s x rest id hx hc hp (fun e he => ⟨by omega, (hes e he).2.1⟩) hscript
  have hl : ∀ c ∈ es.map clockedOf, c.cmd = s.params.nopCmd ∧ c.delayBits = 0 ∧ decodeFrame c.frame = .payload c.frame := by
    intro c hmem
    obtain ⟨e, he, rfl⟩ := List.mem_map.mp hmem
    obtain ⟨hcmd, _, hpayload⟩ := hes e he
    exact ⟨hcmd, rfl, hpayload⟩
  have hdone := streamRead_done hx hl hto
  rwa [framesData_clockedOf, List.length_map, conclude_withWork] at hdone

/-! ### RESYNCHRONIZE (R140) -/

/-- The answered exchange of a frozen target, with the `delayBits` that its number of samples fixes. -/
def clockedBySamples (e : Exchange) : Clocked :=
  { cmd := e.cmd, delayBits := 17 - e.samples.length, frame := exchangeResult e.cmd e.samples }

/-- An answered exchange was asked for with the `delayBits` of its samples. -/
theorem clockedBySamples_delayBits {e : Exchange} {p : Params} {x : Session} {d : Nat} (hd : d ≤ 16) (h : e.answered p x d = true) :
    (clockedBySamples e).delayBits = d := by
  have hlen := answered_length h
  simp only [clockedBySamples]
  omega

/-- The answered exchanges of a frozen target, of any numbers of bits, are a list of exchanges. -/
theorem clocksTo_bySamples {s : State} {x : Session} {es : List Exchange} {rest : List Byte} (hx : s.session = some x)
    (hc : x.caps = capsOf x.variant) (hp : patternsSound s.params = true)
    (ha : ∀ e ∈ es, ∃ d ≤ 16, e.answered s.params x d = true) (hs : s.statScript = es.flatMap Exchange.script ++ rest) :
    ∃ g, clocksTo s (es.map clockedBySamples) ((es.foldl State.exchanged s).withWork g) := by
  refine clocksTo_exchanged (fun e => (clockedBySamples e).delayBits) es s x rest id hx hc hp (fun e he => ?_) hs
  obtain ⟨d, hd, h⟩ := ha e he
  rw [clockedBySamples_delayBits hd h]
  exact ⟨hd, h⟩

/-- RESYNCHRONIZE is its frames and then its pulses. -/
theorem exec_resynchronize {s : State} {x : Session} (hx : s.session = some x) (hc : x.caps = capsOf x.variant) :
    exec .resynchronize s = outcomeOf (((nopFrames resyncNops >>= fun _ => idlePulses resyncPulses) >>= fun _ => pure .ok) s) := by
  have hcap : x.caps.resynchronize = true := by rw [hc]; rfl
  have htarget : resynchronizeTarget s = (nopFrames resyncNops >>= fun _ => idlePulses resyncPulses) s := by
    rw [resynchronizeTarget, run_bind, run_useCap hx, hcap]
    rfl
  rw [← runOp_outcome]
  simp only [exec, execResynchronize, runOp_outcome]
  rw [run_bind, run_bind, htarget]

/-- One pulse: an exchange of one bit, after which the level it recorded decides. -/
theorem idlePulses_succ (k : Nat) (s : State) (g : WorkRegs → WorkRegs) :
    idlePulses (k + 1) (s.withWork g) =
      (serialExchange s.params.nopCmd 16 >>= fun v => currentParams >>= fun p =>
        if recordedLevel (v.getLsbD 0) = p.dsoIdle then pure () else idlePulses k) (s.withWork (fun w => { g w with poll := k + 1 })) := by
  rw [idlePulses, run_bind, run_setPoll]
  rfl

section

variable {s s1 : State} {x : Session} {frames : List Clocked} (hx : s.session = some x) (hc : x.caps = capsOf x.variant)
  (hframes : ∀ c ∈ frames, c.cmd = s.params.nopCmd ∧ c.delayBits = 0)

include hx hc hframes

/-- A frame that fails ends RESYNCHRONIZE where its exchange ended. -/
theorem resynchronize_frame_fails {t : State} {f : FaultKind} (hto : clocksTo s frames s1) (hlen : frames.length < 3)
    (h : exec (.serialClock s.params.nopCmd 0) s1 = .next t) (hf : t.result = some (.fault f)) : exec .resynchronize s = .next t := by
  obtain ⟨k, hk⟩ : ∃ k, resyncNops = frames.length + (k + 1) := ⟨2 - frames.length, by simp only [resyncNops]; omega⟩
  obtain ⟨hparams, _⟩ := clocksTo_keep frames s s1 hto
  obtain ⟨g, hg⟩ := run_nopFrames frames (k + 1) s s1 id hframes hto
  rw [withWork_id, ← hk] at hg
  rw [← hparams] at h
  obtain ⟨e, u, hfails, rfl, he⟩ := serialClock_ends h hf g
  have hnops : nopFrames resyncNops s = .error e u := by
    rw [hg, nopFrames, run_bind, run_get]
    exact run_bind_error hfails
  rw [exec_resynchronize hx hc, ← runOp_outcome]
  exact runOp_ended ⟨id, run_bind_error (run_bind_error hnops)⟩ he

variable {pulses : List Clocked} (hpulses : ∀ c ∈ pulses, c.cmd = s.params.nopCmd ∧ c.delayBits = 16)
  (hto : clocksTo s (frames ++ pulses) s1) (hlen : frames.length = 3)
  (hlow : ∀ c ∈ pulses, ¬ recordedLevel (c.frame.getLsbD 0) = (variantParams s.params x.variant).dsoIdle)

include hpulses hto hlen hlow

/-- After its three frames and pulses that do not show the idle level, RESYNCHRONIZE goes on with the pulses left. -/
theorem exec_resynchronize_clocked {k : Nat} (hk : pulses.length + k = 17) :
    ∃ g, exec .resynchronize s = outcomeOf ((idlePulses k >>= fun _ => pure .ok) (s1.withWork g)) := by
  obtain ⟨s0, hto0, hto1⟩ := (clocksTo_append frames pulses s s1).mp hto
  obtain ⟨hparams, hvariant, _⟩ := clocksTo_keep frames s s0 hto0
  obtain ⟨g, hg⟩ := run_nopFrames frames 0 s s0 id hframes hto0
  obtain ⟨g', hg'⟩ := run_idlePulses pulses k (x := x) s0 s1 g (by rw [hvariant, hx]; rfl) (by rwa [hparams])
    (by rwa [hparams]) hto1
  have hnops : nopFrames resyncNops s = .ok () (s0.withWork g) := by
    rw [show resyncNops = frames.length + 0 from hlen.symm]
    exact hg
  refine ⟨g', ?_⟩
  rw [exec_resynchronize hx hc, run_bind, run_bind_ok hnops, show resyncPulses = pulses.length + k from hk.symm, hg', ← run_bind]

theorem resynchronize_unknown (hall : pulses.length = 17) : exec .resynchronize s = .next (s1.takeFault (.proto .unknown)) := by
  obtain ⟨g, hg⟩ := exec_resynchronize_clocked hx hc hframes hpulses hto hlen hlow (k := 0) hall
  exact hg

/-- A pulse that fails ends RESYNCHRONIZE where its exchange ended. -/
theorem resynchronize_pulse_fails {t : State} {f : FaultKind} (hleft : pulses.length < 17)
    (h : exec (.serialClock s.params.nopCmd 16) s1 = .next t) (hf : t.result = some (.fault f)) : exec .resynchronize s = .next t := by
  obtain ⟨k, hk⟩ : ∃ k, pulses.length + (k + 1) = 17 := ⟨16 - pulses.length, by omega⟩
  obtain ⟨hparams, _⟩ := clocksTo_keep _ s s1 hto
  obtain ⟨g, hg⟩ := exec_resynchronize_clocked hx hc hframes hpulses hto hlen hlow hk
  rw [← hparams] at h
  obtain ⟨e, u, hfails, rfl, he⟩ := serialClock_ends h hf (fun w => { g w with poll := k + 1 })
  rw [hg, ← runOp_outcome]
  refine runOp_ended ⟨id, run_bind_error ?_⟩ he
  rw [idlePulses_succ]
  exact run_bind_error hfails

/-- The first pulse that shows the idle level ends RESYNCHRONIZE with `Ok`. -/
theorem resynchronize_idle {s2 : State} {last : Clocked} (hleft : pulses.length ≤ 16) (hcmd : last.cmd = s.params.nopCmd)
    (hbits : last.delayBits = 16) (hidle : recordedLevel (last.frame.getLsbD 0) = (variantParams s.params x.variant).dsoIdle)
    (hlast : clocksTo s1 [last] s2) : exec .resynchronize s = .next (s2.conclude .ok) := by
  obtain ⟨k, hk⟩ : ∃ k, pulses.length + (k + 1) = 17 := ⟨16 - pulses.length, by omega⟩
  obtain ⟨hparams, hvariant, _⟩ := clocksTo_keep _ s s2 ((clocksTo_append _ _ _ _).mpr ⟨s1, hto, hlast⟩)
  obtain ⟨hparams1, _⟩ := clocksTo_keep _ s s1 hto
  obtain ⟨g, hg⟩ := exec_resynchronize_clocked hx hc hframes hpulses hto hlen hlow hk
  obtain ⟨u, hclock, hframe, rfl⟩ := hlast
  rw [hcmd, hbits, ← hparams1] at hclock
  obtain ⟨g', hg'⟩ := serialClock_frame hclock hframe (fun w => { g w with poll := k + 1 })
  obtain ⟨y, hy, hyx⟩ : ∃ y, u.session = some y ∧ y.variant = x.variant := by simpa [hx] using hvariant
  have hsession : ((u.nestedIn s1).withWork g').session = some y := hy
  have hnow : currentParams ((u.nestedIn s1).withWork g') = .ok (variantParams s.params x.variant) ((u.nestedIn s1).withWork g') := by
    rw [run_currentParams hsession, hyx, withWork_params, hparams]
  have hpulse : idlePulses (k + 1) (s1.withWork g) = .ok () ((u.nestedIn s1).withWork g') := by
    rw [idlePulses_succ, run_bind_ok hg', run_bind_ok hnow, if_pos hidle, run_pure]
  rw [hg, run_bind, hpulse]
  rfl

end

/-- Settles O35: by the exchanges RESYNCHRONIZE makes, of which the answered exchanges of a frozen target are one case. -/
theorem resynchronizeFindsTheIdleLevel : Obligations.ResynchronizeFindsTheIdleLevel := by
  intro s x hx hc idle
  refine ⟨fun frames pulses rest more hp hlen hframes hpulses hlow => ?_, fun frames pulses s1 hframes hpulses hto => ?_⟩
  · have nops : ∀ c ∈ frames.map clockedBySamples, c.cmd = s.params.nopCmd ∧ c.delayBits = 0 := by
      intro c hmem
      obtain ⟨e, he, rfl⟩ := List.mem_map.mp hmem
      exact ⟨(hframes e he).1, clockedBySamples_delayBits (by omega) (hframes e he).2⟩
    have pulse : ∀ e ∈ pulses ++ rest, (clockedBySamples e).cmd = s.params.nopCmd ∧ (clockedBySamples e).delayBits = 16 :=
      fun e he => ⟨(hpulses e he).1, clockedBySamples_delayBits (by omega) (hpulses e he).2⟩
    have hbefore : ∀ c ∈ pulses.map clockedBySamples, c.cmd = s.params.nopCmd ∧ c.delayBits = 16 := by
      simpa using fun e he => pulse e (List.mem_append_left _ he)
    have hnone : ∀ c ∈ pulses.map clockedBySamples, ¬ idle c.frame := by simpa [clockedBySamples] using hlow
    have hanswered : ∀ e ∈ frames ++ pulses ++ rest, ∃ d ≤ 16, e.answered s.params x d = true := by
      intro e he
      rw [List.append_assoc, List.mem_append] at he
      rcases he with he | he
      · exact ⟨0, by omega, (hframes e he).2⟩
      · exact ⟨16, by omega, (hpulses e he).2⟩
    refine ⟨fun last hrest hfew hidle hscript => ?_, fun hall hscript => ?_⟩
    · subst hrest
      obtain ⟨g, hto⟩ := clocksTo_bySamples hx hc hp hanswered hscript
      rw [List.map_append, clocksTo_append, List.map_append] at hto
      obtain ⟨s1, hto, hlast⟩ := hto
      obtain ⟨hcmd, hbits⟩ := pulse last (by simp)
      have hdone := resynchronize_idle hx hc nops hbefore hto (by simpa using hlen) hnone (by simpa using hfew) hcmd hbits hidle hlast
      rwa [conclude_withWork] at hdone
    · obtain ⟨g, hto⟩ := clocksTo_bySamples hx hc hp (fun e he => hanswered e (List.mem_append_left _ he)) hscript
      rw [List.map_append] at hto
      have hdone := resynchronize_unknown hx hc nops hbefore hto (by simpa using hlen) hnone (by simpa using hall)
      rwa [takeFault_withWork] at hdone
  · refine ⟨fun before last hlen hsplit hfew hlow hidle => ?_, fun hlow => ⟨fun hlen hall => ?_, fun t f hf => ⟨?_, ?_⟩⟩⟩
    · subst hsplit
      rw [← List.append_assoc, clocksTo_append] at hto
      obtain ⟨s0, hto, hlast⟩ := hto
      obtain ⟨hcmd, hbits⟩ := hpulses last (by simp)
      exact resynchronize_idle hx hc hframes (fun c hmem => hpulses c (List.mem_append_left _ hmem)) hto hlen hlow hfew hcmd hbits hidle hlast
    · exact resynchronize_unknown hx hc hframes hpulses hto hlen hlow hall
    · rintro hlen rfl h
      rw [List.append_nil] at hto
      exact resynchronize_frame_fails hx hc hframes hto hlen h hf
    · intro hlen hleft h
      exact resynchronize_pulse_fails hx hc hframes hpulses hto hlen hlow hleft h hf

/-! ### STEP_CHIP (R172) -/

/-- The events of the held-back bit `d`, clocked over the armed pattern with no sample (R172). -/
def heldEvents (v : VariantParams) (y : Session) (d : Byte) : List LineEvent :=
  let led := fun p => keepLed v.encoding y.shadow p
  [LineEvent.wrote (led (v.patterns.arm ||| d)), .wrote (led (v.patterns.arm ||| d ||| 0x02))] ++ bitDelayEvents y y.halfDelay ++
    [LineEvent.wrote (led (v.patterns.arm ||| d))] ++ bitDelayEvents y y.baseDelay

/-- Where STEP_CHIP stops the target, its exchange having ended at `u` with the session `y` (R172). -/
def heldBack (v : VariantParams) (y : Session) (d : Byte) (u : State) : State :=
  let last := keepLed v.encoding y.shadow (v.patterns.arm ||| d)
  { u with lines := last, session := some { y with shadow := last }, lineTrace := u.lineTrace ++ heldEvents v y d }

/-- The armed pattern with a bit on `DSI` leaves the LED bit alone (R94, R96). -/
theorem armedBit_ledClear {p : Params} (h : patternsSound p = true) (var : Variant) (bit : Bool) :
    ((variantParams p var).patterns.arm ||| dsi bit) &&& ledBit = 0 := by
  obtain ⟨_, harm, _⟩ := patterns_ledClear h var
  rw [or_and_mask, harm, dsi_ledClear]
  rfl

/-- The held-back bit's events depend on the shadow only through the LED bit it keeps. -/
theorem heldEvents_shadow {v : VariantParams} {x : Session} {d sh : Byte}
    (h : ∀ q, keepLed v.encoding sh q = keepLed v.encoding x.shadow q) : heldEvents v { x with shadow := sh } d = heldEvents v x d := by
  simp only [heldEvents, h]
  rfl

/-- The held-back bit moves the lines to the armed pattern with the bit and leaves everything else but the trace (R172). -/
theorem run_clockArmedBit {u : State} {y : Session} (hy : u.session = some y) (hp : patternsSound u.params = true) (bit : Bool) :
    clockArmedBit bit u = .ok () (heldBack (variantParams u.params y.variant) y (dsi bit) u) := by
  set v := variantParams u.params y.variant with hv
  have hlow : (v.patterns.arm ||| dsi bit) &&& ledBit = 0 := armedBit_ledClear hp y.variant bit
  have hhigh : (v.patterns.arm ||| dsi bit ||| clk true) &&& ledBit = 0 := by rw [or_and_mask, hlow, clk_ledClear]; rfl
  rw [clockArmedBit, run_bind_ok (run_openedSession hy), run_bind_ok (run_currentParams hy), ← hv,
    run_bind_ok (run_writeKept _ hy), ← hv,
    run_bind_ok (run_writeKept (x := { y with shadow := keepLed v.encoding y.shadow (v.patterns.arm ||| dsi bit) }) _ (by simp [hy]))]
  simp only [wroteCtrl_params, ← hv, keepLed_keepLed _ _ _ _ hlow]
  rw [run_bind_ok (run_bitDelay _ _ _), run_bind_ok (run_writeKept
    (x := { y with shadow := keepLed v.encoding y.shadow (v.patterns.arm ||| dsi bit ||| clk true) }) _ (by simp [hy]))]
  simp only [wroteCtrl_params, ← hv, keepLed_keepLed _ _ _ _ hhigh, run_bitDelay]
  congr 1
  apply state_ext <;> simp [hy, heldBack, heldEvents, clk]

/-- The resynchronization of a lifecycle operation, where the variant asks for it, is its last part (R183). -/
theorem resynchronize_if_asked (asked : Bool) :
    (if asked then (do resynchronizeTarget; pure .ok) else pure .ok : Op OpResult) =
      (do (if asked then resynchronizeTarget else pure ()); pure .ok) := by
  cases asked <;> rfl

/-- A status read changes neither the count of operations nor the last result. -/
theorem nestedIn_readStat (t s : State) : t.nestedIn s.readStat = t.nestedIn s := rfl

/-- After its exchange STEP_CHIP clocks the held-back bit and then ends as a stop does there (R172, R183). -/
theorem stepChip_endsStopping {s u : State} {x y : Session} {w : Word32} (hx : s.session = some x) (hc : x.caps = capsOf x.variant)
    (hp : patternsSound s.params = true) (hf : unavailableFault (decodeStatus x.sense s.nextStat) = none)
    (h : exec (.serialClock s.params.goCmd 1) s.readStat = .next u) (hw : u.result = some (.frame w)) (hy : u.session = some y) :
    endsStopping (exec .stepChip s) (variantParams s.params x.variant).resyncAfterStep
      (heldBack (variantParams s.params x.variant) y (dsi (s.params.goCmd.getLsbD 0)) (u.nestedIn s)) := by
  have hcap : x.caps.stepChip = true := by rw [hc]; rfl
  obtain ⟨g, havailable⟩ := run_checkAvailable hx (by rw [hc]; rfl) hf
  obtain ⟨g', hexchange⟩ := serialClock_frame h hw g
  rw [nestedIn_readStat] at hexchange
  obtain ⟨hparams, hvariant, _⟩ := clocksTo_keep [⟨s.params.goCmd, 1, w⟩] s.readStat _ ⟨u, h, hw, rfl⟩
  rw [nestedIn_params, readStat_params] at hparams
  have hyx : y.variant = x.variant := by simpa [hy, hx] using hvariant
  have hbit := run_clockArmedBit (u := (u.nestedIn s).withWork g') hy (by simpa [hparams] using hp) (s.params.goCmd.getLsbD 0)
  rw [withWork_params, nestedIn_params, hparams, hyx] at hbit
  rw [show (variantParams s.params x.variant).resyncAfterStep = (variantParams u.params x.variant).resyncAfterStep by rw [hparams]]
  refine runOp_endsStopping (by simp [heldBack, hyx]) g' VariantParams.resyncAfterStep _ ?_
  simp only [exec, execStepChip, resynchronize_if_asked, runOp_outcome]
  rw [run_bind, run_useCap hx, hcap, if_pos rfl]
  simp only
  rw [run_bind_ok havailable, run_bind_ok (run_get _)]
  simp only [withWork_params, readStat_params]
  rw [run_bind_ok hexchange, run_bind_ok hbit]
  rfl

/-- STOP_CHIP on a target that is frozen already: one status read and the idle pattern (R170, R181). -/
theorem stopChip_frozen {m : State} {y : Session} {st : Byte} {rest : List Byte} (hy : m.session = some y)
    (hc : y.caps = capsOf y.variant) (hst : runningSample y st = false) (hs : m.statScript = st :: rest) :
    let v := variantParams m.params y.variant
    let idle := keepLed v.encoding y.shadow v.patterns.idle
    exec .stopChip m = .next
      ({ m with
          lines := idle, session := some { y with shadow := idle }, statScript := rest
          lineTrace := m.lineTrace ++ [LineEvent.read st, .wrote idle] }.conclude .ok) := by
  intro v idle
  have hn : m.nextStat = st := nextStat_cons _ _ _ hs
  obtain ⟨g, hg⟩ := run_stopTarget_frozen hy (by rw [hc]; rfl) (by rw [hc]; rfl) (by rw [hn]; simpa [runningSample] using hst)
  have hexec : exec .stopChip m = _ := runOp_ok (run_bind_ok hg)
  rw [hexec]
  congr 1
  apply state_ext <;> simp [hy, hn, hs, v, idle]

/-- Where STEP_CHIP stops a frozen target that answered its status read and its exchange: the armed pattern with the held-back bit (R172). -/
theorem heldBack_exchanged {s : State} {x : Session} {e : Exchange} {d first : Byte} {rest : List Byte} (hx : s.session = some x)
    (hp : patternsSound s.params = true) (hs : s.statScript = first :: (e.script ++ rest)) (r : OpResult) :
    let v := variantParams s.params x.variant
    let armed := keepLed v.encoding x.shadow (v.patterns.arm ||| d)
    heldBack v { x with shadow := bitPattern v x e.cmd (e.samples.length - 1) false } d (((s.readStat.exchanged e).conclude r).nestedIn s) =
      { s with
        work := WorkRegs.rest, lines := armed, session := some { x with shadow := armed }, statScript := rest
        lineTrace := s.lineTrace ++ [LineEvent.read first] ++ e.events v x ++ heldEvents v x d } := by
  intro v armed
  obtain ⟨hidle, _⟩ := patterns_ledClear hp x.variant
  have hled : ∀ q, keepLed v.encoding (bitPattern v x e.cmd (e.samples.length - 1) false) q = keepLed v.encoding x.shadow q :=
    fun q => keepLed_keepLed _ _ _ _ (pBit_ledClear _ _ _ hidle)
  have hn : s.nextStat = first := nextStat_cons _ _ _ hs
  have hread : s.readStat.statScript = e.script ++ rest := by simp [hs]
  rw [exchanged_of_script (x := x) (by simpa using hx) hread]
  apply state_ext <;> simp [heldBack, hled, heldEvents_shadow hled, hn, armed, v]

/-- STEP_CHIP on a frozen target that answers its exchange and freezes again at once, with no resynchronization asked for (R172). -/
theorem stepChip_frozen {s : State} {x : Session} {e : Exchange} {first last : Byte} {rest : List Byte} (hx : s.session = some x)
    (hc : x.caps = capsOf x.variant) (hp : patternsSound s.params = true) (hresync : (variantParams s.params x.variant).resyncAfterStep = false)
    (hcmd : e.cmd = s.params.goCmd) (hf : unavailableFault (decodeStatus x.sense first) = none) (ha : e.answered s.params x 1 = true)
    (hlast : runningSample x last = false) (hs : s.statScript = first :: (e.script ++ last :: rest)) :
    let v := variantParams s.params x.variant
    let idle := keepLed v.encoding x.shadow v.patterns.idle
    exec .stepChip s = .next
      ({ s with
          lines := idle, session := some { x with shadow := idle }, statScript := rest
          lineTrace := s.lineTrace ++ [LineEvent.read first] ++ e.events v x ++ heldEvents v x (dsi (s.params.goCmd.getLsbD 0)) ++
            [LineEvent.read last, .wrote idle] }.conclude .ok) := by
  intro v idle
  have hn : s.nextStat = first := nextStat_cons _ _ _ hs
  have hxread : s.readStat.session = some x := by simpa using hx
  have hclock := exec_serialClock_answered (s := s.readStat) hxread hc hp (by omega) ha (rest := last :: rest) (by simp [hs])
  rw [hcmd] at hclock
  have hends := stepChip_endsStopping hx hc hp (by rwa [hn]) hclock rfl (exchanged_session hxread e)
  rw [readStat_params, heldBack_exchanged hx hp hs] at hends
  obtain ⟨hstep, _⟩ := hends _ (stopChip_frozen rfl hc hlast rfl)
  rw [hstep (.inr hresync), keepLed_keepLed _ _ _ _ (armedBit_ledClear hp x.variant _)]
  simp [State.conclude, v, idle]

/-- Settles O32: by the exchange and the held-back bit, after which the stop decides; a frozen target's exchange and stop are one case. -/
theorem stepChipClocksTheHeldBitArmed : Obligations.StepChipClocksTheHeldBitArmed := by
  intro s x hx hc hp v d held
  exact ⟨fun u w y hf h hw hy => stepChip_endsStopping hx hc hp hf h hw hy,
    fun first e last rest hresync hcmd hf ha hlast hs => stepChip_frozen hx hc hp hresync hcmd hf ha hlast hs⟩

end Sys2Proof.Exchanges

/-! The lifecycle operations (R160 to R184): without a session (R162), OPEN and CLOSE (R160, R161), the session's own commands (R164, R165, R176 to R180), and
the sequences that reset, release, restart and stop the target (R170 to R175). -/

namespace Sys2Proof.Lifecycle

open Sys2Proof Sys2Proof.Machine Sys2Proof.Laws Sys2Proof.Exchanges

variable {α β : Type}

/-! ### Without a session (R162) -/

/-- On a channel without a session `m` raises `NOT_OPEN` before anything else. -/
def NeedsSession (m : Op α) : Prop := ∀ s : State, s.session = none → m s = .error (.fault .notOpen) s

theorem needsSession_openedSession : NeedsSession openedSession := fun _ hx => run_openedSession_none hx

theorem needsSession_useCap (present : Caps → Bool) : NeedsSession (useCap present) := fun _ hx => run_useCap_none hx

theorem needsSession_bind {m : Op α} (h : NeedsSession m) (k : α → Op β) : NeedsSession (m >>= k) := fun s hx => run_bind_error (h s hx)

theorem needsSession_readStatus : NeedsSession readStatus := needsSession_bind (needsSession_useCap _) _

theorem needsSession_stopTarget : NeedsSession stopTarget := needsSession_bind (needsSession_useCap _) _

theorem needsSession_serialExchange (cmd : Word16) (delayBits : Nat) : NeedsSession (serialExchange cmd delayBits) :=
  needsSession_bind (needsSession_useCap _) _

theorem needsSession_resynchronizeTarget : NeedsSession resynchronizeTarget := needsSession_bind (needsSession_useCap _) _

theorem needsSession_initSession : NeedsSession initSession := needsSession_bind (needsSession_useCap _) _

theorem needsSession_deinitSession : NeedsSession deinitSession := needsSession_bind (needsSession_useCap _) _

/-- An operation whose first part needs the session is `NOT_OPEN` without one, with nothing done (R162). -/
theorem runOp_notOpen {m : Op α} {k : α → Op OpResult} {s : State} (h : NeedsSession m) (hx : s.session = none) :
    runOp (m >>= k) s = .next (s.takeFault .notOpen) :=
  runOp_fault (needsSession_bind h k s hx)

/-- A CLOSE of a free channel is refused before its first step (R161). -/
theorem closeSession_free {s : State} (howned : s.owned = false) : exec .closeSession s = .next (s.takeFault .notOpen) := by
  refine runOp_fault ((run_bind_ok (run_get s)).trans ?_)
  simp [howned]

/-- Settles O18: CLOSE tests the ownership first, and every other operation's first part is one that needs the session. -/
theorem notOpenWithoutASession : Obligations.NotOpenWithoutASession := by
  intro i s hi hx howned
  cases i with
  | init => exact runOp_notOpen needsSession_initSession hx
  | deinit => exact runOp_notOpen needsSession_deinitSession hx
  | resetChip | restartChip | stepChip | releaseChip | setLed => exact runOp_notOpen (needsSession_useCap _) hx
  | speed | senseCable | debugLevel | streamWrite | streamRead => exact runOp_notOpen needsSession_openedSession hx
  | stopChip => exact runOp_notOpen needsSession_stopTarget hx
  | getStatus => exact runOp_notOpen needsSession_readStatus hx
  | serialClock => exact runOp_notOpen (needsSession_serialExchange _ _) hx
  | resynchronize => exact runOp_notOpen needsSession_resynchronizeTarget hx
  | closeSession => exact closeSession_free howned
  | _ => exact absurd hi Bool.false_ne_true

/-! ### Updates of an open session -/

section

variable {s : State} {x : Session} (hx : s.session = some x)

include hx

/-- A capability that the variant has may be used (R163, R166). -/
theorem run_useCap_present {present : Caps → Bool} (hc : x.caps = capsOf x.variant) (h : present (capsOf x.variant) = true) :
    useCap present s = .ok () s := by
  rw [run_useCap hx, hc, h, if_pos rfl]

theorem withSession_of_open (f : Session → Session) : s.withSession f = { s with session := some (f x) } := by
  rw [State.withSession, hx, Option.map_some]

theorem wroteCtrl_of_open (p : Byte) :
    s.wroteCtrl p = { s with lines := p, session := some { x with shadow := p }, lineTrace := s.lineTrace ++ [.wrote p] } := by
  rw [State.wroteCtrl, hx, Option.map_some]

/-- INIT's values and `P_RUN`, on any session with the capability (R164). -/
theorem run_initSession (h : x.caps.init = true) :
    let run := (variantParams s.params x.variant).patterns.run
    initSession s = .ok ()
      { s with
        lines := run, session := some { x.initialised s.params with shadow := run }, lineTrace := s.lineTrace ++ [LineEvent.wrote run] } := by
  have hcap : useCap Caps.init s = .ok () s := by rw [run_useCap hx, h, if_pos rfl]
  have hinitialised := withSession_of_open hx (fun y => y.initialised s.params)
  rw [initSession, run_bind_ok hcap, run_bind_ok (run_get s), run_bind_ok (run_updateSession _ _), hinitialised,
    run_bind_ok (run_currentParams rfl), run_writeCtrl, wroteCtrl_of_open rfl]
  rfl

/-- DEINIT releases the lines and changes no field of the session but the shadow (R165). -/
theorem run_deinitSession (hc : x.caps = capsOf x.variant) :
    let released := (variantParams s.params x.variant).patterns.released
    deinitSession s = .ok ()
      { s with lines := released, session := some { x with shadow := released }, lineTrace := s.lineTrace ++ [LineEvent.wrote released] } := by
  rw [deinitSession, run_bind_ok (run_useCap_present hx hc rfl), run_bind_ok (run_currentParams hx), run_writeCtrl, wroteCtrl_of_open hx]

/-- An operation that only updates the session's fields (R176, R178, R179). -/
theorem runOp_withSession {m : Op OpResult} (f : Session → Session) (h : m s = .ok .ok (s.withSession f)) :
    runOp m s = .next ({ s with session := some (f x) }.conclude .ok) := by
  rw [runOp_ok h, withSession_of_open hx]

end

/-! ### OPEN and CLOSE (R160, R161) -/

/-- A variant number above 2 names no variant (R102). -/
theorem variantOf_eq_none {n : Nat} (h : 2 < n) : variantOf n = none := by
  obtain ⟨k, rfl⟩ := Nat.exists_eq_add_of_lt h
  rw [show 2 + k + 1 = k + 3 by omega]
  rfl

theorem openSession_unknown {n : Nat} (h : variantOf n = none) (s : State) : exec (.openSession n) s = .next (s.takeFault .openFail) := by
  refine runOp_fault ?_
  rw [h]
  rfl

/-- OPEN of an owned channel is refused, whatever the variant number (R160). -/
theorem openSession_owned (n : Nat) {s : State} (howned : s.owned = true) : exec (.openSession n) s = .next (s.takeFault .openFail) := by
  cases hv : variantOf n with
  | none => exact openSession_unknown hv s
  | some v =>
    refine runOp_fault ?_
    rw [hv]
    refine (run_bind_ok (run_get s)).trans ?_
    rw [howned]
    rfl

/-- OPEN of a free channel is INIT on the new session (R160). -/
theorem openSession_free {n : Nat} {v : Variant} {s : State} (hv : variantOf n = some v) (howned : s.owned = false) :
    exec (.openSession n) s = exec .init { s with owned := true, session := some (newSession v) } := by
  simp only [exec, execOpenSession, execInit, hv, runOp_outcome]
  rw [run_bind_ok (run_get s), howned]
  rfl

/-- INIT, on any session with the capability (R164). -/
theorem exec_init {s : State} {x : Session} (hx : s.session = some x) (h : x.caps.init = true) :
    let run := (variantParams s.params x.variant).patterns.run
    exec .init s = .next
      ({ s with
          lines := run, session := some { x.initialised s.params with shadow := run }
          lineTrace := s.lineTrace ++ [LineEvent.wrote run] }.conclude .ok) :=
  runOp_ok (run_bind_ok (run_initSession hx h))

/-- Settles O19: the two refusals come first, and a session that OPEN creates is the one INIT leaves. -/
theorem openCreatesTheSession : Obligations.OpenCreatesTheSession := by
  intro n s
  refine ⟨fun h => ?_, fun v hv howned => ?_⟩
  · rcases h with hn | howned
    · exact openSession_unknown (variantOf_eq_none hn) s
    · exact openSession_owned n howned
  · have hvariant : variantOf n = some v := by rcases hv with ⟨rfl, rfl⟩ | ⟨rfl, rfl⟩ | ⟨rfl, rfl⟩ <;> rfl
    rw [openSession_free hvariant howned, exec_init rfl rfl]
    rfl

/-- Settles O20: CLOSE is DEINIT and then the end of the session. -/
theorem closeFreesTheChannel : Obligations.CloseFreesTheChannel := by
  intro s
  refine ⟨closeSession_free, fun x howned hx hc => ?_⟩
  refine runOp_ok ((run_bind_ok (run_get s)).trans ?_)
  rw [howned, if_pos rfl, run_bind_ok (run_deinitSession hx hc), run_bind_ok (run_modify _ _)]
  rfl

/-! ### The session's own commands (R164, R165, R176 to R180) -/

/-- Settles O21: both are one part of the engine and its end. -/
theorem initAndDeinit : Obligations.InitAndDeinit := by
  intro s x hx hc
  refine ⟨?_, runOp_ok (run_bind_ok (run_deinitSession hx hc))⟩
  rw [exec_init hx (by rw [hc]; rfl)]
  rfl

/-- Settles O22: once the session is found open, each of the three is one update of its fields. -/
theorem configurationCommands : Obligations.ConfigurationCommands := by
  intro s x n hx
  have hopened := run_openedSession hx
  exact ⟨runOp_withSession hx (fun y => y.withSpeed s.params n) (run_bind_ok hopened),
    runOp_withSession hx (fun y => { y with sense := isOn n }) (run_bind_ok hopened),
    runOp_withSession hx (fun y => { y with debugLevel := n }) (run_bind_ok hopened)⟩

/-- The pattern SET_LED writes, by the number of its operand (R102, R180). -/
theorem ledPattern_isOn (shadow : Byte) (f : Nat) : ledPattern shadow (isOn f) = (shadow &&& 0xBF) ||| (if f ≠ 0 then 0x40 else 0x00) := by
  by_cases h : f = 0 <;> simp [ledPattern, isOn, ledBit, h]

/-- Settles O23: `PD` lacks the capability, and past it the encoding decides. -/
theorem setLedMovesOnlyTheLed : Obligations.SetLedMovesOnlyTheLed := by
  intro s x f hx hc
  have hcap : x.caps.setLed = decide (x.variant ≠ .pd) := by rw [hc]; rfl
  have hparams := run_currentParams hx
  refine ⟨fun hpd henc => runOp_ok ?_, fun h => runOp_fault ?_⟩
  · have huse : useCap Caps.setLed s = .ok () s := run_useCap_present hx hc (by simpa [capsOf] using hpd)
    rw [run_bind_ok huse, run_bind_ok (run_openedSession hx), run_bind_ok hparams, henc, ← ledPattern_isOn]
    rfl
  · by_cases hpd : x.variant = .pd
    · have huse : useCap Caps.setLed s = .error (.fault .illegalOperation) s := by simp [run_useCap hx, hcap, hpd]
      exact run_bind_error huse
    · have henc : (variantParams s.params x.variant).encoding = .direct := h.resolve_left hpd
      have huse : useCap Caps.setLed s = .ok () s := run_useCap_present hx hc (by simpa [capsOf] using hpd)
      rw [run_bind_ok huse, run_bind_ok (run_openedSession hx), run_bind_ok hparams, henc]
      rfl

/-! ### The status (R177, R200) -/

/-- The status decoder by the bits of the sample (R95, R98, R200). -/
theorem decodeStatus_bits (sense : Bool) (st : Byte) :
    decodeStatus sense st =
      if sense ∧ st.getLsbD 4 = false then 0b1000
      else if sense ∧ st.getLsbD 3 = false then 0b0100
      else (if st.getLsbD 2 then 0b0001 else 0) ||| (if st.getLsbD 1 then 0b0010 else 0) := by
  simp only [decodeStatus, statConn, statPwr, statRsts, statFreeze, status4, Bool.and_eq_true, Bool.not_eq_true']
  split
  · rfl
  · split
    · rfl
    · simp

/-- Settles O24: the one read is the status sample, and its decoding is by its bits. -/
theorem getStatusDecodesOneSample : Obligations.GetStatusDecodesOneSample := by
  intro s x hx hc
  rw [← decodeStatus_bits]
  exact runOp_ok_work ⟨_, run_bind_ok (run_readStatus hx (by rw [hc]; rfl))⟩

/-! ### Reset and release (R173, R174, R175) -/

/-- The events of a reset pulse: the pattern `asserted` for the reset time, then `deasserted` for the long delay, both with the LED kept (R173, R174). -/
def pulseEvents (v : VariantParams) (x : Session) (asserted deasserted : Byte) : List LineEvent :=
  [LineEvent.wrote (keepLed v.encoding x.shadow asserted)] ++ delayEvents (x.longDelay + x.resetExtraDelay) ++
    [LineEvent.wrote (keepLed v.encoding x.shadow deasserted)] ++ delayEvents x.longDelay

/-- An open session after line events that end with `pattern` on the lines, the LED kept (R96). -/
def heldAt (v : VariantParams) (x : Session) (pattern : Byte) (events : List LineEvent) (s : State) : State :=
  let kept := keepLed v.encoding x.shadow pattern
  { s with lines := kept, session := some { x with shadow := kept }, lineTrace := s.lineTrace ++ events }

section

variable {s : State} {x : Session} {v : VariantParams} (hx : s.session = some x) (hv : v = variantParams s.params x.variant)

include hx hv

/-- A pattern held for a time (R11, R96). -/
theorem run_heldPattern (pattern : Byte) (k : Nat) (next : Op α) :
    (do writeKept pattern; delay k; next : Op α) s =
      next (heldAt v x pattern ([LineEvent.wrote (keepLed v.encoding x.shadow pattern)] ++ delayEvents k) s) := by
  rw [run_bind_ok (run_writeKept pattern hx), run_bind_ok (run_delay k _), ← hv]
  refine congrArg next ?_
  apply state_ext <;> simp [heldAt, hx, delayEvents]

/-- The reset pulse of RESET_CHIP and RESTART_CHIP (R173, R174). -/
theorem run_resetPulse {asserted : Byte} (deasserted : Byte) (hclear : asserted &&& ledBit = 0) (next : Op α) :
    (do writeKept asserted; delay (x.longDelay + x.resetExtraDelay); writeKept deasserted; delay x.longDelay; next : Op α) s =
      next (heldAt v x deasserted (pulseEvents v x asserted deasserted) s) := by
  rw [run_heldPattern hx hv asserted, run_heldPattern (s := heldAt v x asserted _ s)
    (x := { x with shadow := keepLed v.encoding x.shadow asserted }) rfl hv deasserted]
  simp only [heldAt, pulseEvents, keepLed_keepLed _ _ _ _ hclear, List.append_assoc]

end

/-- Settles O27: RESET_CHIP is the pulse alone; RELEASE_CHIP holds the reset and then detaches the pod with a plain write. -/
theorem resetAndReleaseSequences : Obligations.ResetAndReleaseSequences := by
  intro s x hx hc hp v led
  obtain ⟨-, -, -, hreset, -⟩ := patterns_ledClear hp x.variant
  have hopened := run_openedSession hx
  have hparams : currentParams s = .ok v s := run_currentParams hx
  refine ⟨runOp_ok (r := .ok) ?_, runOp_ok (r := .ok) ?_⟩
  · rw [run_bind_ok (run_useCap_present hx hc rfl), run_bind_ok hopened, run_bind_ok hparams, run_resetPulse hx rfl _ hreset]
    simp only [run_pure, heldAt, pulseEvents, List.append_assoc]
    rfl
  · rw [run_bind_ok (run_useCap_present hx hc rfl), run_bind_ok hopened, run_bind_ok hparams, run_heldPattern hx rfl,
      run_bind_ok (run_writeCtrl _ _), wroteCtrl_of_open rfl]
    simp only [run_pure, heldAt, List.append_assoc]
    rfl

/-! ### STOP_CHIP (R170, R171) -/

/-- STOP_CHIP ends with `Ok` where its stop returns. -/
theorem stopChip_ok {s t : State} (h : ∃ g, stopTarget s = .ok () (t.withWork g)) : exec .stopChip s = .next (t.conclude .ok) := by
  obtain ⟨g, hg⟩ := h
  exact runOp_ok_work ⟨g, run_bind_ok hg⟩

/-- STOP_CHIP ends with the fault its stop raises. -/
theorem stopChip_raised {s t : State} {f : FaultKind} (h : ∃ g, stopTarget s = .error (.fault f) (t.withWork g)) :
    exec .stopChip s = .next (t.takeFault f) := by
  obtain ⟨g, hg⟩ := h
  exact runOp_fault_work ⟨g, run_bind_error hg⟩

/-- Settles O28: the stop of a frozen target is one sample and one write. -/
theorem stopChipOnAFrozenTarget : Obligations.StopChipOnAFrozenTarget := by
  intro s x hx hc hfrozen
  exact stopChip_ok (run_stopTarget_frozen hx (by rw [hc]; rfl) (by rw [hc]; rfl) (by simpa [runningSample] using hfrozen))

/-- Settles O29: by the polls of the stop, before the forced bus error and after it. -/
theorem stopChipFrozenAtAPoll : Obligations.StopChipFrozenAtAPoll := by
  intro s x first polls last rest hx hc hp hfirst hpolls hlast v idle arm polled
  exact ⟨fun hlen hs => stopChip_ok (run_stopTarget_poll hx hc hp rfl hfirst hpolls hlast hlen hs),
    fun again hberr hlen hagain hlen' hs =>
      stopChip_ok (run_stopTarget_again hx hc hp rfl rfl hfirst hpolls hagain hlast hlen hlen' hs hberr)⟩

/-- Settles O30: by the polls of the stop that run out, once or, with the forced bus error, twice. -/
theorem stopChipNeverFrozen : Obligations.StopChipNeverFrozen := by
  intro s x first polls again rest hx hc hp hfirst hpolls hagain hlen v arm polled
  refine ⟨fun hberr hs => ?_, fun hberr hlen' hs => ?_⟩
  · have hnever := run_stopTarget_never (again := []) hx hc hp rfl rfl hfirst hpolls rfl hlen (by simpa using hs) (.inl ⟨hberr, rfl⟩)
    rw [hberr, if_neg Bool.false_ne_true, List.append_nil] at hnever
    exact stopChip_raised hnever
  · have hnever := run_stopTarget_never hx hc hp rfl rfl hfirst hpolls hagain hlen hs (.inr ⟨hberr, hlen'⟩)
    rw [if_pos hberr] at hnever
    simpa only [List.append_assoc] using stopChip_raised hnever

/-! ### RESTART_CHIP (R174, R183) -/

/-- The variant's parameters are the same after a stop, whether it is read before or after it (R45, R166). -/
theorem run_stopTarget_params {m : State} {x : Session} (hx : m.session = some x) (k : VariantParams → Op α) :
    (do stopTarget; k (variantParams m.params x.variant) : Op α) m = (do stopTarget; let v ← currentParams; k v : Op α) m := by
  obtain ⟨hparams, hvariant, -⟩ := keeps_stopTarget m
  rw [run_bind, run_bind]
  cases hm : stopTarget m with
  | error e u => rfl
  | ok a u =>
    rw [hm] at hparams hvariant
    simp only [endState] at hparams hvariant
    obtain ⟨y, hy, hyx⟩ := Option.map_eq_some_iff.mp (hvariant.trans (congrArg _ hx))
    have hcurrent := run_currentParams hy
    rw [hyx, hparams] at hcurrent
    exact (run_bind_ok hcurrent).symm

/-- After its reset pulse RESTART_CHIP ends as a stop does there. -/
theorem restartChip_endsStopping {s : State} {x : Session} (hx : s.session = some x) (hc : x.caps = capsOf x.variant)
    (hp : patternsSound s.params = true) :
    let v := variantParams s.params x.variant
    endsStopping (exec .restartChip s) v.resyncAfterRestart
      (heldAt v x v.patterns.arm (pulseEvents v x v.patterns.resetArm v.patterns.arm) s) := by
  intro v
  obtain ⟨-, -, -, -, hresetArm, -⟩ := patterns_ledClear hp x.variant
  refine runOp_endsStopping (m := heldAt v x v.patterns.arm _ s) rfl id VariantParams.resyncAfterRestart _ ?_
  simp only [exec, execRestartChip, resynchronize_if_asked, runOp_outcome]
  rw [run_bind_ok (run_useCap_present hx hc rfl), run_bind_ok (run_openedSession hx), run_bind_ok (run_currentParams hx),
    run_resetPulse hx rfl _ hresetArm]
  exact congrArg outcomeOf (run_stopTarget_params (m := heldAt v x v.patterns.arm _ s) rfl
    (fun w => do (if w.resyncAfterRestart then resynchronizeTarget else pure ()); pure OpResult.ok))

/-- Settles O31: the pulse leads to the stop; the stop of a target that comes out of reset frozen is one case. -/
theorem restartChipIntoTheFrozenState : Obligations.RestartChipIntoTheFrozenState := by
  intro s x hx hc hp v led pulse
  have hends := restartChip_endsStopping hx hc hp
  refine ⟨hends, fun st rest hresync hs hst => ?_⟩
  obtain ⟨-, harm, -⟩ := patterns_ledClear hp x.variant
  obtain ⟨hstop, -⟩ := hends _ (stopChip_frozen (st := st) (rest := rest) rfl hc hst hs)
  rw [hstop (.inr hresync)]
  simp only [heldAt, keepLed_keepLed _ _ _ _ harm]
  rfl

end Sys2Proof.Lifecycle

/-! The exclusivity of the status bits (R201): what the decoder returns, the flags of each outcome, and which flags come alone. -/

namespace Sys2Proof.Status

open Sys2Proof Sys2Proof.Machine

/-! ### The flags of a status value (R98) -/

@[simp] theorem targetPowerFail_status4 (reset stopped powerFail notConnected : Bool) :
    targetPowerFail (status4 reset stopped powerFail notConnected) = powerFail := by
  revert reset stopped powerFail notConnected
  decide

@[simp] theorem targetNotConnected_status4 (reset stopped powerFail notConnected : Bool) :
    targetNotConnected (status4 reset stopped powerFail notConnected) = notConnected := by
  revert reset stopped powerFail notConnected
  decide

/-! ### The outcomes of the decoder (R200, R201) -/

/-- The decoder ends in one of three ways: on the missing cable, on the missing power with the cable present, or, past both sense tests, with the reset and
freeze bits. -/
theorem decodeStatus_cases (sense : Bool) (st : Byte) :
    (sense = true ∧ statConn st = false ∧ decodeStatus sense st = status4 false false false true) ∨
    (sense = true ∧ statConn st = true ∧ statPwr st = false ∧ decodeStatus sense st = status4 false false true false) ∨
    ((sense = true → statConn st = true ∧ statPwr st = true) ∧
      decodeStatus sense st = status4 (statRsts st) (statFreeze st) false false) := by
  cases sense with
  | false => exact .inr (.inr ⟨nofun, rfl⟩)
  | true =>
    cases hconn : statConn st with
    | false => exact .inl ⟨rfl, rfl, by simp [decodeStatus, hconn]⟩
    | true =>
      cases hpwr : statPwr st with
      | false => exact .inr (.inl ⟨rfl, rfl, rfl, by simp [decodeStatus, hconn, hpwr]⟩)
      | true => exact .inr (.inr ⟨fun _ => ⟨rfl, rfl⟩, by simp [decodeStatus, hconn, hpwr]⟩)

/-- Settles O25: each sense bit is set by one outcome of the decoder alone, and both of those outcomes need the sense mode. -/
theorem statusBitsExclude : Obligations.StatusBitsExclude := by
  intro sense st
  obtain ⟨hsense, -, hst⟩ | ⟨hsense, hconn, -, hst⟩ | ⟨hpresent, hst⟩ := decodeStatus_cases sense st <;> rw [hst]
  case inl => exact ⟨fun _ _ => rfl, fun _ => rfl, nofun, by simp [hsense]⟩
  case inr.inl => exact ⟨by simp [hconn], nofun, fun _ => rfl, by simp [hsense]⟩
  case inr.inr =>
    refine ⟨fun hsense hmissing => ?_, by simp, by simp, by simp⟩
    obtain ⟨hconn, -⟩ := hpresent hsense
    simp [hconn] at hmissing

end Sys2Proof.Status

/-! The registry (R210 to R215): who owns an address after a splice (R213), and REGISTER_AREA from one probe to the next, up to the splice of the chip
found (R212). -/

namespace Sys2Proof.Registry

open Sys2Proof Sys2Proof.Machine Sys2Proof.Laws

/-! ### The splice (R213) -/

theorem mem_splice_of_piece {areas : List MemoryArea} {e new x : MemoryArea} (he : e ∈ areas) (hx : x ∈ splicePieces e new) :
    x ∈ splice areas e new :=
  List.mem_flatMap.2 ⟨e, he, by simpa using hx⟩

theorem mem_splice_of_other {areas : List MemoryArea} {e new x : MemoryArea} (hx : x ∈ areas) (hne : x.beginAddr ≠ e.beginAddr) :
    x ∈ splice areas e new :=
  List.mem_flatMap.2 ⟨x, hx, by simp [hne]⟩

theorem new_mem_splicePieces (e new : MemoryArea) : new ∈ splicePieces e new := by simp [splicePieces]

theorem below_mem_splicePieces {e new : MemoryArea} (h : e.beginAddr < new.beginAddr) :
    { e with endAddr := new.beginAddr - 1 } ∈ splicePieces e new := by
  simp [splicePieces, h]

theorem above_mem_splicePieces {e new : MemoryArea} (h : new.endAddr < e.endAddr) :
    ramArea (new.endAddr + 1) e.endAddr ∈ splicePieces e new := by
  simp [splicePieces, h]

/-- An address without an owner lies outside the space, so no partition gives it one (R210). -/
theorem areaOf_none_of_covers {areas others : List MemoryArea} {a : Nat} (hcovers : coversFrom 0 areas = true)
    (hothers : coversFrom 0 others = true) (h : areaOf areas a = none) : areaOf others a = none := by
  cases howner : areaOf others a with
  | none => rfl
  | some m =>
    obtain ⟨hmem, -, hle⟩ := areaOf_contains howner
    have htop := covers_top others 0 hothers m hmem
    obtain ⟨m', hm'⟩ := areaOf_some_of_covers areas 0 a hcovers (Nat.zero_le a) (by omega)
    rw [h] at hm'
    cases hm'

/-- A splice leaves the owner of every address outside the area it replaces (R213). -/
theorem areaOf_splice_outside {areas : List MemoryArea} {e new : MemoryArea} {a : Nat} (hcovers : coversFrom 0 areas = true)
    (hspliced : coversFrom 0 (splice areas e new) = true) (he : e ∈ areas) (ha : a < e.beginAddr ∨ e.endAddr < a) :
    areaOf (splice areas e new) a = areaOf areas a := by
  cases howner : areaOf areas a with
  | none => exact areaOf_none_of_covers hcovers hspliced howner
  | some m =>
    obtain ⟨hmem, hlo, hhi⟩ := areaOf_contains howner
    have hne : m.beginAddr ≠ e.beginAddr := by
      intro hbegin
      have hm := areaOf_unique areas 0 m.beginAddr m hcovers hmem le_rfl (covers_ge areas 0 m hcovers hmem).2
      have he := areaOf_unique areas 0 m.beginAddr e hcovers he hbegin.ge (hbegin ▸ (covers_ge areas 0 e hcovers he).2)
      rw [hm] at he
      cases he
      omega
    exact areaOf_unique _ 0 a m hspliced (mem_splice_of_other hmem hne) hlo hhi

/-- Settles O39: the spliced registry is a partition, so whichever piece or untouched area contains an address owns it. -/
theorem spliceReassignsOnlyTheNewRange : Obligations.SpliceReassignsOnlyTheNewRange := by
  intro areas e new a hcovers he _ hlo hnew hhi
  have hspliced := Invariants.covers_splice hlo hnew hhi areas 0 hcovers he
  have owns : ∀ x ∈ splicePieces e new, x.beginAddr ≤ a → a ≤ x.endAddr → areaOf (splice areas e new) a = some x :=
    fun x hx => areaOf_unique _ 0 a x hspliced (mem_splice_of_piece he hx)
  split
  next hin => exact owns new (new_mem_splicePieces e new) hin.1 hin.2
  next hin =>
    split
    next hbelow => exact owns _ (below_mem_splicePieces (by omega)) hbelow.1 (Nat.le_sub_one_of_lt hbelow.2)
    next hbelow =>
      split
      next habove => exact owns _ (above_mem_splicePieces (by omega)) habove.1 habove.2
      next habove => exact areaOf_splice_outside hcovers hspliced he (by omega)

/-! ### REGISTER_AREA after its tests (R212) -/

/-- What REGISTER_AREA does with the answer of its probes (R212 to R215). -/
def bindFound (hint base : Nat) (e : MemoryArea) : Option (Nat × Binding) → Op OpResult
  | none => pure .notFound
  | some (size, d) =>
    if e.endAddr < base + size - 1 then raise .illegalOperation
    else do
      modify (fun t => { t with registry := splice t.registry e (Scope.foundArea hint base size d) })
      pure .ok

/-- On a base in a RAM area REGISTER_AREA probes its candidates and binds what they found (R212). -/
theorem exec_registerArea {s : State} {hint base : Nat} {families : List Family} {e : MemoryArea} (hcand : candidates s.params hint = some families)
    (howner : areaOf s.registry base = some e) (hram : e.binding = .ram) :
    exec (.registerArea hint base) s = runOp (probeCandidates base families >>= bindFound hint base e) s := by
  simp only [exec, execRegisterArea, hcand]
  rw [runOp_outcome, runOp_outcome, run_bind_ok (run_owningArea howner)]
  simp only [hram, ne_eq, not_true_eq_false, if_false]
  congr 2

/-- The candidates of a hint (R102, R212). -/
theorem candidates_eq {p : Params} {hint : Nat} {families : List Family}
    (h : (hint = 0 ∧ families = p.algOrder) ∨ (hint = 1 ∧ families = [.amd]) ∨ (hint = 2 ∧ families = [.cfm]) ∨
      (hint = 3 ∧ families = [.intel])) : candidates p hint = some families := by
  obtain ⟨rfl, rfl⟩ | ⟨rfl, rfl⟩ | ⟨rfl, rfl⟩ | ⟨rfl, rfl⟩ := h <;> rfl

/-- A PROBE leaves the registry as it is (R241). -/
theorem probe_registry {s u : State} {base : Nat} {fam : Family} (h : exec (probeInstr base fam) s = .next u) : u.registry = s.registry := by
  rw [exec_probeInstr] at h
  simp only [runOp, run_bind] at h
  have hquiet := quiet_probeFamily base fam s
  cases hm : probeFamily base fam s with
  | ok r t => rw [hm] at h hquiet; cases h; exact hquiet
  | error x t => rw [hm] at h hquiet; cases x <;> (cases h; exact hquiet)

/-- A candidate of nonzero size whose accesses did not fail ends the search (R212). -/
theorem run_probeCandidates_found {s t : State} {base : Nat} {fam : Family} {after : List Family} {r : ProbeResult} {d : Binding}
    (h : probeFamily base fam s = .ok r t) (hstatus : ∀ f, r.status ≠ .access f) (hd : r.binding = some d) (hsize : 0 < r.size) :
    probeCandidates base (fam :: after) s = .ok (some (r.size, d)) t := by
  rw [probeCandidates, run_bind_ok h]
  cases hst : r.status with
  | access f => exact absurd hst (hstatus f)
  | _ => simp [hd, hsize]

/-- A candidate with a failed access raises its fault (R212). -/
theorem run_probeCandidates_access {s t : State} {base : Nat} {fam : Family} {after : List Family} {r : ProbeResult} {f : ProtoFault}
    (h : probeFamily base fam s = .ok r t) (hstatus : r.status = .access f) :
    probeCandidates base (fam :: after) s = .error (.fault (.proto f)) t := by
  rw [probeCandidates, run_bind_ok h]
  simp only [hstatus]
  rfl

/-- A PROBE as an operation reads neither the working registers nor the caller's fields. -/
theorem blind_probe (base : Nat) (fam : Family) : Blind (do let r ← probeFamily base fam; pure (OpResult.probe r)) :=
  blind_bind (blind_probeFamily base fam) (fun _ => blind_pure _)

/-- What a blind operation leaves, with another registry, is its caller's state with that registry, once the caller ends there too. -/
theorem conclude_nestedIn_registry {m : Op OpResult} (h : Blind m) {s u : State} (hu : runOp m s = .next u) (areas : List MemoryArea)
    (r : OpResult) : State.conclude { u.nestedIn s with registry := areas } r = { u with registry := areas, result := some r } :=
  congrArg (fun v : State => { v with registry := areas }) (conclude_nestedIn h hu r)

section

variable {s s1 u : State} {hint base : Nat} {before after : List Family} {fam : Family} {e : MemoryArea}
  (hcand : candidates s.params hint = some (before ++ fam :: after)) (howner : areaOf s.registry base = some e) (hram : e.binding = .ram)
  (hbefore : probedWithoutMatch base s before s1) (hprobe : exec (probeInstr base fam) s1 = .next u)

include hcand howner hram hbefore

/-- REGISTER_AREA whose candidates before `fam` did not match goes on with the probe of `fam` (R212). -/
theorem exec_registerArea_at : ∃ g, exec (.registerArea hint base) s =
    runOp (fun _ => (probeCandidates base (fam :: after) >>= bindFound hint base e) (s1.withWork g)) s := by
  obtain ⟨g, hg⟩ := run_probedWithoutMatch base before (fam :: after) s s1 id hbefore
  refine ⟨g, ?_⟩
  rw [exec_registerArea hcand howner hram]
  simp only [runOp, run_bind, ← hg]
  rfl

include hprobe

/-- A PROBE that ends with a fault ends REGISTER_AREA with it (R212, R352). -/
theorem registerArea_probe_fault {f : FaultKind} (hf : u.result = some (.fault f)) : exec (.registerArea hint base) s = .next u := by
  obtain ⟨g, hexec⟩ := exec_registerArea_at hcand howner hram hbefore
  obtain ⟨x, w, hrun, rfl, hx⟩ := probe_ends hprobe hf g
  rw [hexec]
  refine Exchanges.runOp_ended ⟨id, ?_⟩ hx
  exact run_bind_error (by rw [probeCandidates]; exact run_bind_error hrun)

/-- A PROBE whose access failed ends REGISTER_AREA with that fault (R212). -/
theorem registerArea_probe_access {r : ProbeResult} {f : ProtoFault} (hr : u.result = some (.probe r)) (hstatus : r.status = .access f) :
    exec (.registerArea hint base) s = .next { u with result := some (.fault (.proto f)) } := by
  obtain ⟨g, hexec⟩ := exec_registerArea_at hcand howner hram hbefore
  obtain ⟨g', hrun⟩ := probe_result hprobe hr g
  rw [hexec, ← conclude_nestedIn (blind_probe base fam) (by rw [← exec_probeInstr]; exact hprobe)]
  exact runOp_fault_work ⟨g', run_bind_error (run_probeCandidates_access hrun hstatus)⟩

/-- A PROBE that matched has its chip spliced in, unless it reaches past the area of the base (R213 to R215). -/
theorem registerArea_probe_found {r : ProbeResult} {d : Binding} (hr : u.result = some (.probe r)) (hstatus : ∀ f, r.status ≠ .access f)
    (hd : r.binding = some d) (hsize : 0 < r.size) :
    exec (.registerArea hint base) s = .next
      (if e.endAddr < base + r.size - 1 then { u with result := some (.fault .illegalOperation) }
       else
        { u with
          registry := splice u.registry e (Scope.foundArea hint base r.size d)
          result := some .ok }) := by
  obtain ⟨g, hexec⟩ := exec_registerArea_at hcand howner hram hbefore
  obtain ⟨g', hrun⟩ := probe_result hprobe hr g
  have hfound := run_probeCandidates_found (after := after) hrun hstatus hd hsize
  rw [hexec]
  split
  next hpast =>
    rw [← conclude_nestedIn (blind_probe base fam) (by rw [← exec_probeInstr]; exact hprobe)]
    exact runOp_fault_work ⟨g', by rw [run_bind_ok hfound]; simp [bindFound, hpast]⟩
  next hfits =>
    rw [← conclude_nestedIn_registry (blind_probe base fam) (by rw [← exec_probeInstr]; exact hprobe)]
    exact runOp_ok_work ⟨g', by rw [run_bind_ok hfound, bindFound, if_neg hfits]; rfl⟩

end

/-- Settles O40: the candidates before are passed over; what the next PROBE ended with decides how REGISTER_AREA ends. -/
theorem registerAreaBindsTheChipFound : Obligations.RegisterAreaBindsTheChipFound := by
  intro s hint base families before e s1 hhint howner hram hbefore
  have hcand := candidates_eq hhint
  obtain ⟨hregistry, -, -⟩ := probedWithoutMatch_keep base before s s1 hbefore
  refine ⟨hregistry, fun hall => ?_, fun fam after u hsplit hprobe => ?_⟩
  · subst hall
    obtain ⟨g, hg⟩ := run_probedWithoutMatch base families [] s s1 id hbefore
    rw [List.append_nil] at hg
    rw [exec_registerArea hcand howner hram]
    exact runOp_ok_work ⟨g, run_bind_ok (hg.trans (run_pure none _))⟩
  · rw [hsplit] at hcand
    have hu : u.registry = s.registry := (probe_registry hprobe).trans hregistry
    refine ⟨hu, fun f hf => registerArea_probe_fault hcand howner hram hbefore hprobe hf,
      fun r hr => ⟨fun f hf => registerArea_probe_access hcand howner hram hbefore hprobe hr hf, fun hstatus hsize => ?_⟩⟩
    obtain ⟨g, hrun⟩ := probe_result hprobe hr id
    obtain ⟨d, hd⟩ := probeFamily_binds base fam _ r _ hrun hsize
    refine ⟨d, hd, ?_⟩
    rw [registerArea_probe_found hcand howner hram hbefore hprobe hr hstatus hd hsize, hu]
    rfl

/-! ### A CFM module at the base (R292) -/

/-- CFM.PROBE at a base whose first row has an idle module: one status read, and the descriptor of that row (R292). -/
theorem exec_cfmProbe_first {s : State} {base : Nat} {row : CfmRow} {more : List CfmRow} {st : Byte} {rest : List MemReply}
    (hrows : sortBy CfmRow.size (s.params.cfmTable.filter (fun r => r.arrayBase == base)) = row :: more)
    (hcall : callAllowed (row.regBase + s.params.cfmNumbers.ustatOff) 1 = true) (hidle : st &&& s.params.cfmNumbers.ccif ≠ 0)
    (hclear : st &&& 0x0B = 0) (hscript : s.memScript = .done [st] :: rest) :
    exec (.cfmProbe base) s = .next ((s.performed [.read (row.regBase + s.params.cfmNumbers.ustatOff) [st]]).conclude
      (.probe { size := row.size, binding := some (.cfm (cfmMatched s.params base row)), status := .ok })) := by
  obtain ⟨-, hfound, -⟩ := run_cfmProbeRows s.params base (row :: more) [st] s rfl (by simpa [callsAllowed] using hcall)
  refine run_probe_ok ⟨id, ?_⟩
  rw [run_bind, run_get]
  simp only [hrows]
  simpa [withWork_id] using hfound [] st row rest rfl rfl (by simpa using ⟨hidle, hclear⟩) rfl (by simpa [answersOf] using hscript)

/-- Settles O41: the one probe of the hint reads the status once, and its match is spliced in. -/
theorem registerAreaFindsTheCfm : Obligations.RegisterAreaFindsTheCfm := by
  intro s base e row more st rest howner hram hrows hsize hend hcall hidle hclear hscript
  have hprobe := exec_cfmProbe_first hrows hcall hidle hclear hscript
  have hfound := registerArea_probe_found (hint := 2) (before := []) (after := []) (fam := .cfm) rfl howner hram rfl hprobe rfl (by simp) rfl hsize
  rw [hfound, if_neg (by simpa using hend)]
  simp only [conclude_registry, performed_registry]
  rfl

end Sys2Proof.Registry

/-! RAM.WRITE cut off (R226, R250), and WRITE_MEMORY over the areas of its range (R220 to R222). -/

namespace Sys2Proof.Writes

open Sys2Proof Sys2Proof.Machine Sys2Proof.Laws

/-! ### Short writes (R250) -/

/-- RAM.WRITE, and WRITE_MEMORY in a RAM area, whose access number `j` fails (R220, R226, R250). -/
theorem ramWrite_cut {s : State} {address n j : Nat} {ws : List Nat} {done rest : List MemReply} {f : ProtoFault}
    (hspace : address + n ≤ 2 ^ 32) (hws : widestWidths address n ws) (hj : j < ws.length) (hlen : done.length = j)
    (hdone : ∀ r ∈ done, ∃ v, r = .done v) (hscript : s.memScript = done ++ .fault f :: rest) :
    exec (.ramWrite address n) s = .next ((s.cutOff (storesOf address s.dataByte 0 (ws.take j))).conclude
      (.flash { count := (ws.take j).sum, status := .access f })) ∧
    (∀ e, areaOf s.registry address = some e → e.binding = .ram → address + n ≤ e.endAddr + 1 →
      exec (.writeMemory address n) s = .next ((s.cutOff (storesOf address s.dataByte 0 (ws.take j))).conclude
        (.written (ws.take j).sum (.access f)))) := by
  have hstore := run_ramStore_cut (data := s.dataByte) hspace hws hj hlen hdone hscript
  have hpos : 0 < n := Nat.zero_lt_of_lt (widest_take_lt ws address n j hws hj)
  exact ⟨exec_ramWrite hstore, fun e howner hram hend => exec_writeMemory_one hpos hspace howner hend (delegateWrite_ram hram hstore)⟩

/-- A write of some bytes makes an access (R226). -/
theorem widestWidths_length_pos {p n : Nat} {ws : List Nat} (h : widestWidths p n ws) (hn : 0 < n) : 0 < ws.length := by
  cases ws with
  | nil => exact absurd h (Nat.ne_of_gt hn)
  | cons w ws => exact Nat.succ_pos _

/-- Settles O44: the access that fails is the last, whichever it is; the first of a non-empty write is one of them. -/
theorem shortWriteIsFinal : Obligations.ShortWriteIsFinal := by
  intro s address n
  refine ⟨fun ws j done f rest hspace hws hj hlen hdone hscript => ramWrite_cut hspace hws hj hlen hdone hscript,
    fun f rest hn hspace hscript => ?_, rfl, exec_writeMemory_zero s address⟩
  obtain ⟨ws, hws⟩ := widestWidths_exist n address
  exact ramWrite_cut (done := []) hspace hws (widestWidths_length_pos hws hn) rfl (by simp) hscript

/-! ### WRITE_MEMORY in one flash area (R220) -/

/-- WRITE_MEMORY in one area ends as the owner's program, entered as an operation of its own, does (R220, R221). -/
theorem exec_writeMemory_program {s t : State} {address n : Nat} {e : MemoryArea} {r : FlashResult} {program : Nat → Op FlashResult} (hn : 0 < n)
    (howner : areaOf s.registry address = some e) (hend : address + n ≤ e.endAddr + 1) (hspace : address + n ≤ 2 ^ 32)
    (hr : t.result = some (.flash r)) (hprogram : delegateWrite e address n s.dataByte = program e.beginAddr)
    (h : runOp (do let a ← areaOwning address n; let r ← program a.beginAddr; pure (.flash r)) s = .next t) :
    exec (.writeMemory address n) s = .next { t with result := some (.written r.count r.status) } := by
  obtain ⟨u, hrun, rfl⟩ := owning_next_inv (m := fun a => program a.beginAddr) howner hend h hr
  rw [exec_writeMemory_one hn hspace howner hend (by rw [hprogram]; exact hrun)]
  rfl

/-! ### WRITE_MEMORY over several areas (R220 to R222) -/

/-- A byte of a payload that the caller supplied whole, counted from byte `k` on. -/
theorem dataByte_drop {s : State} {k n i o : Nat} (hn : n ≤ s.buffer.length) (hi : k + i < n) :
    s.dataByte (k + i) = (s.buffer.drop k).getD i (Config.missingByte o i) := by
  simp only [State.dataByte, List.getD_eq_getElem?_getD, List.getElem?_drop]
  rw [List.getElem?_eq_getElem (by omega)]
  rfl

/-- The loop over areas at its second area is the WRITE_MEMORY of the bytes from there on, with the count raised by those before (R220, R221). -/
theorem writeLoop_resumes {address n k : Nat} {st : FlashStatus} {data data' : Nat → Byte} (hk : 0 < k) (hkn : k < n)
    (hspace : address + k < addrSpace) (hdata : ∀ i, i < n - k → data (k + i) = data' i) :
    writeLoop address n data (n - 1) k st = (do let r ← writeLoop (address + k) (n - k) data' (n - k) 0 .ok; pure (raisedBy k r)) := by
  have hshift := writeLoop_shift (addr := address) (n := n) (k := k) (data := data) (n - 1) (n - k) 0 st (by omega) (by omega)
  have hstatus : writeLoop (address + k) (n - k) data' (n - k) 0 st = writeLoop (address + k) (n - k) data' (n - k) 0 .ok := by
    obtain ⟨m, hm⟩ : ∃ m, n - k = m + 1 := ⟨n - k - 1, by omega⟩
    rw [hm]
    exact writeLoop_status (Nat.succ_pos m) hspace
  rw [Nat.add_zero, writeLoop_congr hdata, hstatus] at hshift
  exact hshift

/-- How a blind operation ends on a state with other caller's fields (R99). -/
theorem runOp_dressed {m : Op OpResult} (h : Blind m) (s : State) (w : WorkRegs) (b : List Byte) (o : Nat) (r : Option OpResult) :
    ∃ u, runOp m s = .next u ∧ u.buffer = s.buffer ∧ u.opsDone = s.opsDone + 1 ∧
      runOp m (dressed s w b o r) = .next { u with buffer := b, opsDone := o + 1 } := by
  obtain ⟨w', hother⟩ := h s w b o r
  obtain ⟨w0, hself⟩ := h s s.work s.buffer s.opsDone s.result
  rw [dressed_self] at hself
  simp only [runOp, hother]
  cases hm : m s with
  | ok a t =>
    rw [hm] at hself
    injection hself with _ hself
    exact ⟨_, rfl, (congrArg State.buffer hself :), (congrArg (fun v => v.opsDone + 1) hself :), rfl⟩
  | error x t =>
    rw [hm] at hself
    injection hself with _ hself
    cases x <;> exact ⟨_, rfl, (congrArg State.buffer hself :), (congrArg (fun v => v.opsDone + 1) hself :), rfl⟩

/-- An operation that changes what its part returned, but no fault. -/
theorem runOp_map {m : Op OpResult} {F : OpResult → OpResult} {s u : State} (hF : ∀ f, F (.fault f) = .fault f) (h : runOp m s = .next u) :
    runOp (do let r ← m; pure (F r)) s = .next { u with result := u.result.map F } := by
  simp only [runOp, run_bind] at h ⊢
  cases hm : m s with
  | ok a t => rw [hm] at h; cases h; rfl
  | error x t => rw [hm] at h; cases x <;> (cases h; simp [State.takeFault, State.conclude, hF])

section

variable {s t u w : State} {address n k : Nat} {e : MemoryArea} {r : FlashResult} (howner : areaOf s.registry address = some e)
  (hk : k = e.endAddr + 1 - address) (hkn : k < n) (hspace : address + k < addrSpace)

include howner hk hspace

/-- WRITE_MEMORY up to the end of its first area is the delegation to its owner alone (R220, R221). -/
theorem run_writeLoop_upTo (data : Nat → Byte) :
    writeLoop address k data k 0 .ok s = (do let r ← delegateWrite e address k data; pure (OpResult.written r.count r.status) : Op OpResult) s := by
  obtain ⟨-, hlo, hhi⟩ := areaOf_contains howner
  obtain ⟨m, hm⟩ : ∃ m, k = m + 1 := ⟨k - 1, by omega⟩
  have hfirst := run_writeLoop_first (F := m) (data := data) howner (show 0 < k by omega) (show _ = k by omega) (by omega)
  rw [← hm] at hfirst
  rw [hfirst]
  refine run_bind_congr (fun r => ?_) s
  split
  · rfl
  · exact writeLoop_done (by omega)

include hkn

/-- WRITE_MEMORY past the end of its first area: the delegation to its owner, then the loop from the next area on, unless that was short (R220, R221). -/
theorem run_writeLoop_past (data : Nat → Byte) :
    writeLoop address n data n 0 .ok s = (do
      let r ← delegateWrite e address k data
      if r.count < k then pure (.written r.count r.status) else writeLoop address n data (n - 1) r.count r.status : Op OpResult) s := by
  obtain ⟨-, hlo, hhi⟩ := areaOf_contains howner
  obtain ⟨m, rfl⟩ : ∃ m, n = m + 1 := ⟨n - 1, by omega⟩
  exact run_writeLoop_first howner (Nat.succ_pos m) (by omega) (by omega)

/-- The WRITE_MEMORY of the first area's bytes is either all of them, or it is the outcome of the whole (R221, R222). -/
theorem writeMemory_firstArea (hfirst : exec (.writeMemory address k) s = .next t) :
    (∃ r w, delegateWrite e address k s.dataByte s = .ok r w ∧ t = w.conclude (.written r.count r.status) ∧ k ≤ r.count) ∨
    (exec (.writeMemory address n) s = .next t ∧ ∀ c st, t.result = some (.written c st) → c < k) := by
  simp only [exec, execWriteMemory, runOp_outcome, run_writeLoop_upTo howner hk hspace,
    run_writeLoop_past howner hk hkn hspace, run_bind] at hfirst ⊢
  cases hm : delegateWrite e address k s.dataByte s with
  | error x v =>
    rw [hm] at hfirst
    refine .inr ⟨hfirst, fun c st hr => ?_⟩
    cases x <;> (cases hfirst; cases hr)
  | ok r v =>
    rw [hm] at hfirst
    cases hfirst
    by_cases hshort : r.count < k
    · refine .inr ⟨by simp only [hshort, if_true]; rfl, fun c st hr => ?_⟩
      cases hr
      exact hshort
    · exact .inl ⟨r, v, rfl, rfl, by omega⟩

/-- After the first area's bytes WRITE_MEMORY ends as the WRITE_MEMORY of the others does, with the count raised (R220, R221). -/
theorem writeMemory_nextAreas (hbuffer : n ≤ s.buffer.length) (hrun : delegateWrite e address k s.dataByte s = .ok r w) (hcount : r.count = k)
    (hnext : exec (.writeMemory (address + k) (n - k)) (dressed w WorkRegs.rest (s.buffer.drop k) s.opsDone s.result) = .next u) :
    exec (.writeMemory address n) s = .next { u with buffer := s.buffer, result := u.result.map (raisedBy k) } := by
  obtain ⟨-, hlo, hhi⟩ := areaOf_contains howner
  obtain ⟨hbuf, hops, -⟩ := blind_keeps (blind_delegateWrite e address k s.dataByte) hrun
  obtain ⟨v, hv, hvbuf, hvops, hdressed⟩ := runOp_dressed
    (blind_writeLoop (address + k) (n - k) (dressed w WorkRegs.rest (s.buffer.drop k) s.opsDone s.result).dataByte (n - k) 0 .ok)
    w WorkRegs.rest (s.buffer.drop k) s.opsDone s.result
  have hu : Host.Outcome.next { v with buffer := s.buffer.drop k, opsDone := s.opsDone + 1 } = .next u := hdressed.symm.trans hnext
  cases hu
  have hwhole := runOp_map (F := raisedBy k) (fun _ => rfl) hv
  have hbytes : ∀ i, i < n - k → s.dataByte (k + i) = (dressed w WorkRegs.rest (s.buffer.drop k) s.opsDone s.result).dataByte i :=
    fun i hi => dataByte_drop hbuffer (by omega)
  rw [← writeLoop_resumes (st := r.status) (by omega) hkn hspace hbytes] at hwhole
  have hexec : exec (.writeMemory address n) s = runOp (writeLoop address n s.dataByte (n - 1) k r.status) w := by
    simp only [exec, execWriteMemory, runOp_outcome, run_writeLoop_past howner hk hkn hspace, run_bind_ok hrun, hcount,
      lt_irrefl, if_false]
  rw [hexec, hwhole]
  congr 1
  apply state_ext <;> simp [hvbuf, hvops, hbuf, hops]

end

/-- The loop over areas reads no byte above the top of the space, so a longer range changes nothing (R222). -/
theorem writeLoop_top {address n : Nat} {data : Nat → Byte} (htop : addrSpace < address + n) : ∀ (F F' written : Nat) (st : FlashStatus) (s : State),
    s.partitioned = true → addrSpace - address - written ≤ F → addrSpace - address - written ≤ F' →
    writeLoop address n data F written st s = writeLoop address (addrSpace - address) data F' written st s := by
  intro F
  induction F with
  | zero =>
    intro F' written st s _ hF _
    rw [writeLoop_done (n := addrSpace - address) (by omega)]
    rfl
  | succ F ih =>
    intro F' written st s hs hF hF'
    by_cases hin : address + written < addrSpace
    · obtain ⟨F', rfl⟩ : ∃ m, F' = m + 1 := ⟨F' - 1, by omega⟩
      obtain ⟨a, ha⟩ := areaOf_some_of_covers s.registry 0 _ hs (Nat.zero_le _) hin
      obtain ⟨hmem, hlo, hhi⟩ := areaOf_contains ha
      have hend := covers_top s.registry 0 hs a hmem
      have hlen : min (n - written) (a.endAddr - (address + written) + 1) =
          min (addrSpace - address - written) (a.endAddr - (address + written) + 1) := by omega
      simp only [writeLoop]
      rw [if_pos ⟨by omega, hin⟩, if_pos ⟨by omega, hin⟩, run_bind_ok (run_owningArea ha), run_bind_ok (run_owningArea ha), hlen]
      simp only [run_bind]
      cases hm : delegateWrite a (address + written) (min (addrSpace - address - written) (a.endAddr - (address + written) + 1))
          (fun i => data (written + i)) s with
      | error x t => rfl
      | ok r t =>
        have ht : t.partitioned = true := by
          rw [Invariants.memPath_partitioned (travels_ok (travels_delegateWrite _ _ _ _) hm)]
          exact hs
        simp only
        split
        · rfl
        · exact ih F' (written + r.count) r.status t ht (by omega) (by omega)
    · simp only [writeLoop, hin, and_false, if_false]
      rw [writeLoop_done (by omega)]

/-- Settles O45: one area is one delegation; the next areas follow the first, unless that was short or ended with a fault; the top of the space ends the
loop. -/
theorem writeMemoryDelegatesToTheOwner : Obligations.WriteMemoryDelegatesToTheOwner := by
  refine ⟨fun s t address n e r hn howner hend hspace hr => ⟨fun d hd h => ?_, fun d hd h => ?_, fun d hd h => ?_⟩,
    ?_, fun s address n hs haddress htop => ?_⟩
  · exact exec_writeMemory_program (program := fun b => amdProgramOp b address n s.dataByte) hn howner hend hspace hr (by rw [delegateWrite, hd]) h
  · exact exec_writeMemory_program (program := fun b => cfmProgramOp b address n s.dataByte) hn howner hend hspace hr (by rw [delegateWrite, hd]) h
  · exact exec_writeMemory_program (program := fun b => intelProgramOp b address n s.dataByte) hn howner hend hspace hr (by rw [delegateWrite, hd]) h
  · intro s t address n e howner hbuffer k hkn hspace hfirst
    rcases writeMemory_firstArea howner rfl hkn hspace hfirst with ⟨r, w, hrun, rfl, hfull⟩ | ⟨hsame, hshort⟩
    · refine ⟨fun f hf => ?_, fun c st hr hc => ?_, fun st u hr hnext => ?_⟩
      · cases hf
      · cases hr
        omega
      · have hcount : r.count = k := by
          injection hr with hr
          injection hr
        have hwhole := writeMemory_nextAreas howner rfl hkn hspace hbuffer hrun hcount hnext
        exact ⟨fun c st' hu => by rw [hwhole, hu]; rfl, fun f hu => by rw [hwhole, hu]; rfl⟩
    · exact ⟨fun _ _ => hsame, fun _ _ _ _ => hsame, fun st u hr => absurd (hshort k st hr) (lt_irrefl k)⟩
  · simp only [exec, execWriteMemory, runOp_outcome]
    exact congrArg outcomeOf (writeLoop_top htop n (addrSpace - address) 0 .ok s hs (by simp only [addrSpace, addrBits]; omega) (by omega))

end Sys2Proof.Writes

/-! The erases, waits and blank checks of the flash families, each entered as its own operation or by the host's dispatch to the owner (R230 to R232):
what makes no access, and how the others end when the environment answers as their conducts say (R249, R250). -/

namespace Sys2Proof.Erases

open Sys2Proof Sys2Proof.Machine Sys2Proof.Laws

/-! ### Operations without an access (R230 to R232, R248) -/

/-- The host's dispatch on an address in a RAM area (R230 to R232). -/
theorem run_dispatchOwner_ram {s : State} {e : MemoryArea} {address : Nat} {op : MemoryArea → Option (Op FlashResult)}
    (howner : areaOf s.registry address = some e) (hop : op e = none) :
    runOp (dispatchOwner address op) s = .next (s.conclude .notFlash) := by
  refine runOp_ok ((run_bind_ok (run_owningArea howner)).trans ?_)
  simp only [hop]
  rfl

/-- Settles O46: none of the three dispatches has an entry for a RAM area. -/
theorem ramIsNotFlash : Obligations.RamIsNotFlash := by
  intro s address whole e howner hram
  exact ⟨run_dispatchOwner_ram howner (by rw [eraseOf, hram]), run_dispatchOwner_ram howner (by rw [eraseWaitOf, hram]),
    run_dispatchOwner_ram howner (by rw [blankCheckOf, hram])⟩

/-- A family operation that only returns a status no flag depends on (R249). -/
theorem run_familyOp_unflagged {b : Nat} {m : Op FlashResult} {s : State} {r : FlashResult} (h : m s = .ok r s)
    (hr : setsError r.status = false) : familyOp b m s = .ok r s := by
  rw [run_familyOp h]
  simp [MemoryArea.afterStatus, hr]

/-- An operation on the owner of its address, and the host's dispatch to it, end alike (R230 to R232). -/
theorem exec_owner_and_dispatch {s t : State} {e : MemoryArea} {a address : Nat} {k : Nat → Op FlashResult}
    {op : MemoryArea → Option (Op FlashResult)} {r : FlashResult} (howner : areaOf s.registry address = some e)
    (hop : op e = some (k e.beginAddr)) (h : ∃ g, k e.beginAddr s = .ok r (t.withWork g)) :
    (areaOf s.registry a = some e →
      runOp (do let a ← owningArea a; let r ← k a.beginAddr; pure (.flash r)) s = .next (t.conclude (.flash r))) ∧
    runOp (dispatchOwner address op) s = .next (t.conclude (.flash r)) :=
  ⟨fun ha => run_onOwner ha h, run_dispatchOwner howner hop h⟩

/-- A program entered as its own operation on its area. -/
theorem exec_program {s t : State} {e : MemoryArea} {address n : Nat} {k : Nat → Op FlashResult} {r : FlashResult}
    (howner : areaOf s.registry address = some e) (hend : address + n ≤ e.endAddr + 1) (h : k e.beginAddr s = .ok r t) :
    runOp (do let a ← areaOwning address n; let r ← k a.beginAddr; pure (.flash r)) s = .next (t.conclude (.flash r)) :=
  runOp_ok ((run_bind_ok (run_areaOwning howner hend)).trans (run_bind_ok h))

/-- Settles O47: behind the descriptor each of these operations only returns. -/
theorem operationsWithoutAccess : Obligations.OperationsWithoutAccess := by
  intro s address e hs howner selected ok absent
  have hempty : address + 0 ≤ e.endAddr + 1 := by
    have := areaOf_contains howner
    omega
  refine ⟨fun d hd => ?_, fun d hd => ?_, fun d hd => ?_⟩
  · have hdesc := run_amdDescriptor hs howner hd
    have hcheck : amdBlankCheckOp e.beginAddr s = .ok (flashDone .unimplemented) s := run_familyOp_unflagged (run_bind_ok hdesc) rfl
    obtain ⟨hown, hhost⟩ := exec_owner_and_dispatch (a := address) (op := blankCheckOf) howner (by rw [blankCheckOf, hd]) ⟨id, hcheck⟩
    refine ⟨hown howner, hhost, fun hnone => exec_program (k := fun b => amdProgramOp b address 0 s.dataByte) howner hempty ?_⟩
    exact run_familyOp_unflagged ((run_amdPrepare hs howner hd hnone _).trans (run_bind_ok hdesc)) rfl
  · have hdesc := run_cfmDescriptor hs howner hd
    have hwait : cfmEraseWaitOp e.beginAddr s = .ok (flashDone .ok) s := run_familyOp_unflagged (run_bind_ok hdesc) rfl
    obtain ⟨hown, hhost⟩ := exec_owner_and_dispatch (a := s.areaSel) (op := eraseWaitOf) howner (by rw [eraseWaitOf, hd]) ⟨id, hwait⟩
    refine ⟨hown, hhost, exec_program (k := fun b => cfmProgramOp b address 0 s.dataByte) howner hempty ?_⟩
    exact run_familyOp_unflagged (run_bind_ok hdesc) rfl
  · have hdesc := run_intelDescriptor hs howner hd
    have hwait : intelEraseWaitOp e.beginAddr s = .ok (flashDone .ok) s := run_familyOp_unflagged (run_bind_ok hdesc) rfl
    have hcheck : intelBlankCheckOp e.beginAddr s = .ok (flashDone .unimplemented) s := run_familyOp_unflagged (run_bind_ok hdesc) rfl
    obtain ⟨hown, hhost⟩ := exec_owner_and_dispatch (a := s.areaSel) (op := eraseWaitOf) howner (by rw [eraseWaitOf, hd]) ⟨id, hwait⟩
    obtain ⟨hown', hhost'⟩ := exec_owner_and_dispatch (a := address) (op := blankCheckOf) howner (by rw [blankCheckOf, hd]) ⟨id, hcheck⟩
    refine ⟨hown, hhost, hown' howner, hhost', exec_program (k := fun b => intelProgramOp b address 0 s.dataByte) howner hempty ?_⟩
    exact run_familyOp_unflagged (run_bind_ok hdesc) rfl

/-! ### Operations that follow a conduct -/

/-- How an operation ends that makes the calls `evs` and ends with `st`: to its end with one update of its area, cut off at a failed access with another
(R249, R250). -/
def Ends (b : Nat) (m : Op FlashResult) (s : State) (evs : List MemEvent) (st : FlashStatus) (atEnd cut : MemoryArea → MemoryArea) : Prop :=
  (∀ rest, s.memScript = answersOf evs ++ rest →
    ∃ g, m s = .ok { count := 0, status := st } (((s.performed evs).withArea b atEnd).withWork g)) ∧
  (∀ j f rest, j < evs.length → s.memScript = answersOf (evs.take j) ++ .fault f :: rest →
    ∃ g, m s = .ok { count := 0, status := .access f } (((s.cutOff (evs.take j)).withArea b cut).withWork g))

/-- What `Ends` says of an operation, said of the whole operation the sequencer runs (R22). -/
def Concludes (b : Nat) (i : Instr) (s : State) (evs : List MemEvent) (st : FlashStatus) (atEnd cut : MemoryArea → MemoryArea) : Prop :=
  (∀ rest, s.memScript = answersOf evs ++ rest →
    exec i s = .next (((s.performed evs).withArea b atEnd).conclude (.flash { count := 0, status := st }))) ∧
  (∀ j f rest, j < evs.length → s.memScript = answersOf (evs.take j) ++ .fault f :: rest →
    exec i s = .next (((s.cutOff (evs.take j)).withArea b cut).conclude (.flash { count := 0, status := .access f })))

theorem concludes_of_ends {b : Nat} {m : Op FlashResult} {i : Instr} {s : State} {evs : List MemEvent} {st : FlashStatus}
    {atEnd cut : MemoryArea → MemoryArea} (h : Ends b m s evs st atEnd cut)
    (hi : ∀ r t, (∃ g, m s = .ok r (State.withWork t g)) → exec i s = .next (t.conclude (.flash r))) : Concludes b i s evs st atEnd cut :=
  ⟨fun rest hs => hi _ _ (h.1 rest hs), fun j f rest hj hs => hi _ _ (h.2 j f rest hj hs)⟩

/-- A bad status that a part ended with, or a failed access, sets `ERROR` and nothing else (R249 (c)). -/
theorem afterStatus_bad {st : FlashStatus} (hst : st ≠ .ok) (himp : st ≠ .unimplemented) (a : MemoryArea) :
    a.afterStatus st = a.flagged false true := by
  simp [MemoryArea.afterStatus, MemoryArea.flagged, setsError_bad hst himp]

/-- A family operation that updates its area, follows a conduct, and after `OK` may update its area again (R249, R250). -/
theorem ends_of_plays {b : Nat} {s : State} {m : Op FlashStatus} {evs : List MemEvent} {st : FlashStatus} {before after : MemoryArea → MemoryArea}
    {k body : Op FlashResult} (hplays : Plays s.params.flashPollBound m evs st) (himp : st ≠ .unimplemented)
    (hbefore : ∀ a, (before a).beginAddr = a.beginAddr) (hafter : ∀ a, (after a).beginAddr = a.beginAddr)
    (hk : ∀ (t : State) g, k ((t.withArea b before).withWork g) = .ok (flashDone .ok) ((t.withArea b after).withWork g))
    (hbody : body s = (do let x ← m; if x = FlashStatus.ok then k else pure (flashDone x)) (s.withArea b before)) :
    Ends b (familyOp b body) s evs st (fun a => if st = .ok then after a else (before a).flagged false true)
      (fun a => (before a).flagged false true) := by
  obtain ⟨hend, hcut⟩ := plays_after_update hplays s b before rfl
  refine ⟨fun rest hs => ?_, fun j f rest hj hs => ?_⟩
  · obtain ⟨g, hm⟩ := hend rest hs
    by_cases hst : st = .ok
    · subst hst
      have hrun : ∃ g, body s = .ok (flashDone .ok) (((s.performed evs).withArea b after).withWork g) :=
        ⟨g, by rw [hbody, run_bind_ok hm]; exact hk _ g⟩
      simpa [flashDone] using run_family_ok hafter hrun
    · have hrun : ∃ g, body s = .ok (flashDone st) (((s.performed evs).withArea b before).withWork g) :=
        ⟨g, by rw [hbody, run_bind_ok hm, if_neg hst]; rfl⟩
      simpa [flashDone, hst, afterStatus_bad hst himp] using run_family_ok hbefore hrun
  · obtain ⟨g, hm⟩ := hcut j f rest hj hs
    have hrun : ∃ g, body s = .error (.access f) (((s.cutOff (evs.take j)).withArea b before).withWork g) :=
      ⟨g, by rw [hbody, run_bind_error hm]⟩
    simpa [flashDone, afterStatus_bad (st := .access f) (by simp) (by simp)] using run_family_cut hbefore hrun

/-! ### CFM (R297, R298, R300) -/

theorem follows_cfmErase (bound : Nat) (d : CfmDescriptor) (lo hi : Nat) (code : Byte) : Follows bound (cfmErase d lo hi code)
    ((cfmCommandRun d bound lo [0xFF, 0xFF, 0xFF, 0xFF] code).andThen (verifiesErased 4 lo hi)) :=
  follows_andThen (follows_cfmCommand bound d lo [0xFF, 0xFF, 0xFF, 0xFF] code) (follows_verifyErased bound lo hi 4)

theorem cfmErase_implemented {bound : Nat} {d : CfmDescriptor} {lo hi : Nat} {code : Byte} {evs : List MemEvent} {st : FlashStatus}
    (h : ((cfmCommandRun d bound lo [0xFF, 0xFF, 0xFF, 0xFF] code).andThen (verifiesErased 4 lo hi)) evs st) : st ≠ .unimplemented := by
  rintro rfl
  exact implemented_andThen (implemented_cfmCommandRun _ _ _ _ _) (implemented_verifiesErased _ _ _) _ h

/-- An erase of the CFM family on its area: `ERASED` cleared, the command and the verify, and after `OK` the end of the body (R249, R297, R298). -/
theorem ends_cfmErase {s : State} {e : MemoryArea} {d : CfmDescriptor} {address lo hi : Nat} {code : Byte} {evs : List MemEvent} {st : FlashStatus}
    {erased : Bool} (hs : s.partitioned = true) (howner : areaOf s.registry address = some e) (hcfm : e.binding = .cfm d)
    (hconduct : ((cfmCommandRun d s.params.flashPollBound lo [0xFF, 0xFF, 0xFF, 0xFF] code).andThen (verifiesErased 4 lo hi)) evs st)
    (hcalls : callsAllowed evs = true) {k : Op FlashResult} {ending : FlashStatus → Op FlashResult}
    (hk : ∀ (t : State) g, k ((t.withArea e.beginAddr (fun a => a.withErased false)).withWork g) =
      .ok (flashDone .ok) ((t.withArea e.beginAddr (fun a => a.withErased erased)).withWork g))
    (hending : ∀ x, ending x = if x = FlashStatus.ok then k else pure (flashDone x)) {body : CfmDescriptor → Op FlashResult}
    (hbody : body d = do markErased e.beginAddr false; let x ← cfmErase d lo hi code; ending x) :
    Ends e.beginAddr (familyOp e.beginAddr (do let d ← cfmDescriptor e.beginAddr; body d)) s evs st
      (fun a => if st = .ok then a.withErased erased else a.flagged true true) (fun a => a.flagged true true) := by
  refine run_family_erase (follows_cfmErase _ d lo hi code evs st hconduct hcalls) (cfmErase_implemented hconduct) erased hk ?_
  rw [run_bind_ok (run_cfmDescriptor hs howner hcfm), hbody, markErased, run_bind_ok (run_updateArea _ _ _)]
  exact run_bind_congr hending _

theorem ends_cfmEraseSector {s : State} {e : MemoryArea} {d : CfmDescriptor} {address : Nat} {evs : List MemEvent} {st : FlashStatus}
    (hs : s.partitioned = true) (howner : areaOf s.registry address = some e) (hcfm : e.binding = .cfm d)
    (hconduct : ((cfmCommandRun d s.params.flashPollBound (uniformSector d.chip address).1 [0xFF, 0xFF, 0xFF, 0xFF] d.numbers.cmdPageErase).andThen
      (verifiesErased 4 (uniformSector d.chip address).1 (uniformSector d.chip address).2)) evs st) (hcalls : callsAllowed evs = true) :
    Ends e.beginAddr (cfmEraseSectorOp e.beginAddr address) s evs st (fun a => if st = .ok then a.withErased false else a.flagged true true)
      (fun a => a.flagged true true) := by
  refine ends_cfmErase hs howner hcfm hconduct hcalls (k := pure (flashDone .ok)) (ending := fun x => pure (flashDone x)) (fun _ _ => rfl)
    (fun x => ?_) rfl
  split
  next h => rw [h]
  next => rfl

theorem ends_cfmEraseAll {s : State} {e : MemoryArea} {d : CfmDescriptor} {address : Nat} {evs : List MemEvent} {st : FlashStatus}
    (hs : s.partitioned = true) (howner : areaOf s.registry address = some e) (hcfm : e.binding = .cfm d)
    (hconduct : ((cfmCommandRun d s.params.flashPollBound d.chip.base [0xFF, 0xFF, 0xFF, 0xFF] d.numbers.cmdMassErase).andThen
      (verifiesErased 4 d.chip.base (d.chip.base + d.chip.size - 1))) evs st) (hcalls : callsAllowed evs = true) :
    Ends e.beginAddr (cfmEraseAllOp e.beginAddr) s evs st (fun a => if st = .ok then a.withErased true else a.flagged true true)
      (fun a => a.flagged true true) := by
  refine ends_cfmErase hs howner hcfm hconduct hcalls (k := do markErased e.beginAddr true; pure (flashDone .ok))
    (ending := fun x => do
      if x = .ok then markErased e.beginAddr true
      pure (flashDone x)) (fun t g => ?_) (fun x => ?_) rfl
  · rw [markErased, run_bind_ok (run_updateArea _ _ _), withArea_withWork, withArea_withArea _ _ _ _ (fun a => withErased_begin a false)]
    rfl
  · split
    next h => rw [h]
    next => simp

/-- Settles O55: each of the four ways to an erase ends as the family's erase on its area does. -/
theorem cfmEraseVerifies : Obligations.CfmEraseVerifies := by
  intro s e d address whole erase answers hs howner hcfm
  refine ⟨⟨fun evs st h hc => ?_, fun evs st h hc => ?_⟩, fun hsel evs st h hc => ?_, fun hwhole evs st h hc => ?_⟩
  · exact concludes_of_ends (ends_cfmEraseSector hs howner hcfm h hc) (fun r t => run_onOwner (k := fun b => cfmEraseSectorOp b address) howner)
  · exact concludes_of_ends (ends_cfmEraseSector hs howner hcfm h hc) (fun r t => run_dispatchOwner howner (by rw [eraseOf, hcfm]; rfl))
  · exact concludes_of_ends (ends_cfmEraseAll hs howner hcfm h hc) (fun r t => run_onOwner (k := cfmEraseAllOp) hsel)
  · exact concludes_of_ends (ends_cfmEraseAll hs howner hcfm h hc)
      (fun r t => run_dispatchOwner howner (by simp [eraseOf, hcfm, isOn, hwhole]))

theorem follows_blankBody (bound : Nat) (d : CfmDescriptor) : Follows bound (blankBody d)
    ((cfmCommandRun d bound d.chip.base [0xFF, 0xFF, 0xFF, 0xFF] d.numbers.cmdBlankCheck).andThen (cfmReadsBlank d)) :=
  follows_andThen (follows_cfmCommand bound d _ _ _) (follows_readsBlank bound d)

/-- A blank check is its body without the flags, with its status returned (R300). -/
theorem cfmBlankCheckOp_eq (b : Nat) : cfmBlankCheckOp b = familyOp b (do
    let d ← cfmDescriptor b
    let st ← blankBody d
    pure (flashDone st)) := by
  unfold cfmBlankCheckOp
  congr 2
  funext d
  simp only [blankBody, readsBlankBit, bind_assoc]
  refine congrArg (cfmCommand d d.chip.base (allOnes 4) d.numbers.cmdBlankCheck >>= ·) (funext fun st => ?_)
  by_cases hst : st = .ok
  · simp only [hst, ne_eq, not_true_eq_false, if_false, bind_assoc]
    refine congrArg (rd d.ust 1 >>= ·) (funext fun v => ?_)
    split <;> simp
  · simp [hst]

/-- Settles O56: the body's status is the status of the check, and a bad one sets `ERROR` alone. -/
theorem cfmBlankCheck : Obligations.CfmBlankCheck := by
  intro s e d address evs st answers hs howner hcfm hconduct hcalls
  have himp : st ≠ .unimplemented := by
    rintro rfl
    exact implemented_andThen (implemented_cfmCommandRun _ _ _ _ _) (implemented_cfmReadsBlank d) _ hconduct
  have hends : Ends e.beginAddr (cfmBlankCheckOp e.beginAddr) s evs st (fun a => a.flagged false (decide (st ≠ .ok)))
      (fun a => a.flagged false true) := by
    have hplays := follows_blankBody s.params.flashPollBound d evs st hconduct hcalls
    have h := ends_of_plays (b := e.beginAddr) (k := pure (flashDone .ok)) (before := fun a => a) (after := fun a => a)
      (body := do let d ← cfmDescriptor e.beginAddr; let st ← blankBody d; pure (flashDone st))
      hplays himp (fun _ => rfl) (fun _ => rfl) (fun _ _ => rfl) (by
        rw [run_bind_ok (run_cfmDescriptor hs howner hcfm), withArea_id]
        refine run_bind_congr (fun x => ?_) s
        split
        next h => rw [h]
        next => rfl)
    rw [← cfmBlankCheckOp_eq] at h
    have hflags : (fun a => if st = .ok then a else a.flagged false true) = fun a : MemoryArea => a.flagged false (decide (st ≠ .ok)) := by
      funext a
      by_cases hst : st = .ok <;> simp [hst, MemoryArea.flagged]
    rwa [hflags] at h
  exact ⟨fun rest hscript => ⟨run_onOwner howner (hends.1 rest hscript), run_dispatchOwner howner (by rw [blankCheckOf, hcfm]) (hends.1 rest hscript)⟩,
    fun j f rest hj hscript => ⟨run_onOwner howner (hends.2 j f rest hj hscript),
      run_dispatchOwner howner (by rw [blankCheckOf, hcfm]) (hends.2 j f rest hj hscript)⟩⟩

/-! ### INTEL (R320, R321) -/

/-- A family operation whose area already shows its status (R249). -/
theorem run_family_settled {b : Nat} {m : Op FlashResult} {s t : State} {r : FlashResult} {f : MemoryArea → MemoryArea}
    (hf : ∀ a, (f a).beginAddr = a.beginAddr) (hsettled : ∀ a, (f a).afterStatus r.status = f a)
    (h : ∃ g, m s = .ok r ((t.withArea b f).withWork g)) : ∃ g, familyOp b m s = .ok r ((t.withArea b f).withWork g) := by
  simpa [hsettled] using run_family_ok hf h

theorem afterStatus_flagged (a : MemoryArea) (st : FlashStatus) : (a.flagged true true).afterStatus st = a.flagged true true := by
  simp [MemoryArea.flagged, MemoryArea.afterStatus]

/-- INTEL.ERASE_ALL ends as the erase of its sectors does: a bad status has already set `ERROR` (R321). -/
theorem ends_intelEraseAll {s : State} {e : MemoryArea} {d : IntelDescriptor} {address : Nat} {evs : List MemEvent} {st : FlashStatus}
    (hs : s.partitioned = true) (howner : areaOf s.registry address = some e) (hintel : e.binding = .intel d)
    (hsectors : ∀ r ∈ d.sectors, d.sectorRange r.1 = some r) (hconduct : intelSectorErases d s.params.flashPollBound d.sectors evs st)
    (hcalls : callsAllowed evs = true) :
    Ends e.beginAddr (intelEraseAllOp e.beginAddr) s evs st (fun a => if st = .ok then a.withErased true else a.flagged true true)
      (fun a => a.flagged true true) := by
  have hdesc := run_intelDescriptor hs howner hintel
  have hbody : (do let d ← intelDescriptor e.beginAddr; intelEraseSectors e.beginAddr d.sectors : Op FlashResult) s =
      intelEraseSectors e.beginAddr d.sectors s := run_bind_ok hdesc
  obtain ⟨hend, hcut⟩ := run_intelEraseSectors d.sectors s evs st hsectors hdesc hconduct hcalls
  simp only [← hbody] at hend hcut
  refine ⟨fun rest hscript => run_family_settled (fun a => ?_) (fun a => ?_) (hend rest hscript),
    fun j f rest hj hscript => run_family_settled (fun _ => rfl) (fun a => afterStatus_flagged a _) (hcut j f rest hj hscript)⟩
  · split <;> rfl
  · dsimp only
    split
    next hok => rw [hok, afterStatus_ok]
    next => exact afterStatus_flagged a st

/-- Settles O58: each of the four ways to an erase ends as the family's erase on its area does. -/
theorem intelEraseVerifies : Obligations.IntelEraseVerifies := by
  intro s e d address whole lo hi bound answers hs howner hintel
  have hdesc := run_intelDescriptor hs howner hintel
  refine ⟨fun hrange => ⟨fun evs st h hc => ?_, fun evs st h hc => ?_⟩, fun hsectors => ⟨fun hsel evs st h hc => ?_, fun hwhole evs st h hc => ?_⟩⟩
  · exact concludes_of_ends (run_intelEraseSectorOp hdesc hrange h hc) (fun r t => run_onOwner (k := fun b => intelEraseSectorOp b address) howner)
  · exact concludes_of_ends (run_intelEraseSectorOp hdesc hrange h hc) (fun r t => run_dispatchOwner howner (by rw [eraseOf, hintel]; rfl))
  · exact concludes_of_ends (ends_intelEraseAll hs howner hintel hsectors h hc) (fun r t => run_onOwner (k := intelEraseAllOp) hsel)
  · exact concludes_of_ends (ends_intelEraseAll hs howner hintel hsectors h hc)
      (fun r t => run_dispatchOwner howner (by simp [eraseOf, hintel, isOn, hwhole]))

end Sys2Proof.Erases

/-! The AMD erases: the command that returns at once (R272, R273), the wait with its poll and verify (R275), and the wait that comes first when an erase
is pending (R270). -/

namespace Sys2Proof.Erases

open Sys2Proof Sys2Proof.Machine Sys2Proof.Laws

/-! ### AMD erase commands (R272, R273) -/

/-- The erase of an AMD area (R230). -/
theorem eraseOf_amd {e : MemoryArea} {d : AmdDescriptor} {address : Nat} {whole : Bool} (hamd : e.binding = .amd d) :
    eraseOf e address whole = some (if whole then amdEraseAllOp e.beginAddr else amdEraseSectorOp e.beginAddr address) := by
  rw [eraseOf, hamd]

/-- An AMD erase command on an area without an erase pending, as a whole operation (R249, R250, R272). -/
theorem exec_amdStartErase {s : State} {e : MemoryArea} {m : Op FlashResult} {i : Instr} {ws : List (Nat × BusWord)} {p : PendingErase}
    {rest : List MemReply} (hm : m s = familyOp e.beginAddr (amdStartErase e.beginAddr ws p) s) (hc : callsAllowed (writesOf ws) = true)
    (hi : ∀ r t, (∃ g, m s = .ok r (State.withWork t g)) → exec i s = .next (t.conclude (.flash r))) :
    (s.memScript = answersOf (writesOf ws) ++ rest → exec i s =
      .next (((s.performed (writesOf ws)).withArea e.beginAddr (fun a => (a.withErased false).withPending p)).conclude
        (.flash { count := 0, status := .ok }))) ∧
    (∀ j f, j < (writesOf ws).length → s.memScript = answersOf ((writesOf ws).take j) ++ .fault f :: rest → exec i s =
      .next (((s.cutOff ((writesOf ws).take j)).withArea e.beginAddr (fun a => a.flagged true true)).conclude
        (.flash { count := 0, status := .access f }))) := by
  obtain ⟨hend, hcut⟩ := run_amdStartErase (s := s) e.beginAddr ws p rest hc
  simp only [← hm] at hend hcut
  exact ⟨fun hs => hi _ _ (hend hs), fun j f hj hs => hi _ _ (hcut j f hj hs)⟩

/-- With no erase pending an AMD operation is what follows its descriptor (R270). -/
theorem run_amdOp {s : State} {e : MemoryArea} {d : AmdDescriptor} {address : Nat} {k : AmdDescriptor → Op FlashResult}
    (hs : s.partitioned = true) (howner : areaOf s.registry address = some e) (hamd : e.binding = .amd d) (hnone : d.pendingErase = .none) :
    familyOp e.beginAddr (amdPrepare e.beginAddr (do let d ← amdDescriptor e.beginAddr; k d)) s = familyOp e.beginAddr (k d) s :=
  familyOp_congr ((run_amdPrepare hs howner hamd hnone _).trans (run_bind_ok (run_amdDescriptor hs howner hamd)))

/-- Settles O52: each of the four ways to an erase is the erase command on its area. -/
theorem amdEraseReturnsAtOnce : Obligations.AmdEraseReturnsAtOnce := by
  intro s e d address whole rest lo setup ended failed hs howner hamd hnone
  have hsector : amdEraseSectorOp e.beginAddr address s = familyOp e.beginAddr (amdStartErase e.beginAddr (amdEraseSectorCmd d lo)
      (.sector lo (lo + d.chip.sectorSize - 1))) s := run_amdOp hs howner hamd hnone
  have hall : amdEraseAllOp e.beginAddr s = familyOp e.beginAddr (amdStartErase e.beginAddr (amdEraseAllCmd d) .whole) s :=
    run_amdOp hs howner hamd hnone
  constructor
  · intro evs t hc
    have hown := exec_amdStartErase (i := .amdEraseSector address) (rest := rest) hsector hc
      (fun r t => run_onOwner (k := fun b => amdEraseSectorOp b address) howner)
    have hhost := exec_amdStartErase (i := .eraseArea address 0) (rest := rest) hsector hc
      (fun r t => run_dispatchOwner howner (by rw [eraseOf_amd hamd]; rfl))
    exact ⟨fun hscript => ⟨hown.1 hscript, hhost.1 hscript⟩, hown.2, hhost.2⟩
  · intro evs t hc
    exact ⟨fun hsel => exec_amdStartErase (i := .amdEraseAll) hall hc (fun r t => run_onOwner (k := amdEraseAllOp) hsel),
      fun hwhole => exec_amdStartErase (i := .eraseArea address whole) hall hc
        (fun r t => run_dispatchOwner howner (by simp [eraseOf_amd hamd, isOn, hwhole]))⟩

/-! ### The AMD erase wait (R275) -/

/-- The wait without the area's updates: the poll, then the verify (R275). -/
def awaitBody (d : AmdDescriptor) (lo hi : Nat) : Op FlashStatus := do
  let st ← togglePoll d lo
  if st ≠ .ok then pure st else verifyErased lo hi d.chip.busWidth

/-- What the wait does after `OK` (R275): only an erase of the whole chip sets `ERASED`. -/
def awaitEnd (b : Nat) (d : AmdDescriptor) : Op FlashResult := do
  if d.pendingErase = .whole then markErased b true
  pure (flashDone .ok)

theorem amdAwaitErase_eq (b : Nat) (d : AmdDescriptor) (lo hi : Nat) : amdAwaitErase b d lo hi = (do
    updateArea b (fun a => a.withPending .none)
    let st ← awaitBody d lo hi
    if st = FlashStatus.ok then awaitEnd b d else pure (flashDone st)) := by
  unfold amdAwaitErase awaitBody
  simp only [bind_assoc]
  refine congrArg (updateArea b (fun a => a.withPending .none) >>= ·) (funext fun _ => congrArg (togglePoll d lo >>= ·) (funext fun st => ?_))
  by_cases hst : st = .ok
  · simp only [hst, ne_eq, not_true_eq_false, if_false]
    refine congrArg (verifyErased lo hi d.chip.busWidth >>= ·) (funext fun st' => ?_)
    by_cases hst' : st' = .ok <;> simp [hst', awaitEnd]
  · simp [hst]

theorem follows_awaitBody (bound : Nat) (d : AmdDescriptor) (lo hi : Nat) : Follows bound (awaitBody d lo hi)
    ((togglePolls d bound lo).andThen (verifiesErased d.chip.busWidth lo hi)) :=
  follows_andThen (follows_togglePoll bound d lo) (follows_verifyErased bound lo hi d.chip.busWidth)

/-- The area after a wait that ended with `OK` (R275). -/
def awaited (d : AmdDescriptor) (a : MemoryArea) : MemoryArea :=
  if d.pendingErase = .whole then (a.withPending .none).withErased true else a.withPending .none

theorem awaited_begin (d : AmdDescriptor) (a : MemoryArea) : (awaited d a).beginAddr = a.beginAddr := by
  unfold awaited
  split
  · rw [withErased_begin, withPending_begin]
  · exact withPending_begin a .none

theorem run_awaitEnd (b : Nat) (d : AmdDescriptor) (t : State) (g : WorkRegs → WorkRegs) :
    awaitEnd b d ((t.withArea b (fun a => a.withPending .none)).withWork g) = .ok (flashDone .ok) ((t.withArea b (awaited d)).withWork g) := by
  unfold awaitEnd awaited
  by_cases hwhole : d.pendingErase = .whole
  · simp only [hwhole, if_true, markErased]
    rw [run_bind_ok (run_updateArea _ _ _), withArea_withWork, withArea_withArea _ _ _ _ (fun a => withPending_begin a .none)]
    rfl
  · simp [hwhole]

theorem amd_pendingRange {d : AmdDescriptor} {lo hi : Nat}
    (h : d.pendingErase = .sector lo hi ∨ d.pendingErase = .whole ∧ lo = d.chip.base ∧ hi = d.chip.base + d.chip.size - 1) :
    d.pendingRange = some (lo, hi) := by
  obtain h | ⟨h, rfl, rfl⟩ := h <;> simp [AmdDescriptor.pendingRange, h]

/-- ERASE_WAIT with an erase pending follows its conduct (R275). -/
theorem ends_amdEraseWait {s : State} {e : MemoryArea} {d : AmdDescriptor} {address lo hi : Nat} {evs : List MemEvent} {st : FlashStatus}
    (hs : s.partitioned = true) (howner : areaOf s.registry address = some e) (hamd : e.binding = .amd d) (hrange : d.pendingRange = some (lo, hi))
    (hconduct : ((togglePolls d s.params.flashPollBound lo).andThen (verifiesErased d.chip.busWidth lo hi)) evs st)
    (hcalls : callsAllowed evs = true) :
    Ends e.beginAddr (amdEraseWaitOp e.beginAddr) s evs st (fun a => if st = .ok then awaited d a else (a.withPending .none).flagged false true)
      (fun a => (a.withPending .none).flagged false true) := by
  have himp : st ≠ .unimplemented := by
    rintro rfl
    exact implemented_andThen (implemented_togglePolls _ _ _) (implemented_verifiesErased _ _ _) _ hconduct
  refine ends_of_plays (follows_awaitBody _ d lo hi evs st hconduct hcalls) himp (fun a => withPending_begin a .none) (awaited_begin d)
    (run_awaitEnd e.beginAddr d) ?_
  rw [run_bind_ok (run_amdDescriptor hs howner hamd)]
  simp only [hrange, amdAwaitErase_eq]
  rfl

/-- Settles O53: with an erase pending the wait follows its conduct, and the flags of its end are those of the statement. -/
theorem amdEraseWaitVerifies : Obligations.AmdEraseWaitVerifies := by
  intro s e d address hs howner hamd answers
  have hboth : ∀ {r t}, (∃ g, amdEraseWaitOp e.beginAddr s = .ok r (State.withWork t g)) → answers (t.conclude (.flash r)) :=
    fun h => exec_owner_and_dispatch howner (by rw [eraseWaitOf, hamd]) h
  refine ⟨fun hnone => hboth ⟨id, ?_⟩, fun lo hi evs st hpending hconduct hcalls => ?_⟩
  · refine run_familyOp_unflagged ((run_bind_ok (run_amdDescriptor hs howner hamd)).trans ?_) rfl
    simp only [AmdDescriptor.pendingRange, hnone]
    rfl
  · obtain ⟨hend, hcut⟩ := ends_amdEraseWait hs howner hamd (amd_pendingRange hpending) hconduct hcalls
    refine ⟨fun rest hscript => ?_, fun j f rest hj hscript => hboth (hcut j f rest hj hscript)⟩
    simpa only [awaited, ne_eq, ite_not] using hboth (hend rest hscript)

/-! ### AMD operations with an erase pending (R270) -/

/-- A family operation, as the whole operation that returns its result. -/
def flashOp (m : Op FlashResult) : Op OpResult := do
  let r ← m
  pure (.flash r)

theorem runOp_flashOp_congr {m m' : Op FlashResult} {s s' : State} (h : m s = m' s') : runOp (flashOp m) s = runOp (flashOp m') s' := by
  simp only [runOp, flashOp, run_bind, h]

theorem runOp_owningArea {s : State} {e : MemoryArea} {a : Nat} {k : Nat → Op FlashResult} (howner : areaOf s.registry a = some e) :
    runOp (do let a ← owningArea a; let r ← k a.beginAddr; pure (.flash r)) s = runOp (flashOp (k e.beginAddr)) s := by
  rw [runOp_outcome, run_bind_ok (run_owningArea howner), runOp_outcome]
  rfl

theorem runOp_areaOwning {s : State} {e : MemoryArea} {a n : Nat} {k : Nat → Op FlashResult} (howner : areaOf s.registry a = some e)
    (hend : a + n ≤ e.endAddr + 1) :
    runOp (do let a ← areaOwning a n; let r ← k a.beginAddr; pure (.flash r)) s = runOp (flashOp (k e.beginAddr)) s := by
  rw [runOp_outcome, run_bind_ok (run_areaOwning howner hend), runOp_outcome]
  rfl

theorem runOp_dispatchOwner {s : State} {e : MemoryArea} {address : Nat} {op : MemoryArea → Option (Op FlashResult)} {m : Op FlashResult}
    (howner : areaOf s.registry address = some e) (hop : op e = some m) : runOp (dispatchOwner address op) s = runOp (flashOp m) s := by
  rw [runOp_outcome, dispatchOwner, run_bind_ok (run_owningArea howner), runOp_outcome]
  simp only [hop]
  rfl

/-- `u` is what an ERASE_WAIT of the AMD area `e` leaves of `s`: the area in its place with no erase pending, the caller's fields as they were. -/
structure LeftByWait (s u : State) (e : MemoryArea) (d : AmdDescriptor) : Prop where
  partitioned : u.partitioned = true
  owner : ∀ a, areaOf s.registry a = some e →
    ∃ e', areaOf u.registry a = some e' ∧ e'.beginAddr = e.beginAddr ∧ e'.endAddr = e.endAddr ∧ e'.binding = .amd { d with pendingErase := .none }
  caller : u.buffer = s.buffer ∧ u.opsDone = s.opsDone ∧ u.result = s.result
  areaSel : u.areaSel = s.areaSel

section

variable {s u : State} {e : MemoryArea} {d : AmdDescriptor} {address : Nat} {r : FlashResult}
  (hs : s.partitioned = true) (howner : areaOf s.registry address = some e) (hamd : e.binding = .amd d) (hpending : d.pendingErase ≠ .none)
  (hwait : amdEraseWaitOp e.beginAddr s = .ok r u)

include hs howner hamd hpending hwait

theorem leftByWait : LeftByWait s u e d := by
  obtain ⟨-, ⟨f, hf, hu⟩, -⟩ := amdEraseWaitOp_leaves hs howner hamd hpending hwait
  refine ⟨?_, fun a ha => ⟨f e, ?_, (hf.bounds e).1, (hf.bounds e).2, hf.bind⟩, blind_keeps (blind_amdEraseWaitOp _) hwait,
    areaSel_path (travels_ok (travels_amdEraseWaitOp _) hwait)⟩
  · rw [State.partitioned, hu, covers_updated hf.bounds]
    exact hs
  · rw [hu, areaOf_updated hf.bounds, ha]
    simp

/-- An AMD operation with an erase pending ends as the wait does, or as the same operation does on the state the wait leaves (R270). -/
theorem waits_first {k m : Op FlashResult} {i : Instr} (hk : k = familyOp e.beginAddr (amdPrepare e.beginAddr m)) (hblind : Blind k)
    (hfirst : exec i s = runOp (flashOp k) s)
    (hagain : exec i { u.conclude (.flash r) with opsDone := s.opsDone, result := s.result } =
      runOp (flashOp k) { u.conclude (.flash r) with opsDone := s.opsDone, result := s.result }) :
    (r.status = .ok → exec i s = exec i { u.conclude (.flash r) with opsDone := s.opsDone, result := s.result }) ∧
    (r.status ≠ .ok → exec i s = .next (u.conclude (.flash r))) := by
  obtain ⟨hgoes, hends⟩ := run_amdPrepare_waits hs howner hamd hpending hwait m
  obtain ⟨hpart, hleft, ⟨hbuffer, hops, hresult⟩, -⟩ := leftByWait hs howner hamd hpending hwait
  refine ⟨fun hok => ?_, fun hbad => ?_⟩
  · obtain ⟨e', howner', hbegin, -, hamd'⟩ := hleft address howner
    have hprepared : amdPrepare e.beginAddr m u = m u := by
      rw [← hbegin]
      exact run_amdPrepare hpart howner' hamd' rfl m
    have hblindly : runOp (flashOp k) { u.conclude (.flash r) with opsDone := s.opsDone, result := s.result } = runOp (flashOp k) u :=
      runOp_blind (blind_bind hblind (fun _ => blind_pure _)) u _ ⟨WorkRegs.rest, by rw [← hops, ← hresult]; rfl⟩
    rw [hfirst, hagain, hblindly]
    refine runOp_flashOp_congr ?_
    rw [hk, hgoes hok, familyOp_congr hprepared]
  · rw [hfirst]
    exact runOp_ok (run_bind_ok (by rw [hk]; exact hends hbad))

end

/-- An ERASE_WAIT of the host that returned a status is the wait of the owner (R231). -/
theorem eraseWait_inv {s t : State} {e : MemoryArea} {d : AmdDescriptor} {address : Nat} {r : FlashResult}
    (howner : areaOf s.registry address = some e) (hamd : e.binding = .amd d) (h : exec (.eraseWait address) s = .next t)
    (hr : t.result = some (.flash r)) : ∃ u, amdEraseWaitOp e.beginAddr s = .ok r u ∧ t = u.conclude (.flash r) := by
  have hdispatch : exec (.eraseWait address) s = runOp (flashOp (amdEraseWaitOp e.beginAddr)) s :=
    runOp_dispatchOwner howner (by rw [eraseWaitOf, hamd])
  exact flash_next_inv (hdispatch.symm.trans h) hr

/-- Settles O60: each of the operations begins with the same wait, and the state that leaves has the same owner at the same place. -/
theorem amdWaitsForAPendingErase : Obligations.AmdWaitsForAPendingErase := by
  intro s t e d address n whole r hs howner hamd hpending hexec hr waited does
  obtain ⟨u, hwait, rfl⟩ := eraseWait_inv howner hamd hexec hr
  obtain ⟨-, hleft, ⟨hbuffer, -, -⟩, hsel⟩ := leftByWait hs howner hamd hpending hwait
  obtain ⟨e', howner', hbegin, hend', hamd'⟩ := hleft address howner
  have hbytes : waited.dataByte = s.dataByte := by
    funext i
    simp only [State.dataByte, waited, conclude_buffer, hbuffer]
  refine ⟨⟨e', howner', hamd'⟩, fun hend => ?_, ?_, fun hselected => ?_, ?_⟩
  · refine waits_first hs howner hamd hpending hwait rfl (blind_amdProgramOp e.beginAddr address n s.dataByte)
      (runOp_areaOwning (k := fun b => amdProgramOp b address n s.dataByte) howner hend) ?_
    have hagain : exec (.amdProgram address n) waited = runOp (flashOp (amdProgramOp e'.beginAddr address n waited.dataByte)) waited :=
      runOp_areaOwning (k := fun b => amdProgramOp b address n waited.dataByte) howner' (by omega)
    rw [hbytes, hbegin] at hagain
    exact hagain
  · refine waits_first hs howner hamd hpending hwait rfl (blind_amdEraseSectorOp e.beginAddr address)
      (runOp_owningArea (k := fun b => amdEraseSectorOp b address) howner) ?_
    rw [← hbegin]
    exact runOp_owningArea (k := fun b => amdEraseSectorOp b address) howner'
  · obtain ⟨e2, howner2, hbegin2, -, -⟩ := hleft s.areaSel hselected
    refine waits_first hs howner hamd hpending hwait rfl (blind_amdEraseAllOp e.beginAddr)
      (runOp_owningArea (k := amdEraseAllOp) hselected) ?_
    rw [← hbegin2]
    exact runOp_owningArea (k := amdEraseAllOp) (by rw [← hsel] at howner2; exact howner2)
  · cases hwhole : isOn whole with
    | true =>
      refine waits_first hs howner hamd hpending hwait rfl (blind_amdEraseAllOp e.beginAddr)
        (runOp_dispatchOwner howner (by rw [eraseOf_amd hamd, hwhole]; rfl)) ?_
      exact runOp_dispatchOwner howner' (by rw [eraseOf_amd hamd', hwhole, hbegin]; rfl)
    | false =>
      refine waits_first hs howner hamd hpending hwait rfl (blind_amdEraseSectorOp e.beginAddr address)
        (runOp_dispatchOwner howner (by rw [eraseOf_amd hamd, hwhole]; rfl)) ?_
      exact runOp_dispatchOwner howner' (by rw [eraseOf_amd hamd', hwhole, hbegin]; rfl)

end Sys2Proof.Erases

/-! What an operation changes of the registry (R38, R213, R249, R260): every one but REGISTER_AREA only flags and pending erases, and REGISTER_AREA only the
RAM area in which it found a chip. -/

namespace Sys2Proof.Invariants

open Sys2Proof Sys2Proof.Machine Sys2Proof.Laws Sys2Proof.Scope

/-- An operation other than REGISTER_AREA keeps what is fixed at registration, and every set `ERROR` (R249, R260). -/
theorem exec_registryKept {i : Instr} {s t : State} (hi : ∀ hint base, i ≠ .registerArea hint base) (h : exec i s = .next t) : RegistryKept s t := by
  cases hmemory : memoryOperation i with
  | false =>
    obtain ⟨u, r, path, hexec⟩ := exec_steers hmemory s
    rw [hexec] at h
    cases h
    obtain ⟨-, -, hregistry, -⟩ := linePath_memory path
    exact registryKept_refl hregistry
  | true =>
    obtain ⟨u, r, path, hexec⟩ := exec_travels hmemory hi s
    rw [hexec] at h
    cases h
    have kept := registryKept_path path
    exact kept

/-- The registry after REGISTER_AREA at `base`: as before, or with the RAM area that owns `base` split around a new area (R213, R214). -/
def AtMostSplices (base : Nat) (s u : State) : Prop :=
  u.registry = s.registry ∨ ∃ e new, areaOf s.registry base = some e ∧ e.binding = .ram ∧ u.registry = splice s.registry e new

theorem atMostSplices_bindFound {hint base : Nat} {families : List Family} {s : State} {e : MemoryArea} (howner : areaOf s.registry base = some e)
    (hram : e.binding = .ram) : AtMostSplices base s (endState ((probeCandidates base families >>= Registry.bindFound hint base e) s)) := by
  have hquiet := quiet_probeCandidates base families
  rw [run_bind]
  cases hprobes : probeCandidates base families s with
  | error x v =>
    have hv := quiet_endState hquiet s
    rw [hprobes] at hv
    exact .inl hv
  | ok found v =>
    have hv : v.registry = s.registry := quiet_ok hquiet hprobes
    match found with
    | none => exact .inl hv
    | some (size, d) =>
      simp only [Registry.bindFound]
      split
      · exact .inl hv
      · exact .inr ⟨e, _, howner, hram, congrArg (fun areas => splice areas e (foundArea hint base size d)) hv⟩

/-- REGISTER_AREA is refused with nothing done, or it probes and then binds what it found (R212 to R214). -/
theorem exec_registerArea_atMostSplices {hint base : Nat} {s t : State} (h : exec (.registerArea hint base) s = .next t) : AtMostSplices base s t := by
  cases hcand : candidates s.params hint with
  | none =>
    simp only [exec, execRegisterArea, hcand] at h
    cases h
    exact .inl rfl
  | some families =>
    cases howner : areaOf s.registry base with
    | none =>
      simp only [exec, execRegisterArea, hcand, runOp, run_bind, owningArea, howner] at h
      cases h
      exact .inl rfl
    | some e =>
      by_cases hram : e.binding = .ram
      · rw [Registry.exec_registerArea hcand howner hram] at h
        obtain ⟨r, hend⟩ := runOp_endState (probeCandidates base families >>= Registry.bindFound hint base e) s
        rw [hend] at h
        cases h
        exact atMostSplices_bindFound howner hram
      · simp only [exec, execRegisterArea, hcand] at h
        rw [runOp_outcome, run_bind_ok (run_owningArea howner)] at h
        simp only [ne_eq, hram, not_false_eq_true, if_true] at h
        cases h
        exact .inl rfl

/-- Settles O17: every other operation's effects keep what is fixed; a registration changes at most a RAM area. -/
theorem areaFlagsAfterRegistration : Obligations.AreaFlagsAfterRegistration := by
  refine ⟨fun i s t hi h => ?_, fun hint base s t hs h a ha hflash => ?_⟩
  · obtain ⟨hfixed, herror⟩ := exec_registryKept hi h
    exact ⟨bounds_of_fixed hfixed, hfixed, herror⟩
  · rcases exec_registerArea_atMostSplices h with hsame | ⟨e, new, howner, hram, hsplice⟩
    · rw [hsame]
      exact ha
    · rw [hsplice]
      exact mem_splice_of_flash hs (areaOf_contains howner).1 ha hram hflash

end Sys2Proof.Invariants

/-! The probes of the flash families (R241 to R243): the searches over width pairs of AMD and INTEL, with INTEL's query of the buffer size after a hit
(R264, R312), and the rows that CFM reads (R292). -/

namespace Sys2Proof.Probes

open Sys2Proof Sys2Proof.Machine Sys2Proof.Laws

/-! ### AMD (R264) -/

/-- Settles O48: AMD.PROBE is the search over the pairs at its address. -/
theorem amdProbeFindsTheChip : Obligations.AmdProbeFindsTheChip := by
  intro s address tries n word enter pairs evs hsound hcalls
  obtain ⟨toEnd, toHit, toFailedAccess⟩ := run_search (amd_searches s.params address) tries pairs s rfl hsound hcalls
  refine ⟨fun rest hlen hmiss hscript => run_probe_ok (toEnd rest hlen hmiss hscript), fun w c row rest hhit hscript => ?_,
    fun j f rest hj hscript => run_probe_cut (toFailedAccess j f rest hj hscript)⟩
  exact run_probe_ok (toHit w c row rest hhit hscript)

/-! ### INTEL (R312) -/

section

variable {ρ : Type} {p : Params} {addr : Nat} {enter : Nat → Nat → List (Nat × BusWord)} {leave : Nat → Nat → BusWord}
  {table : Nat → Nat → Nat → Option ρ} {found : Nat → Nat → ρ → Op ProbeResult} {search : List (Nat × Nat) → Op ProbeResult}
  {tries : List ProbeTry} {pairs : List (Nat × Nat)} {s : State}

/-- A search whose attempts hit goes on with the calls of the hit, to their end or to the first that fails (R242, R250). -/
theorem run_search_hit (hs : Searches p addr enter leave table found search) (hp : s.params = p) (hsound : triesSound table pairs tries = true)
    (hcalls : callsAllowed (triesEvents addr enter leave pairs tries) = true) {w c : Nat} {e : ρ}
    (hhit : triesHit table pairs tries = some ((w, c), e)) {query : List MemEvent} {r : ProbeResult}
    (hquery : Plays p.flashPollBound (found w c e) query r) :
    (∀ rest, s.memScript = answersOf (triesEvents addr enter leave pairs tries ++ query) ++ rest →
      ∃ g, search pairs s = .ok r ((s.performed (triesEvents addr enter leave pairs tries ++ query)).withWork g)) ∧
    (∀ j f rest, j < (triesEvents addr enter leave pairs tries ++ query).length →
      s.memScript = answersOf ((triesEvents addr enter leave pairs tries ++ query).take j) ++ .fault f :: rest →
      ∃ g, search pairs s = .error (.access f) ((s.cutOff ((triesEvents addr enter leave pairs tries ++ query).take j)).withWork g)) := by
  obtain ⟨-, toHit, toFailedAccess⟩ := run_search hs tries pairs s hp hsound hcalls
  generalize triesEvents addr enter leave pairs tries = evs at *
  have atHit : ∀ more, s.memScript = answersOf evs ++ more → ∃ g, search pairs s = found w c e ((s.performed evs).withWork g) ∧
      ((s.performed evs).withWork g).memScript = more ∧ ((s.performed evs).withWork g).params.flashPollBound = p.flashPollBound := by
    intro more hscript
    obtain ⟨g, hg⟩ := toHit w c e more hhit hscript
    refine ⟨g, hg, ?_, by simp [hp]⟩
    rw [withWork_memScript, performed_memScript, hscript, ← answersOf_length evs, List.drop_left]
  refine ⟨fun rest hscript => ?_, fun j f rest hj hscript => ?_⟩
  · obtain ⟨g, hg, hmore, hbound⟩ := atHit (answersOf query ++ rest) (by simpa using hscript)
    obtain ⟨g', hg'⟩ := (hquery _ hbound).1 rest hmore
    exact ⟨fun x => g' (g x), by rw [hg, hg', performed_withWork, ← performed_append, withWork_withWork]⟩
  · by_cases hbefore : j < evs.length
    · rw [List.take_append_of_le_length (by omega)] at hscript ⊢
      exact toFailedAccess j f rest hbefore hscript
    · have htake : (evs ++ query).take j = evs ++ query.take (j - evs.length) := by
        rw [List.take_append, List.take_of_length_le (by omega)]
      rw [htake] at hscript ⊢
      obtain ⟨g, hg, hmore, hbound⟩ := atHit _ (by simpa using hscript)
      obtain ⟨g', hg'⟩ := (hquery _ hbound).2 (j - evs.length) f rest (by simp at hj; omega) hmore
      exact ⟨fun x => g' (g x), by rw [hg, hg', cutOff_withWork, cutOff_append, withWork_withWork]⟩

end

/-- A hit on an unbuffered row has no query (R312). -/
theorem plays_intelHit_unbuffered (bound : Nat) {d : IntelDescriptor} (h : d.buffered = false) :
    Plays bound (intelHit d) [] { size := d.chip.size, binding := some (.intel d), status := .ok } := by
  rw [intelHit, if_neg (by simp [h])]
  exact plays_pure bound _

/-- The accesses of the buffer-size query (R311, R312). -/
def queryEvents (d : IntelDescriptor) (answer : BusWord) : List MemEvent :=
  [.wrote (d.chip.base + d.numbers.queryAddr * d.chip.busWidth) (rep d.chip d.numbers.cmdQuery),
   .read (d.chip.base + d.numbers.bufSizeOff * d.chip.busWidth) answer, intelReadArrayEvent d]

/-- A hit on a buffered row makes the query and takes the buffer size from its answer (R312). -/
theorem plays_intelHit_buffered (bound : Nat) {d : IntelDescriptor} {answer : BusWord} (h : d.buffered = true)
    (hlen : answer.length = d.chip.busWidth) (hcalls : callsAllowed (queryEvents d answer) = true) :
    Plays bound (intelHit d) (queryEvents d answer)
      { size := d.chip.size, binding := some (.intel { d with bufBytes := bufferBytes d answer }), status := .ok } := by
  simp only [queryEvents, intelReadArrayEvent, callsAllowed, List.all_cons, List.all_nil, Bool.and_true, Bool.and_eq_true] at hcalls
  obtain ⟨hcommand, hread, hleave⟩ := hcalls
  rw [intelHit, if_pos h]
  refine plays_then_pure (a := bufferBytes d answer) ?_ (plays_pure bound _)
  exact plays_bind (e1 := [.wrote _ _]) (plays_wr hcommand)
    (plays_bind (e1 := [.read _ _]) (plays_rd hlen hread) (plays_then_pure (plays_wr hleave) (plays_pure bound _)))

/-- The buffer size of an answer whose lanes agree on an exponent of 1 to 10 (R312). -/
theorem bufferBytes_agreed {d : IntelDescriptor} {answer : BusWord} {v : Nat} (hv : agreedValue d.chip.busWidth d.chip.chipWidth answer = some v)
    (hlo : 1 ≤ v % 256) (hhi : v % 256 ≤ 10) : bufferBytes d answer = 2 ^ (v % 256) * (d.chip.busWidth / d.chip.chipWidth) := by
  simp only [bufferBytes, hv, hlo, hhi, and_self, if_true]
  rfl

theorem bufferBytes_out_of_range {d : IntelDescriptor} {answer : BusWord} {v : Nat}
    (hv : agreedValue d.chip.busWidth d.chip.chipWidth answer = some v) (hout : ¬ (1 ≤ v % 256 ∧ v % 256 ≤ 10)) : bufferBytes d answer = 0 := by
  simp only [bufferBytes, hv, hout, if_false]

theorem bufferBytes_disagreed {d : IntelDescriptor} {answer : BusWord} (h : agreedValue d.chip.busWidth d.chip.chipWidth answer = none) :
    bufferBytes d answer = 0 := by
  simp only [bufferBytes, h]

/-- The descriptor of a row, in the words of the statements: its sector size is that of its largest region (R310, R312). -/
theorem intelMatched_sectorSize (p : Params) (addr w c : Nat) (row : IntelRow) :
    (intelMatched p addr w c row).chip.sectorSize = (row.regions.map (fun r => r.2 * (w / c))).foldl max 0 :=
  largestSector_bus (w / c) row.regions

/-- The answer of INTEL.PROBE to a hit whose buffer size is `b` (R312). -/
def intelFound (p : Params) (addr w c : Nat) (row : IntelRow) (b : Nat) : ProbeResult :=
  { size := (intelMatched p addr w c row).chip.size, binding := some (.intel { intelMatched p addr w c row with bufBytes := b }), status := .ok }

/-- Settles O49: INTEL.PROBE is the search over the pairs at its address, and a hit on a buffered row goes on with the query. -/
theorem intelProbeFindsTheChip : Obligations.IntelProbeFindsTheChip := by
  intro s address tries n word pairs evs none' failed found hsound hcalls
  have hsearch := intel_searches s.params address
  obtain ⟨toEnd, -, toFailedAccess⟩ := run_search hsearch tries pairs s rfl hsound hcalls
  have hfound : ∀ w c row b, OpResult.probe (intelFound s.params address w c row b) = found w c row b := by
    intro w c row b
    simp only [found, ← intelMatched_sectorSize s.params address]
    rfl
  refine ⟨fun rest hlen hmiss hscript => run_probe_ok (toEnd rest hlen hmiss hscript),
    fun j f rest hj hscript => run_probe_cut (toFailedAccess j f rest hj hscript), fun w c row hhit => ⟨fun rest hplain hscript => ?_, ?_⟩⟩
  · obtain ⟨toFound, -⟩ := run_search_hit hsearch rfl hsound hcalls hhit
      (plays_intelHit_unbuffered s.params.flashPollBound (d := intelMatched s.params address w c row) hplain)
    rw [List.append_nil] at toFound
    rw [← hfound]
    exact run_probe_ok (toFound rest hscript)
  · intro answer rest hbuffered hlen query bytes hquery
    obtain ⟨toFound, toFailedQuery⟩ := run_search_hit hsearch rfl hsound hcalls hhit
      (plays_intelHit_buffered s.params.flashPollBound (d := intelMatched s.params address w c row) hbuffered hlen hquery)
    refine ⟨fun j f rest hj hscript => run_probe_cut (toFailedQuery j f rest hj hscript), fun hscript => ?_⟩
    have hbytes : bytes (bufferBytes (intelMatched s.params address w c row) answer) := by
      simp only [bytes, ← hfound]
      exact run_probe_ok (toFound rest hscript)
    refine ⟨fun v hv hlo hhi => ?_, fun v hv hout => ?_, fun hnone => ?_⟩
    · rwa [bufferBytes_agreed hv hlo hhi] at hbytes
    · rwa [bufferBytes_out_of_range hv hout] at hbytes
    · rwa [bufferBytes_disagreed hnone] at hbytes

/-! ### CFM (R292) -/

/-- CFM.PROBE is the search over the rows at its base (R292). -/
theorem run_cfmProbe (s : State) (address : Nat) :
    (do let t ← get; cfmProbeRows address (sortBy CfmRow.size (t.params.cfmTable.filter (fun e => e.arrayBase == address))) : Op ProbeResult) s =
      cfmProbeRows address (sortBy CfmRow.size (s.params.cfmTable.filter (fun e => e.arrayBase == address))) s := by
  rw [run_bind, run_get]

/-- Settles O50: the rows at the base are read in turn; with no row there is nothing to read. -/
theorem cfmProbeTestsPresence : Obligations.CfmProbeTestsPresence := by
  intro s address status n rows present evs
  have ends : ∀ {t : State} {r : ProbeResult}, cfmProbeRows address rows s = .ok r t → exec (.cfmProbe address) s = .next (t.conclude (.probe r)) :=
    fun h => run_probe_ok ⟨id, (run_cfmProbe s address).trans h⟩
  refine ⟨fun hempty => ends (by rw [hempty]; rfl), fun hcalls => ?_⟩
  obtain ⟨toEnd, toIdle, toFailedAccess⟩ := run_cfmProbeRows s.params address rows status s rfl hcalls
  refine ⟨fun rest hlen hmiss hscript => ends (toEnd rest hlen hmiss hscript),
    fun before st row rest hsplit hbefore hst hrow hscript => ends (toIdle before st row rest hsplit hbefore hst hrow hscript),
    fun row f rest hmiss hrow hcall hscript => ?_⟩
  exact run_probe_cut ⟨id, (run_cfmProbe s address).trans (toFailedAccess row f rest hmiss hrow hcall hscript)⟩

end Sys2Proof.Probes

/-! The programs of the flash families (R244, R246): AMD and INTEL run as their cells and chunks say, and bytes that the cells already hold are read and not
written. -/

namespace Sys2Proof.Programs

open Sys2Proof Sys2Proof.Machine Sys2Proof.Laws

/-- A program on its area that clears `ERASED` or not: its status decides about `ERROR` (R249). -/
theorem exec_program_flagged {s t : State} {e : MemoryArea} {address n : Nat} {k : Nat → Op FlashResult} {body : Op FlashResult} {r : FlashResult}
    {cleared failed : Bool} (howner : areaOf s.registry address = some e) (hend : address + n ≤ e.endAddr + 1)
    (hk : k e.beginAddr s = familyOp e.beginAddr body s) (hfailed : setsError r.status = failed)
    (h : ∃ g, body s = .ok r ((t.withArea e.beginAddr (cellFlag cleared)).withWork g)) :
    runOp (do let a ← areaOwning address n; let r ← k a.beginAddr; pure (.flash r)) s =
      .next ((t.withArea e.beginAddr (fun a => a.flagged cleared failed)).conclude (.flash r)) := by
  subst hfailed
  obtain ⟨g, hfamily⟩ := Writes.run_family_flagged h
  exact runOp_ok_work ⟨g, (run_bind_ok (run_areaOwning howner hend)).trans (run_bind_ok (hk.trans hfamily))⟩

/-! ### AMD (R268) -/

/-- AMD.PROGRAM with no erase pending ends as the cell loop does, with the area's flags (R249, R268, R270). -/
theorem exec_amdProgram {s t : State} {e : MemoryArea} {d : AmdDescriptor} {address n : Nat} {r : FlashResult} {cleared failed : Bool}
    (hpart : s.partitioned = true) (howner : areaOf s.registry address = some e) (hamd : e.binding = .amd d) (hnone : d.pendingErase = .none)
    (hend : address + n ≤ e.endAddr + 1) (hfailed : setsError r.status = failed)
    (h : ∃ g, programCells d.chip.busWidth (amdProgramCell e.beginAddr d) address n s.dataByte s =
      .ok r ((t.withArea e.beginAddr (cellFlag cleared)).withWork g)) :
    exec (.amdProgram address n) s = .next ((t.withArea e.beginAddr (fun a => a.flagged cleared failed)).conclude (.flash r)) :=
  exec_program_flagged (k := fun b => amdProgramOp b address n s.dataByte) howner hend
    (Erases.run_amdOp (k := fun d => programCells d.chip.busWidth (amdProgramCell e.beginAddr d) address n s.dataByte) hpart howner hamd hnone) hfailed h

/-- Settles O51: AMD.PROGRAM is the cell loop on its area, and the cell loop runs as the cells say. -/
theorem amdProgramsItsCells : Obligations.AmdProgramsItsCells := by
  intro s e d address n cells w first evs ended hpart howner hamd hnone hpos hend hw hcells hcalls
  obtain ⟨toEnd, toBadStatus, toFailedAccess⟩ :=
    run_cellRuns (amd_followsCell s.params.flashPollBound e.beginAddr d) hw hpos rfl hcells hcalls
  have himplemented := cellRuns_implemented hcells (fun c want => implemented_amdCell d s.params.flashPollBound c want)
  refine ⟨fun rest hok hall hscript => ?_, fun before last hlast => ⟨fun rest hbad hscript => ?_, fun j f rest hj => ?_⟩⟩
  · exact exec_amdProgram hpart howner hamd hnone hend rfl (toEnd rest hok hall hscript)
  · exact exec_amdProgram hpart howner hamd hnone hend (setsError_bad hbad (himplemented last (by simp [hlast])))
      (toBadStatus before last rest hlast hbad hscript)
  · intro made hscript
    exact exec_amdProgram hpart howner hamd hnone hend rfl (toFailedAccess before last j f rest hlast hj hscript)

/-! ### INTEL (R316) -/

/-- INTEL.PROGRAM of some bytes ends as the chunk loop does, with the area's flags (R249, R316). -/
theorem exec_intelProgram {s t : State} {e : MemoryArea} {d : IntelDescriptor} {address n : Nat} {r : FlashResult} {cleared failed : Bool}
    (hpart : s.partitioned = true) (howner : areaOf s.registry address = some e) (hintel : e.binding = .intel d) (hpos : 0 < n)
    (hend : address + n ≤ e.endAddr + 1) (hfailed : setsError r.status = failed)
    (h : ∃ g, chunkLoop e.beginAddr d address n s.dataByte n 0 0 (address - address % d.chip.busWidth) [] s =
      .ok r ((t.withArea e.beginAddr (cellFlag cleared)).withWork g)) :
    exec (.intelProgram address n) s = .next ((t.withArea e.beginAddr (fun a => a.flagged cleared failed)).conclude (.flash r)) := by
  refine exec_program_flagged (k := fun b => intelProgramOp b address n s.dataByte) howner hend (familyOp_congr ?_) hfailed h
  rw [run_bind_ok (run_intelDescriptor hpart howner hintel), if_neg (by omega)]

/-- Settles O57: INTEL.PROGRAM is the chunk loop on its area, and the chunk loop runs as the chunks say. -/
theorem intelProgramsAChunk : Obligations.IntelProgramsAChunk := by
  intro s e d address n chunks w first evs ended hpart howner hintel hpos hend hw hchunks hcalls
  obtain ⟨toEnd, toBadStatus, toFailedAccess, toFailedClose⟩ := run_chunkRuns (b := e.beginAddr) hw hpos rfl hchunks hcalls
  have himplemented := chunkRuns_implemented chunks _ _ hchunks
  refine ⟨fun rest hok hall hscript => ?_, fun before last hlast => ⟨fun rest hbad hscript => ?_, fun j f rest hj => ?_,
    fun f rest hok hall hscript => ?_⟩⟩
  · exact exec_intelProgram hpart howner hintel hpos hend rfl (toEnd rest hok hall hscript)
  · exact exec_intelProgram hpart howner hintel hpos hend (setsError_bad hbad (himplemented last (by simp [hlast])))
      (toBadStatus before last rest hlast hbad hscript)
  · intro made hscript
    exact exec_intelProgram hpart howner hintel hpos hend rfl (toFailedAccess before last j f rest hlast hj hscript)
  · exact exec_intelProgram hpart howner hintel hpos hend rfl (toFailedClose before last f rest hlast hok hall hscript)

/-! ### Bytes that the cells already hold (R246) -/

/-- A cell that already holds what it should: its read, and no command (R246). -/
def skippedCell (v : BusWord) : CellRun := { cur := v, step := [], status := .ok }

theorem cellRunEvents_skipped (w c : Nat) (cells : List BusWord) : cellRunEvents w c (cells.map skippedCell) = cellReads w c cells := by
  induction cells generalizing c with
  | nil => rfl
  | cons v cells ih => rw [List.map_cons, cellRunEvents_cons, ih, cellReads_cons]; rfl

theorem anyChanged_skipped (cells : List BusWord) : anyChanged (cells.map skippedCell) = false := by
  simp [anyChanged, skippedCell]

/-- The cells of `n` bytes from `address` up already hold the payload (R246): they are as many as the payload touches, and each byte of it is there. -/
structure Held (w address n : Nat) (data : Nat → Byte) (cells : List BusWord) : Prop where
  length : cells.length = (address % w + n + (w - 1)) / w
  wide : ∀ v ∈ cells, v.length = w
  bytes : ∀ k, k < n → ∀ v, cells[(address + k - (address - address % w)) / w]? = some v →
    v[(address + k - (address - address % w)) % w]? = some (data k)

section

variable {w address n : Nat} {data : Nat → Byte} {cells : List BusWord}

/-- A cell that holds its bytes of the payload should hold what it holds (R244). -/
theorem Held.wantedAt_eq (h : Held w address n data cells) {i : Nat} {v : BusWord} (hv : cells[i]? = some v) :
    wantedAt w address n data (address - address % w + i * w) v = v := by
  have hle : address % w ≤ address := Nat.mod_le _ _
  refine List.ext_getElem (wantedAt_length ..) (fun j hj hj' => ?_)
  simp only [wantedAt, List.getElem_mapIdx]
  split
  next hin =>
    obtain ⟨hlo, hhi, hjw⟩ := hin
    have hoffset : address + (address - address % w + i * w + j - address) - (address - address % w) = j + i * w := by omega
    have hbyte := h.bytes (address - address % w + i * w + j - address) (by omega) v
    rw [hoffset, Nat.add_mul_div_right _ _ (by omega), Nat.add_mul_mod_self_right, Nat.div_eq_of_lt hjw, Nat.mod_eq_of_lt hjw, Nat.zero_add] at hbyte
    have hget := hbyte hv
    rw [List.getElem?_eq_getElem hj', Option.some.injEq] at hget
    exact hget.symm
  next => rfl

/-- Every cell of a payload that is held begins before its end, and the last reaches it (R154). -/
theorem Held.reach (h : Held w address n data cells) (hw : 0 < w) :
    (∀ i < cells.length, address - address % w + i * w < address + n) ∧ address + n ≤ address - address % w + cells.length * w := by
  have hle : address % w ≤ address := Nat.mod_le _ _
  have hmod := Nat.mod_lt (address % w + n + (w - 1)) hw
  have hdiv := Nat.div_add_mod' (address % w + n + (w - 1)) w
  rw [← h.length] at hdiv
  refine ⟨fun i hi => ?_, by omega⟩
  have hgrow : (i + 1) * w ≤ cells.length * w := Nat.mul_le_mul_right w hi
  rw [Nat.add_mul] at hgrow
  omega

theorem Held.cellRuns_skipped (h : Held w address n data cells) (hw : 0 < w) (change : Nat → BusWord → Conduct) :
    cellRuns w address n data change (cells.map skippedCell) := by
  intro i r hr
  rw [List.getElem?_map, Option.map_eq_some_iff] at hr
  obtain ⟨v, hv, rfl⟩ := hr
  refine ⟨h.wide v (List.mem_of_getElem? hv), (h.reach hw).1 i (List.getElem?_eq_some_iff.mp hv).1, fun _ => rfl, ?_⟩
  rw [if_pos (show wantedAt w address n data _ (skippedCell v).cur = (skippedCell v).cur from h.wantedAt_eq hv)]
  exact ⟨rfl, rfl⟩

/-- The cell loop on a payload that is held reads each cell and ends with the whole count, whatever the family's cell step (R246). -/
theorem Held.run_programCells (h : Held w address n data cells) (hw : 0 < w) (hn : 0 < n) {bound b k : Nat}
    {pc : Nat → BusWord → Op FlashStatus} {change : Nat → BusWord → Conduct} (step : FollowsCell bound w b k pc change) {s : State}
    (hb : s.params.flashPollBound = bound) (hcalls : callsAllowed (cellReads w (address - address % w) cells) = true) {rest : List MemReply}
    (hscript : s.memScript = answersOf (cellReads w (address - address % w) cells) ++ rest) :
    ∃ g, programCells w pc address n data s = .ok { count := n, status := .ok }
      (((s.performed (cellReads w (address - address % w) cells)).withArea b (cellFlag false)).withWork g) := by
  rw [← cellRunEvents_skipped] at hcalls hscript ⊢
  obtain ⟨toEnd, -⟩ := run_cellRuns step hw hn hb (h.cellRuns_skipped hw change) hcalls
  rw [anyChanged_skipped] at toEnd
  exact toEnd rest (by simp [skippedCell]) (by simpa using (h.reach hw).2) hscript

end

theorem setsError_ok : setsError .ok = false := rfl

theorem withArea_unflagged (s : State) (b : Nat) : s.withArea b (fun a => a.flagged false false) = s := by
  have hsame : (fun a : MemoryArea => a.flagged false false) = fun a => a := by
    funext a
    simp [MemoryArea.flagged]
  rw [hsame, withArea_id]

/-- Settles O59: every cell of the loop is skipped. -/
theorem programIsIdempotent : Obligations.ProgramIsIdempotent := by
  intro s e address n w cells rest c evs t hpart howner hend hpos hw hlen hwide hbytes hcalls hscript
  have hheld : Held w address n s.dataByte cells := ⟨hlen, hwide, hbytes⟩
  refine ⟨fun d hamd hwidth hnone => ?_, fun d hcfm hwidth => ?_⟩
  · subst hwidth
    have hrun := exec_amdProgram hpart howner hamd hnone hend rfl
      (hheld.run_programCells hw hpos (amd_followsCell _ e.beginAddr d) rfl hcalls hscript)
    simp only [setsError_ok, withArea_unflagged] at hrun
    exact hrun
  · subst hwidth
    have hrun := Writes.exec_cfmProgram hpart howner hcfm hend
      (hheld.run_programCells hw hpos (cfm_followsCell _ e.beginAddr d) rfl hcalls hscript)
    simp only [setsError_ok, withArea_unflagged] at hrun
    exact hrun

end Sys2Proof.Programs

/-! What block reset leaves (R36, R46, R381): nothing owned or open, the one area of the registry, and an empty record of what was done. -/

namespace Sys2Proof.Reset

open Sys2Proof Sys2Proof.Machine Sys2Proof.Laws

/-- The area of block reset ends at the top of the 32-bit space (R36). -/
theorem wholeSpaceRam_endAddr : wholeSpaceRam.endAddr = 2 ^ 32 - 1 := by
  simp [wholeSpaceRam, addrSpace, addrBits]

/-- An empty record of stores holds no byte of any address (R66). -/
theorem storedByte_of_memory_nil {s : State} (hempty : s.memory = []) (a : Nat) : s.storedByte a = none := by
  rw [State.storedByte, hempty, memory_read_nil]

/-- Settles O7: the fields of the reset state stand as given; its one area ends at the top of the space, and its record of stores is empty. -/
theorem resetState : Obligations.ResetState := by
  have hregistry : State.reset.registry = [{ wholeSpaceRam with endAddr := 2 ^ 32 - 1 }] := by
    rw [← wholeSpaceRam_endAddr]
    rfl
  exact ⟨rfl, rfl, hregistry, rfl, rfl, storedByte_of_memory_nil rfl⟩

end Sys2Proof.Reset
